-- ==== Sys2Proof/Config.lean ====
section
/-! DEFINITION. What the manual leaves open, as a constant without a body. -/

namespace Sys2Proof

/-- FREE VALUE (log entry 3). Where several blocks are handed one thing at one instant and the
manual says that the outcome depends on which of them acts first, or says that they need no order
while their outcomes can differ (R112, R169, R171, R108 with R122), the `n`-th such choice of a run
takes the order with number `Config.orderTaken n` (taken modulo the number of possible orders).
Nothing in Lean can evaluate it, so a statement holds whatever the order is. -/
opaque Config.orderTaken (n : Nat) : Nat

/-- FREE VALUE (log entry 22). The byte that the start delimiter of a copy is (R20). The manual gives it no
value. -/
opaque Config.startDelimiter : BitVec 8

end Sys2Proof
end

