-- ==== Sys2Proof/Word.lean ====
section
/-! DEFINITION. The words of the station: frame bytes and readings of the tick counter. -/

namespace Sys2Proof

/-- A byte of a frame on the group line (R172). -/
abbrev Byte := BitVec 8

/-- A reading of the free-running 32-bit tick counter (Conventions, Time). -/
abbrev Instant := BitVec 32

end Sys2Proof
end

