-- ==== Sys2Proof/Syntax.lean ====
section
/-! DEFINITION. The commands and events of the station: one constructor of `Instr` per row of
spec/opcode_table.json, with the operands the rules of the spec give the row. -/

namespace Sys2Proof

/-- The two lines of the group line (R19). -/
inductive Line where
  | a | b
  deriving DecidableEq, Repr

/-- The four wired alarm lines (chapter 9, R151). -/
inductive AlarmName where
  | tripRequest | redundancyLow | commutationFailure | prfRate
  deriving DecidableEq, Repr

/-- The group size strap (R177): open for 6, closed for 12. -/
inductive GroupSize where
  | six | twelve
  deriving DecidableEq, Repr

/-- The nominal frequency strap (R177): open for 50 Hz, closed for 60 Hz. -/
inductive Frequency where
  | hz50 | hz60
  deriving DecidableEq, Repr

/-- The strap inputs as they stand on the wires (R177): the four position wires as a binary value 0 to
15, and whether the group size strap and the frequency strap are closed. -/
structure StrapWires where
  position        : BitVec 4
  sizeClosed      : Bool
  frequencyClosed : Bool
  deriving DecidableEq, Repr

/-- The two supply feeds (R177): which of them have supply. -/
structure Feeds where
  first  : Bool
  second : Bool
  deriving DecidableEq, Repr

/-- What SUPPLY_LOSS finds on the supply and strap wires (R177, R178): the feeds that then have supply, and the
straps that a power-on reset by a returning feed samples. -/
structure SupplyInputs where
  feeds : Feeds
  wires : StrapWires
  deriving DecidableEq, Repr

/-- What the receiver of a line shows of carrier (R19, R35): for how many ticks it has seen carrier, and
whether a copy is in reception at this instant. -/
structure CarrierView where
  ticks       : Nat
  inReception : Bool
  deriving DecidableEq, Repr

/-- The three strap values as the station samples them (section 1.2, R1). -/
structure Straps where
  position  : BitVec 4
  groupSize : GroupSize
  frequency : Frequency
  deriving DecidableEq, Repr

/-- What the Group Line Interface knows of a good copy at its completion: the line it came in on,
its arrival instant (R20) and the header fields sender and sequence (R172). The completion instant
is the instant of the command that carries the copy. -/
structure RxCopy where
  line    : Line
  arrival : Instant
  sender  : Byte
  seq     : Byte
  deriving DecidableEq, Repr

/-- The seven flags of a MARK in the bit order of R173. -/
structure MarkFlags where
  commutationFail : Bool
  protectiveFire  : Bool
  syncLost        : Bool
  orderStale      : Bool
  clash           : Bool
  tripCondition   : Bool
  groupLost       : Bool
  deriving DecidableEq, Repr

/-- The fields of a MARK frame after its header as the line carries them (R173): codes and angles
are raw, since R42 judges them on reception. -/
structure MarkFields where
  fired    : BitVec 4
  lag      : BitVec 12
  source   : BitVec 4
  station  : BitVec 4
  flags    : MarkFlags
  healthA  : BitVec 2
  healthB  : BitVec 2
  consumed : Byte
  alpha    : BitVec 16
  gamma    : BitVec 16
  mu       : BitVec 16
  orderSeq : Option Byte
  deriving DecidableEq, Repr

/-- The fields of an EVENT frame after its header (R174). -/
structure EventFields where
  lag     : BitVec 12
  kind    : Byte
  subkind : Byte
  deriving DecidableEq, Repr

/-- The six fields of an ORDER frame after its header (R173), as carried. -/
structure OrderFields where
  orderSeq   : Byte
  mode       : Byte
  blockState : Byte
  bypass     : Byte
  alphaOrder : BitVec 16
  gammaOrder : BitVec 16
  deriving DecidableEq, Repr

/-- The target and tag that every COMMAND frame carries after its header (R174). -/
structure CmdHead where
  target : Byte
  tag    : Byte
  deriving DecidableEq, Repr

/-- The 27 arguments of a SETUP command in index order (section 1.3, R174), as carried. -/
structure SetupFields where
  levels          : Byte
  redundancy      : Byte
  qf              : Byte
  qr              : Byte
  qpf             : Byte
  alphaMin        : BitVec 16
  alphaMaxR       : BitVec 16
  alphaMaxI       : BitVec 16
  gammaCrit       : BitVec 16
  acf             : BitVec 16
  ncf             : Byte
  gammaDeadband   : BitVec 16
  latticeDeadband : Byte
  linkLatency     : Byte
  refire          : Byte
  ackWindow       : Byte
  prfGather       : Byte
  window          : Byte
  prfLimit        : Byte
  tripAssert      : Byte
  tripRelease     : Byte
  redAssert       : Byte
  redRelease      : Byte
  cfAssert        : Byte
  cfRelease       : Byte
  prfAssert       : Byte
  prfRelease      : Byte
  deriving DecidableEq, Repr

/-- The commands and events of the station. Every one carries the instant `t`, a reading of the
station's tick counter, at which it is taken: time passes to `t` and the command then acts (log
entry 1). What a wire or a receiver shows at `t` (how long a level has held, how long a line has been
dark or lit, whether a copy is in reception, which feeds have supply) is an operand of the command
(log entry 4). -/
inductive Instr where
  -- supply, straps and the block line
  | powerOnReset (t : Instant) (wires : StrapWires)
  | supplyLoss (t : Instant) (inputs : SupplyInputs)
  | blockLineAsserted (t : Instant) (held : Nat)
  | blockLineReleased (t : Instant) (held : Nat)
  -- COMMAND frames from the pole control station
  | setup (t : Instant) (rx : RxCopy) (head : CmdHead) (fields : SetupFields)
  | survey (t : Instant) (rx : RxCopy) (head : CmdHead) (first last : Byte)
  | readLevels (t : Instant) (rx : RxCopy) (head : CmdHead) (first count : Byte)
  | readRoll (t : Instant) (rx : RxCopy) (head : CmdHead)
  | readHolds (t : Instant) (rx : RxCopy) (head : CmdHead)
  | clearLevelOne (t : Instant) (rx : RxCopy) (head : CmdHead) (n : Byte)
  | clearLevelAll (t : Instant) (rx : RxCopy) (head : CmdHead)
  | clearHolds (t : Instant) (rx : RxCopy) (head : CmdHead)
  | forceOutputs (t : Instant) (rx : RxCopy) (head : CmdHead) (lines : Byte)
  | releaseOutputs (t : Instant) (rx : RxCopy) (head : CmdHead) (lines : Byte)
  | restart (t : Instant) (rx : RxCopy) (head : CmdHead)
  | unknownCommand (t : Instant) (rx : RxCopy) (head : CmdHead) (code : Byte)
  -- other frames
  | markFrame (t : Instant) (rx : RxCopy) (m : MarkFields)
  | eventFrame (t : Instant) (rx : RxCopy) (e : EventFields)
  | orderFrame (t : Instant) (rx : RxCopy) (o : OrderFields)
  | resultFrame (t : Instant) (rx : RxCopy)
  | badCopy (t : Instant) (line : Line) (bytes : List Byte) (cutShort : Bool)
  -- the group line
  | transmissionStart (t : Instant) (line : Line) (dark : Nat)
  | transmissionComplete (t : Instant) (line : Line)
  | lagLimitRemoval (t : Instant) (line : Line)
  | echoMiss (t : Instant) (line : Line)
  | filterEntryExpiry (t : Instant) (sender seq : Byte)
  | litEntry (t : Instant) (line : Line) (carrier : CarrierView)
  | litEnd (t : Instant) (line : Line)
  | silenceTimerExpiry (t : Instant) (line : Line)
  -- level indications
  | fwdIndication (t : Instant) (level : Nat)
  | revIndication (t : Instant) (level : Nat)
  | prfIndication (t : Instant) (level : Nat)
  | ackIndication (t : Instant) (level : Nat)
  -- instants and timers that fall due
  | inactivityExpiry (t : Instant)
  | noExtinctionExpiry (t : Instant)
  | markEvent (t : Instant)
  | endStop (t : Instant)
  | deferralLoReached (t : Instant)
  | deferralLimit (t : Instant)
  | refireExpiry (t : Instant)
  | bypassTrainExpiry (t : Instant)
  | ackWindowExpiry (t : Instant)
  | prfGatherExpiry (t : Instant)
  | surveyTestPulse (t : Instant)
  | darkTimerExpiry (t : Instant)
  | orderStale (t : Instant)
  | forcedBlock (t : Instant)
  | alarmAssertExpiry (t : Instant) (line : AlarmName)
  | alarmReleaseExpiry (t : Instant) (line : AlarmName)
  | commandOtherTarget (t : Instant) (rx : RxCopy) (head : CmdHead)
  deriving DecidableEq, Repr

end Sys2Proof
end

