-- ==== Sys2Proof/Machine/State.lean ====
section
/-! DEFINITION. The station's state, block by block as the functional overview lists the blocks
(00_scope.md), its power-on values, and the reasons a step can stop. -/

namespace Sys2Proof.Machine

/-! ### Names that the rules of several chapters share -/

/-- The six station states (section 1.1). -/
inductive StationState where
  | unset | listening | synced | running | bypassing | tripped
  deriving DecidableEq, Repr

/-- The five valve cycle states (section 4.2). -/
inductive ValveState where
  | dark | forward | reverse | conducting | recovering
  deriving DecidableEq, Repr

/-- How a valve was fired at a mark (R40, R105). -/
inductive Fired where
  | no | main | deferred | endStop | bypass | protective | forced
  deriving DecidableEq, Repr

/-- How a mark was placed (R40, R95); `localVoltage` is the manual's LOCAL. -/
inductive Source where
  | group | flywheel | localVoltage
  deriving DecidableEq, Repr

/-- The health states of a line (R37). -/
inductive Health where
  | good | degraded | dead | lit
  deriving DecidableEq, Repr

/-- The event kinds with their subkinds (R40, R174). -/
inductive EventKind where
  | recoveryShort | noExtinction | protectiveFire
  deriving DecidableEq, Repr

/-- The mode of an order (chapter 8). -/
inductive Mode where
  | rectifier | inverter
  deriving DecidableEq, Repr

/-- The block state of an order (chapter 8). -/
inductive BlockState where
  | block | deblock | bypass
  deriving DecidableEq, Repr

/-- The scales of a time setting: 1, 10, 100 and 1,000 ticks (R175). -/
inductive Scale where
  | us1 | us10 | us100 | ms1
  deriving DecidableEq, Repr

/-- A time setting: a scale and a factor from 0 to 15 (Conventions, R175). -/
structure TimeSetting where
  scale  : Scale
  factor : Nat
  deriving DecidableEq, Repr

/-- What a mark reports: the fields of a MARK frame but for its header and lag (R111, R173). An
absent angle or order sequence is `none`. -/
structure MarkReport where
  fired    : Fired
  source   : Source
  station  : StationState
  flags    : MarkFlags
  healthA  : Health
  healthB  : Health
  consumed : Nat
  alpha    : Option Nat
  gamma    : Option Nat
  mu       : Option Nat
  orderSeq : Option Byte
  deriving DecidableEq, Repr

/-! ### Station Control -/

/-- The SETUP record (section 1.3): angles in cdeg, link latency in ticks. -/
structure Setup where
  levels          : Nat
  redundancy      : Nat
  qf              : Nat
  qr              : Nat
  qpf             : Nat
  alphaMin        : Nat
  alphaMaxR       : Nat
  alphaMaxI       : Nat
  gammaCrit       : Nat
  acf             : Nat
  ncf             : Nat
  gammaDeadband   : Nat
  latticeDeadband : Nat
  linkLatency     : Nat
  refire          : TimeSetting
  ackWindow       : TimeSetting
  prfGather       : TimeSetting
  window          : Nat
  prfLimit        : Nat
  tripAssert      : TimeSetting
  tripRelease     : TimeSetting
  redAssert       : TimeSetting
  redRelease      : TimeSetting
  cfAssert        : TimeSetting
  cfRelease       : TimeSetting
  prfAssert       : TimeSetting
  prfRelease      : TimeSetting
  deriving DecidableEq, Repr

/-- Station Control (R1, R18). `darkTimer` holds the count of `State.clock` at which the DARK timer
was started, and `none` while it is stopped (R9). -/
structure Stc where
  state         : StationState
  straps        : Straps
  strapError    : Bool
  setup         : Option Setup
  syncCount     : Nat
  badRun        : Nat
  goodRun       : Nat
  syncLost      : Bool
  clashLatch    : Bool
  clashSeen     : Bool
  darkTimer     : Option Nat
  clashCount    : Nat
  syncLossCount : Nat
  tripCount     : Nat
  deriving DecidableEq, Repr

/-! ### Group Line Interface -/

/-- The completion class of a RESULT (R161). -/
inductive Completion where
  | done | failed | refused | aborted
  deriving DecidableEq, Repr

/-- The detail of a RESULT (R161). -/
inductive Detail where
  | none | noVoltage | strap | unknown | busy | state | argument | field
  deriving DecidableEq, Repr

/-- The contents of a RESULT frame after its header (R161, R174). -/
structure ResultBody where
  tag        : Byte
  code       : Byte
  completion : Completion
  detail     : Detail
  data       : List Byte
  deriving DecidableEq, Repr

/-- The three kinds of frame a station produces (section 2.2). -/
inductive TxBody where
  | mark (report : MarkReport)
  | event (kind : EventKind)
  | result (body : ResultBody)
  deriving DecidableEq, Repr

/-- A copy of a produced frame (R22). `ref` is the reference instant of a MARK or EVENT as a count
of `State.clock`; a RESULT has none. -/
structure TxCopy where
  sender : Byte
  seq    : Byte
  ref    : Option Nat
  body   : TxBody
  deriving DecidableEq, Repr

/-- A copy in transmission (R24): the copy, the count of `State.clock` at its transmission start,
and the bytes on the line from the kind to the check sequence, its lag stamped in them. -/
structure Sending where
  copy  : TxCopy
  start : Nat
  bytes : List Byte
  deriving DecidableEq, Repr

/-- An echo-pending record that is PENDING (R28). -/
structure EchoPending where
  seq       : Byte
  completed : Nat
  deriving DecidableEq, Repr

/-- What the Group Line Interface holds for one line (chapter 2, R38, R39). `litFrom` is the LIT
measurement, held as the count of `State.clock` at which it last started again from zero (R35).
`lightEnd` is the count at which light that the station knows of last ended on the line, its own copy or a
received one, and `none` while it knows of none (R19). `silence` is the count at which the silence timer
was last started, `none` while it is stopped or has expired. -/
structure LineState where
  queue          : List TxCopy
  sending        : Option Sending
  echo           : Option EchoPending
  errorScore     : Nat
  lit            : Bool
  litFrom        : Nat
  lightEnd       : Option Nat
  silence        : Option Nat
  dead           : Bool
  sentCount      : Nat
  dropCount      : Nat
  acceptedCount  : Nat
  badCount       : Nat
  foreignCount   : Nat
  duplicateCount : Nat
  echoCount      : Nat
  echoMissCount  : Nat
  deriving DecidableEq, Repr

/-- An instant held in the filter table (R30): the key is sender × 256 + sequence, and `written` the
count of `State.clock` at which the copy was accepted. A pair that no entry names holds nothing. -/
structure FilterEntry where
  key     : Nat
  written : Nat
  deriving DecidableEq, Repr

/-! ### Peer Roll -/

/-- The part of a roll entry that is absent while the entry is EMPTY (R40). -/
structure RollReport where
  markInstant   : Instant
  acceptInstant : Instant
  seq           : Byte
  report        : MarkReport
  deriving DecidableEq, Repr

/-- A roll entry (R40): EMPTY when `held` is `none`, and HELD otherwise. -/
structure RollEntry where
  held      : Option RollReport
  missed    : Nat
  lastEvent : Option EventKind
  deriving DecidableEq, Repr

/-- The last-arrival record when it is not empty (R50). -/
structure LastArrival where
  position : Nat
  instant  : Instant
  deriving DecidableEq, Repr

/-- The Peer Roll (R58). The own last mark instant is the mark instant of the own entry. -/
structure Prl where
  roll        : List RollEntry
  tEst        : Nat
  lastArrival : Option LastArrival
  localRun    : Nat
  marksRefused : Nat
  outliers    : Nat
  deriving DecidableEq, Repr

/-! ### Valve Cycle Monitor -/

/-- A measured angle in cdeg with its measurement instant (R65, R70). -/
structure Measured where
  angle   : Nat
  instant : Instant
  deriving DecidableEq, Repr

/-- The Valve Cycle Monitor (R77). Sets of level indices are rising lists without repeats. The
inactivity and no-extinction timers hold the count of `State.clock` at which they were started. -/
structure Vcm where
  valve          : ValveState
  fwdSet         : List Nat
  revSet         : List Nat
  roster         : List Nat
  vf             : Option Instant
  f              : Option Instant
  e              : Option Instant
  fwdInterval    : Option Nat
  gamma          : Option Measured
  mu             : Option Measured
  muHold         : Nat
  inactivity     : Option Nat
  noExtinction   : Option Nat
  spent          : Bool
  pulseInDark    : Bool
  failureInCycle : Bool
  shortCount     : Nat
  noExtCount     : Nat
  deriving DecidableEq, Repr

/-! ### Level Table -/

/-- The states of a level record (R79, R80). -/
inductive LevelState where
  | normal | suspect | silent | nofire
  deriving DecidableEq, Repr

/-- The result of a survey step (R125). -/
inductive SurveyResult where
  | ok | noAck | cross
  deriving DecidableEq, Repr

/-- A level record (R79). -/
structure LevelRecord where
  state      : LevelState
  fwdMiss    : Nat
  ackMiss    : Nat
  prfCount   : Nat
  seen       : Bool
  lastSurvey : Option SurveyResult
  deriving DecidableEq, Repr

/-- The Level Table (R93): record `n` is the `n`-th of `levels`, counted from 1. -/
structure Lvt where
  levels        : List LevelRecord
  silentCount   : Nat
  consumed      : Nat
  qfEff         : Nat
  qrEff         : Nat
  redundancyLow : Bool
  tripCondition : Bool
  deriving DecidableEq, Repr

/-! ### Firing Instant Computer -/

/-- How an armed mark was found, with the fields that only source GROUP has (R95): the distance,
the reference instant, the reference alpha and the raw error. -/
inductive Placing where
  | group (d : Nat) (refInstant : Instant) (refAlpha : Option Nat) (rawError : Int)
  | flywheel
  | localVoltage
  deriving DecidableEq, Repr

/-- An ARMED record (R95), and with the same fields a waiting deferral (R108): the instant M, the
target angle alpha_t in cdeg and the placing. -/
structure ArmedMark where
  m       : Instant
  alphaT  : Int
  placing : Placing
  deriving DecidableEq, Repr

/-- The conduction cause (R105). -/
inductive Cause where
  | protective | pulse
  deriving DecidableEq, Repr

/-- The Firing Instant Computer (R117). alpha_t stands in the armed mark it belongs to. -/
structure Fic where
  armed         : Option ArmedMark
  alphaLast     : Option Int
  deferral      : Option ArmedMark
  cause         : Option Cause
  advanceCount  : Nat
  seqCounter    : Byte
  lateCount     : Nat
  endStopCount  : Nat
  forcedCount   : Nat
  deriving DecidableEq, Repr

/-! ### Pulse Stage -/

/-- The train record (section 7.1): a running train carries the count of `State.clock` at which its
interval timer expires. -/
inductive Train where
  | stopped
  | refire (expiry : Nat)
  | bypass (expiry : Nat)
  deriving DecidableEq, Repr

/-- The kinds of ACK window (R123); a survey window names the tested level. -/
inductive WindowKind where
  | main | pvf
  | survey (level : Nat)
  deriving DecidableEq, Repr

/-- An OPEN ACK window record (R123). -/
structure AckWindow where
  kind    : WindowKind
  targets : List Nat
  acked   : List Nat
  expiry  : Nat
  deriving DecidableEq, Repr

/-- A GATHERING PRF gather record (R126). -/
structure PrfGather where
  set    : List Nat
  expiry : Nat
  deriving DecidableEq, Repr

/-- A SCHEDULED survey test record (R131). -/
structure SurveyTest where
  level : Nat
  vf    : Instant
  deriving DecidableEq, Repr

/-- The Pulse Stage (R133). -/
structure Pst where
  train      : Train
  window     : Option AckWindow
  gather     : Option PrfGather
  surveyTest : Option SurveyTest
  pvfSeen    : Bool
  pvfCount   : Nat
  strayAck   : Nat
  deriving DecidableEq, Repr

/-- The kinds of firing pulse that leave on the level fibres (chapter 7). -/
inductive PulseKind where
  | main | refire | bypass | pvf | survey
  deriving DecidableEq, Repr

/-- A pulse on the level firing fibres: its kind, its instant and the fibres driven (R177). -/
structure Pulse where
  kind    : PulseKind
  instant : Instant
  fibres  : List Nat
  deriving DecidableEq, Repr

/-! ### Order Holder -/

/-- An order as carried (chapter 8): the sequence and the bypass position are absent in the default
order (R144). -/
structure Order where
  seq        : Option Byte
  mode       : Mode
  blockState : BlockState
  bypass     : Option Byte
  alphaOrder : Nat
  gammaOrder : Nat
  deriving DecidableEq, Repr

/-- The Order Holder (R144). `pendingForced` says that the pending order is the forced copy of
R142; `stale` is the ORDER STALE flag of R141. -/
structure Orh where
  current       : Order
  pending       : Option Order
  pendingForced : Bool
  age           : Nat
  stale         : Bool
  accepted      : Nat
  refused       : Nat
  losses        : Nat
  deriving DecidableEq, Repr

/-! ### Protection Monitor -/

/-- The timer of an alarm line (R152), with the count of `State.clock` at which it expires. -/
inductive AlarmTimer where
  | idle
  | asserting (expiry : Nat)
  | releasing (expiry : Nat)
  deriving DecidableEq, Repr

/-- The override of an alarm line (R152). -/
inductive Override where
  | none | forcedOn | forcedOff
  deriving DecidableEq, Repr

/-- An alarm line record (R152). -/
structure AlarmLine where
  condition : Bool
  logic     : Bool
  timer     : AlarmTimer
  override  : Override
  deriving DecidableEq, Repr

/-- The Protection Monitor (R157). The ring is ordered from oldest to newest. -/
structure Pmn where
  cyclePrf           : List Nat
  ring               : List Nat
  peakHold           : Nat
  gammaMin           : Option Nat
  cfHold             : Bool
  tripRequest        : AlarmLine
  redundancyLow      : AlarmLine
  commutationFailure : AlarmLine
  prfRate            : AlarmLine
  deriving DecidableEq, Repr

/-! ### Command Unit -/

/-- The executing command record with the survey progress (R160). -/
structure SurveyRecord where
  tag         : Byte
  code        : Byte
  first       : Nat
  last        : Nat
  next        : Nat
  marks       : Nat
  countOk     : Nat
  countFailed : Nat
  failures    : List Nat
  deriving DecidableEq, Repr

/-- The Command Unit (R160): IDLE when `executing` is `none`. -/
structure Cmu where
  executing : Option SurveyRecord
  deriving DecidableEq, Repr

/-! ### The whole station -/

/-- The state of one station.

`clock` counts the ticks the station has seen; the 32-bit tick counter of the manual is its value
modulo 2^32 (log entry 1). `feeds` are the two supply feeds (R177).
`blockAsserted` is the recognised level of the block line (R178). `firing` lists the pulses that the
latest command drove onto the firing fibres, in order. `choices` counts the free choices of order
taken so far (log entry 3). `filter` is the duplicate filter shared by both lines (R30), sorted by
key. `pending` is the queue of commands that wait, first in, first out. -/
structure State where
  clock         : Nat
  feeds         : Feeds
  blockAsserted : Bool
  firing        : List Pulse
  choices       : Nat
  stc           : Stc
  lineA         : LineState
  lineB         : LineState
  filter        : List FilterEntry
  prl           : Prl
  vcm           : Vcm
  lvt           : Lvt
  fic           : Fic
  pst           : Pst
  orh           : Orh
  pmn           : Pmn
  cmu           : Cmu
  pending       : List Instr
  deriving DecidableEq, Repr

/-- Reasons for a fault. There is none: no rule of the spec stops the station (log entry 2). -/
inductive Fault where
  deriving DecidableEq, Repr

/-- Reasons for a refusal. -/
inductive Refusal where
  /-- Raised by `exec` for a command that has no meaning yet; safe. No command is left so. -/
  | notModelled (mnemonic : String)
  deriving DecidableEq, Repr

/-! ### Power-on values -/

/-- G, the number of positions (R1, R177). -/
def groupCount : GroupSize → Nat
  | .six => 6
  | .twelve => 12

/-- The nominal T_est of a frequency strap (section 1.2, R53). -/
def nominalPeriod : Frequency → Nat
  | .hz50 => 20000
  | .hz60 => 16667

/-- The position check of R1: 0, above 12, or above G sets STRAP ERROR. -/
def strapErrorOf (p : Straps) : Bool :=
  p.position.toNat == 0 || decide (12 < p.position.toNat)
    || decide (groupCount p.groupSize < p.position.toNat)

/-- STC's records after power-on reset (R1). -/
def Stc.powerOn (p : Straps) : Stc where
  state := .unset
  straps := p
  strapError := strapErrorOf p
  setup := none
  syncCount := 0
  badRun := 0
  goodRun := 0
  syncLost := false
  clashLatch := false
  clashSeen := false
  darkTimer := none
  clashCount := 0
  syncLossCount := 0
  tripCount := 0

/-- A line after power-on reset (R39), its silence timer and its LIT measurement started at `clock`. -/
def LineState.powerOn (clock : Nat) : LineState where
  queue := []
  sending := none
  echo := none
  errorScore := 0
  lit := false
  litFrom := clock
  lightEnd := none
  silence := some clock
  dead := false
  sentCount := 0
  dropCount := 0
  acceptedCount := 0
  badCount := 0
  foreignCount := 0
  duplicateCount := 0
  echoCount := 0
  echoMissCount := 0

/-- An EMPTY roll entry (R40). -/
def RollEntry.empty : RollEntry where
  held := none
  missed := 0
  lastEvent := none

/-- The Peer Roll after power-on reset (R58). -/
def Prl.powerOn (p : Straps) : Prl where
  roll := List.replicate (groupCount p.groupSize) RollEntry.empty
  tEst := nominalPeriod p.frequency
  lastArrival := none
  localRun := 0
  marksRefused := 0
  outliers := 0

/-- The Valve Cycle Monitor after power-on reset (R77). -/
def Vcm.powerOn : Vcm where
  valve := .dark
  fwdSet := []
  revSet := []
  roster := []
  vf := none
  f := none
  e := none
  fwdInterval := none
  gamma := none
  mu := none
  muHold := 2000
  inactivity := none
  noExtinction := none
  spent := false
  pulseInDark := false
  failureInCycle := false
  shortCount := 0
  noExtCount := 0

/-- The Level Table in UNSET: no records, and no quorums supplied (R79, R93; log entry 6 for the
value that stands in the quorum fields while none is supplied). -/
def Lvt.powerOn : Lvt where
  levels := []
  silentCount := 0
  consumed := 0
  qfEff := 0
  qrEff := 0
  redundancyLow := false
  tripCondition := false

/-- The Firing Instant Computer after power-on reset (R117). -/
def Fic.powerOn : Fic where
  armed := none
  alphaLast := none
  deferral := none
  cause := none
  advanceCount := 0
  seqCounter := 0
  lateCount := 0
  endStopCount := 0
  forcedCount := 0

/-- The Pulse Stage after power-on reset (R133). -/
def Pst.powerOn : Pst where
  train := .stopped
  window := none
  gather := none
  surveyTest := none
  pvfSeen := false
  pvfCount := 0
  strayAck := 0

/-- The default order (R144). -/
def Order.default : Order where
  seq := none
  mode := .rectifier
  blockState := .block
  bypass := none
  alphaOrder := 9000
  gammaOrder := 1800

/-- The Order Holder after power-on reset (R144). -/
def Orh.powerOn : Orh where
  current := Order.default
  pending := none
  pendingForced := false
  age := 0
  stale := false
  accepted := 0
  refused := 0
  losses := 0

/-- An alarm line record after power-on reset (R157). -/
def AlarmLine.powerOn : AlarmLine where
  condition := false
  logic := false
  timer := .idle
  override := .none

/-- The Protection Monitor after power-on reset; the ring holds its W counts from the adoption of a
SETUP, which gives W (R147, R157). -/
def Pmn.powerOn : Pmn where
  cyclePrf := []
  ring := []
  peakHold := 0
  gammaMin := none
  cfHold := false
  tripRequest := AlarmLine.powerOn
  redundancyLow := AlarmLine.powerOn
  commutationFailure := AlarmLine.powerOn
  prfRate := AlarmLine.powerOn

/-- The station right after a power-on reset with the straps `p` sampled, on the feeds that have supply
(R1, R178: the block line is taken as asserted). The tick counter runs free, so the reset leaves `clock` as
it stands. -/
def State.powerOn (p : Straps) (feeds : Feeds) (clock choices : Nat) (pending : List Instr) : State where
  clock := clock
  feeds := feeds
  blockAsserted := true
  firing := []
  choices := choices
  stc := Stc.powerOn p
  lineA := LineState.powerOn clock
  lineB := LineState.powerOn clock
  filter := []
  prl := Prl.powerOn p
  vcm := Vcm.powerOn
  lvt := Lvt.powerOn
  fic := Fic.powerOn
  pst := Pst.powerOn
  orh := Orh.powerOn
  pmn := Pmn.powerOn
  cmu := { executing := none }
  pending := pending

/-- The straps of `State.reset`: position 1 of a group of twelve at 50 Hz (DESIGN CHOICE, log entry
5: the straps are inputs, and the manual gives them no value). -/
def Straps.atReset : Straps where
  position := 1
  groupSize := .twelve
  frequency := .hz50

/-- Both feeds have supply. -/
def Feeds.both : Feeds where
  first := true
  second := true

/-- The machine right after reset: the power-on reset of R1 on both feeds with the straps of log entry 5,
the tick counter at 0 (log entry 1) and no command waiting. -/
def State.reset : State := State.powerOn Straps.atReset Feeds.both 0 0 []

/-! ### One updater per field -/

/-- `s` with its Station Control replaced. -/
def State.setStc (s : State) (x : Stc) : State := { s with stc := x }
/-- `s` with its filter table replaced. -/
def State.setFilter (s : State) (x : List FilterEntry) : State := { s with filter := x }
/-- `s` with its Peer Roll replaced. -/
def State.setPrl (s : State) (x : Prl) : State := { s with prl := x }
/-- `s` with its Valve Cycle Monitor replaced. -/
def State.setVcm (s : State) (x : Vcm) : State := { s with vcm := x }
/-- `s` with its Level Table replaced. -/
def State.setLvt (s : State) (x : Lvt) : State := { s with lvt := x }
/-- `s` with its Firing Instant Computer replaced. -/
def State.setFic (s : State) (x : Fic) : State := { s with fic := x }
/-- `s` with its Pulse Stage replaced. -/
def State.setPst (s : State) (x : Pst) : State := { s with pst := x }
/-- `s` with its Order Holder replaced. -/
def State.setOrh (s : State) (x : Orh) : State := { s with orh := x }
/-- `s` with its Protection Monitor replaced. -/
def State.setPmn (s : State) (x : Pmn) : State := { s with pmn := x }
/-- `s` with its Command Unit replaced. -/
def State.setCmu (s : State) (x : Cmu) : State := { s with cmu := x }
/-- `s` with its recognised block line level replaced. -/
def State.setBlock (s : State) (x : Bool) : State := { s with blockAsserted := x }
/-- `s` with its supply feeds replaced. -/
def State.setFeeds (s : State) (x : Feeds) : State := { s with feeds := x }
/-- `s` with one more pulse driven onto the fibres by the command in hand. -/
def State.addPulse (s : State) (x : Pulse) : State := { s with firing := s.firing ++ [x] }
/-- `s` with one more free choice taken. -/
def State.countChoice (s : State) : State := { s with choices := s.choices + 1 }
/-- `s` with the waiting commands replaced. -/
def State.setPending (s : State) (x : List Instr) : State := { s with pending := x }
/-- The state of one line. -/
def State.line (s : State) : Line → LineState
  | .a => s.lineA
  | .b => s.lineB
/-- `s` with the state of one line replaced. -/
def State.setLine (s : State) (l : Line) (x : LineState) : State :=
  match l with
  | .a => { s with lineA := x }
  | .b => { s with lineB := x }

end Sys2Proof.Machine
end

