-- ==== Sys2Proof/Machine/Bytes.lean ====
section
/-! DEFINITION. Bytes, byte order and the check sequence (R21, R172). -/

namespace Sys2Proof.Machine

/-- One byte holding the low eight bits of a number. -/
def byteOf (n : Nat) : Byte := BitVec.ofNat 8 n

/-- A 16-bit field, high byte first (chapter 11). -/
def bytes16 (w : BitVec 16) : List Byte := [w.extractLsb' 8 8, w.extractLsb' 0 8]

/-- The low 16 bits of a number, high byte first. -/
def natBytes16 (n : Nat) : List Byte := bytes16 (BitVec.ofNat 16 n)

/-- The low 24 bits of a number, high byte first. -/
def natBytes24 (n : Nat) : List Byte := byteOf (n / 65536) :: natBytes16 n

/-- A 32-bit reading, high byte first. -/
def bytes32 (w : BitVec 32) : List Byte :=
  bytes16 (w.extractLsb' 16 16) ++ bytes16 (w.extractLsb' 0 16)

/-- The 16-bit field that two bytes carry, high byte first. -/
def word16 (high low : Byte) : BitVec 16 := high ++ low

/-- An optional angle: 65,535 when absent (R172). -/
def angleBytes : Option Nat → List Byte
  | none => natBytes16 65535
  | some a => natBytes16 a

/-- 1 for a set bit and 0 for a clear one. -/
def bit (b : Bool) : Nat := if b then 1 else 0

/-- One bit taken into the remainder register, generator x^16 + x^12 + x^5 + 1 (R21). -/
def crcBit (r : BitVec 16) (b : Bool) : BitVec 16 :=
  if r.msb == b then r <<< 1 else (r <<< 1) ^^^ 0x1021#16

/-- One byte taken most significant bit first (R20, R21). -/
def crcByte (r : BitVec 16) (x : Byte) : BitVec 16 :=
  [7, 6, 5, 4, 3, 2, 1, 0].foldl (fun r i => crcBit r (x.getLsbD i)) r

/-- The check sequence of frame bytes: the register starts at all ones, no final inversion (R21). -/
def crc16 (bytes : List Byte) : BitVec 16 := bytes.foldl crcByte 0xFFFF#16

/-- Frame bytes followed by their check sequence, high byte first (R20, R21). -/
def withCheck (bytes : List Byte) : List Byte := bytes ++ bytes16 (crc16 bytes)

end Sys2Proof.Machine
end

