-- ==== Sys2Proof/Machine/Time.lean ====
section
/-! DEFINITION. Instants, angle and tick conversions, time-setting timers and saturating counters
(Conventions, R96, R176). -/

namespace Sys2Proof.Machine

/-! ### Instants -/

/-- The present reading of the 32-bit tick counter. -/
def State.now (s : State) : Instant := BitVec.ofNat 32 s.clock

/-- The difference of two instants, modulo 2^32 and read as a signed value (Conventions, Time). -/
def instantDiff (a b : Instant) : Int := (a - b).toInt

/-- Instant `a` is later than instant `b` (Conventions, Time). -/
def later (a b : Instant) : Bool := decide (0 < instantDiff a b)

/-- Instant `a` is earlier than instant `b` (R96). -/
def earlier (a b : Instant) : Bool := decide (instantDiff a b < 0)

/-- An instant moved by a signed count of ticks, modulo 2^32 (R96). -/
def instantPlus (a : Instant) (n : Int) : Instant := a + BitVec.ofInt 32 n

/-- `a` is later than `b`, where `none` is −∞, the instant earlier than every other. -/
def laterThanRecord (a : Instant) : Option Instant → Bool
  | none => true
  | some b => later a b

/-! ### Angles and ticks -/

/-- The nearest integer to `num / den`, halves away from zero (R96). -/
def roundAway (num : Int) (den : Nat) : Int :=
  if 0 ≤ num then (2 * num + den) / (2 * (den : Int)) else -((-(2 * num) + den) / (2 * (den : Int)))

/-- ticks(x) = x × T_est / 36,000 at T_est = `tEst` (Conventions). -/
def ticksAt (tEst : Nat) (x : Int) : Int := roundAway (x * tEst) 36000

/-- cdeg(t) = t × 36,000 / T_est at T_est = `tEst`, halves up, for t ≥ 0 (Conventions). -/
def cdegAt (tEst t : Nat) : Nat := (2 * (t * 36000) + tEst) / (2 * tEst)

/-- ticks(x) with the current T_est (R53, R96). -/
def State.ticks (s : State) (x : Int) : Int := ticksAt s.prl.tEst x

/-- cdeg(t) with the current T_est (R53, R96). -/
def State.cdeg (s : State) (t : Nat) : Nat := cdegAt s.prl.tEst t

/-- ticks(x) of a positive angle, as the limit of a timer. -/
def State.tickLimit (s : State) (x : Nat) : Nat := (s.ticks x).toNat

/-- `x` clamped to [`lo`, `hi`] (R96). -/
def clampInt (lo hi x : Int) : Int := if x < lo then lo else if hi < x then hi else x

/-- `x` clamped to ±`h` (R96). -/
def clampAbs (h x : Int) : Int := clampInt (-h) h x

/-- `x` divided by 2, the fraction discarded toward zero (R96). -/
def halfTowardZero (x : Int) : Int := x.tdiv 2

/-! ### Timers -/

/-- More than `limit` ticks have passed at `clock` since the timer was started; a stopped timer has
not expired. -/
def expiredAfter (clock limit : Nat) : Option Nat → Bool
  | none => false
  | some start => decide (limit < clock - start)

/-- The ticks of a scale (R175). -/
def Scale.ticks : Scale → Nat
  | .us1 => 1
  | .us10 => 10
  | .us100 => 100
  | .ms1 => 1000

/-- The first boundary of a scale after the count `clock` (R176): the next count whose reading is a
multiple of the scale. For the three longer scales the last multiple before the wrap of the tick
counter is no boundary, and the reading 0 follows instead. -/
def nextBoundary (scale : Scale) (clock : Nat) : Nat :=
  let reading := clock % 4294967296
  let multiple := (reading / scale.ticks + 1) * scale.ticks
  let lastMultiple := 4294967295 / scale.ticks * scale.ticks
  if scale ≠ .us1 ∧ lastMultiple ≤ multiple then clock - reading + 4294967296
  else clock - reading + multiple

/-- The `n`-th boundary of a scale after the count `clock`. -/
def boundaryAfter (scale : Scale) : Nat → Nat → Nat
  | 0, clock => clock
  | n + 1, clock => boundaryAfter scale n (nextBoundary scale clock)

/-- The count at which a time-setting timer started at `clock` expires: the (factor + 1)-th boundary
after its start (R176). -/
def timerExpiry (setting : TimeSetting) (clock : Nat) : Nat :=
  boundaryAfter setting.scale (setting.factor + 1) clock

/-- A setting whose factor is taken as at least `least` (R119, R121, R123, R126). -/
def TimeSetting.atLeast (setting : TimeSetting) (least : Nat) : TimeSetting :=
  { setting with factor := max least setting.factor }

/-! ### Counters -/

/-- A 16-bit counter incremented, saturating at 65,535 (Conventions). -/
def count16 (n : Nat) : Nat := min 65535 (n + 1)

/-- A count of 0 to 255 incremented, saturating (R46, R86, R160). -/
def count8 (n : Nat) : Nat := min 255 (n + 1)

/-- A 16-bit counter incremented `k` times (R35). -/
def count16By (n k : Nat) : Nat := min 65535 (n + k)

/-! ### Sets of level indices -/

/-- A level joins a set of distinct level indices (R60); sets are kept as rising lists, so that
equal sets are equal data. -/
def insertLevel (n : Nat) : List Nat → List Nat
  | [] => [n]
  | m :: rest => if n < m then n :: m :: rest else if n = m then m :: rest else m :: insertLevel n rest

/-- A level leaves a set. -/
def removeLevel (n : Nat) (set : List Nat) : List Nat := set.filter (fun m => decide (m ≠ n))

/-- The level indices 1 to `n`. -/
def levelsUpTo (n : Nat) : List Nat := List.range' 1 n

/-- `f` applied to each item with its index, counted from `start`. -/
def mapFrom {α β : Type} (f : Nat → α → β) : Nat → List α → List β
  | _, [] => []
  | start, x :: rest => f start x :: mapFrom f (start + 1) rest

/-- The item with index `n`, counted from 1. -/
def itemAt {α : Type} (items : List α) (n : Nat) : Option α :=
  if n = 0 then none else items[n - 1]?

/-- The item with index `n`, counted from 1, changed by `f`. -/
def changeAt {α : Type} (f : α → α) (items : List α) (n : Nat) : List α :=
  mapFrom (fun i x => if i = n then f x else x) 1 items

/-! ### Positions (Conventions) -/

/-- G (R1). -/
def State.group (s : State) : Nat := groupCount s.stc.straps.groupSize

/-- The sampled position. -/
def State.position (s : State) : Nat := s.stc.straps.position.toNat

/-- The position `d` places before `k`, for `d` ≤ G (Conventions, Positions and distances). -/
def placesBefore (g k d : Nat) : Nat := (k + g - d - 1) % g + 1

/-- The position `d` places after `k`. -/
def placesAfter (g k d : Nat) : Nat := (k + d - 1) % g + 1

/-- The distance from position `p` to position `k`; 0 when they are the same position. -/
def distance (g p k : Nat) : Nat := (k + g - p) % g

/-! ### Supply -/

/-- Either feed alone sustains the station (R177). -/
def feedsSustain (f : Feeds) : Bool := f.first || f.second

/-- The station has supply (R177, R178). -/
def State.supplied (s : State) : Bool := feedsSustain s.feeds

/-! ### The SETUP record -/

/-- The blank record that stands for an absent one in the operations below. The blocks that read the
record are held while it is absent (R2), so no rule reads it. -/
def Setup.blank : Setup where
  levels := 0
  redundancy := 0
  qf := 0
  qr := 0
  qpf := 0
  alphaMin := 0
  alphaMaxR := 0
  alphaMaxI := 0
  gammaCrit := 0
  acf := 0
  ncf := 0
  gammaDeadband := 0
  latticeDeadband := 0
  linkLatency := 0
  refire := ⟨.us1, 0⟩
  ackWindow := ⟨.us1, 0⟩
  prfGather := ⟨.us1, 0⟩
  window := 0
  prfLimit := 0
  tripAssert := ⟨.us1, 0⟩
  tripRelease := ⟨.us1, 0⟩
  redAssert := ⟨.us1, 0⟩
  redRelease := ⟨.us1, 0⟩
  cfAssert := ⟨.us1, 0⟩
  cfRelease := ⟨.us1, 0⟩
  prfAssert := ⟨.us1, 0⟩
  prfRelease := ⟨.us1, 0⟩

/-- The SETUP record (section 1.3). -/
def State.cfg (s : State) : Setup := s.stc.setup.getD Setup.blank

/-- The blocks that depend on the SETUP record are held (R2). -/
def State.heldBlocks (s : State) : Bool := decide (s.stc.state = .unset)

end Sys2Proof.Machine
end

