-- ==== Sys2Proof/Machine/Operands.lean ====
section
/-! DEFINITION. The codes that fields of frames carry (R172, R174, R175), and how the operands of a
command are read and judged: the SETUP fields (R4), the ranges and lines of the maintenance
commands (R159, R163 to R165, R168). -/

namespace Sys2Proof.Machine

/-! ### Straps (R1, R177) -/

/-- The values that the station samples from its strap inputs: the group size strap is open for 6 and
closed for 12, the frequency strap open for 50 Hz and closed for 60 Hz (R177). -/
def sampleStraps (w : StrapWires) : Straps where
  position := w.position
  groupSize := if w.sizeClosed then .twelve else .six
  frequency := if w.frequencyClosed then .hz60 else .hz50

/-! ### Codes (R172) -/

/-- The code of a fired value. -/
def Fired.code : Fired → Nat
  | .no => 0 | .main => 1 | .deferred => 2 | .endStop => 3 | .bypass => 4 | .protective => 5 | .forced => 6

/-- The fired value of a code, when the list of R40 has it. -/
def firedOfCode (w : BitVec 4) : Option Fired :=
  match w.toNat with
  | 0 => some .no | 1 => some .main | 2 => some .deferred | 3 => some .endStop
  | 4 => some .bypass | 5 => some .protective | 6 => some .forced
  | _ => none

/-- The code of a source. -/
def Source.code : Source → Nat
  | .group => 0 | .flywheel => 1 | .localVoltage => 2

/-- The source of a code, when the list of R40 has it. -/
def sourceOfCode (w : BitVec 4) : Option Source :=
  match w.toNat with
  | 0 => some .group | 1 => some .flywheel | 2 => some .localVoltage
  | _ => none

/-- The code of a station state. -/
def StationState.code : StationState → Nat
  | .unset => 0 | .listening => 1 | .synced => 2 | .running => 3 | .bypassing => 4 | .tripped => 5

/-- The station state of a code in a MARK: code 0 is one that R42 refuses (R172). -/
def stationOfCode (w : BitVec 4) : Option StationState :=
  match w.toNat with
  | 1 => some .listening | 2 => some .synced | 3 => some .running | 4 => some .bypassing | 5 => some .tripped
  | _ => none

/-- The code of a line health. -/
def Health.code : Health → Nat
  | .good => 0 | .degraded => 1 | .dead => 2 | .lit => 3

/-- The line health of a code; all four codes stand for one. -/
def healthOfCode (w : BitVec 2) : Health :=
  match w.toNat with
  | 0 => .good | 1 => .degraded | 2 => .dead | _ => .lit

/-- The code of a mode. -/
def Mode.code : Mode → Nat
  | .rectifier => 1 | .inverter => 2

/-- The mode of a code (R134). -/
def modeOfCode (w : Byte) : Option Mode :=
  match w.toNat with
  | 1 => some .rectifier | 2 => some .inverter
  | _ => none

/-- The code of a block state. -/
def BlockState.code : BlockState → Nat
  | .block => 1 | .deblock => 2 | .bypass => 3

/-- The block state of a code (R134). -/
def blockStateOfCode (w : Byte) : Option BlockState :=
  match w.toNat with
  | 1 => some .block | 2 => some .deblock | 3 => some .bypass
  | _ => none

/-- The code of a completion class. -/
def Completion.code : Completion → Nat
  | .done => 1 | .failed => 2 | .refused => 3 | .aborted => 4

/-- The code of a detail. -/
def Detail.code : Detail → Nat
  | .none => 0 | .noVoltage => 1 | .strap => 2 | .unknown => 3 | .busy => 4 | .state => 5 | .argument => 6 | .field => 7

/-- The event kind and subkind bytes of an EVENT (R174). -/
def EventKind.codes : EventKind → Nat × Nat
  | .recoveryShort => (1, 1) | .noExtinction => (1, 2) | .protectiveFire => (2, 0)

/-- The event kind that a kind and a subkind byte pair to, when the table of R174 pairs them. -/
def eventOfCodes (kind subkind : Byte) : Option EventKind :=
  match kind.toNat, subkind.toNat with
  | 1, 1 => some .recoveryShort
  | 1, 2 => some .noExtinction
  | 2, 0 => some .protectiveFire
  | _, _ => none

/-- The code of a last event kind in a roll entry of READ ROLL (R174). -/
def lastEventCode : Option EventKind → Nat
  | none => 0 | some .recoveryShort => 1 | some .noExtinction => 2 | some .protectiveFire => 3

/-- The flags of a MARK as one byte, in the bit order of R173. -/
def flagsByte (f : MarkFlags) : Nat :=
  bit f.commutationFail + 2 * bit f.protectiveFire + 4 * bit f.syncLost + 8 * bit f.orderStale
    + 16 * bit f.clash + 32 * bit f.tripCondition + 64 * bit f.groupLost

/-- The eleven command codes (R174); CLEAR LEVEL has the codes 6 and 7. -/
def codeSetup : Byte := 1
/-- Code of SURVEY. -/
def codeSurvey : Byte := 2
/-- Code of READ LEVELS. -/
def codeReadLevels : Byte := 3
/-- Code of READ ROLL. -/
def codeReadRoll : Byte := 4
/-- Code of READ HOLDS. -/
def codeReadHolds : Byte := 5
/-- Code of CLEAR LEVEL for one level. -/
def codeClearOne : Byte := 6
/-- Code of CLEAR LEVEL for all levels. -/
def codeClearAll : Byte := 7
/-- Code of CLEAR HOLDS. -/
def codeClearHolds : Byte := 8
/-- Code of FORCE OUTPUTS. -/
def codeForce : Byte := 9
/-- Code of RELEASE OUTPUTS. -/
def codeRelease : Byte := 10
/-- Code of RESTART. -/
def codeRestart : Byte := 11

/-- The code is one of the eleven command codes (R159, check 2). -/
def knownCode (code : Byte) : Bool := decide (1 ≤ code.toNat) && decide (code.toNat ≤ 11)

/-! ### Angles that a MARK carries -/

/-- An optional angle of a frame: 65,535 is absent (R172). -/
def angleOf (w : BitVec 16) : Option Nat := if w.toNat = 65535 then none else some w.toNat

/-- An angle that a MARK carries lies above 36,000 (R42, R172). -/
def angleTooLarge (w : BitVec 16) : Bool := decide (36000 < w.toNat) && decide (w.toNat ≠ 65535)

/-! ### SETUP (R4, R174, R175) -/

/-- The scale of a scale code (R175); codes 4 to 15 have none. -/
def scaleOfCode : Nat → Option Scale
  | 0 => some .us1 | 1 => some .us10 | 2 => some .us100 | 3 => some .ms1
  | _ => none

/-- A time setting byte is in range (R4): its scale code is one of the four. -/
def settingOk (b : Byte) : Bool := (scaleOfCode (b.toNat / 16)).isSome

/-- The time setting of a byte (R175): bits 7..4 the scale code, bits 3..0 the factor. -/
def settingOf (b : Byte) : TimeSetting :=
  { scale := (scaleOfCode (b.toNat / 16)).getD .us1, factor := b.toNat % 16 }

/-- `x` lies in [`lo`, `hi`]. -/
def within (lo hi x : Nat) : Bool := decide (lo ≤ x) && decide (x ≤ hi)

/-- The checks of R4 in index order: the index of each field with whether it is in range, a field
that is checked against an earlier one being judged with the value the same command carries. -/
def setupChecks (f : SetupFields) : List (Nat × Bool) :=
  let n (b : Byte) := b.toNat
  let w (b : BitVec 16) := b.toNat
  [ (1, within 8 96 (n f.levels)),
    (2, within 0 8 (n f.redundancy) && decide (4 * n f.redundancy < n f.levels)),
    (3, within 1 (n f.levels) (n f.qf)),
    (4, within 1 (n f.levels) (n f.qr)),
    (5, within 1 (n f.levels) (n f.qpf)),
    (6, within 500 3000 (w f.alphaMin)),
    (7, within (w f.alphaMin) 16500 (w f.alphaMaxR)),
    (8, within (w f.alphaMin) 16500 (w f.alphaMaxI)),
    (9, within 300 1500 (w f.gammaCrit)),
    (10, within 0 3000 (w f.acf)),
    (11, within 1 15 (n f.ncf)),
    (12, within 0 500 (w f.gammaDeadband)),
    (13, within 0 200 (n f.latticeDeadband)),
    (14, within 0 255 (n f.linkLatency)),
    (15, settingOk f.refire),
    (16, settingOk f.ackWindow),
    (17, settingOk f.prfGather),
    (18, [1, 2, 4, 8, 16, 32].contains (n f.window)),
    (19, within 1 255 (n f.prfLimit)),
    (20, settingOk f.tripAssert), (21, settingOk f.tripRelease),
    (22, settingOk f.redAssert), (23, settingOk f.redRelease),
    (24, settingOk f.cfAssert), (25, settingOk f.cfRelease),
    (26, settingOk f.prfAssert), (27, settingOk f.prfRelease) ]

/-- The index of the first SETUP field found out of range, when there is one (R4). -/
def firstBadField (f : SetupFields) : Option Nat :=
  ((setupChecks f).find? (fun c => !c.2)).map Prod.fst

/-- The SETUP record that the fields of a command give (R5). -/
def setupOf (f : SetupFields) : Setup where
  levels := f.levels.toNat
  redundancy := f.redundancy.toNat
  qf := f.qf.toNat
  qr := f.qr.toNat
  qpf := f.qpf.toNat
  alphaMin := f.alphaMin.toNat
  alphaMaxR := f.alphaMaxR.toNat
  alphaMaxI := f.alphaMaxI.toNat
  gammaCrit := f.gammaCrit.toNat
  acf := f.acf.toNat
  ncf := f.ncf.toNat
  gammaDeadband := f.gammaDeadband.toNat
  latticeDeadband := f.latticeDeadband.toNat
  linkLatency := f.linkLatency.toNat
  refire := settingOf f.refire
  ackWindow := settingOf f.ackWindow
  prfGather := settingOf f.prfGather
  window := f.window.toNat
  prfLimit := f.prfLimit.toNat
  tripAssert := settingOf f.tripAssert
  tripRelease := settingOf f.tripRelease
  redAssert := settingOf f.redAssert
  redRelease := settingOf f.redRelease
  cfAssert := settingOf f.cfAssert
  cfRelease := settingOf f.cfRelease
  prfAssert := settingOf f.prfAssert
  prfRelease := settingOf f.prfRelease

/-! ### Other arguments -/

/-- The range of READ LEVELS is in range (R163). -/
def readRangeOk (levels first count : Nat) : Bool :=
  within 1 16 count && decide (1 ≤ first) && decide (first + count - 1 ≤ levels)

/-- The range of SURVEY is in range (R168). -/
def surveyRangeOk (levels first last : Nat) : Bool :=
  decide (1 ≤ first) && decide (first ≤ last) && decide (last ≤ levels)

/-- What FORCE OUTPUTS carries for one line: bits 1..0 TRIP REQUEST, 3..2 REDUNDANCY LOW,
5..4 COMMUTATION FAILURE, 7..6 PRF RATE (R174). -/
def forceField (lines : Byte) : AlarmName → Nat
  | .tripRequest => lines.toNat % 4
  | .redundancyLow => lines.toNat / 4 % 4
  | .commutationFailure => lines.toNat / 16 % 4
  | .prfRate => lines.toNat / 64 % 4

/-- The override that FORCE OUTPUTS gives one line; `none` when the line is not named (R155, R174). -/
def forcedOverride (lines : Byte) (name : AlarmName) : Option Override :=
  match forceField lines name with
  | 1 => some .forcedOn
  | 2 => some .forcedOff
  | _ => none

/-- The four alarm lines in line order (R174). -/
def alarmNames : List AlarmName := [.tripRequest, .redundancyLow, .commutationFailure, .prfRate]

/-- The argument of FORCE OUTPUTS is in range: it names a line, and no field is 3 (R165, R174). -/
def forceArgOk (lines : Byte) : Bool :=
  decide (lines.toNat ≠ 0) && alarmNames.all (fun n => decide (forceField lines n ≠ 3))

/-- RELEASE OUTPUTS names the line (R174). -/
def releaseNames (lines : Byte) : AlarmName → Bool
  | .tripRequest => lines.getLsbD 0
  | .redundancyLow => lines.getLsbD 1
  | .commutationFailure => lines.getLsbD 2
  | .prfRate => lines.getLsbD 3

/-- The argument of RELEASE OUTPUTS is in range: it names a line, and bits 7..4 are clear (R165,
R174). -/
def releaseArgOk (lines : Byte) : Bool := within 1 15 lines.toNat

end Sys2Proof.Machine
end

