-- ==== Sys2Proof/Machine/Frames.lean ====
section
/-! DEFINITION. The bytes of the frames the station sends (R20, R172 to R174), and the judgement of a
received copy as bad or good (R26, R172). -/

namespace Sys2Proof.Machine

/-! ### Frames of this station -/

/-- The fired code and the lag in the two bytes at offset 4 of a MARK: fired in bits 15..12, the lag
in bits 11..0 (R173). -/
def firedLagBytes (fired lag : Nat) : List Byte := natBytes16 (fired % 16 * 4096 + lag % 4096)

/-- The frame bytes of a MARK after its header, with a lag (R173). -/
def markBody (r : MarkReport) (lag : Nat) : List Byte :=
  firedLagBytes r.fired.code lag
    ++ [ byteOf (16 * r.source.code + r.station.code),
         byteOf (flagsByte r.flags),
         byteOf (4 * r.healthA.code + r.healthB.code),
         byteOf r.consumed ]
    ++ angleBytes r.alpha ++ angleBytes r.gamma ++ angleBytes r.mu
    ++ [ byteOf (bit r.orderSeq.isSome), r.orderSeq.getD 0 ]

/-- The frame bytes of an EVENT after its header, with a lag (R174). -/
def eventBody (k : EventKind) (lag : Nat) : List Byte :=
  natBytes16 (lag % 4096) ++ [byteOf k.codes.1, byteOf k.codes.2]

/-- The frame bytes of a RESULT after its header (R174). -/
def resultBytes (r : ResultBody) : List Byte :=
  [r.tag, r.code, byteOf r.completion.code, byteOf r.detail.code] ++ r.data

/-- The kind code of a produced frame (R172). -/
def TxBody.kindCode : TxBody → Nat
  | .mark _ => 1
  | .event _ => 2
  | .result _ => 5

/-- The frame bytes after the header of a produced frame, with a lag. -/
def TxBody.bytes (b : TxBody) (lag : Nat) : List Byte :=
  match b with
  | .mark r => markBody r lag
  | .event k => eventBody k lag
  | .result r => resultBytes r

/-- The frame bytes of a copy with its lag stamped: the header (kind, length, sender, sequence) and
the body (R20, R172). -/
def TxCopy.frameBytes (c : TxCopy) (lag : Nat) : List Byte :=
  let body := c.body.bytes lag
  [byteOf c.body.kindCode, byteOf (body.length + 2), c.sender, c.seq] ++ body

/-- The preamble of a copy: seven bytes of alternating ones and zeros (R20). That the first bit is a one is
DEDUCED from these words (log entry 22). -/
def preamble : List Byte := List.replicate 7 0xAA

/-- A copy as it stands on the line: the preamble, the start delimiter, and the bytes from the kind to the
check sequence (R20). -/
def onLine (bytes : List Byte) : List Byte := preamble ++ Config.startDelimiter :: bytes

/-- The tenths of a tick that bytes take on the line: 0.8 ticks each (R20). -/
def lineTenths (bytes : List Byte) : Nat := 8 * bytes.length

/-- The copy has a lag field and an age limit (R25): it is a MARK or an EVENT. -/
def TxCopy.hasLag (c : TxCopy) : Bool :=
  match c.body with
  | .result _ => false
  | _ => true

/-- The ticks from the copy's reference instant to `clock`; 0 for a RESULT, which has none. -/
def TxCopy.age (c : TxCopy) (clock : Nat) : Nat :=
  match c.ref with
  | none => 0
  | some r => clock - r

/-! ### Received copies -/

/-- The lengths a frame kind may take (R172). `body` is the run of bytes after the length field; the
code of a COMMAND is its fifth byte, at offset 6. -/
def lengthAllowed (kind length : Nat) (body : List Byte) : Bool :=
  match kind with
  | 1 => decide (length = 16)
  | 2 => decide (length = 6)
  | 3 => decide (length = 10)
  | 4 =>
    match body[4]? with
    | none => false
    | some code =>
      match code.toNat with
      | 1 => decide (length = 38)
      | 2 | 3 => decide (length = 7)
      | 6 | 9 | 10 => decide (length = 6)
      | 4 | 5 | 7 | 8 | 11 => decide (length = 5)
      | _ => within 5 255 length
  | 5 => within 6 255 length
  | _ => false

/-- A complete copy is bad (R26): its kind is not one of the five, it was cut short, its length is
not one its kind may take, or it fails the check sequence. `bytes` is what the receiver took from
the kind to the end of the check sequence, or to the drop of carrier. -/
def copyIsBad (bytes : List Byte) (cutShort : Bool) : Bool :=
  match bytes with
  | kind :: length :: rest =>
    cutShort || decide (rest.length ≠ length.toNat + 2)
      || !(lengthAllowed kind.toNat length.toNat (rest.take length.toNat))
      || decide (bytes ≠ withCheck (bytes.take (length.toNat + 2)))
  | _ => true

end Sys2Proof.Machine
end

