-- ==== Sys2Proof/WellFormed.lean ====
section
/-! DEFINITION. Which commands are well formed: the operands that an event of the station can have. A
command whose operands no event can have is taken all the same, and then has no effect or the effect its
meaning gives (log entry 8). -/

namespace Sys2Proof

open Sys2Proof.Machine

/-- A received copy is well formed: it completes after its arrival (R20). -/
def RxCopy.ok (t : Instant) (rx : RxCopy) : Bool := later t rx.arrival

/-- A COMMAND is well formed: it arrives before it completes, and its target is one that R174 lists, 1
to 12 or 15. -/
def CmdHead.ok (head : CmdHead) : Bool := within 1 12 head.target.toNat || decide (head.target = 15)

/-- An indication input exists: there are 96 (R177). -/
def levelOk (n : Nat) : Bool := within 1 96 n

/-- The command is well formed. -/
def wellFormed : Instr → Bool
  | .powerOnReset _ _ => true
  | .supplyLoss _ _ => true
  | .blockLineAsserted _ held => decide (20 ≤ held)
  | .blockLineReleased _ held => decide (20 ≤ held)
  | .setup t rx head _ => rx.ok t && head.ok
  | .survey t rx head _ _ => rx.ok t && head.ok
  | .readLevels t rx head _ _ => rx.ok t && head.ok
  | .readRoll t rx head => rx.ok t && head.ok
  | .readHolds t rx head => rx.ok t && head.ok
  | .clearLevelOne t rx head _ => rx.ok t && head.ok
  | .clearLevelAll t rx head => rx.ok t && head.ok
  | .clearHolds t rx head => rx.ok t && head.ok
  | .forceOutputs t rx head _ => rx.ok t && head.ok
  | .releaseOutputs t rx head _ => rx.ok t && head.ok
  | .restart t rx head => rx.ok t && head.ok
  | .unknownCommand t rx head code => rx.ok t && head.ok && !knownCode code
  | .markFrame t rx _ => rx.ok t
  | .eventFrame t rx _ => rx.ok t
  | .orderFrame t rx _ => rx.ok t
  | .resultFrame t rx => rx.ok t
  | .badCopy _ _ bytes cutShort => copyIsBad bytes cutShort
  | .transmissionStart _ _ _ => true
  | .transmissionComplete _ _ => true
  | .lagLimitRemoval _ _ => true
  | .echoMiss _ _ => true
  | .litEntry _ _ carrier => decide (100 < carrier.ticks) && !carrier.inReception
  | .litEnd _ _ => true
  | .silenceTimerExpiry _ _ => true
  | .filterEntryExpiry _ sender _ => decide (sender.toNat ≤ 12)
  | .fwdIndication _ level => levelOk level
  | .revIndication _ level => levelOk level
  | .prfIndication _ level => levelOk level
  | .ackIndication _ level => levelOk level
  | .inactivityExpiry _ => true
  | .noExtinctionExpiry _ => true
  | .markEvent _ => true
  | .endStop _ => true
  | .deferralLoReached _ => true
  | .deferralLimit _ => true
  | .refireExpiry _ => true
  | .bypassTrainExpiry _ => true
  | .ackWindowExpiry _ => true
  | .prfGatherExpiry _ => true
  | .surveyTestPulse _ => true
  | .darkTimerExpiry _ => true
  | .orderStale _ => true
  | .forcedBlock _ => true
  | .alarmAssertExpiry _ _ => true
  | .alarmReleaseExpiry _ _ => true
  | .commandOtherTarget t rx head => rx.ok t && decide (head.target ≠ 15)

end Sys2Proof
end

