-- ==== Sys2Proof/Decode.lean ====
section
/-! DEFINITION. From words and bytes to commands: `decodeTableWord` over the rows of
spec/opcode_table.json, which gives no row any bits; and `decodeCopy`, which reads the command that a
complete copy on a line stands for from its bytes (R20, R26, R172 to R175), with an encoder beside it. -/

namespace Sys2Proof

open Sys2Proof.Machine

/-! ### The opcode table -/

/-- The command that a word spells by the table's bits. No row of spec/opcode_table.json has bits, so no
word spells a command (log entry 11). -/
def decodeTableWord (_nbits _w : Nat) : Option Instr := none

/-! ### Reading the bytes of a copy -/

/-- The byte at offset `i` of a run of bytes. -/
def byteAt (bytes : List Byte) (i : Nat) : Byte := bytes.getD i 0

/-- The 16-bit field at offset `i`, high byte first (chapter 11). -/
def wordAt (bytes : List Byte) (i : Nat) : BitVec 16 := word16 (byteAt bytes i) (byteAt bytes (i + 1))

/-- The flags of a MARK (R173); bit 7 is not read. -/
def flagsOfByte (b : Byte) : MarkFlags where
  commutationFail := b.getLsbD 0
  protectiveFire := b.getLsbD 1
  syncLost := b.getLsbD 2
  orderStale := b.getLsbD 3
  clash := b.getLsbD 4
  tripCondition := b.getLsbD 5
  groupLost := b.getLsbD 6

/-- The fields of a MARK from the frame bytes after its header: offset 4 of R173 is byte 0 here. -/
def decodeMark (b : List Byte) : MarkFields where
  fired := (byteAt b 0).extractLsb' 4 4
  lag := (wordAt b 0).extractLsb' 0 12
  source := (byteAt b 2).extractLsb' 4 4
  station := (byteAt b 2).extractLsb' 0 4
  flags := flagsOfByte (byteAt b 3)
  healthA := (byteAt b 4).extractLsb' 2 2
  healthB := (byteAt b 4).extractLsb' 0 2
  consumed := byteAt b 5
  alpha := wordAt b 6
  gamma := wordAt b 8
  mu := wordAt b 10
  orderSeq := if (byteAt b 12).getLsbD 0 then some (byteAt b 13) else none

/-- The fields of an EVENT (R174): the upper four bits beside the lag are not read. -/
def decodeEvent (b : List Byte) : EventFields where
  lag := (wordAt b 0).extractLsb' 0 12
  kind := byteAt b 2
  subkind := byteAt b 3

/-- The fields of an ORDER (R173). -/
def decodeOrder (b : List Byte) : OrderFields where
  orderSeq := byteAt b 0
  mode := byteAt b 1
  blockState := byteAt b 2
  bypass := byteAt b 3
  alphaOrder := wordAt b 4
  gammaOrder := wordAt b 6

/-- The arguments of a SETUP in index order (R174). -/
def decodeSetup (b : List Byte) : SetupFields where
  levels := byteAt b 0
  redundancy := byteAt b 1
  qf := byteAt b 2
  qr := byteAt b 3
  qpf := byteAt b 4
  alphaMin := wordAt b 5
  alphaMaxR := wordAt b 7
  alphaMaxI := wordAt b 9
  gammaCrit := wordAt b 11
  acf := wordAt b 13
  ncf := byteAt b 15
  gammaDeadband := wordAt b 16
  latticeDeadband := byteAt b 18
  linkLatency := byteAt b 19
  refire := byteAt b 20
  ackWindow := byteAt b 21
  prfGather := byteAt b 22
  window := byteAt b 23
  prfLimit := byteAt b 24
  tripAssert := byteAt b 25
  tripRelease := byteAt b 26
  redAssert := byteAt b 27
  redRelease := byteAt b 28
  cfAssert := byteAt b 29
  cfRelease := byteAt b 30
  prfAssert := byteAt b 31
  prfRelease := byteAt b 32

/-- The command of a COMMAND frame addressed to the station, by its code (R174). `b` is the run of bytes
after the header: the target, the tag, the code and the arguments. -/
def decodeCode (t : Instant) (rx : RxCopy) (b : List Byte) : Instr :=
  let head : CmdHead := { target := byteAt b 0, tag := byteAt b 1 }
  match (byteAt b 2).toNat with
  | 1 => .setup t rx head (decodeSetup (b.drop 3))
  | 2 => .survey t rx head (byteAt b 3) (byteAt b 4)
  | 3 => .readLevels t rx head (byteAt b 3) (byteAt b 4)
  | 4 => .readRoll t rx head
  | 5 => .readHolds t rx head
  | 6 => .clearLevelOne t rx head (byteAt b 3)
  | 7 => .clearLevelAll t rx head
  | 8 => .clearHolds t rx head
  | 9 => .forceOutputs t rx head (byteAt b 3)
  | 10 => .releaseOutputs t rx head (byteAt b 3)
  | 11 => .restart t rx head
  | _ => .unknownCommand t rx head (byteAt b 2)

/-- The command of a COMMAND frame at a station with a sampled position (R2, R32). -/
def decodeCommand (position : Nat) (t : Instant) (rx : RxCopy) (b : List Byte) : Instr :=
  if byteAt b 0 = 15 ∨ (byteAt b 0).toNat = position then decodeCode t rx b
  else .commandOtherTarget t rx { target := byteAt b 0, tag := byteAt b 1 }

/-- The command of a good copy, by the kind in its header (R172); `none` for a kind that is not one of
the five. -/
def decodeKind (position : Nat) (t : Instant) (rx : RxCopy) (kind : Nat) (b : List Byte) : Option Instr :=
  match kind with
  | 1 => some (.markFrame t rx (decodeMark b))
  | 2 => some (.eventFrame t rx (decodeEvent b))
  | 3 => some (.orderFrame t rx (decodeOrder b))
  | 4 => some (decodeCommand position t rx b)
  | 5 => some (.resultFrame t rx)
  | _ => none

/-- The command that a complete copy stands for at a station with a sampled position: `bytes` run from
the kind to the end of the check sequence, or to the drop of carrier with `cutShort` (R20, R26, R172). A
bad copy is BAD_COPY. -/
def decodeCopy (position : Nat) (t : Instant) (line : Line) (arrival : Instant) (bytes : List Byte)
    (cutShort : Bool) : Instr :=
  if copyIsBad bytes cutShort then .badCopy t line bytes cutShort
  else
    let rx : RxCopy := { line, arrival, sender := byteAt bytes 2, seq := byteAt bytes 3 }
    (decodeKind position t rx (byteAt bytes 0).toNat (bytes.drop 4)).getD
      (.badCopy t line bytes cutShort)

/-! ### Writing the bytes of a copy -/

/-- The flags of a MARK as a byte, bit 7 zero (R173). -/
def byteOfFlags (f : MarkFlags) : Byte := byteOf (flagsByte f)

/-- The frame bytes of a MARK after its header (R173). -/
def encodeMark (m : MarkFields) : List Byte :=
  bytes16 (m.fired ++ m.lag)
    ++ [m.source ++ m.station, byteOfFlags m.flags, (0#4 ++ m.healthA) ++ m.healthB, m.consumed]
    ++ bytes16 m.alpha ++ bytes16 m.gamma ++ bytes16 m.mu
    ++ [byteOf (bit m.orderSeq.isSome), m.orderSeq.getD 0]

/-- The frame bytes of an EVENT after its header (R174). -/
def encodeEvent (e : EventFields) : List Byte := bytes16 (0#4 ++ e.lag) ++ [e.kind, e.subkind]

/-- The frame bytes of an ORDER after its header (R173). -/
def encodeOrder (o : OrderFields) : List Byte :=
  [o.orderSeq, o.mode, o.blockState, o.bypass] ++ bytes16 o.alphaOrder ++ bytes16 o.gammaOrder

/-- The argument bytes of a SETUP (R174). -/
def encodeSetup (f : SetupFields) : List Byte :=
  [f.levels, f.redundancy, f.qf, f.qr, f.qpf]
    ++ bytes16 f.alphaMin ++ bytes16 f.alphaMaxR ++ bytes16 f.alphaMaxI ++ bytes16 f.gammaCrit
    ++ bytes16 f.acf ++ [f.ncf] ++ bytes16 f.gammaDeadband
    ++ [f.latticeDeadband, f.linkLatency, f.refire, f.ackWindow, f.prfGather, f.window, f.prfLimit,
        f.tripAssert, f.tripRelease, f.redAssert, f.redRelease, f.cfAssert, f.cfRelease, f.prfAssert,
        f.prfRelease]

/-- A whole copy as it stands on the line from the kind to the check sequence (R20, R21, R172). -/
def copyBytes (kind : Byte) (rx : RxCopy) (body : List Byte) : List Byte :=
  withCheck ([kind, byteOf (body.length + 2), rx.sender, rx.seq] ++ body)

/-- A COMMAND copy: target, tag, code and arguments (R174). -/
def commandBytes (rx : RxCopy) (head : CmdHead) (code : Byte) (args : List Byte) : List Byte :=
  copyBytes 4 rx ([head.target, head.tag, code] ++ args)

/-- The bytes of the copy that a frame command stands for; `none` for the commands that are no frame, and
for those whose copy they do not determine (RESULT, BAD_COPY, a COMMAND for another target). -/
def encodeCopy : Instr → Option (List Byte)
  | .markFrame _ rx m => some (copyBytes 1 rx (encodeMark m))
  | .eventFrame _ rx e => some (copyBytes 2 rx (encodeEvent e))
  | .orderFrame _ rx o => some (copyBytes 3 rx (encodeOrder o))
  | .setup _ rx head f => some (commandBytes rx head codeSetup (encodeSetup f))
  | .survey _ rx head first last => some (commandBytes rx head codeSurvey [first, last])
  | .readLevels _ rx head first count => some (commandBytes rx head codeReadLevels [first, count])
  | .readRoll _ rx head => some (commandBytes rx head codeReadRoll [])
  | .readHolds _ rx head => some (commandBytes rx head codeReadHolds [])
  | .clearLevelOne _ rx head n => some (commandBytes rx head codeClearOne [n])
  | .clearLevelAll _ rx head => some (commandBytes rx head codeClearAll [])
  | .clearHolds _ rx head => some (commandBytes rx head codeClearHolds [])
  | .forceOutputs _ rx head lines => some (commandBytes rx head codeForce [lines])
  | .releaseOutputs _ rx head lines => some (commandBytes rx head codeRelease [lines])
  | .restart _ rx head => some (commandBytes rx head codeRestart [])
  | .unknownCommand _ rx head code =>
    if knownCode code then none else some (commandBytes rx head code [])
  | _ => none

end Sys2Proof
end

