-- ==== Sys2Proof/Machine/Ops.lean ====
section
/-! DEFINITION. The operations every command shares: time passing to the instant of a command, the
frame in which a command acts, and effects whose order the manual leaves open. -/

namespace Sys2Proof.Machine

/-! ### Time and the frame of a command -/

/-- The order age after `elapsed` ticks: it advances with the tick counter, is held at 16,777,215, and
does not run in UNSET (R141). -/
def ageAfter (held : Bool) (age elapsed : Nat) : Nat :=
  if held then age else min 16777215 (age + elapsed)

/-- The ticks from the present reading to the reading `t`, the first time the counter shows it. -/
def State.ticksUntil (s : State) (t : Instant) : Nat := (t - s.now).toNat

/-- Time passes until the tick counter reads `t`, and nothing else happens: the clock and the order
age run on (Conventions, R141). The firing fibres are dark again. -/
def State.advance (s : State) (t : Instant) : State :=
  { s with
    clock := s.clock + s.ticksUntil t
    firing := []
    orh := { s.orh with age := ageAfter s.heldBlocks s.orh.age (s.ticksUntil t) } }

/-- A command taken at the instant `t`: time passes to `t`, and the command has its effect when the
station has supply. A station whose supply has failed on both feeds does nothing (R178). -/
def act (t : Instant) (s : State) (effect : State → State) : Host.Outcome State Fault Refusal :=
  .next (if (s.advance t).supplied then effect (s.advance t) else s.advance t)

/-- An effect of the blocks that R2 holds in UNSET: there it is nothing. -/
def State.unlessHeld (s : State) (effect : State → State) : State :=
  if s.heldBlocks then s else effect s

/-! ### Effects without an order (log entry 3) -/

/-- Every way to put `x` into a list. -/
def insertions {α : Type} (x : α) : List α → List (List α)
  | [] => [[x]]
  | y :: rest => (x :: y :: rest) :: (insertions x rest).map (y :: ·)

/-- Every order of a list. -/
def orders {α : Type} : List α → List (List α)
  | [] => [[]]
  | x :: rest => (orders rest).flatMap (insertions x)

/-- The effects taken one after the other. -/
def inOrder (effects : List (State → State)) (s : State) : State :=
  effects.foldl (fun x f => f x) s

/-- The outcome of every order of the effects. -/
def outcomes (effects : List (State → State)) (s : State) : List State :=
  (orders effects).map (fun o => inOrder o s)

/-- Effects of one instant that the manual gives no order. Where every order has one outcome, that is
the outcome; where the outcomes differ, the order is a free value (log entry 3). -/
def inAnyOrder (effects : List (State → State)) (s : State) : State :=
  let outs := outcomes effects s
  let plain := inOrder effects s
  if outs.all (fun x => decide (x = plain)) then plain
  else (outs.getD (Config.orderTaken s.choices % outs.length) plain).countChoice

/-! ### Pulses on the firing fibres (chapter 7, R177) -/

/-- A pulse leaves at the present instant on the named fibres. -/
def emitPulse (kind : PulseKind) (fibres : List Nat) (s : State) : State :=
  s.addPulse { kind := kind, instant := s.now, fibres := fibres }

/-- A pulse leaves on all L level fibres; fibres above L stay dark (R118, R177). -/
def emitToAll (kind : PulseKind) (s : State) : State :=
  emitPulse kind (levelsUpTo s.cfg.levels) s

end Sys2Proof.Machine
end

