-- ==== Sys2Proof/Machine/GroupLine.lean ====
section
/-! DEFINITION. The Group Line Interface (chapter 2): producing and queueing frames, sending, line
health, and the filter table. -/

namespace Sys2Proof.Machine

/-! ### Sending -/

/-- The station's gap in ticks (R19). -/
def State.gap (s : State) : Nat := 10 + 3 * s.position

/-- The copy is a RESULT. -/
def TxCopy.isResult (c : TxCopy) : Bool := !c.hasLag

/-- A copy at the head is too old to be sent (R25): a MARK or EVENT whose reference instant lies
4,096 ticks or more in the past. -/
def TxCopy.tooOld (clock : Nat) (c : TxCopy) : Bool := c.hasLag && decide (4096 ≤ c.age clock)

/-- The copies left when too old ones are removed from the head, one after the other (R25). -/
def withoutOldHeads (clock : Nat) : List TxCopy → List TxCopy
  | [] => []
  | c :: rest => if c.tooOld clock then withoutOldHeads clock rest else c :: rest

/-- The queue head is judged under the lag limit, and each new head after it (R25). -/
def LineState.judgeHead (clock : Nat) (l : LineState) : LineState :=
  let kept := withoutOldHeads clock l.queue
  { l with queue := kept, dropCount := count16By l.dropCount (l.queue.length - kept.length) }

/-- The queue without its oldest RESULT copy; `none` when it holds no RESULT (R23). -/
def withoutOldestResult : List TxCopy → Option (List TxCopy)
  | [] => none
  | c :: rest => if c.isResult then some rest else (withoutOldestResult rest).map (c :: ·)

/-- A copy arrives at a line's transmit queue (R23). A head that a displacement makes is judged at
once under R25. -/
def LineState.place (clock : Nat) (c : TxCopy) (l : LineState) : LineState :=
  if l.lit then { l with dropCount := count16 l.dropCount }
  else if l.queue.length < 4 then { l with queue := l.queue ++ [c] }
  else if c.isResult then { l with dropCount := count16 l.dropCount }
  else
    match withoutOldestResult l.queue with
    | none => { l with dropCount := count16 l.dropCount }
    | some kept =>
      LineState.judgeHead clock { l with queue := kept ++ [c], dropCount := count16 l.dropCount }

/-- A frame is produced (R22): it takes the sequence counter, which is incremented (R113), and the
sampled position, and one copy is placed on each line. A MARK or EVENT has the present instant as
its reference instant: a mark is taken, and an event detected, at the instant it is reported. -/
def produce (body : TxBody) (s : State) : State :=
  let ref := match body with
    | .result _ => none
    | _ => some s.clock
  let copy : TxCopy :=
    { sender := byteOf s.position, seq := s.fic.seqCounter, ref := ref, body := body }
  let s := s.setFic { s.fic with seqCounter := s.fic.seqCounter + 1 }
  let s := s.setLine .a (s.lineA.place s.clock copy)
  s.setLine .b (s.lineB.place s.clock copy)

/-- A RESULT is produced (R161). -/
def produceResult (tag code : Byte) (completion : Completion) (detail : Detail) (data : List Byte)
    (s : State) : State :=
  produce (.result { tag, code, completion, detail, data }) s

/-! ### Errors and health (R34 to R37) -/

/-- The error score is raised by 4, held at 64 (R34). -/
def LineState.raiseScore (l : LineState) : LineState :=
  { l with errorScore := min 64 (l.errorScore + 4) }

/-- An echo miss: the count, the score, and the record NONE (R29). -/
def LineState.missEcho (l : LineState) : LineState :=
  { l.raiseScore with echo := none, echoMissCount := count16 l.echoMissCount }

/-- The silence timer is restarted; it is stopped while the line is LIT (R36). -/
def LineState.restartSilence (clock : Nat) (l : LineState) : LineState :=
  { l with silence := if l.lit then none else some clock }

/-- Light that the station knows of ends on the line: its own copy or a received one is complete, or the
carrier of a LIT line has dropped. The line is dark at the earliest from now on (R19), and free carrier
counts afresh: it was restarted at the copy's start and suspended while the copy lasted (R35). -/
def LineState.endLight (clock : Nat) (l : LineState) : LineState :=
  { l with litFrom := clock, lightEnd := some clock }

/-- For how long the line has been dark for sending (R19): as long as the receiver saw no carrier, and no
longer than since light the station knows of ended there. -/
def LineState.darkFor (clock dark : Nat) (l : LineState) : Nat :=
  match l.lightEnd with
  | none => dark
  | some ended => min dark (clock - ended)

/-- The LIT measurement (R35): for how long the receiver has seen free carrier without interruption. Carrier
is not free while the station sends or a copy is in reception, and counts from its last start from zero. -/
def LineState.litMeasure (clock : Nat) (carrier : CarrierView) (l : LineState) : Nat :=
  if l.sending.isSome || carrier.inReception then 0 else min carrier.ticks (clock - l.litFrom)

/-- What every good copy does to its line, whatever the later checks make of it (R26, R34, R36). -/
def LineState.goodCopy (clock : Nat) (l : LineState) : LineState :=
  { ((l.endLight clock).restartSilence clock) with errorScore := l.errorScore - 1, dead := false }

/-- What a bad copy does to its line (R26, R34). -/
def LineState.badCopy (clock : Nat) (l : LineState) : LineState :=
  { (l.endLight clock).raiseScore with badCount := count16 l.badCount }

/-- The head copy starts transmission (R24) with its lag stamped and its check computed (R21); an
echo still pending is missed (R29), the LIT measurement starts again (R35), and the new head is judged
(R25). -/
def LineState.startHead (clock : Nat) (c : TxCopy) (rest : List TxCopy) (l : LineState) : LineState :=
  let missed := if l.echo.isSome then l.missEcho else l
  LineState.judgeHead clock
    { missed with
      queue := rest
      sending := some { copy := c, start := clock, bytes := withCheck (c.frameBytes (c.age clock)) }
      litFrom := clock
      sentCount := count16 l.sentCount }

/-- Transmission start on a line (R24): with a copy waiting, none in transmission, the line free for the
station's gap (R19) and not LIT. A MARK or EVENT whose age has reached 4,096 is
removed instead of sent (R25). -/
def LineState.startTransmission (clock gap dark : Nat) (l : LineState) : LineState :=
  match l.queue with
  | [] => l
  | c :: rest =>
    if l.sending.isSome || l.lit || decide (l.darkFor clock dark < gap) then l
    else if c.tooOld clock then l.judgeHead clock
    else l.startHead clock c rest

/-- The copy in transmission has been on the line for as long as it occupies it, 0.8 × (n + 10) ticks with n
frame bytes (R20). Its preamble was sent before the transmission start. Where the length is no whole number of
ticks, the copy is complete from the next whole tick on: a MARK takes 16.8 from its delimiter and is complete
at the 17th (DESIGN CHOICE, log entry 23: the manual gives no rounding). -/
def Sending.finished (clock : Nat) (x : Sending) : Bool :=
  decide (lineTenths (onLine x.bytes) ≤ 10 * (clock - x.start) + lineTenths preamble)

/-- Completion of the copy in transmission (R24, R28): the gap is measured afresh from now on (R19). With
STRAP ERROR the echo-pending record is kept at NONE (R33). -/
def LineState.completeTransmission (clock : Nat) (strapError : Bool) (l : LineState) : LineState :=
  match l.sending with
  | none => l
  | some x =>
    if x.finished clock then
      { l.endLight clock with
        sending := none
        echo := if strapError then none else some { seq := x.copy.seq, completed := clock } }
    else l

/-- An echo-pending record still PENDING more than 200 ticks after completion records a miss (R29). -/
def LineState.echoTimeout (clock : Nat) (l : LineState) : LineState :=
  match l.echo with
  | none => l
  | some p => if 200 < clock - p.completed then l.missEcho else l

/-- Entry into LIT after more than 100 ticks of free carrier (R35): the queue is emptied into the
drop count, and the silence timer is stopped. -/
def LineState.enterLit (clock : Nat) (carrier : CarrierView) (l : LineState) : LineState :=
  if l.lit || decide (l.litMeasure clock carrier ≤ 100) then l
  else
    { l with
      lit := true
      queue := []
      dropCount := count16By l.dropCount l.queue.length
      silence := none }

/-- The drop of carrier ends LIT, and the silence timer is restarted (R35, R36). -/
def LineState.endLit (clock : Nat) (l : LineState) : LineState :=
  if l.lit then { l.endLight clock with lit := false, silence := some clock } else l

/-- Expiry of the silence timer (R36): more than 2 × T_est ticks, and the line becomes DEAD. -/
def LineState.silenceExpiry (clock tEst : Nat) (l : LineState) : LineState :=
  if expiredAfter clock (2 * tEst) l.silence then { l with dead := true, silence := none } else l

/-! ### The filter table (R30) -/

/-- The key of a sender and a sequence value. -/
def filterKey (sender seq : Byte) : Nat := sender.toNat * 256 + seq.toNat

/-- The instant that the filter table holds under a key. -/
def filterLookup (key : Nat) : List FilterEntry → Option Nat
  | [] => none
  | x :: rest => if x.key = key then some x.written else filterLookup key rest

/-- The filter table with an instant written under a key; the table is kept sorted by key. -/
def filterWrite (key written : Nat) : List FilterEntry → List FilterEntry
  | [] => [⟨key, written⟩]
  | x :: rest =>
    if key < x.key then ⟨key, written⟩ :: x :: rest
    else if key = x.key then ⟨key, written⟩ :: rest
    else x :: filterWrite key written rest

/-- The table holds an unexpired instant under the key: written at most 64,000 ticks ago (R30). -/
def filterHolds (clock key : Nat) (table : List FilterEntry) : Bool :=
  match filterLookup key table with
  | none => false
  | some written => decide (clock - written ≤ 64000)

/-- An instant older than 64,000 ticks expires: from then on it is nothing (R30). -/
def filterExpire (clock key : Nat) (table : List FilterEntry) : List FilterEntry :=
  table.filter (fun x => !(decide (x.key = key) && decide (64000 < clock - x.written)))

end Sys2Proof.Machine
end

