-- ==== Sys2Proof/Machine/Flags.lean ====
section
/-! DEFINITION. The flags and the line health that a mark carries (R37, R90, R111, R141). -/

namespace Sys2Proof.Machine

/-- The health state of a line: the first of LIT, DEAD, DEGRADED and GOOD that holds (R37). -/
def LineState.health (l : LineState) : Health :=
  if l.lit then .lit
  else if l.dead then .dead
  else if 16 ≤ l.errorScore then .degraded
  else .good

/-- The line is DEAD or LIT (R37). -/
def LineState.lost (l : LineState) : Bool := l.lit || l.dead

/-- GROUP LOST: each of the two lines is DEAD or LIT (R37). -/
def State.groupLost (s : State) : Bool := s.lineA.lost && s.lineB.lost

/-- The order age is above 40,000 ticks (R141). -/
def Orh.tooOld (o : Orh) : Bool := decide (40000 < o.age)

/-- The ORDER STALE flag takes its value from the order age as it stands (R141). -/
def refreshStale (s : State) : State := s.setOrh { s.orh with stale := s.orh.tooOld }

/-- The ORDER STALE flag as an own mark takes it (R141): from the order age, but for the one tick at which
the age passes 40,000. There either the mark or the passing is taken first, and the flag is the one that
stands, set when ORDER_STALE has been taken. -/
def Orh.staleAtMark (o : Orh) : Bool := if o.age = 40001 then o.stale else o.tooOld

/-- The ORH at an own mark (R141). -/
def staleMark (s : State) : State := s.setOrh { s.orh with stale := s.orh.staleAtMark }

/-- The flags in force when a mark is taken (R111): COMMUTATION-FAIL under R73, PROTECTIVE FIRE under
R129, SYNC LOST and CLASH under R17, ORDER STALE under R141, TRIP CONDITION under R90 and GROUP LOST
under R37. -/
def State.markFlags (s : State) : MarkFlags where
  commutationFail := s.vcm.failureInCycle
  protectiveFire := s.pst.pvfSeen
  syncLost := s.stc.syncLost
  orderStale := s.orh.stale
  clash := s.stc.clashSeen
  tripCondition := s.lvt.tripCondition
  groupLost := s.groupLost

end Sys2Proof.Machine
end

