-- ==== Sys2Proof/Machine/Protection.lean ====
section
/-! DEFINITION. The Protection Monitor (chapter 9): alarm line records, the PRF window ring and the
holds. -/

namespace Sys2Proof.Machine

/-! ### Alarm line records (R152 to R156) -/

/-- The record of an alarm line. -/
def Pmn.line (p : Pmn) : AlarmName → AlarmLine
  | .tripRequest => p.tripRequest
  | .redundancyLow => p.redundancyLow
  | .commutationFailure => p.commutationFailure
  | .prfRate => p.prfRate

/-- The monitor with the record of one alarm line replaced. -/
def Pmn.setAlarm (p : Pmn) (name : AlarmName) (x : AlarmLine) : Pmn :=
  match name with
  | .tripRequest => { p with tripRequest := x }
  | .redundancyLow => { p with redundancyLow := x }
  | .commutationFailure => { p with commutationFailure := x }
  | .prfRate => { p with prfRate := x }

/-- The assert delay of a line (section 1.3, indices 20 to 26). -/
def Setup.assertDelay (c : Setup) : AlarmName → TimeSetting
  | .tripRequest => c.tripAssert
  | .redundancyLow => c.redAssert
  | .commutationFailure => c.cfAssert
  | .prfRate => c.prfAssert

/-- The release delay of a line (section 1.3, indices 21 to 27). -/
def Setup.releaseDelay (c : Setup) : AlarmName → TimeSetting
  | .tripRequest => c.tripRelease
  | .redundancyLow => c.redRelease
  | .commutationFailure => c.cfRelease
  | .prfRate => c.prfRelease

/-- The delay logic at a condition that becomes true (R153, R154). -/
def AlarmLine.rise (clock : Nat) (delay : TimeSetting) (x : AlarmLine) : AlarmLine :=
  match x.logic, x.timer with
  | false, .idle =>
    if delay.factor = 0 then { x with condition := true, logic := true }
    else { x with condition := true, timer := .asserting (timerExpiry delay clock) }
  | true, .releasing _ => { x with condition := true, timer := .idle }
  | _, _ => { x with condition := true }

/-- The delay logic at a condition that becomes false (R153, R154). -/
def AlarmLine.fall (clock : Nat) (delay : TimeSetting) (x : AlarmLine) : AlarmLine :=
  match x.logic, x.timer with
  | false, .asserting _ => { x with condition := false, timer := .idle }
  | true, .idle =>
    if delay.factor = 0 then { x with condition := false, logic := false }
    else { x with condition := false, timer := .releasing (timerExpiry delay clock) }
  | _, _ => { x with condition := false }

/-- A condition is handed to a line record, which acts on a change and on that alone (R151). -/
def AlarmLine.hand (clock : Nat) (assertDelay releaseDelay : TimeSetting) (condition : Bool)
    (x : AlarmLine) : AlarmLine :=
  if x.condition = condition then x
  else if condition then x.rise clock assertDelay
  else x.fall clock releaseDelay

/-- A condition is handed to the named alarm line (R151). -/
def handCondition (name : AlarmName) (condition : Bool) (s : State) : State :=
  s.setPmn (s.pmn.setAlarm name ((s.pmn.line name).hand s.clock
    (s.cfg.assertDelay name) (s.cfg.releaseDelay name) condition))

/-- Expiry of an assert delay (R153). -/
def AlarmLine.assertExpiry (clock : Nat) (x : AlarmLine) : AlarmLine :=
  match x.timer with
  | .asserting expiry => if expiry ≤ clock then { x with logic := true, timer := .idle } else x
  | _ => x

/-- Expiry of a release delay (R153). -/
def AlarmLine.releaseExpiry (clock : Nat) (x : AlarmLine) : AlarmLine :=
  match x.timer with
  | .releasing expiry => if expiry ≤ clock then { x with logic := false, timer := .idle } else x
  | _ => x

/-- The output of a line (R152): asserted, as the override forces it or as the logic level stands. -/
def AlarmLine.output (x : AlarmLine) : Bool :=
  match x.override with
  | .forcedOn => true
  | .forcedOff => false
  | .none => x.logic

/-- Every alarm line changed by `f`. -/
def Pmn.mapAlarms (f : AlarmName → AlarmLine → AlarmLine) (p : Pmn) : Pmn :=
  { p with
    tripRequest := f .tripRequest p.tripRequest
    redundancyLow := f .redundancyLow p.redundancyLow
    commutationFailure := f .commutationFailure p.commutationFailure
    prfRate := f .prfRate p.prfRate }

/-- FORCE OUTPUTS on one record (R155): the override of a named line, and nothing else. -/
def AlarmLine.force (o : Option Override) (x : AlarmLine) : AlarmLine :=
  match o with
  | none => x
  | some v => { x with override := v }

/-- RELEASE OUTPUTS on one record (R156). -/
def AlarmLine.release (named : Bool) (x : AlarmLine) : AlarmLine :=
  if named then { x with override := .none } else x

/-- The alarm line is asserted to pole protection: its loop carries no current (R178). A station
without supply shows all four asserted, and a station in UNSET all four deasserted. -/
def State.alarmOutput (s : State) (name : AlarmName) : Bool :=
  if !s.supplied then true
  else if s.heldBlocks then false
  else (s.pmn.line name).output

/-! ### The PRF window ring and the holds (R146 to R150) -/

/-- The window sum (R147). -/
def Pmn.windowSum (p : Pmn) : Nat := p.ring.sum

/-- A count enters a ring as the newest and the oldest leaves it (R147). -/
def pushRing (ring : List Nat) (count : Nat) : List Nat := ring.drop 1 ++ [count]

/-- The PRF RATE condition is judged (R147). -/
def judgePrfRate (s : State) : State :=
  handCondition .prfRate (decide (s.cfg.prfLimit ≤ s.pmn.windowSum)) s

/-- The PMN takes a PRF indication (R146). -/
def pmnPrf (level : Nat) (s : State) : State :=
  s.setPmn { s.pmn with cyclePrf := insertLevel level s.pmn.cyclePrf }

/-- The cycle is closed at an own mark (R146 to R148): the count enters the ring, the set is emptied,
the peak hold follows the window sum, and PRF RATE is judged. -/
def closePrfCycle (s : State) : State :=
  let ring := pushRing s.pmn.ring s.pmn.cyclePrf.length
  judgePrfRate (s.setPmn
    { s.pmn with ring := ring, cyclePrf := [], peakHold := max s.pmn.peakHold ring.sum })

/-- A commutation failure reaches the PMN (R150). -/
def pmnFailure (s : State) : State :=
  handCondition .commutationFailure true (s.setPmn { s.pmn with cfHold := true })

/-- The mark's report of the cycle just ended reaches the PMN (R73, R150): with no failure the
hold is cleared. The VCM's flag is then cleared. -/
def reportCycle (s : State) : State :=
  let hold := s.pmn.cfHold && s.vcm.failureInCycle
  let s := handCondition .commutationFailure hold (s.setPmn { s.pmn with cfHold := hold })
  s.setVcm { s.vcm with failureInCycle := false }

/-- A measured gamma reaches the gamma minimum hold (R149). -/
def pmnGamma (gamma : Nat) (s : State) : State :=
  let kept := match s.pmn.gammaMin with
    | none => gamma
    | some old => min old gamma
  s.setPmn { s.pmn with gammaMin := some kept }

end Sys2Proof.Machine
end

