-- ==== Sys2Proof/Machine/Station.lean ====
section
/-! DEFINITION. Station Control (chapter 1): the station states and their transitions, with what
they bring to the pulse trains and to a survey in progress. -/

namespace Sys2Proof.Machine

/-! ### The end of a survey (R131, R170, R171) -/

/-- The data of a survey's RESULT: count OK, count failed, k and the failure list (R174). -/
def SurveyRecord.doneData (v : SurveyRecord) : List Byte :=
  [byteOf v.countOk, byteOf v.countFailed, byteOf v.failures.length] ++ v.failures.map byteOf

/-- The partial data of a survey that failed or was aborted: as DONE, then the next level (R174). -/
def SurveyRecord.partialData (v : SurveyRecord) : List Byte := v.doneData ++ [byteOf v.next]

/-- The window record with a SURVEY window discarded (R131). -/
def withoutSurveyWindow : Option AckWindow → Option AckWindow
  | some w => match w.kind with
    | .survey _ => none
    | _ => some w
  | none => none

/-- The CMU becomes IDLE and the PST discards its survey test record and an open SURVEY window
without a result (R131). -/
def endSurvey (s : State) : State :=
  (s.setCmu { executing := none }).setPst
    { s.pst with surveyTest := none, window := withoutSurveyWindow s.pst.window }

/-- A survey in progress is aborted when the station leaves SYNCED (R171). -/
def abortSurvey (s : State) : State :=
  match s.cmu.executing with
  | none => s
  | some v => produceResult v.tag v.code .aborted .state v.partialData (endSurvey s)

/-! ### Transitions -/

/-- The train record after the station state changes: a REFIRE train stops when the station leaves
RUNNING (R120), a BYPASS train when it leaves BYPASSING (R121). -/
def trainAfter (old new : StationState) : Train → Train
  | .stopped => .stopped
  | .refire expiry => if old = .running ∧ new ≠ .running then .stopped else .refire expiry
  | .bypass expiry => if old = .bypassing ∧ new ≠ .bypassing then .stopped else .bypass expiry

/-- The station enters a state. The DARK timer stops when it leaves SYNCED (R9), trains stop as
R120 and R121 give, and a survey in progress is aborted when it leaves SYNCED (R171). -/
def enterState (new : StationState) (s : State) : State :=
  let old := s.stc.state
  let s := s.setStc { s.stc with state := new, darkTimer := none }
  let s := s.setPst { s.pst with train := trainAfter old new s.pst.train }
  if old = .synced then abortSurvey s else s

/-- The consumed count is above R (R12, R15). -/
def State.overConsumed (s : State) : Bool := decide (s.cfg.redundancy < s.lvt.consumed)

/-- Entry into TRIPPED, which counts (R12, R15, R18). -/
def enterTripped (s : State) : State :=
  let s := enterState .tripped s
  s.setStc { s.stc with tripCount := count16 s.stc.tripCount }

/-- Entry into LISTENING (R5, R9, R13): sync count and runs 0, SYNC LOST clear, the DARK timer
stopped; a consumed count above R goes on to TRIPPED (R15). -/
def enterListening (s : State) : State :=
  let s := enterState .listening s
  let s := s.setStc { s.stc with syncCount := 0, badRun := 0, goodRun := 0, syncLost := false }
  if s.overConsumed then enterTripped s else s

/-- `q` is the bypass partner of `p` in a group of `g` (Conventions): G/2 places after it. -/
def bypassPartner (g p : Nat) : Nat := placesAfter g p (g / 2)

/-- The own position is in the bypass pair of an order (R10, R137). -/
def State.inPairOf (s : State) (o : Order) : Bool :=
  match o.bypass with
  | none => false
  | some p => decide (s.position = p.toNat) || decide (s.position = bypassPartner s.group p.toNat)

/-- The own position is in the bypass pair of the current order (R105). -/
def State.inPair (s : State) : Bool := s.inPairOf s.orh.current

/-- The conditions of R10 are evaluated: in SYNCED, with the block line released, the clash latch
clear and the consumed count not above R, a DEBLOCK enters RUNNING and a BYPASS naming the own pair
BYPASSING. -/
def evaluateDeblock (s : State) : State :=
  if s.stc.state = .synced ∧ !s.blockAsserted ∧ !s.stc.clashLatch ∧ !s.overConsumed then
    match s.orh.current.blockState with
    | .deblock => enterState .running s
    | .bypass => if s.inPair then enterState .bypassing s else s
    | .block => s
  else s

/-- The DARK timer starts when the station enters SYNCED with the valve DARK (R9). -/
def startDarkTimer (s : State) : State :=
  if s.vcm.valve = .dark then s.setStc { s.stc with darkTimer := some s.clock } else s

/-- Entry into SYNCED (R7, R8): sync count and runs 0. With SYNC LOST set it goes on to LISTENING
(R13), with the consumed count above R to TRIPPED (R15); otherwise R10 is evaluated. -/
def enterSynced (s : State) : State :=
  let s := enterState .synced s
  let s := s.setStc { s.stc with syncCount := 0, badRun := 0, goodRun := 0 }
  if s.stc.syncLost then enterListening s
  else if s.overConsumed then enterTripped s
  else evaluateDeblock (startDarkTimer s)

/-- The station leaves RUNNING or BYPASSING for SYNCED (R11), or for TRIPPED when the consumed count
is above R (R12). -/
def leaveFiring (s : State) : State :=
  if s.overConsumed then enterTripped s else enterSynced s

/-- STC follows an adopted order (R10 to R12, R139). -/
def stcAdopt (s : State) : State :=
  match s.stc.state with
  | .synced => evaluateDeblock s
  | .running =>
    match s.orh.current.blockState with
    | .deblock => s
    | .bypass => if s.inPair then enterState .bypassing s else leaveFiring s
    | .block => leaveFiring s
  | .bypassing =>
    match s.orh.current.blockState with
    | .deblock => if s.overConsumed then enterTripped s else enterState .running s
    | .bypass => if s.inPair then s else leaveFiring s
    | .block => leaveFiring s
  | _ => s

/-- STC at the assertion of the block line (R11). -/
def stcBlockAsserted (s : State) : State :=
  if s.stc.state = .running ∨ s.stc.state = .bypassing then leaveFiring s else s

/-- STC at a change of the consumed count (R10, R12, R15): a rise above R trips LISTENING and SYNCED;
otherwise SYNCED evaluates R10. -/
def stcConsumedChanged (old : Nat) (s : State) : State :=
  if decide (old < s.lvt.consumed) && s.overConsumed
      && (decide (s.stc.state = .listening) || decide (s.stc.state = .synced)) then
    enterTripped s
  else evaluateDeblock s

/-- STC at a clash notification (R14). -/
def stcClash (s : State) : State :=
  let s := s.setStc { s.stc with clashCount := count16 s.stc.clashCount }
  match s.stc.state with
  | .listening => s.setStc { s.stc with clashLatch := true, syncCount := 0 }
  | .synced => enterListening (s.setStc { s.stc with clashLatch := true })
  | .running => s.setStc { s.stc with clashSeen := true }
  | .bypassing => s.setStc { s.stc with clashSeen := true }
  | _ => s

/-- STC at the valve's entry into DARK (R7, R9). R7 names no state, so the sync count becomes 0 in TRIPPED as
well, where R15 leaves it alone (DESIGN CHOICE, log entry 28). -/
def stcValveDark (s : State) : State :=
  let s := s.setStc { s.stc with syncCount := 0 }
  if s.stc.state = .synced then startDarkTimer s else s

/-- STC at the valve's exit from DARK: the DARK timer stops (R9). -/
def stcValveLit (s : State) : State := s.setStc { s.stc with darkTimer := none }

/-- Firing is permitted (R105): RUNNING, or BYPASSING with the own position in the bypass pair, with
the block line released. -/
def State.firingPermitted (s : State) : Bool :=
  !s.blockAsserted && (decide (s.stc.state = .running)
    || (decide (s.stc.state = .bypassing) && s.inPair))

/-- The mark of BYPASSING within the pair applies (R105, R109). -/
def State.bypassFires (s : State) : Bool :=
  decide (s.stc.state = .bypassing) && s.inPair && !s.blockAsserted

end Sys2Proof.Machine
end

