-- ==== Sys2Proof/Machine/Levels.lean ====
section
/-! DEFINITION. The Level Table (chapter 5): level records, evidence, counts, quorums and
conditions. -/

namespace Sys2Proof.Machine

/-! ### One record (R80 to R86, R91, R92) -/

/-- The level is latched SILENT or NOFIRE, so that it counts as consumed (R87). -/
def LevelRecord.lost (r : LevelRecord) : Bool :=
  decide (r.state = .silent) || decide (r.state = .nofire)

/-- The state of a record decided anew from its miss counts and its latch (R80). -/
def LevelRecord.restate (r : LevelRecord) : LevelRecord :=
  if r.lost then r
  else { r with state := if r.fwdMiss = 0 ∧ r.ackMiss = 0 then .normal else .suspect }

/-- The latch SILENT (R82): the fwd miss count stays at 3, the ack miss count keeps its value. -/
def LevelRecord.latchSilent (r : LevelRecord) : LevelRecord :=
  { r with state := .silent, seen := false, fwdMiss := 3 }

/-- The latch NOFIRE (R84): the ack miss count stays at 3, the fwd miss count keeps its value. -/
def LevelRecord.latchNofire (r : LevelRecord) : LevelRecord :=
  { r with state := .nofire, seen := false, ackMiss := 3 }

/-- A FWD outcome (R81); a SILENT level discards it. -/
def LevelRecord.takeFwd (present : Bool) (r : LevelRecord) : LevelRecord :=
  if r.state = .silent then r
  else if present then { r with fwdMiss := 0 }.restate
  else if 2 ≤ r.fwdMiss then r.latchSilent
  else { r with fwdMiss := r.fwdMiss + 1 }.restate

/-- An ACK outcome (R83). -/
def LevelRecord.takeAck (present : Bool) (r : LevelRecord) : LevelRecord :=
  match r.state with
  | .silent => r
  | .nofire => if present then { r with seen := true } else r
  | _ =>
    if present then { r with ackMiss := 0 }.restate
    else if 2 ≤ r.ackMiss then r.latchNofire
    else { r with ackMiss := r.ackMiss + 1 }.restate

/-- A survey result (R92). -/
def LevelRecord.takeSurvey (result : SurveyResult) (r : LevelRecord) : LevelRecord :=
  let r := { r with lastSurvey := some result }
  match r.state, result with
  | .silent, .ok => r
  | .silent, _ => { r with ackMiss := 3 }
  | .nofire, .ok => { r with seen := true }
  | .nofire, _ => r
  | _, .ok => { r with ackMiss := 0 }.restate
  | _, _ => r.latchNofire

/-- A sign of life from a SILENT level (R85); it sets no flag of a level that is not latched. -/
def LevelRecord.signOfLife (r : LevelRecord) : LevelRecord :=
  if r.state = .silent then { r with seen := true } else r

/-- A PRF indication (R86). -/
def LevelRecord.takePrf (r : LevelRecord) : LevelRecord :=
  { r with prfCount := count8 r.prfCount }.signOfLife

/-- CLEAR LEVEL on one record (R91): the PRF count keeps its value. -/
def LevelRecord.clear (r : LevelRecord) : LevelRecord :=
  { r with state := .normal, fwdMiss := 0, ackMiss := 0, seen := false, lastSurvey := none }

/-- A record at its power-on values (R93). -/
def LevelRecord.fresh : LevelRecord where
  state := .normal
  fwdMiss := 0
  ackMiss := 0
  prfCount := 0
  seen := false
  lastSurvey := none

/-! ### The table (R87 to R89) -/

/-- The number of records in SILENT (R87). -/
def silentIn (levels : List LevelRecord) : Nat :=
  levels.countP (fun r => decide (r.state = .silent))

/-- The number of records in SILENT or NOFIRE (R87). -/
def consumedIn (levels : List LevelRecord) : Nat := levels.countP LevelRecord.lost

/-- An effective quorum (R88). -/
def effectiveQuorum (quorum levels silent : Nat) : Nat := max 1 (min quorum (levels - silent))

/-- REDUNDANCY LOW (R89). -/
def redundancyLowAt (redundancy consumed : Nat) : Bool :=
  if redundancy = 0 then decide (1 ≤ consumed) else decide (consumed = redundancy)

/-- The table with its counts, quorums and conditions recomputed from its records (R87 to R89). -/
def lvtOf (c : Setup) (levels : List LevelRecord) : Lvt where
  levels := levels
  silentCount := silentIn levels
  consumed := consumedIn levels
  qfEff := effectiveQuorum c.qf c.levels (silentIn levels)
  qrEff := effectiveQuorum c.qr c.levels (silentIn levels)
  redundancyLow := redundancyLowAt c.redundancy (consumedIn levels)
  tripCondition := decide (c.redundancy < consumedIn levels)

/-- The state of the level with index `n`, when the table has it. -/
def State.levelState (s : State) (n : Nat) : Option LevelState :=
  (itemAt s.lvt.levels n).map LevelRecord.state

/-- The level is one of the valve's and is SILENT. -/
def State.silent (s : State) (n : Nat) : Bool := decide (s.levelState n = some .silent)

/-- The indices of the levels that are not SILENT, ascending (R74, R123). -/
def State.heardLevels (s : State) : List Nat :=
  (levelsUpTo s.lvt.levels.length).filter (fun n => !s.silent n)

/-- A record is changed without an effect on its state (R85, R86). -/
def touchLevel (f : LevelRecord → LevelRecord) (n : Nat) (s : State) : State :=
  s.setLvt { s.lvt with levels := changeAt f s.lvt.levels n }

/-- The level set without the levels that the new records make SILENT (R60, R82). -/
def heardOnly (levels : List LevelRecord) (set : List Nat) : List Nat :=
  set.filter (fun n => decide ((itemAt levels n).map LevelRecord.state ≠ some .silent))

/-- The records change at the end of one event (R81, R83, R87, R91, R92): the counts, quorums and
conditions are recomputed once. The VCM drops SILENT levels from its sets (R60), the PMN takes the
two conditions (R89), and STC takes a changed consumed count (R87). A quorum falls only at an
evaluation, which finds the sets just emptied, so no set reaches it here (R75). -/
def setLevels (levels : List LevelRecord) (s : State) : State :=
  let old := s.lvt.consumed
  let s := s.setLvt (lvtOf s.cfg levels)
  let s := s.setVcm { s.vcm with
    fwdSet := heardOnly levels s.vcm.fwdSet, revSet := heardOnly levels s.vcm.revSet }
  let s := handCondition .tripRequest s.lvt.tripCondition s
  let s := handCondition .redundancyLow s.lvt.redundancyLow s
  if s.lvt.consumed = old then s else stcConsumedChanged old s

/-- The FWD outcomes of one evaluation are applied (R74, R81): present for a level in the roster,
absent for another; SILENT levels receive none. -/
def takeFwdOutcomes (roster : List Nat) (s : State) : State :=
  setLevels (mapFrom (fun n r => r.takeFwd (roster.contains n)) 1 s.lvt.levels) s

/-- The ACK outcomes of one window are applied to its targets (R83, R125). -/
def takeAckOutcomes (targets acked : List Nat) (s : State) : State :=
  setLevels (mapFrom
    (fun n r => if targets.contains n then r.takeAck (acked.contains n) else r) 1 s.lvt.levels) s

/-- A survey result is applied to level `n` (R92). -/
def takeSurveyResult (n : Nat) (result : SurveyResult) (s : State) : State :=
  setLevels (changeAt (LevelRecord.takeSurvey result) s.lvt.levels n) s

/-- CLEAR LEVEL for one level (R91). -/
def clearLevel (n : Nat) (s : State) : State :=
  setLevels (changeAt LevelRecord.clear s.lvt.levels n) s

/-- CLEAR LEVEL for all levels (R91). -/
def clearAllLevels (s : State) : State := setLevels (s.lvt.levels.map LevelRecord.clear) s

/-- The Level Table formed at the adoption of a SETUP (R79, R93). -/
def Lvt.formed (c : Setup) : Lvt := lvtOf c (List.replicate c.levels LevelRecord.fresh)

end Sys2Proof.Machine
end

