-- ==== Sys2Proof/Machine/PeerRoll.lean ====
section
/-! DEFINITION. The Peer Roll (chapter 3): roll entries, references, the period estimate, the group
minimum gamma and the take-over instant. -/

namespace Sys2Proof.Machine

/-! ### Entries (R40, R46 to R48) -/

/-- The entry of a position, when the roll has it. -/
def State.entry (s : State) (position : Nat) : Option RollEntry := itemAt s.prl.roll position

/-- The report of an entry that is HELD and not aged: the values that comparisons of instants read
(R47). An EMPTY or aged entry gives none, that is −∞. -/
def RollEntry.current (x : RollEntry) : Option RollReport :=
  if x.missed = 255 then none else x.held

/-- The mark instant of an entry as comparisons take it (R47). -/
def RollEntry.markAt (x : RollEntry) : Option Instant := x.current.map RollReport.markInstant

/-- The own last mark instant: the mark instant of the own entry, −∞ while it is EMPTY (R45). -/
def State.ownMark (s : State) : Option Instant :=
  match s.entry s.position with
  | some x => x.held.map RollReport.markInstant
  | none => none

/-- An instant is later than the own last mark instant (R48, R54, R76). -/
def State.sinceOwnMark (s : State) (t : Instant) : Bool := laterThanRecord t s.ownMark

/-- The report of the entry at distance `d` before the own position, when it is usable as a reference
for the coming own mark (R48). -/
def State.usableAt (s : State) (d : Nat) : Option RollReport :=
  match s.entry (placesBefore s.group s.position d) with
  | none => none
  | some x =>
    match x.current with
    | none => none
    | some r => if s.sinceOwnMark r.markInstant && !later r.markInstant s.now then some r else none

/-- Some roll entry at distance 1, 2 or 3 is usable (R6, R48). -/
def State.referenceHeard (s : State) : Bool :=
  (s.usableAt 1).isSome || (s.usableAt 2).isSome || (s.usableAt 3).isSome

/-- An entry changed by `f`. -/
def changeEntry (f : RollEntry → RollEntry) (position : Nat) (s : State) : State :=
  s.setPrl { s.prl with roll := changeAt f s.prl.roll position }

/-- A peer entry at an own mark (R46): with a mark instant not later than the own previous mark
instant, its missed counter is incremented. -/
def RollEntry.missMark (ownMark : Option Instant) (x : RollEntry) : RollEntry :=
  match x.markAt with
  | none => { x with missed := count8 x.missed }
  | some t => if laterThanRecord t ownMark then x else { x with missed := count8 x.missed }

/-- Every peer entry is examined at an own mark (R46). -/
def countMissed (s : State) : State :=
  s.setPrl { s.prl with
    roll := mapFrom (fun k x => if k = s.position then x else x.missMark s.ownMark) 1 s.prl.roll }

/-- The own entry is written from the mark that is taken at the present instant (R45). -/
def writeOwnEntry (report : MarkReport) (seq : Byte) (s : State) : State :=
  changeEntry (fun x => { x with
    held := some { markInstant := s.now, acceptInstant := s.now, seq := seq, report := report }
    missed := 0 }) s.position s

/-! ### The period estimate (R50 to R52) -/

/-- T_est moved by an admitted sample: a sixteenth of the difference, truncated toward zero, clamped
to 15,000 to 22,000 (R51). -/
def movedPeriod (tEst : Nat) (sample : Nat) : Nat :=
  (clampInt 15000 22000 ((tEst : Int) + ((sample : Int) - tEst).tdiv 16)).toNat

/-- A sample is judged against the present T_est (R51). -/
def judgeSample (sample : Nat) (s : State) : State :=
  if ((sample : Int) - s.prl.tEst).natAbs ≤ s.prl.tEst / 10 then
    s.setPrl { s.prl with tEst := movedPeriod s.prl.tEst sample }
  else s.setPrl { s.prl with outliers := count16 s.prl.outliers }

/-- A mark is offered to the period estimate (R50). -/
def offerMark (position : Nat) (t : Instant) (s : State) : State :=
  let record : LastArrival := { position := position, instant := t }
  match s.prl.lastArrival with
  | none => s.setPrl { s.prl with lastArrival := some record }
  | some old =>
    if later t old.instant then
      let d := distance s.group old.position position
      let s := if 1 ≤ d ∧ d ≤ 3 then
          judgeSample (s.group * (instantDiff t old.instant).toNat / d) s
        else s
      s.setPrl { s.prl with lastArrival := some record }
    else s

/-- The local run after an own mark (R52). -/
def runAfter (placing : Placing) (run : Nat) : Nat :=
  match placing with
  | .localVoltage => min 3 (run + 1)
  | _ => 0

/-- The PRL's part of taking a mark that follows the writing of the own entry (R45, R112): the mark
instant is offered to the period estimate, and the local run is updated. -/
def offerOwnMark (placing : Placing) (s : State) : State :=
  let s := offerMark s.position s.now s
  s.setPrl { s.prl with localRun := runAfter placing s.prl.localRun }

/-- A forward-to-forward interval is reported to the PRL (R52). -/
def reportInterval (interval : Option Nat) (s : State) : State :=
  match interval with
  | none => s
  | some t => if s.prl.localRun = 3 then judgeSample t s else s

/-! ### Services (R54, R55) -/

/-- The smaller of two values, of which either may be absent. -/
def minOption : Option Nat → Option Nat → Option Nat
  | none, y => y
  | x, none => x
  | some x, some y => some (min x y)

/-- The gamma of a peer entry that takes part in g_min (R54). -/
def RollEntry.recentGamma (ownMark : Option Instant) (x : RollEntry) : Option Nat :=
  match x.current with
  | none => none
  | some r => if laterThanRecord r.acceptInstant ownMark then r.report.gamma else none

/-- The own last gamma while its measurement instant is later than the own last mark (R54, R76). -/
def State.freshGamma (s : State) : Option Nat :=
  match s.vcm.gamma with
  | none => none
  | some g => if s.sinceOwnMark g.instant then some g.angle else none

/-- The own last mu while its measurement instant is later than the own last mark (R76). -/
def State.freshMu (s : State) : Option Nat :=
  match s.vcm.mu with
  | none => none
  | some m => if s.sinceOwnMark m.instant then some m.angle else none

/-- The group minimum gamma (R54). -/
def State.gMin (s : State) : Option Nat :=
  ((mapFrom (fun k x => if k = s.position then none else RollEntry.recentGamma s.ownMark x) 1
    s.prl.roll).foldl minOption s.freshGamma)

/-- The fired values whose mark instant is a firing instant (R55). -/
def Fired.takesOver : Fired → Bool
  | .main => true
  | .deferred => true
  | .endStop => true
  | .bypass => true
  | _ => false

/-- The take-over position, G/3 places after the own position (Conventions). -/
def State.takeOverPosition (s : State) : Nat := placesAfter s.group s.position (s.group / 3)

/-- The take-over instant (R55). -/
def State.takeOver (s : State) : Option Instant :=
  match s.entry s.takeOverPosition with
  | none => none
  | some x =>
    match x.current with
    | none => none
    | some r =>
      if r.report.fired.takesOver && laterThanRecord r.markInstant s.vcm.f then some r.markInstant
      else none

/-! ### MARK and EVENT frames (R41 to R44) -/

/-- The mark instant of a peer in the local time base (R41). -/
def peerMarkInstant (c : Setup) (arrival : Instant) (lag : BitVec 12) : Instant :=
  arrival - lag.setWidth 32 - BitVec.ofNat 32 c.linkLatency

/-- The report that a MARK carries, when all its codes are ones that R40 lists (R42, R43). -/
def reportOf (m : MarkFields) : Option MarkReport :=
  match firedOfCode m.fired, sourceOfCode m.source, stationOfCode m.station with
  | some fired, some source, some station =>
    some
      { fired, source, station, flags := m.flags
        healthA := healthOfCode m.healthA, healthB := healthOfCode m.healthB
        consumed := m.consumed.toNat
        alpha := angleOf m.alpha, gamma := angleOf m.gamma, mu := angleOf m.mu
        orderSeq := m.orderSeq }
  | _, _, _ => none

/-- A MARK's angles or consumed count lie above their limits (R42). -/
def valuesTooLarge (m : MarkFields) : Bool :=
  angleTooLarge m.alpha || angleTooLarge m.gamma || angleTooLarge m.mu
    || decide (96 < m.consumed.toNat)

/-- A MARK's report when R42 does not refuse it, against the entry of its sender. -/
def admitted (m : MarkFields) (markInstant : Instant) (x : RollEntry) : Option MarkReport :=
  match reportOf m with
  | none => none
  | some report =>
    if valuesTooLarge m || !laterThanRecord markInstant x.markAt then none else some report

/-- A MARK is refused (R42): it counts, and clears the missed counter of the sender's entry. -/
def refuseMark (sender : Nat) (s : State) : State :=
  let s := changeEntry (fun x => { x with missed := 0 }) sender s
  s.setPrl { s.prl with marksRefused := count16 s.prl.marksRefused }

/-- A MARK is written into its sender's entry (R43); the completion instant is the present one. -/
def writePeerEntry (sender : Nat) (markInstant : Instant) (seq : Byte) (report : MarkReport)
    (s : State) : State :=
  changeEntry (fun x => { x with
    held := some { markInstant, acceptInstant := s.now, seq, report }
    missed := 0 }) sender s

/-- An EVENT is dispatched to the PRL (R44): a pair of codes outside the table is refused. -/
def prlEvent (sender : Nat) (kind : Option EventKind) (s : State) : State :=
  match kind with
  | none => s.setPrl { s.prl with marksRefused := count16 s.prl.marksRefused }
  | some k => changeEntry (fun x => { x with lastEvent := some k }) sender s

end Sys2Proof.Machine
end

