-- ==== Sys2Proof/Machine/Firing.lean ====
section
/-! DEFINITION. The Firing Instant Computer (chapter 6): the target angle, the three mark sources, the
firing limits and the failure advance. -/

namespace Sys2Proof.Machine

/-! ### The current order as supplied (R136) -/

/-- alpha_order as supplied: 18,000 when above it. -/
def State.alphaOrder (s : State) : Nat := min 18000 s.orh.current.alphaOrder

/-- gamma_order as supplied: taken as 6,000 when above it, then raised to gamma_crit. -/
def State.gammaOrder (s : State) : Nat := max s.cfg.gammaCrit (min 6000 s.orh.current.gammaOrder)

/-! ### The target angle (R97 to R99) -/

/-- The deficit (R99, step 1). -/
def deficitOf (gammaOrder deadband : Nat) (gMin : Option Nat) : Nat :=
  match gMin with
  | none => 0
  | some g => if gammaOrder - g ≤ deadband then 0 else gammaOrder - g

/-- adv (R99, step 2). -/
def State.advance1 (s : State) : Nat := if 0 < s.fic.advanceCount then s.cfg.acf else 0

/-- The margin angle alpha_g (R99, step 3), in signed cdeg. -/
def State.marginAngle (s : State) : Int :=
  18000 - s.gammaOrder - s.vcm.muHold - deficitOf s.gammaOrder s.cfg.gammaDeadband s.gMin - s.advance1

/-- The target angle alpha_t (R97): R98 in RECTIFIER mode, R99 in INVERTER mode. -/
def State.alphaTarget (s : State) : Int :=
  match s.orh.current.mode with
  | .rectifier => clampInt s.cfg.alphaMin s.cfg.alphaMaxR s.alphaOrder
  | .inverter => clampInt s.cfg.alphaMin s.cfg.alphaMaxI (min (s.alphaOrder : Int) s.marginAngle)

/-! ### GROUP marks (R100, R101) -/

/-- The step angle S (Conventions). -/
def State.stepAngle (s : State) : Nat := 36000 / s.group

/-- The raw error e (R100, step 2): 0 when the reference reports no alpha. -/
def rawErrorOf (alphaT : Int) (refAlpha : Option Nat) : Int :=
  match refAlpha with
  | none => 0
  | some a => alphaT - a

/-- The correction c (R100, steps 3 and 4). -/
def State.correction (s : State) (e : Int) : Int :=
  let e' := if e.natAbs ≤ s.cfg.latticeDeadband then 0 else e
  clampAbs (s.ticks 200) (halfTowardZero (s.ticks e'))

/-- A GROUP mark before it is held to the present instant: N + c (R100). -/
def State.groupInstant (s : State) (d : Nat) (refInstant : Instant) (e : Int) : Instant :=
  instantPlus (instantPlus refInstant (d * s.ticks s.stepAngle)) (s.correction e)

/-- An instant earlier than the present one is taken as the present one (R100, R104). -/
def State.notBeforeNow (s : State) (m : Instant) : Instant := if earlier m s.now then s.now else m

/-- The mark that a reference gives with the present target angle (R100, R104). -/
def State.groupMark (s : State) (d : Nat) (refInstant : Instant) (refAlpha : Option Nat) : ArmedMark :=
  let alphaT := s.alphaTarget
  let e := rawErrorOf alphaT refAlpha
  { m := s.notBeforeNow (s.groupInstant d refInstant e), alphaT := alphaT
    placing := .group d refInstant refAlpha e }

/-- The GROUP mark lies before the present instant and is counted as late (R100, R104, R116). -/
def State.groupLate (s : State) (d : Nat) (refInstant : Instant) (refAlpha : Option Nat) : Bool :=
  earlier (s.groupInstant d refInstant (rawErrorOf s.alphaTarget refAlpha)) s.now

/-- The late reference count after a GROUP mark is formed. -/
def countLate (late : Bool) (s : State) : State :=
  if late then s.setFic { s.fic with lateCount := count16 s.fic.lateCount } else s

/-- A candidate at distance `d` replaces the armed record (R101). -/
def replacesArmed (d : Nat) (deferral armed : Option ArmedMark) : Bool :=
  match armed with
  | none => deferral.isNone
  | some a =>
    match a.placing with
    | .group d' _ _ _ => decide (d < d')
    | _ => true

/-- A usable entry at distance `d` is handed to the FIC (R49): the GROUP candidate is formed (R100),
and R101 decides whether it replaces the armed mark. -/
def handReference (d : Nat) (ref : RollReport) (s : State) : State :=
  let mark := s.groupMark d ref.markInstant ref.report.alpha
  let s := countLate (s.groupLate d ref.markInstant ref.report.alpha) s
  if replacesArmed d s.fic.deferral s.fic.armed then s.setFic { s.fic with armed := some mark } else s

/-! ### FLYWHEEL and LOCAL marks, recomputation (R102 to R104) -/

/-- The slew of a FLYWHEEL mark: clamp(ticks(alpha_t − alpha_t_last), ±ticks(200)) (R102). -/
def State.slew (s : State) (alphaT alphaLast : Int) : Int :=
  clampAbs (s.ticks 200) (s.ticks (alphaT - alphaLast))

/-- M of a FLYWHEEL mark from the own mark instant (R102). -/
def State.flywheelInstant (s : State) (ownMark : Instant) (alphaT alphaLast : Int) : Instant :=
  instantPlus (instantPlus ownMark s.prl.tEst) (s.slew alphaT alphaLast)

/-- The FLYWHEEL mark is armed, as the last effect of taking a mark at the present instant with the
target angle `alphaT` (R102). -/
def armFlywheel (alphaT : Int) (s : State) : State :=
  let target := s.alphaTarget
  s.setFic { s.fic with
    alphaLast := some alphaT
    armed := some { m := s.flywheelInstant s.now target alphaT, alphaT := target, placing := .flywheel } }

/-- M of a LOCAL mark: V_f + ticks(alpha_t) (R103). -/
def State.localInstant (s : State) (vf : Instant) (alphaT : Int) : Instant := instantPlus vf (s.ticks alphaT)

/-- The own last mark, as the own entry holds it, was not placed with source GROUP (R103). -/
def State.ownMarkNotGroup (s : State) : Bool :=
  match s.entry s.position with
  | some x =>
    match x.held with
    | some r => decide (r.report.source ≠ .group)
    | none => false
  | none => false

/-- The valve's entry into FORWARD arms a LOCAL mark (R103). -/
def armsLocal (fromDark : Bool) (s : State) : Bool :=
  match s.fic.armed with
  | none => s.fic.deferral.isNone
  | some a => decide (a.placing = .flywheel) && (fromDark || s.ownMarkNotGroup)

/-- The FIC at the valve's entry into FORWARD at V_f (R64, R103). -/
def ficForward (fromDark : Bool) (vf : Instant) (s : State) : State :=
  if armsLocal fromDark s then
    let target := s.alphaTarget
    s.setFic { s.fic with
      armed := some { m := s.localInstant vf target, alphaT := target, placing := .localVoltage } }
  else s

/-- The FIC recomputes its armed mark with the new current order (R104). -/
def recomputeArmed (s : State) : State :=
  match s.fic.armed with
  | none => s
  | some a =>
    let target := s.alphaTarget
    match a.placing with
    | .group d refInstant refAlpha _ =>
      let mark := s.groupMark d refInstant refAlpha
      let s := countLate (s.groupLate d refInstant refAlpha) s
      s.setFic { s.fic with armed := some mark }
    | .flywheel =>
      match s.ownMark with
      | none => s
      | some own =>
        let m := s.notBeforeNow (s.flywheelInstant own target (s.fic.alphaLast.getD target))
        s.setFic { s.fic with armed := some { m := m, alphaT := target, placing := .flywheel } }
    | .localVoltage =>
      match s.vcm.vf with
      | none => s
      | some vf =>
        let m := s.notBeforeNow (s.localInstant vf target)
        s.setFic { s.fic with armed := some { m := m, alphaT := target, placing := .localVoltage } }

/-! ### Firing limits (R106 to R108) -/

/-- lo = V_f + ticks(alpha_min), at the T_est current now (R106). -/
def State.lo (s : State) (vf : Instant) : Instant := instantPlus vf (s.ticks s.cfg.alphaMin)

/-- hi = V_f + ticks(16,500), at the T_est current now (R106). -/
def State.hi (s : State) (vf : Instant) : Instant := instantPlus vf (s.ticks 16500)

/-- The limit of a deferral: M + ticks(3,000), at the T_est current now (R108). -/
def State.deferralEnd (s : State) (a : ArmedMark) : Instant := instantPlus a.m (s.ticks 3000)

/-- The present instant has reached `t`. -/
def State.reached (s : State) (t : Instant) : Bool := !later t s.now

/-! ### The failure advance (R114, R115) -/

/-- A commutation failure reaches the FIC (R114): while INVERTER is current the count is set. -/
def ficFailure (s : State) : State :=
  match s.orh.current.mode with
  | .inverter => s.setFic { s.fic with advanceCount := s.cfg.ncf }
  | .rectifier => s

/-- The count after an own mark (R115). -/
def decrementAdvance (s : State) : State :=
  s.setFic { s.fic with advanceCount := s.fic.advanceCount - 1 }

/-- The FIC at an adoption (R104, R114, R139). -/
def ficAdopt (s : State) : State :=
  let s := match s.orh.current.mode with
    | .rectifier => s.setFic { s.fic with advanceCount := 0 }
    | .inverter => s
  recomputeArmed s

end Sys2Proof.Machine
end

