-- ==== Sys2Proof/Machine/Orders.lean ====
section
/-! DEFINITION. The Order Holder (chapter 8): acceptance, adoption and order loss. -/

namespace Sys2Proof.Machine

/-- The order that an ORDER frame carries, when R134 does not refuse it: its mode and block state are
known codes, and a BYPASS names a position of the group. -/
def orderOf (group : Nat) (o : OrderFields) : Option Order :=
  match modeOfCode o.mode, blockStateOfCode o.blockState with
  | some mode, some blockState =>
    if blockState = .bypass && !within 1 group o.bypass.toNat then none
    else some
      { seq := some o.orderSeq, mode, blockState, bypass := some o.bypass
        alphaOrder := o.alphaOrder.toNat, gammaOrder := o.gammaOrder.toNat }
  | _, _ => none

/-- An ORDER is dispatched to the ORH (R134, R135): refused and counted, or accepted as the pending
order with the order age set to 0. -/
def orhOrder (o : OrderFields) (s : State) : State :=
  match orderOf s.group o with
  | none => s.setOrh { s.orh with refused := count16 s.orh.refused }
  | some order => s.setOrh { s.orh with
      pending := some order, pendingForced := false, age := 0, stale := false
      accepted := count16 s.orh.accepted }

/-- The ORH forces a block (R142): with an order age above 200,000 ticks and DEBLOCK current, the
pending order becomes a copy of the current order with BLOCK. While that copy is pending it is not
judged again. -/
def forceBlock (s : State) : State :=
  if decide (200000 < s.orh.age) && decide (s.orh.current.blockState = .deblock)
      && !s.orh.pendingForced then
    s.setOrh { s.orh with
      pending := some { s.orh.current with blockState := .block }, pendingForced := true
      losses := count16 s.orh.losses }
  else s

/-- An adoption point is reached (R138): a pending order becomes current and is handed to STC and to
the FIC (R139); the order loss is then judged (R142). -/
def adopt (s : State) : State :=
  match s.orh.pending with
  | none => s
  | some order =>
    let s := s.setOrh { s.orh with current := order, pending := none, pendingForced := false }
    forceBlock (ficAdopt (stcAdopt s))

end Sys2Proof.Machine
end

