-- ==== Sys2Proof/Machine/Valve.lean ====
section
/-! DEFINITION. The Valve Cycle Monitor and the Pulse Stage (chapters 4 and 7): commutation failure,
the evaluation points, ACK windows, pulses and the entries they cause. -/

namespace Sys2Proof.Machine

/-! ### Commutation failure (R72) -/

/-- The kinds of commutation failure (section 4.4). -/
def countFailure (kind : EventKind) (v : Vcm) : Vcm :=
  match kind with
  | .recoveryShort => { v with failureInCycle := true, shortCount := count16 v.shortCount }
  | .noExtinction => { v with failureInCycle := true, noExtCount := count16 v.noExtCount }
  | .protectiveFire => v

/-- A commutation failure is declared at the present instant (R72). -/
def declareFailure (kind : EventKind) (s : State) : State :=
  let s := s.setVcm (countFailure kind s.vcm)
  let s := produce (.event kind) s
  pmnFailure (ficFailure s)

/-! ### The survey's results in the CMU (R169) -/

/-- The executing record with a survey result taken (R169). -/
def SurveyRecord.take (result : SurveyResult) (v : SurveyRecord) : SurveyRecord :=
  match result with
  | .ok => { v with countOk := v.countOk + 1, next := v.next + 1 }
  | _ => { v with
      countFailed := v.countFailed + 1
      failures := if v.failures.length < 16 then v.failures ++ [v.next] else v.failures
      next := v.next + 1 }

/-- The CMU takes a survey result (R169): it counts it and completes the survey after the last level.
An IDLE CMU drops the result. -/
def cmuSurveyResult (result : SurveyResult) (s : State) : State :=
  match s.cmu.executing with
  | none => s
  | some v =>
    let v := v.take result
    if v.last < v.next then
      produceResult v.tag v.code .done .none v.doneData (endSurvey s)
    else s.setCmu { executing := some v }

/-- An own mark is taken while a survey is executing (R170): it counts, and ends the survey beyond its
step limit. -/
def countSurveyMark (s : State) : State :=
  match s.cmu.executing with
  | none => s
  | some v =>
    let v := { v with marks := count8 v.marks }
    if v.last - v.first + 1 + 8 < v.marks then
      produceResult v.tag v.code .failed .noVoltage v.partialData (endSurvey s)
    else s.setCmu { executing := some v }

/-! ### ACK windows (R123 to R125) -/

/-- The result of a survey window for level `n` (R125, R132). -/
def surveyResultOf (n : Nat) (acked : List Nat) : SurveyResult :=
  if acked = [] then .noAck else if acked = [n] then .ok else .cross

/-- A survey result is handed to the LVT and to the CMU at one instant; which takes it first is open
where it matters (R171). -/
def deliverSurveyResult (n : Nat) (result : SurveyResult) (s : State) : State :=
  inAnyOrder [takeSurveyResult n result, cmuSurveyResult result] s

/-- An open window closes and delivers its findings, and the record becomes NONE (R125). -/
def closeWindow (s : State) : State :=
  match s.pst.window with
  | none => s
  | some w =>
    let s := s.setPst { s.pst with window := none }
    match w.kind with
    | .survey n => deliverSurveyResult n (surveyResultOf n w.acked) s
    | _ => takeAckOutcomes w.targets w.acked s

/-- A window opens at the present instant (R123); one that is open is closed first, with its outcomes
delivered. The new window then opens whatever those outcomes brought (log entry 26). -/
def openWindow (kind : WindowKind) (targets : List Nat) (s : State) : State :=
  let s := closeWindow s
  let expiry := timerExpiry (s.cfg.ackWindow.atLeast 1) s.clock
  s.setPst { s.pst with window := some { kind, targets, acked := [], expiry } }

/-- An ACK is gathered, handed to the LVT, or counted as stray (R124). -/
def pstAck (n : Nat) (s : State) : State :=
  let stray (s : State) : State :=
    if s.silent n then s else s.setPst { s.pst with strayAck := count16 s.pst.strayAck }
  let s' := match s.pst.window with
    | none => stray s
    | some w =>
      let gathers := match w.kind with
        | .survey _ => true
        | _ => w.targets.contains n
      if gathers then s.setPst { s.pst with window := some { w with acked := insertLevel n w.acked } }
      else stray s
  touchLevel LevelRecord.signOfLife n s'

/-! ### Entries that a pulse or a quorum causes (R66 to R69) -/

/-- What every entry into a valve cycle state does to the VCM: both sets emptied (R60), the
pulse-in-DARK flag cleared (R66). -/
def Vcm.enter (v : Vcm) (new : ValveState) : Vcm :=
  { v with valve := new, fwdSet := [], revSet := [], pulseInDark := false }

/-- STC is told of an exit from DARK (R63). -/
def leaveDark (old : ValveState) (s : State) : State :=
  if old = .dark then stcValveLit s else s

/-- A survey test waits no longer when the valve has left FORWARD (R131). -/
def dropSurveyTest (s : State) : State := s.setPst { s.pst with surveyTest := none }

/-- The forward interval ended by a firing is long enough to be evaluated (R74): from V_f to F at least
ticks(1,000). -/
def State.intervalLong (s : State) : Bool :=
  match s.vcm.vf with
  | none => false
  | some vf => decide (s.ticks 1000 ≤ instantDiff s.now vf)

/-- The forward roster is emptied (R62). -/
def clearRoster (s : State) : State := s.setVcm { s.vcm with roster := [] }

/-- The FWD outcomes of the forward interval are evaluated, and the roster is emptied (R62, R74). -/
def evaluateForward (s : State) : State := clearRoster (takeFwdOutcomes s.vcm.roster s)

/-- The PRF gather ends (R127). -/
def endGather (s : State) : State := s.setPst { s.pst with gather := none }

/-- Entry into CONDUCTING at the present instant (R67): F, the sets, both timers, the evaluation of a
forward interval that ends here, the conduction cause (R105), and the end of a PRF gather (R127). -/
def enterConducting (cause : Cause) (s : State) : State :=
  let old := s.vcm.valve
  let long := s.intervalLong
  let s := s.setVcm { s.vcm.enter .conducting with
    f := some s.now, inactivity := some s.clock, noExtinction := some s.clock, spent := false }
  let s := leaveDark old s
  let s := dropSurveyTest s
  let s := if old = .forward ∧ long then evaluateForward s else clearRoster s
  endGather (s.setFic { s.fic with cause := some cause })

/-- A main, re-fire or bypass pulse reaches the VCM (R67). -/
def valvePulse (s : State) : State :=
  match s.vcm.valve with
  | .dark => s.setVcm { s.vcm with pulseInDark := true }
  | .forward => enterConducting .pulse s
  | _ => s

/-- A protective valve firing reaches the VCM (R68). -/
def valveProtective (s : State) : State :=
  match s.vcm.valve with
  | .conducting => s
  | .recovering => s
  | _ => enterConducting .protective s

/-! ### Pulses (R118 to R121, R128) -/

/-- The train record that a main pulse leaves (R119): factor 0 gives no train, factor 1 is taken
as 2. -/
def refireTrain (c : Setup) (clock : Nat) : Train :=
  if c.refire.factor = 0 then .stopped else .refire (timerExpiry (c.refire.atLeast 2) clock)

/-- The train record that a bypass pulse leaves (R121): factors 0 and 1 are taken as 2. -/
def bypassTrain (c : Setup) (clock : Nat) : Train := .bypass (timerExpiry (c.refire.atLeast 2) clock)

/-- A main pulse is sent (R118): to all fibres, to the VCM, with an ACK window whose targets are
fixed before the VCM acts (R123), and with a re-fire train except for FORCED. -/
def mainPulse (fired : Fired) (s : State) : State :=
  let targets := s.heardLevels
  let s := valvePulse (emitToAll .main s)
  let s := openWindow .main targets s
  if fired = .forced then s
  else s.setPst { s.pst with train := refireTrain s.cfg s.clock }

/-- A bypass firing (R121): a bypass pulse to all fibres, and the BYPASS train started anew. -/
def bypassFiring (s : State) : State :=
  let s := valvePulse (emitToAll .bypass s)
  s.setPst { s.pst with train := bypassTrain s.cfg s.clock }

/-- A re-fire pulse at the expiry of the train timer, and the timer restarted (R119). A FORWARD valve enters
CONDUCTING by it, also while a deferral waits whose limit has already passed. R108 gives the forced pulse at once
only for a valve that leaves FORWARD for REVERSE or DARK, so none is made here: the deferral waits on, and a
DEFERRAL_LIMIT taken outside FORWARD makes the pulse (DESIGN CHOICE, unsafe, log entry 33). -/
def refirePulse (s : State) : State :=
  let s := valvePulse (emitToAll .refire s)
  s.setPst { s.pst with train := .refire (timerExpiry (s.cfg.refire.atLeast 2) s.clock) }

/-- The protective valve firing itself (R128, R129): the gather ends, all fibres are pulsed, the VCM
enters CONDUCTING, an EVENT is produced and the protective-fire-seen flag set, a PVF window opens,
and the PVF count rises. -/
def protectiveFiring (s : State) : State :=
  let targets := s.heardLevels
  let s := valveProtective (emitToAll .pvf (endGather s))
  let s := produce (.event .protectiveFire) s
  let s := s.setPst { s.pst with pvfSeen := true }
  let s := openWindow .pvf targets s
  s.setPst { s.pst with pvfCount := count16 s.pst.pvfCount }

end Sys2Proof.Machine
end

