-- ==== Sys2Proof/Machine/Marks.lean ====
section
/-! DEFINITION. Taking a mark (R111, R112), the judgement of marks by Station Control (R6 to R8, R13),
deferrals (R108) and the valve cycle entries that reach them. -/

namespace Sys2Proof.Machine

/-! ### The judgement of a mark (R6 to R8, R13) -/

/-- The valve's last forward interval agrees with T_est: within trunc(T_est / 200) ticks (R6 (b)). -/
def State.intervalAgrees (s : State) : Bool :=
  match s.vcm.fwdInterval with
  | none => false
  | some t => decide (((t : Int) - s.prl.tEst).natAbs ≤ s.prl.tEst / 200)

/-- The mark qualifies for acquisition (R6). `refHeard` says that a reference was usable at the mark. -/
def State.qualifies (s : State) (placing : Placing) (refHeard : Bool) : Bool :=
  match placing with
  | .group _ _ _ e => decide (e.natAbs ≤ 100)
  | .localVoltage => !refHeard && s.intervalAgrees
  | .flywheel => false

/-- STC judges a mark taken in LISTENING (R6, R7). -/
def judgeListening (placing : Placing) (refHeard : Bool) (s : State) : State :=
  let count :=
    if s.stc.clashLatch ∨ s.vcm.valve = .dark ∨ ¬ s.qualifies placing refHeard then 0
    else s.stc.syncCount + 1
  let s := s.setStc { s.stc with syncCount := count }
  if 8 ≤ count then enterSynced s else s

/-- The bad run and the good run after a mark (R8). -/
def runsAfter (placing : Placing) (bad good : Nat) : Nat × Nat :=
  match placing with
  | .group _ _ _ e =>
    if 1000 < e.natAbs then (min 3 (bad + 1), 0)
    else if 100 < e.natAbs then (0, 0)
    else (0, min 8 (good + 1))
  | _ => (bad, 0)

/-- A mark with a raw error above 1,000 cdeg (R8). -/
def Placing.large : Placing → Bool
  | .group _ _ _ e => decide (1000 < e.natAbs)
  | _ => false

/-- A bad run has reached 3: in SYNCED the station returns to LISTENING (R9 (a)); in RUNNING and
BYPASSING SYNC LOST is set, once (R13). -/
def loseLattice (s : State) : State :=
  if s.stc.state = .synced then
    enterListening (s.setStc { s.stc with syncLossCount := count16 s.stc.syncLossCount })
  else if s.stc.syncLost then s
  else s.setStc { s.stc with syncLost := true, syncLossCount := count16 s.stc.syncLossCount }

/-- STC judges a mark taken in SYNCED, RUNNING or BYPASSING (R8, R9, R13). -/
def judgeRuns (placing : Placing) (s : State) : State :=
  let runs := runsAfter placing s.stc.badRun s.stc.goodRun
  let s := s.setStc { s.stc with badRun := runs.1, goodRun := runs.2 }
  if placing.large ∧ runs.1 = 3 then loseLattice s
  else if runs.2 = 8 then s.setStc { s.stc with syncLost := false }
  else s

/-- STC judges an own mark (R112). -/
def judgeMark (placing : Placing) (refHeard : Bool) (s : State) : State :=
  match s.stc.state with
  | .listening => judgeListening placing refHeard s
  | .synced => judgeRuns placing s
  | .running => judgeRuns placing s
  | .bypassing => judgeRuns placing s
  | _ => s

/-! ### Taking a mark (R111, R112) -/

/-- The source of a placing. -/
def Placing.source : Placing → Source
  | .group .. => .group
  | .flywheel => .flywheel
  | .localVoltage => .localVoltage

/-- The alpha a mark reports (R111): the angle from V_f to the mark, when the valve was FORWARD
immediately before any pulse of the mark. -/
def State.markAlpha (s : State) (wasForward : Bool) : Option Nat :=
  match s.vcm.vf with
  | none => none
  | some vf => if wasForward then some (min 36000 (s.cdeg (instantDiff s.now vf).toNat)) else none

/-- What the MARK frame of a mark carries, from the values that stand (R111). -/
def State.markReport (s : State) (fired : Fired) (placing : Placing) (wasForward : Bool) :
    MarkReport where
  fired := fired
  source := placing.source
  station := s.stc.state
  flags := s.markFlags
  healthA := s.lineA.health
  healthB := s.lineB.health
  consumed := s.lvt.consumed
  alpha := s.markAlpha wasForward
  gamma := s.freshGamma
  mu := s.freshMu
  orderSeq := s.orh.current.seq

/-- The flags that a mark has carried are cleared: CLASH (R14) and PROTECTIVE FIRE (R129). -/
def clearSeenFlags (s : State) : State :=
  (s.setStc { s.stc with clashSeen := false }).setPst { s.pst with pvfSeen := false }

/-- The effects of a mark on STC, on the ORH of a DARK valve and on a survey, which R112 gives no
order, and the offer to the period estimate. The offer changes T_est, which STC reads only to judge
a LOCAL mark in LISTENING (R6 (b)), so only there it is one of the effects without an order. -/
def markHandouts (placing : Placing) (refHeard : Bool) (s : State) : State :=
  let effects := [judgeMark placing refHeard]
    ++ (if s.vcm.valve = .dark then [adopt] else [])
    ++ (if s.cmu.executing.isSome then [countSurveyMark] else [])
  if s.stc.state = .listening ∧ placing = .localVoltage then
    inAnyOrder (effects ++ [offerOwnMark placing]) s
  else offerOwnMark placing (inAnyOrder effects s)

/-- The frame and the own entry of a mark taken at the present instant (R111, R112): the report is
formed first, the missed counters are judged, the own entry is written (R45, R46), and the frame is
produced (R22). -/
def reportMark (fired : Fired) (placing : Placing) (wasForward : Bool) (s : State) : State :=
  let s := staleMark s
  let report := s.markReport fired placing wasForward
  let seq := s.fic.seqCounter
  clearSeenFlags (produce (.mark report) (writeOwnEntry report seq (countMissed s)))

/-- A mark is taken at the present instant (R112), with `mark` the armed record or the deferral it
comes from. The MARK frame is produced before the hand-outs, so the RESULT of a survey that this mark ends
(R170, R171) takes its sequence number after it (DESIGN CHOICE, log entry 27). -/
def takeMark (fired : Fired) (mark : ArmedMark) (wasForward : Bool) (s : State) : State :=
  let refHeard := s.referenceHeard
  let s := reportMark fired mark.placing wasForward s
  let s := reportCycle (closePrfCycle s)
  let s := markHandouts mark.placing refHeard s
  armFlywheel mark.alphaT (decrementAdvance s)

/-! ### Deferrals (R108) -/

/-- The deferral no longer waits. -/
def clearDeferral (s : State) : State := s.setFic { s.fic with deferral := none }

/-- The valve is FORWARD. -/
def State.isForward (s : State) : Bool := decide (s.vcm.valve = .forward)

/-- A FORCED firing at the limit of a deferral (R108): a pulse to all levels, the forced count, and
the mark. -/
def forcedFiring (mark : ArmedMark) (s : State) : State :=
  let s := clearDeferral s
  let s := s.setFic { s.fic with forcedCount := count16 s.fic.forcedCount }
  takeMark .forced mark false (mainPulse .forced s)

/-- The limit of a waiting deferral is judged with the valve not FORWARD (R108). -/
def judgeLimit (s : State) : State :=
  match s.fic.deferral with
  | none => s
  | some mark =>
    if s.firingPermitted && !s.isForward && s.reached (s.deferralEnd mark) then forcedFiring mark s
    else s

/-- A waiting deferral after a change of station state or of the block line (R108): with BYPASSING
entered in the pair, a bypass firing; with firing not permitted any longer, a mark with NO. -/
def settleDeferral (s : State) : State :=
  match s.fic.deferral with
  | none => s
  | some mark =>
    if s.bypassFires then
      let forward := s.isForward
      takeMark .bypass mark forward (bypassFiring (clearDeferral s))
    else if !s.firingPermitted then takeMark .no mark s.isForward (clearDeferral s)
    else s

/-- A waiting deferral at a protective valve firing: no pulse, PROTECTIVE (R108). -/
def settleProtective (s : State) : State :=
  match s.fic.deferral with
  | none => s
  | some mark => takeMark .protective mark false (clearDeferral s)

/-! ### Entries of the valve (R63, R64, R66, R69) -/

/-- Gamma at an entry into FORWARD from RECOVERING (R65), with the RECOVERY SHORT it may bring. -/
def measureGamma (s : State) : State :=
  match s.vcm.e with
  | none => s
  | some e =>
    let gamma := min 36000 (s.cdeg (s.now - e).toNat)
    let s := pmnGamma gamma (s.setVcm { s.vcm with gamma := some { angle := gamma, instant := s.now } })
    if gamma < s.cfg.gammaCrit then declareFailure .recoveryShort s else s

/-- The PST at an entry into FORWARD (R131): during a survey the test of the next level is scheduled,
unless a SURVEY window is still open. -/
def scheduleTest (s : State) : State :=
  match s.cmu.executing with
  | none => s
  | some v =>
    let openSurvey := decide (s.pst.window ≠ withoutSurveyWindow s.pst.window)
    let test := if openSurvey then none else some { level := v.next, vf := s.now }
    s.setPst { s.pst with surveyTest := test }

/-- The last forward interval at an entry into FORWARD (R64): the ticks from the old V_f to the new
one, absent when V_f was absent. -/
def forwardInterval (now : Instant) (vf : Option Instant) : Option Nat :=
  vf.map (fun old => (now - old).toNat)

/-- Entry into FORWARD at the present instant (R64): the roster takes the completed set; from
RECOVERING gamma is measured; the interval is reported; and the entry is handed to the FIC (R103),
the PST (R131) and the ORH (R138), in the order of the rule. -/
def enterForward (s : State) : State :=
  let old := s.vcm.valve
  let s := s.setVcm { s.vcm.enter .forward with
    roster := s.vcm.fwdSet, vf := some s.now, fwdInterval := forwardInterval s.now s.vcm.vf }
  let s := leaveDark old s
  let s := if old = .recovering then measureGamma s else s
  let s := reportInterval s.vcm.fwdInterval s
  let s := ficForward (decide (old = .dark)) s.now s
  settleDeferral (adopt (scheduleTest s))

/-- Entry into REVERSE (R66). From FORWARD the forward interval is evaluated, and a deferral that
waited for lo comes back under its limit (R108). That the evaluation (R74) comes before the forced pulse of a
limit already passed is a DESIGN CHOICE, unsafe (log entry 30): no rule orders the two, and the targets of the
pulse's window and the consumed count of its mark are those after the outcomes. -/
def enterReverse (s : State) : State :=
  let old := s.vcm.valve
  let s := leaveDark old (s.setVcm (s.vcm.enter .reverse))
  if old = .forward then judgeLimit (evaluateForward (dropSurveyTest s)) else s

/-- mu at an entry into RECOVERING (R70). -/
def measureMu (s : State) : State :=
  match s.takeOver with
  | none => s
  | some t =>
    let diff := instantDiff s.now t
    let mu := if diff ≤ 0 then 0 else min 6000 (s.cdeg diff.toNat)
    s.setVcm { s.vcm with mu := some { angle := mu, instant := s.now }, muHold := mu }

/-- The REFIRE train ends at the entry into RECOVERING (R120); a BYPASS train does not (R121). -/
def Train.atRecovery : Train → Train
  | .refire _ => .stopped
  | t => t

/-- Entry into RECOVERING at the present instant (R69). -/
def enterRecovering (s : State) : State :=
  let s := s.setVcm { s.vcm.enter .recovering with e := some s.now, noExtinction := none }
  let s := measureMu s
  s.setPst { s.pst with train := s.pst.train.atRecovery }

/-- Entry into DARK (R63, R7, R9). A deferral that waited for lo comes back under its limit (R108). -/
def enterDark (s : State) : State :=
  let s := s.setVcm { s.vcm.enter .dark with
    roster := [], vf := none, fwdInterval := none, inactivity := none, noExtinction := none }
  judgeLimit (stcValveDark (dropSurveyTest s))

/-- The forward set is tested against its quorum (R61); it is read in DARK, REVERSE and RECOVERING. -/
def testForward (s : State) : State :=
  if s.vcm.fwdSet.length < s.lvt.qfEff then s
  else
    match s.vcm.valve with
    | .dark => enterForward s
    | .reverse => enterForward s
    | .recovering => enterForward s
    | _ => s

/-- The reverse set is tested against its quorum (R61); it is read in FORWARD, CONDUCTING and DARK.
In DARK after a pulse it changes no state and gathers afresh (R66). -/
def testReverse (s : State) : State :=
  if s.vcm.revSet.length < s.lvt.qrEff then s
  else
    match s.vcm.valve with
    | .dark => if s.vcm.pulseInDark then s.setVcm { s.vcm with revSet := [] } else enterReverse s
    | .forward => enterReverse s
    | .conducting => enterRecovering s
    | _ => s

/-! ### The mark event (R105 to R110) -/

/-- The decision of a mark event in RUNNING with the valve FORWARD (R106): no main pulse later than hi, also
where the event is taken late (log entry 24). The pulse and what it brings at its instant, the FWD evaluation
(R74) and the close of an older ACK window (R123), come before the mark, so the report carries the consumed
count and the TRIP CONDITION that they leave (log entry 10: R111 says only that they are those that stand when
the mark is taken). -/
def markForward (mark : ArmedMark) (s : State) : State :=
  match s.vcm.vf with
  | none => takeMark .no mark true s
  | some vf =>
    if earlier mark.m (s.lo vf) then s.setFic { s.fic with deferral := some mark }
    else if later mark.m (s.hi vf) || later s.now (s.hi vf) then takeMark .no mark true s
    else takeMark .main mark true (mainPulse .main s)

/-- The mark event for the armed record `mark`, which has become NONE (R105). A bypass firing restarts the
train with its pulse, before the other effects of the mark: where a DARK valve adopts at this mark an order
that leaves BYPASSING, that exit then stops the train (DESIGN CHOICE, log entry 25: R112 gives the two no
order). -/
def decideMark (mark : ArmedMark) (s : State) : State :=
  if s.bypassFires then
    let forward := s.isForward
    takeMark .bypass mark forward (bypassFiring s)
  else if s.vcm.valve = .conducting ∧ s.fic.cause = some .protective then
    takeMark .protective mark false s
  else if !s.firingPermitted then takeMark .no mark s.isForward s
  else
    match s.vcm.valve with
    | .forward => markForward mark s
    | .dark => takeMark .main mark false (mainPulse .main s)
    | _ => s.setFic { s.fic with deferral := some mark }

/-- The armed record becomes NONE (R105). -/
def disarm (s : State) : State := s.setFic { s.fic with armed := none }

end Sys2Proof.Machine
end

