-- ==== Sys2Proof/Machine/Reception.lean ====
section
/-! DEFINITION. The checks every good copy passes (R26 to R33), and what the Peer Roll, the FIC and
the Order Holder do with a dispatched frame. -/

namespace Sys2Proof.Machine

/-- The copy is foreign (R27). A station sends MARK, EVENT and RESULT; the pole control station, at
position 0, sends ORDER and COMMAND. `fromPole` says that the kind is one of the latter. -/
def foreignCopy (group : Nat) (fromPole : Bool) (sender : Byte) : Bool :=
  if fromPole then decide (sender ≠ 0) else decide (sender = 0) || decide (group < sender.toNat)

/-- The sender is the own position, judged while STRAP ERROR is clear (R28, R31, R33). -/
def State.fromOwn (s : State) (sender : Byte) : Bool :=
  !s.stc.strapError && decide (sender.toNat = s.position)

/-- The copy is the echo of the copy that the line's record stands for (R28). -/
def State.isEcho (s : State) (rx : RxCopy) : Bool :=
  match (s.line rx.line).echo with
  | none => false
  | some p => s.fromOwn rx.sender && decide (p.seq = rx.seq) && decide (s.clock - p.completed ≤ 200)

/-- A line's counters changed. -/
def changeLine (l : Line) (f : LineState → LineState) (s : State) : State :=
  s.setLine l (f (s.line l))

/-- A foreign copy counts and goes no further (R27). -/
def LineState.takeForeign (l : LineState) : LineState :=
  { l with foreignCount := count16 l.foreignCount }

/-- An echo sets the record to NONE and counts (R28). -/
def LineState.takeEcho (l : LineState) : LineState :=
  { l with echo := none, echoCount := count16 l.echoCount }

/-- A duplicate counts and is discarded (R30). -/
def LineState.takeDuplicate (l : LineState) : LineState :=
  { l with duplicateCount := count16 l.duplicateCount }

/-- An accepted copy that is no clash counts (R32). -/
def LineState.takeAccepted (l : LineState) : LineState :=
  { l with acceptedCount := count16 l.acceptedCount }

/-- What the line and the filter do with a good copy, before any block is told (R26 to R33): the
judgement comes back with the state it leaves. -/
inductive Judged where
  | dropped (s : State)
  | clash (s : State)
  | accepted (s : State)

/-- The checks on a good copy in their order (section 2.3). -/
def judgeCopy (rx : RxCopy) (fromPole : Bool) (s : State) : Judged :=
  let s := changeLine rx.line (LineState.goodCopy s.clock) s
  let key := filterKey rx.sender rx.seq
  if foreignCopy s.group fromPole rx.sender then .dropped (changeLine rx.line LineState.takeForeign s)
  else if s.isEcho rx then .dropped (changeLine rx.line LineState.takeEcho s)
  else if filterHolds s.clock key s.filter then
    .dropped (changeLine rx.line LineState.takeDuplicate s)
  else
    let s := s.setFilter (filterWrite key s.clock s.filter)
    if s.fromOwn rx.sender then .clash s
    else .accepted (changeLine rx.line LineState.takeAccepted s)

/-- A good copy passes the checks; an accepted one is dispatched (R32), a clash is notified to STC
(R31). -/
def receiveCopy (rx : RxCopy) (fromPole : Bool) (dispatch : State → State) (s : State) : State :=
  match judgeCopy rx fromPole s with
  | .dropped s => s
  | .clash s => stcClash s
  | .accepted s => dispatch s

/-- The hand-off of a written entry to the FIC (R49): at distance 1, 2 or 3, when it is usable. -/
def handEntry (sender : Nat) (s : State) : State :=
  let d := distance s.group sender s.position
  if 1 ≤ d ∧ d ≤ 3 then
    match s.usableAt d with
    | none => s
    | some r => handReference d r s
  else s

/-- A MARK is dispatched to the PRL (R41 to R43, R49, R50). -/
def dispatchMark (rx : RxCopy) (m : MarkFields) (s : State) : State :=
  let sender := rx.sender.toNat
  let t := peerMarkInstant s.cfg rx.arrival m.lag
  match s.entry sender with
  | none => s
  | some x =>
    match admitted m t x with
    | none => refuseMark sender s
    | some report => handEntry sender (offerMark sender t (writePeerEntry sender t rx.seq report s))

/-- An EVENT is dispatched to the PRL (R44) and, for a commutation failure of either subkind, to the
FIC (R114). The two touch different state (R32). -/
def dispatchEvent (rx : RxCopy) (e : EventFields) (s : State) : State :=
  let kind := eventOfCodes e.kind e.subkind
  let s := prlEvent rx.sender.toNat kind s
  match kind with
  | some .recoveryShort => ficFailure s
  | some .noExtinction => ficFailure s
  | _ => s

end Sys2Proof.Machine
end

