-- ==== Sys2Proof/Machine/Maintenance.lean ====
section
/-! DEFINITION. The Command Unit (chapter 10): taking and refusing commands, the data of the reads, and
what SETUP and RESTART do to every block (R5, R16). -/

namespace Sys2Proof.Machine

/-! ### Taking a command (R159, R161) -/

/-- A COMMAND is addressed to the station (R2, R32): target 15 or the sampled position. -/
def State.addressed (s : State) (head : CmdHead) : Bool :=
  decide (head.target = 15) || decide (head.target.toNat = s.position)

/-- A command is refused: its RESULT carries the detail and the data (R159). -/
def refuseWith (head : CmdHead) (code : Byte) (detail : Detail) (data : List Byte) (s : State) :
    State :=
  produceResult head.tag code .refused detail data s

/-- A command carried out: its RESULT is DONE with data (R161). -/
def doneWith (head : CmdHead) (code : Byte) (data : List Byte) (s : State) : State :=
  produceResult head.tag code .done .none data s

/-- The checks of R159 on a command with a known code, in their order; one that passes is carried
out. -/
def judgeCommand (head : CmdHead) (code : Byte) (permitted argument : State → Bool)
    (carry : State → State) (s : State) : State :=
  if s.stc.strapError then refuseWith head code .strap [] s
  else if s.cmu.executing.isSome ∧ code ≠ codeRestart then refuseWith head code .busy [] s
  else if !permitted s then refuseWith head code .state [] s
  else if !argument s then refuseWith head code .argument [] s
  else carry s

/-- A COMMAND frame is received (R26 to R32); one that is accepted and addressed to the station is
taken by the CMU (R159). -/
def receiveCommand (rx : RxCopy) (head : CmdHead) (take : State → State) (s : State) : State :=
  receiveCopy rx true (fun s => if s.addressed head then take s else s) s

/-- The states that permit a command, as columns of the table of R159. -/
def permitUnset (s : State) : Bool := decide (s.stc.state = .unset)
/-- Permitted in every station state. -/
def permitAll (_ : State) : Bool := true
/-- Permitted outside UNSET. -/
def permitSet (s : State) : Bool := decide (s.stc.state ≠ .unset)
/-- Permitted in SYNCED with a valve that is not DARK (R168). -/
def permitSurvey (s : State) : Bool :=
  decide (s.stc.state = .synced) && decide (s.vcm.valve ≠ .dark)
/-- Permitted in LISTENING, SYNCED and TRIPPED (R91). -/
def permitClear (s : State) : Bool :=
  decide (s.stc.state = .listening) || decide (s.stc.state = .synced) || decide (s.stc.state = .tripped)
/-- No argument to be out of range. -/
def noArgument (_ : State) : Bool := true

/-! ### The data of the reads (R163, R174) -/

/-- The code of a level state in READ LEVELS. -/
def LevelState.code : LevelState → Nat
  | .normal => 0 | .suspect => 1 | .silent => 2 | .nofire => 3

/-- The code of a last survey result in READ LEVELS. -/
def surveyCode : Option SurveyResult → Nat
  | none => 0 | some .ok => 1 | some .noAck => 2 | some .cross => 3

/-- A level record in READ LEVELS: three bytes. -/
def LevelRecord.bytes (r : LevelRecord) : List Byte :=
  [ byteOf (64 * r.state.code + 16 * r.fwdMiss + 4 * r.ackMiss + 2 * bit r.seen),
    byteOf r.prfCount, byteOf (surveyCode r.lastSurvey) ]

/-- The data of READ LEVELS (R94, R174). -/
def State.levelsData (s : State) (first count : Nat) : List Byte :=
  [byteOf first, byteOf count, byteOf s.lvt.silentCount, byteOf s.lvt.consumed]
    ++ (((s.lvt.levels.drop (first - 1)).take count).flatMap LevelRecord.bytes)

/-- The bytes of a HELD roll entry, but for its last (R174). -/
def RollReport.bytes (r : RollReport) (lastEvent : Option EventKind) : List Byte :=
  let m := r.report
  [ byteOf (128 + 64 * bit m.orderSeq.isSome + 8 * m.station.code + m.fired.code),
    byteOf (64 * m.source.code + 16 * lastEventCode lastEvent + 4 * m.healthA.code + m.healthB.code),
    byteOf (flagsByte m.flags) ]
    ++ bytes32 r.markInstant
    ++ bytes16 ((r.acceptInstant - r.markInstant).extractLsb' 0 16)
    ++ [r.seq]
    ++ angleBytes m.alpha ++ angleBytes m.gamma ++ angleBytes m.mu
    ++ [byteOf m.consumed, m.orderSeq.getD 0]

/-- A roll entry in READ ROLL: 19 bytes (R57, R174). An EMPTY entry has HELD clear, its angles absent,
its missed counter and last event kind as they stand, and its other bytes zero. -/
def RollEntry.bytes (x : RollEntry) : List Byte :=
  match x.held with
  | some r => r.bytes x.lastEvent ++ [byteOf x.missed]
  | none =>
    [0, byteOf (16 * lastEventCode x.lastEvent), 0, 0, 0, 0, 0, 0, 0, 0]
      ++ angleBytes none ++ angleBytes none ++ angleBytes none ++ [0, 0, byteOf x.missed]

/-- The data of READ ROLL (R57): the present tick count and the G entries. -/
def State.rollData (s : State) : List Byte :=
  bytes32 s.now ++ s.prl.roll.flatMap RollEntry.bytes

/-- The eight counters, the error score and the health of a line (R38, R174). -/
def LineState.bytes (l : LineState) : List Byte :=
  natBytes16 l.sentCount ++ natBytes16 l.dropCount ++ natBytes16 l.acceptedCount
    ++ natBytes16 l.badCount ++ natBytes16 l.foreignCount ++ natBytes16 l.duplicateCount
    ++ natBytes16 l.echoCount ++ natBytes16 l.echoMissCount
    ++ [byteOf l.errorScore, byteOf l.health.code]

/-- An order in READ HOLDS: nine bytes; a pending order of none is all zero (R174). -/
def orderBytes : Option Order → List Byte
  | none => [0, 0, 0, 0, 0, 0, 0, 0, 0]
  | some o =>
    [ byteOf (1 + 2 * bit o.seq.isSome), o.seq.getD 0, byteOf o.mode.code, byteOf o.blockState.code,
      o.bypass.getD 0 ]
      ++ natBytes16 o.alphaOrder ++ natBytes16 o.gammaOrder

/-- The code of an alarm timer. -/
def AlarmTimer.code : AlarmTimer → Nat
  | .idle => 0 | .asserting _ => 1 | .releasing _ => 2

/-- The code of an override. -/
def Override.code : Override → Nat
  | .none => 0 | .forcedOn => 1 | .forcedOff => 2

/-- An alarm line in READ HOLDS: one byte (R174). -/
def AlarmLine.byte (x : AlarmLine) (output : Bool) : Byte :=
  byteOf (128 * bit x.condition + 64 * bit x.logic + 16 * x.timer.code + 4 * x.override.code
    + bit output)

/-- The 101 bytes of READ HOLDS (R163, R174). -/
def State.holdsData (s : State) : List Byte :=
  [byteOf s.stc.state.code] ++ natBytes16 s.stc.clashCount ++ natBytes16 s.stc.syncLossCount
    ++ natBytes16 s.stc.tripCount
    ++ s.lineA.bytes ++ s.lineB.bytes
    ++ natBytes16 s.prl.tEst ++ natBytes16 s.prl.marksRefused ++ natBytes16 s.prl.outliers
    ++ natBytes16 s.vcm.shortCount ++ natBytes16 s.vcm.noExtCount
    ++ natBytes16 s.fic.lateCount ++ natBytes16 s.fic.endStopCount ++ natBytes16 s.fic.forcedCount
    ++ [byteOf s.fic.advanceCount]
    ++ natBytes16 s.pst.pvfCount ++ natBytes16 s.pst.strayAck
    ++ orderBytes (some s.orh.current) ++ orderBytes s.orh.pending
    ++ natBytes24 s.orh.age
    ++ natBytes16 s.orh.accepted ++ natBytes16 s.orh.refused ++ natBytes16 s.orh.losses
    ++ natBytes16 s.pmn.peakHold ++ angleBytes s.pmn.gammaMin ++ natBytes16 s.pmn.windowSum
    ++ alarmNames.map (fun n => (s.pmn.line n).byte (s.alarmOutput n))

/-- The data of FORCE OUTPUTS and RELEASE OUTPUTS (R165, R174): override and output of each line. -/
def State.outputsData (s : State) : List Byte :=
  alarmNames.map (fun n => byteOf (4 * (s.pmn.line n).override.code + bit (s.alarmOutput n)))

/-! ### SETUP (R5, R162) -/

/-- The blocks held in UNSET start from their power-on values with the SETUP record `c` (R5): the
level table is formed (R79), the ring takes its W counts (R157), and the order age starts (R141). The
FIC keeps its sequence counter (R113). -/
def startBlocks (c : Setup) (s : State) : State :=
  { s with
    prl := Prl.powerOn s.stc.straps
    vcm := Vcm.powerOn
    lvt := Lvt.formed c
    fic := { Fic.powerOn with seqCounter := s.fic.seqCounter }
    pst := Pst.powerOn
    orh := Orh.powerOn
    pmn := { Pmn.powerOn with ring := List.replicate c.window 0 } }

/-- A SETUP that passes every check is adopted (R5): the record is written, the RESULT is DONE, and the
station enters LISTENING. -/
def adoptSetup (head : CmdHead) (c : Setup) (s : State) : State :=
  let s := s.setStc { s.stc with setup := some c }
  let s := doneWith head codeSetup [] s
  enterListening (startBlocks c s)

/-- A SETUP is validated and adopted or refused as a whole (R4, R162). -/
def takeSetup (head : CmdHead) (f : SetupFields) (s : State) : State :=
  match firstBadField f with
  | some index => refuseWith head codeSetup .field [byteOf index] s
  | none => adoptSetup head (setupOf f) s

/-! ### RESTART (R16, R166, R167) -/

/-- The VCM after RESTART (R77). -/
def Vcm.restart (v : Vcm) : Vcm :=
  { Vcm.powerOn with
    gamma := v.gamma, mu := v.mu, shortCount := v.shortCount, noExtCount := v.noExtCount }

/-- The FIC after RESTART (R117). -/
def Fic.restart (f : Fic) : Fic :=
  { Fic.powerOn with
    lateCount := f.lateCount, endStopCount := f.endStopCount, forcedCount := f.forcedCount }

/-- The PRL after RESTART (R58). -/
def Prl.restart (straps : Straps) (p : Prl) : Prl :=
  { Prl.powerOn straps with marksRefused := p.marksRefused, outliers := p.outliers }

/-- The PST after RESTART (R133). -/
def Pst.restart (p : Pst) : Pst :=
  { Pst.powerOn with pvfCount := p.pvfCount, strayAck := p.strayAck }

/-- The ORH after RESTART (R144): the order age is kept and runs on. -/
def Orh.restart (o : Orh) : Orh :=
  { Orh.powerOn with
    age := o.age, stale := o.stale, accepted := o.accepted, refused := o.refused, losses := o.losses }

/-- The PMN after RESTART (R157), before PRF RATE is judged again: the ring is zeroed and every
override cleared. -/
def Pmn.restart (p : Pmn) : Pmn :=
  { (p.mapAlarms (fun _ x => { x with override := .none })) with
    cyclePrf := [], ring := p.ring.map (fun _ => 0) }

/-- STC's records after RESTART (R16), but for the state. -/
def Stc.restart (x : Stc) : Stc :=
  { x with
    syncCount := 0, badRun := 0, goodRun := 0, syncLost := false, clashLatch := false
    clashSeen := false, darkTimer := none }

/-- The soft reset acts on every block at once, and the station enters LISTENING (R16), from where
R15 may trip it. The CMU is IDLE before the exit from SYNCED is taken (R167). -/
def softReset (s : State) : State :=
  let s := { s with
    stc := s.stc.restart
    prl := s.prl.restart s.stc.straps
    vcm := s.vcm.restart
    fic := s.fic.restart
    pst := s.pst.restart
    orh := s.orh.restart
    pmn := s.pmn.restart
    cmu := { executing := none } }
  enterListening (judgePrfRate s)

/-! ### SURVEY (R160, R168) -/

/-- The executing command record of a SURVEY just taken (R168). -/
def SurveyRecord.start (head : CmdHead) (first last : Nat) : SurveyRecord where
  tag := head.tag
  code := codeSurvey
  first := first
  last := last
  next := first
  marks := 0
  countOk := 0
  countFailed := 0
  failures := []

end Sys2Proof.Machine
end

