-- ==== Sys2Proof/Machine/Commands.lean ====
section
/-! DEFINITION. Meanings of the COMMAND frames (chapter 10). -/

namespace Sys2Proof.Machine

/-- SETUP (R4, R5, R162). -/
def execSetup (t : Instant) (rx : RxCopy) (head : CmdHead) (fields : SetupFields) (s : State) :
    Host.Outcome State Fault Refusal :=
  act t s (receiveCommand rx head
    (judgeCommand head codeSetup permitUnset noArgument (takeSetup head fields)))

/-- SURVEY (R168): the CMU enters EXECUTING, and the RESULT waits for the end of the survey. -/
def execSurvey (t : Instant) (rx : RxCopy) (head : CmdHead) (first last : Byte) (s : State) :
    Host.Outcome State Fault Refusal :=
  act t s (receiveCommand rx head
    (judgeCommand head codeSurvey permitSurvey
      (fun s => surveyRangeOk s.cfg.levels first.toNat last.toNat)
      (fun s => s.setCmu { executing := some (SurveyRecord.start head first.toNat last.toNat) })))

/-- READ LEVELS (R94, R163). -/
def execReadLevels (t : Instant) (rx : RxCopy) (head : CmdHead) (first count : Byte) (s : State) :
    Host.Outcome State Fault Refusal :=
  act t s (receiveCommand rx head
    (judgeCommand head codeReadLevels permitSet
      (fun s => readRangeOk s.cfg.levels first.toNat count.toNat)
      (fun s => doneWith head codeReadLevels (s.levelsData first.toNat count.toNat) s)))

/-- READ ROLL (R57, R163). -/
def execReadRoll (t : Instant) (rx : RxCopy) (head : CmdHead) (s : State) :
    Host.Outcome State Fault Refusal :=
  act t s (receiveCommand rx head
    (judgeCommand head codeReadRoll permitAll noArgument
      (fun s => doneWith head codeReadRoll s.rollData s)))

/-- READ HOLDS (R158, R163). -/
def execReadHolds (t : Instant) (rx : RxCopy) (head : CmdHead) (s : State) :
    Host.Outcome State Fault Refusal :=
  act t s (receiveCommand rx head
    (judgeCommand head codeReadHolds permitAll noArgument
      (fun s => doneWith head codeReadHolds s.holdsData s)))

/-- CLEAR LEVEL for one level (R91, R164); the RESULT is produced after the LVT has acted. -/
def execClearLevelOne (t : Instant) (rx : RxCopy) (head : CmdHead) (n : Byte) (s : State) :
    Host.Outcome State Fault Refusal :=
  act t s (receiveCommand rx head
    (judgeCommand head codeClearOne permitClear (fun s => within 1 s.cfg.levels n.toNat)
      (fun s => doneWith head codeClearOne [] (clearLevel n.toNat s))))

/-- CLEAR LEVEL for all levels (R91, R164). -/
def execClearLevelAll (t : Instant) (rx : RxCopy) (head : CmdHead) (s : State) :
    Host.Outcome State Fault Refusal :=
  act t s (receiveCommand rx head
    (judgeCommand head codeClearAll permitClear noArgument
      (fun s => doneWith head codeClearAll [] (clearAllLevels s))))

/-- CLEAR HOLDS (R148, R149, R164). -/
def execClearHolds (t : Instant) (rx : RxCopy) (head : CmdHead) (s : State) :
    Host.Outcome State Fault Refusal :=
  act t s (receiveCommand rx head
    (judgeCommand head codeClearHolds permitSet noArgument
      (fun s => doneWith head codeClearHolds []
        (s.setPmn { s.pmn with peakHold := 0, gammaMin := none }))))

/-- FORCE OUTPUTS (R155, R165); the data shows the lines just after the command has acted. -/
def execForceOutputs (t : Instant) (rx : RxCopy) (head : CmdHead) (lines : Byte) (s : State) :
    Host.Outcome State Fault Refusal :=
  act t s (receiveCommand rx head
    (judgeCommand head codeForce permitSet (fun _ => forceArgOk lines)
      (fun s =>
        let s := s.setPmn (s.pmn.mapAlarms (fun n x => x.force (forcedOverride lines n)))
        doneWith head codeForce s.outputsData s)))

/-- RELEASE OUTPUTS (R156, R165). -/
def execReleaseOutputs (t : Instant) (rx : RxCopy) (head : CmdHead) (lines : Byte) (s : State) :
    Host.Outcome State Fault Refusal :=
  act t s (receiveCommand rx head
    (judgeCommand head codeRelease permitSet (fun _ => releaseArgOk lines)
      (fun s =>
        let s := s.setPmn (s.pmn.mapAlarms (fun n x => x.release (releaseNames lines n)))
        doneWith head codeRelease s.outputsData s)))

/-- RESTART (R16, R166): the RESULT first, then the soft reset. -/
def execRestart (t : Instant) (rx : RxCopy) (head : CmdHead) (s : State) :
    Host.Outcome State Fault Refusal :=
  act t s (receiveCommand rx head
    (judgeCommand head codeRestart permitSet noArgument
      (fun s => softReset (doneWith head codeRestart [] s))))

/-- A COMMAND whose code is not one of the eleven is answered REFUSED/UNKNOWN, or REFUSED/STRAP with
STRAP ERROR set (R2, R159). A known code makes another command, and this one does not occur. -/
def execUnknownCommand (t : Instant) (rx : RxCopy) (head : CmdHead) (code : Byte) (s : State) :
    Host.Outcome State Fault Refusal :=
  act t s (fun s =>
    if knownCode code then s
    else receiveCommand rx head
      (fun s => refuseWith head code (if s.stc.strapError then .strap else .unknown) [] s) s)

/-- A COMMAND for another target (R32): received, counted as accepted, and not handed on. A target of
15 or the own position makes another command, and this one does not occur. -/
def execCommandOtherTarget (t : Instant) (rx : RxCopy) (head : CmdHead) (s : State) :
    Host.Outcome State Fault Refusal :=
  act t s (fun s => if s.addressed head then s else receiveCopy rx true (fun s => s) s)

end Sys2Proof.Machine
end

