-- ==== Sys2Proof/Machine/FrameEvents.lean ====
section
/-! DEFINITION. Meanings of the other frames that reach the station (section 2.3). The blocks they are
dispatched to are held in UNSET, where the copy is accepted and then dropped (R2). -/

namespace Sys2Proof.Machine

/-- MARK_FRAME (R26 to R32, R41 to R43). -/
def execMarkFrame (t : Instant) (rx : RxCopy) (m : MarkFields) (s : State) :
    Host.Outcome State Fault Refusal :=
  act t s (receiveCopy rx false (fun s => s.unlessHeld (dispatchMark rx m)))

/-- EVENT_FRAME (R26 to R32, R44, R114). -/
def execEventFrame (t : Instant) (rx : RxCopy) (e : EventFields) (s : State) :
    Host.Outcome State Fault Refusal :=
  act t s (receiveCopy rx false (fun s => s.unlessHeld (dispatchEvent rx e)))

/-- ORDER_FRAME (R26 to R32, R134, R135). -/
def execOrderFrame (t : Instant) (rx : RxCopy) (o : OrderFields) (s : State) :
    Host.Outcome State Fault Refusal :=
  act t s (receiveCopy rx true (fun s => s.unlessHeld (orhOrder o)))

/-- RESULT_FRAME (R26 to R32): an accepted RESULT is counted and not handed on. -/
def execResultFrame (t : Instant) (rx : RxCopy) (s : State) : Host.Outcome State Fault Refusal :=
  act t s (receiveCopy rx false (fun s => s))

/-- BAD_COPY (R26): a complete copy that is bad counts and raises the error score. Bytes that spell a
good copy make another event, and this one does not occur. -/
def execBadCopy (t : Instant) (line : Line) (bytes : List Byte) (cutShort : Bool) (s : State) :
    Host.Outcome State Fault Refusal :=
  act t s (fun s =>
    if copyIsBad bytes cutShort then changeLine line (LineState.badCopy s.clock) s else s)

end Sys2Proof.Machine
end

