-- ==== Sys2Proof/Machine/Indications.lean ====
section
/-! DEFINITION. Meanings of the level indications (R59). An indication on an input outside 1 to L is
discarded, and so is every one in UNSET. -/

namespace Sys2Proof.Machine

/-- An indication from level `n` taken by the VCM (R2, R59). -/
def indication (t : Instant) (n : Nat) (s : State) (effect : State → State) :
    Host.Outcome State Fault Refusal :=
  act t s (fun s => s.unlessHeld (fun s => if within 1 s.cfg.levels n then effect s else s))

/-- A FWD from a level that is not SILENT (R59 to R62): it joins the forward set and, in FORWARD, the
roster, restarts the inactivity timer (R63), and the quorum is tested. -/
def joinForward (n : Nat) (s : State) : State :=
  testForward (s.setVcm { s.vcm with
    fwdSet := insertLevel n s.vcm.fwdSet
    roster := if s.vcm.valve = .forward then insertLevel n s.vcm.roster else s.vcm.roster
    inactivity := some s.clock })

/-- A REV from a level that is not SILENT (R59 to R61). -/
def joinReverse (n : Nat) (s : State) : State :=
  testReverse (s.setVcm { s.vcm with
    revSet := insertLevel n s.vcm.revSet, inactivity := some s.clock })

/-- FWD_INDICATION (R59): from a SILENT level it is a sign of life (R85). -/
def execFwdIndication (t : Instant) (level : Nat) (s : State) : Host.Outcome State Fault Refusal :=
  indication t level s (fun s =>
    if s.silent level then touchLevel LevelRecord.signOfLife level s else joinForward level s)

/-- REV_INDICATION (R59). -/
def execRevIndication (t : Instant) (level : Nat) (s : State) : Host.Outcome State Fault Refusal :=
  indication t level s (fun s =>
    if s.silent level then touchLevel LevelRecord.signOfLife level s else joinReverse level s)

/-- The gather set with one more level (R126). -/
def gatherWith (n : Nat) (s : State) : PrfGather :=
  match s.pst.gather with
  | some g => { g with set := insertLevel n g.set }
  | none => { set := [n], expiry := timerExpiry (s.cfg.prfGather.atLeast 1) s.clock }

/-- The gather set has reached Q_pf (R126). -/
def State.gatherComplete (s : State) : Bool :=
  match s.pst.gather with
  | some g => decide (s.cfg.qpf ≤ g.set.length)
  | none => false

/-- A PRF joins the gather in DARK, FORWARD and REVERSE; at Q_pf the protective valve firing is made
(R126, R128), and a deferral that waits ends with it (R108). -/
def pstPrf (n : Nat) (s : State) : State :=
  if s.vcm.valve = .conducting ∨ s.vcm.valve = .recovering then s
  else
    let s := s.setPst { s.pst with gather := some (gatherWith n s) }
    if s.gatherComplete then settleProtective (protectiveFiring s) else s

/-- PRF_INDICATION (R59, R86, R126, R146): it reaches the LVT, the PMN and the PST in every case. The
LVT and the PMN count it before a firing that it completes takes a mark (log entry 10). -/
def execPrfIndication (t : Instant) (level : Nat) (s : State) : Host.Outcome State Fault Refusal :=
  indication t level s (fun s =>
    pstPrf level (pmnPrf level (touchLevel LevelRecord.takePrf level s)))

/-- ACK_INDICATION (R59, R124). -/
def execAckIndication (t : Instant) (level : Nat) (s : State) : Host.Outcome State Fault Refusal :=
  indication t level s (pstAck level)

end Sys2Proof.Machine
end

