-- ==== Sys2Proof/Machine/LineEvents.lean ====
section
/-! DEFINITION. Meanings of the group line's own events (chapter 2). An event whose condition does not
hold at its instant does not occur, and only time has passed (log entry 8). -/

namespace Sys2Proof.Machine

/-- TRANSMISSION_START (R19, R24, R25, R29): the line has been dark for `dark` ticks. -/
def execTransmissionStart (t : Instant) (line : Line) (dark : Nat) (s : State) :
    Host.Outcome State Fault Refusal :=
  act t s (fun s => changeLine line (LineState.startTransmission s.clock s.gap dark) s)

/-- TRANSMISSION_COMPLETE (R20, R24, R28). -/
def execTransmissionComplete (t : Instant) (line : Line) (s : State) :
    Host.Outcome State Fault Refusal :=
  act t s (fun s => changeLine line (LineState.completeTransmission s.clock s.stc.strapError) s)

/-- LAG_LIMIT_REMOVAL (R25). -/
def execLagLimitRemoval (t : Instant) (line : Line) (s : State) : Host.Outcome State Fault Refusal :=
  act t s (fun s => changeLine line (LineState.judgeHead s.clock) s)

/-- ECHO_MISS (R29). -/
def execEchoMiss (t : Instant) (line : Line) (s : State) : Host.Outcome State Fault Refusal :=
  act t s (fun s => changeLine line (LineState.echoTimeout s.clock) s)

/-- FILTER_ENTRY_EXPIRY (R30). -/
def execFilterEntryExpiry (t : Instant) (sender seq : Byte) (s : State) :
    Host.Outcome State Fault Refusal :=
  act t s (fun s => s.setFilter (filterExpire s.clock (filterKey sender seq) s.filter))

/-- LIT_ENTRY (R35), by what the receiver shows of carrier at this instant. -/
def execLitEntry (t : Instant) (line : Line) (carrier : CarrierView) (s : State) :
    Host.Outcome State Fault Refusal :=
  act t s (fun s => changeLine line (LineState.enterLit s.clock carrier) s)

/-- LIT_END (R35, R36). -/
def execLitEnd (t : Instant) (line : Line) (s : State) : Host.Outcome State Fault Refusal :=
  act t s (fun s => changeLine line (LineState.endLit s.clock) s)

/-- SILENCE_TIMER_EXPIRY (R36). -/
def execSilenceTimerExpiry (t : Instant) (line : Line) (s : State) :
    Host.Outcome State Fault Refusal :=
  act t s (fun s => changeLine line (LineState.silenceExpiry s.clock s.prl.tEst) s)

end Sys2Proof.Machine
end

