-- ==== Sys2Proof/Machine/Supply.lean ====
section
/-! DEFINITION. Meanings of the supply, strap and block line events. -/

namespace Sys2Proof.Machine

/-- The power-on reset at the instant `t` on the given feeds (R1): the straps are sampled, the position is
checked, every block takes its power-on values, and the station enters UNSET. -/
def powerOnAt (t : Instant) (feeds : Feeds) (wires : StrapWires) (s : State) : State :=
  State.powerOn (sampleStraps wires) feeds (s.advance t).clock s.choices s.pending

/-- POWER_ON_RESET (R1), on both feeds (log entry 9). -/
def execPowerOnReset (t : Instant) (wires : StrapWires) (s : State) : Host.Outcome State Fault Refusal :=
  .next (powerOnAt t Feeds.both wires s)

/-- SUPPLY_LOSS (R177, R178): the feeds that have supply change. With neither, all four alarm loops are
without current. A feed that returns after both have failed makes a power-on reset, which samples the
straps. While one feed stays, it sustains the station, and nothing else changes (log entry 9). -/
def execSupplyLoss (t : Instant) (inputs : SupplyInputs) (s : State) : Host.Outcome State Fault Refusal :=
  if feedsSustain inputs.feeds && !s.supplied then .next (powerOnAt t inputs.feeds inputs.wires s)
  else .next ((s.advance t).setFeeds inputs.feeds)

/-- The PST stops any train at the assertion of the block line (R122). -/
def stopTrains (s : State) : State := s.setPst { s.pst with train := .stopped }

/-- The recognised assertion of the block line (R11, R122, R178). A deferral that waits ends with NO
(R108); whether its mark is taken before or after STC leaves RUNNING is open (log entry 3). -/
def assertBlock (s : State) : State :=
  let s := stopTrains (s.setBlock true)
  if s.fic.deferral.isNone then stcBlockAsserted s
  else inAnyOrder [stcBlockAsserted, settleDeferral] s

/-- BLOCK_LINE_ASSERTED (R122, R178): the loop has been without current for `held` ticks; from 20 on
the assertion is recognised, when the line was released before. `held` is taken as given: that nothing of the
station bounds it is a DESIGN CHOICE, unsafe (log entry 32). -/
def execBlockLineAsserted (t : Instant) (held : Nat) (s : State) : Host.Outcome State Fault Refusal :=
  act t s (fun s => if 20 ≤ held ∧ !s.blockAsserted then assertBlock s else s)

/-- BLOCK_LINE_RELEASED (R10, R178): current has flowed for `held` ticks; from 20 on the release is
recognised, and STC evaluates the conditions of R10. `held` is taken as given, bounded neither by the power-on
reset nor by the last recognised change, so the ticks of current for the first release may have begun before the
reset (DESIGN CHOICE, unsafe, log entry 32). -/
def execBlockLineReleased (t : Instant) (held : Nat) (s : State) : Host.Outcome State Fault Refusal :=
  act t s (fun s => if 20 ≤ held ∧ s.blockAsserted then evaluateDeblock (s.setBlock false) else s)

end Sys2Proof.Machine
end

