-- ==== Sys2Proof/Machine/Timers.lean ====
section
/-! DEFINITION. Meanings of the instants and timers that fall due. An event whose condition does not
hold at its instant does not occur, and only time has passed (log entry 8). The blocks concerned are
held in UNSET (R2). -/

namespace Sys2Proof.Machine

/-- An event of a block that R2 holds in UNSET, which occurs when `due` holds at its instant. -/
def dueEvent (t : Instant) (s : State) (due : State → Bool) (effect : State → State) :
    Host.Outcome State Fault Refusal :=
  act t s (fun s => s.unlessHeld (fun s => if due s then effect s else s))

/-- The inactivity timer has expired in a state other than DARK (R63). -/
def inactivityDue (s : State) : Bool :=
  expiredAfter s.clock (s.tickLimit 54000) s.vcm.inactivity && decide (s.vcm.valve ≠ .dark)

/-- INACTIVITY_EXPIRY (R63). -/
def execInactivityExpiry (t : Instant) (s : State) : Host.Outcome State Fault Refusal :=
  dueEvent t s inactivityDue enterDark

/-- The no-extinction timer has expired with the valve CONDUCTING and the spent mark clear (R71). -/
def noExtinctionDue (s : State) : Bool :=
  expiredAfter s.clock (s.tickLimit 24000) s.vcm.noExtinction
    && decide (s.vcm.valve = .conducting) && !s.vcm.spent

/-- NO EXTINCTION is declared, except in BYPASSING; the spent mark is set in every case (R71). -/
def noExtinction (s : State) : State :=
  let s := s.setVcm { s.vcm with spent := true }
  if s.stc.state = .bypassing then s else declareFailure .noExtinction s

/-- NO_EXTINCTION_EXPIRY (R71). -/
def execNoExtinctionExpiry (t : Instant) (s : State) : Host.Outcome State Fault Refusal :=
  dueEvent t s noExtinctionDue noExtinction

/-- The present instant has reached M of an ARMED record (R105). -/
def markDue (s : State) : Bool :=
  match s.fic.armed with
  | none => false
  | some a => s.reached a.m

/-- The mark event of the armed record (R105). -/
def markNow (s : State) : State :=
  match s.fic.armed with
  | none => s
  | some a => decideMark a (disarm s)

/-- MARK_EVENT (R105). -/
def execMarkEvent (t : Instant) (s : State) : Host.Outcome State Fault Refusal :=
  dueEvent t s markDue markNow

/-- The present instant has reached hi in RUNNING with firing permitted, the valve FORWARD and an
armed M later than hi (R107). The end-stop acts at hi and not after it: where firing became permitted after
hi, or where the event is taken late, there is none, since no main firing of a FORWARD valve falls later than
hi (R106, log entry 24). hi is converted with the present T_est (R96), so a new T_est may move hi behind the
present instant while the end-stop watches it: then there is no END-STOP, and the mark event at M finds M later
than hi and takes the mark with NO (DESIGN CHOICE, unsafe, log entry 31). -/
def endStopDue (s : State) : Bool :=
  match s.fic.armed, s.vcm.vf with
  | some a, some vf =>
    decide (s.stc.state = .running) && s.firingPermitted && s.isForward
      && later a.m (s.hi vf) && decide (s.now = s.hi vf)
  | _, _ => false

/-- The end-stop firing (R107): the armed mark is cancelled, the pulse is made, and the mark is taken. -/
def endStopNow (s : State) : State :=
  match s.fic.armed with
  | none => s
  | some a =>
    let s := disarm s
    let s := s.setFic { s.fic with endStopCount := count16 s.fic.endStopCount }
    takeMark .endStop a true (mainPulse .endStop s)

/-- END_STOP (R107). -/
def execEndStop (t : Instant) (s : State) : Host.Outcome State Fault Refusal :=
  dueEvent t s endStopDue endStopNow

/-- A deferral waits, the valve is FORWARD, and the present instant has reached lo (R108) and has not passed
hi (R106, log entry 24). -/
def deferralLoDue (s : State) : Bool :=
  match s.fic.deferral, s.vcm.vf with
  | some _, some vf => s.firingPermitted && s.isForward && s.reached (s.lo vf) && !later s.now (s.hi vf)
  | _, _ => false

/-- The deferral fires at lo (R108). -/
def deferralLoNow (s : State) : State :=
  match s.fic.deferral with
  | none => s
  | some a => takeMark .deferred a true (mainPulse .deferred (clearDeferral s))

/-- DEFERRAL_LO_REACHED (R108). -/
def execDeferralLoReached (t : Instant) (s : State) : Host.Outcome State Fault Refusal :=
  dueEvent t s deferralLoDue deferralLoNow

/-- DEFERRAL_LIMIT (R108). -/
def execDeferralLimit (t : Instant) (s : State) : Host.Outcome State Fault Refusal :=
  act t s (fun s => s.unlessHeld judgeLimit)

/-- The re-fire timer has expired, in RUNNING with the block line released (R3, R119, R122). -/
def refireDue (s : State) : Bool :=
  match s.pst.train with
  | .refire expiry => decide (expiry ≤ s.clock) && decide (s.stc.state = .running) && !s.blockAsserted
  | _ => false

/-- REFIRE_EXPIRY (R119). -/
def execRefireExpiry (t : Instant) (s : State) : Host.Outcome State Fault Refusal :=
  dueEvent t s refireDue refirePulse

/-- The bypass train timer has expired, in BYPASSING with the own position in the pair and the block
line released (R3, R121, R122). -/
def bypassTrainDue (s : State) : Bool :=
  match s.pst.train with
  | .bypass expiry => decide (expiry ≤ s.clock) && s.bypassFires
  | _ => false

/-- BYPASS_TRAIN_EXPIRY (R121). -/
def execBypassTrainExpiry (t : Instant) (s : State) : Host.Outcome State Fault Refusal :=
  dueEvent t s bypassTrainDue bypassFiring

/-- The timer of an open ACK window has expired (R125). -/
def ackWindowDue (s : State) : Bool :=
  match s.pst.window with
  | some w => decide (w.expiry ≤ s.clock)
  | none => false

/-- ACK_WINDOW_EXPIRY (R125). -/
def execAckWindowExpiry (t : Instant) (s : State) : Host.Outcome State Fault Refusal :=
  dueEvent t s ackWindowDue closeWindow

/-- The gather timer has expired (R127). -/
def prfGatherDue (s : State) : Bool :=
  match s.pst.gather with
  | some g => decide (g.expiry ≤ s.clock)
  | none => false

/-- PRF_GATHER_EXPIRY (R127). -/
def execPrfGatherExpiry (t : Instant) (s : State) : Host.Outcome State Fault Refusal :=
  dueEvent t s prfGatherDue endGather

/-- A scheduled test is due (R131): V_f + ticks(1,000) is reached, the valve is still FORWARD with the
same V_f, the station is SYNCED and the survey still executing. -/
def surveyTestDue (s : State) : Bool :=
  match s.pst.surveyTest with
  | some x =>
    s.reached (instantPlus x.vf (s.ticks 1000)) && s.isForward && decide (s.vcm.vf = some x.vf)
      && decide (s.stc.state = .synced) && s.cmu.executing.isSome
  | none => false

/-- The test pulse to one fibre, with its SURVEY window (R131). Where the pulse closes a PVF window whose
outcomes trip the station and so end the survey, the SURVEY window still opens, as R123 has it (DESIGN CHOICE,
log entry 26). -/
def testPulse (s : State) : State :=
  match s.pst.surveyTest with
  | none => s
  | some x => openWindow (.survey x.level) [x.level] (dropSurveyTest (emitPulse .survey [x.level] s))

/-- SURVEY_TEST_PULSE (R131). -/
def execSurveyTestPulse (t : Instant) (s : State) : Host.Outcome State Fault Refusal :=
  dueEvent t s surveyTestDue testPulse

/-- The DARK timer has expired in SYNCED (R9 (b)). -/
def darkTimerDue (s : State) : Bool :=
  expiredAfter s.clock (4 * s.prl.tEst) s.stc.darkTimer && decide (s.stc.state = .synced)

/-- DARK_TIMER_EXPIRY (R9). -/
def execDarkTimerExpiry (t : Instant) (s : State) : Host.Outcome State Fault Refusal :=
  dueEvent t s darkTimerDue enterListening

/-- ORDER_STALE (R141): the flag of the own marks takes its value from the order age. -/
def execOrderStale (t : Instant) (s : State) : Host.Outcome State Fault Refusal :=
  act t s (fun s => s.unlessHeld refreshStale)

/-- FORCED_BLOCK (R142). -/
def execForcedBlock (t : Instant) (s : State) : Host.Outcome State Fault Refusal :=
  act t s (fun s => s.unlessHeld forceBlock)

/-- The record of one alarm line changed. -/
def changeAlarm (name : AlarmName) (f : AlarmLine → AlarmLine) (s : State) : State :=
  s.setPmn (s.pmn.setAlarm name (f (s.pmn.line name)))

/-- ALARM_ASSERT_EXPIRY (R153). -/
def execAlarmAssertExpiry (t : Instant) (line : AlarmName) (s : State) :
    Host.Outcome State Fault Refusal :=
  act t s (fun s => s.unlessHeld (changeAlarm line (AlarmLine.assertExpiry s.clock)))

/-- ALARM_RELEASE_EXPIRY (R153). -/
def execAlarmReleaseExpiry (t : Instant) (line : AlarmName) (s : State) :
    Host.Outcome State Fault Refusal :=
  act t s (fun s => s.unlessHeld (changeAlarm line (AlarmLine.releaseExpiry s.clock)))

end Sys2Proof.Machine
end

