-- ==== Sys2Proof/Machine/Dispatch.lean ====
section
/-! DEFINITION. The meaning of every command: one arm per row of spec/opcode_table.json. -/

namespace Sys2Proof.Machine

def exec (i : Instr) (s : State) : Host.Outcome State Fault Refusal :=
  match i with
  | .powerOnReset t wires => Sys2Proof.Machine.execPowerOnReset t wires s
  | .supplyLoss t inputs => Sys2Proof.Machine.execSupplyLoss t inputs s
  | .blockLineAsserted t held => Sys2Proof.Machine.execBlockLineAsserted t held s
  | .blockLineReleased t held => Sys2Proof.Machine.execBlockLineReleased t held s
  | .setup t rx head fields => Sys2Proof.Machine.execSetup t rx head fields s
  | .survey t rx head first last => Sys2Proof.Machine.execSurvey t rx head first last s
  | .readLevels t rx head first count => Sys2Proof.Machine.execReadLevels t rx head first count s
  | .readRoll t rx head => Sys2Proof.Machine.execReadRoll t rx head s
  | .readHolds t rx head => Sys2Proof.Machine.execReadHolds t rx head s
  | .clearLevelOne t rx head n => Sys2Proof.Machine.execClearLevelOne t rx head n s
  | .clearLevelAll t rx head => Sys2Proof.Machine.execClearLevelAll t rx head s
  | .clearHolds t rx head => Sys2Proof.Machine.execClearHolds t rx head s
  | .forceOutputs t rx head lines => Sys2Proof.Machine.execForceOutputs t rx head lines s
  | .releaseOutputs t rx head lines => Sys2Proof.Machine.execReleaseOutputs t rx head lines s
  | .restart t rx head => Sys2Proof.Machine.execRestart t rx head s
  | .unknownCommand t rx head code => Sys2Proof.Machine.execUnknownCommand t rx head code s
  | .markFrame t rx m => Sys2Proof.Machine.execMarkFrame t rx m s
  | .eventFrame t rx e => Sys2Proof.Machine.execEventFrame t rx e s
  | .orderFrame t rx o => Sys2Proof.Machine.execOrderFrame t rx o s
  | .resultFrame t rx => Sys2Proof.Machine.execResultFrame t rx s
  | .badCopy t line bytes cutShort => Sys2Proof.Machine.execBadCopy t line bytes cutShort s
  | .transmissionStart t line dark => Sys2Proof.Machine.execTransmissionStart t line dark s
  | .transmissionComplete t line => Sys2Proof.Machine.execTransmissionComplete t line s
  | .lagLimitRemoval t line => Sys2Proof.Machine.execLagLimitRemoval t line s
  | .echoMiss t line => Sys2Proof.Machine.execEchoMiss t line s
  | .filterEntryExpiry t sender seq => Sys2Proof.Machine.execFilterEntryExpiry t sender seq s
  | .litEntry t line carrier => Sys2Proof.Machine.execLitEntry t line carrier s
  | .litEnd t line => Sys2Proof.Machine.execLitEnd t line s
  | .silenceTimerExpiry t line => Sys2Proof.Machine.execSilenceTimerExpiry t line s
  | .fwdIndication t level => Sys2Proof.Machine.execFwdIndication t level s
  | .revIndication t level => Sys2Proof.Machine.execRevIndication t level s
  | .prfIndication t level => Sys2Proof.Machine.execPrfIndication t level s
  | .ackIndication t level => Sys2Proof.Machine.execAckIndication t level s
  | .inactivityExpiry t => Sys2Proof.Machine.execInactivityExpiry t s
  | .noExtinctionExpiry t => Sys2Proof.Machine.execNoExtinctionExpiry t s
  | .markEvent t => Sys2Proof.Machine.execMarkEvent t s
  | .endStop t => Sys2Proof.Machine.execEndStop t s
  | .deferralLoReached t => Sys2Proof.Machine.execDeferralLoReached t s
  | .deferralLimit t => Sys2Proof.Machine.execDeferralLimit t s
  | .refireExpiry t => Sys2Proof.Machine.execRefireExpiry t s
  | .bypassTrainExpiry t => Sys2Proof.Machine.execBypassTrainExpiry t s
  | .ackWindowExpiry t => Sys2Proof.Machine.execAckWindowExpiry t s
  | .prfGatherExpiry t => Sys2Proof.Machine.execPrfGatherExpiry t s
  | .surveyTestPulse t => Sys2Proof.Machine.execSurveyTestPulse t s
  | .darkTimerExpiry t => Sys2Proof.Machine.execDarkTimerExpiry t s
  | .orderStale t => Sys2Proof.Machine.execOrderStale t s
  | .forcedBlock t => Sys2Proof.Machine.execForcedBlock t s
  | .alarmAssertExpiry t line => Sys2Proof.Machine.execAlarmAssertExpiry t line s
  | .alarmReleaseExpiry t line => Sys2Proof.Machine.execAlarmReleaseExpiry t line s
  | .commandOtherTarget t rx head => Sys2Proof.Machine.execCommandOtherTarget t rx head s

end Sys2Proof.Machine
end

