-- ==== Sys2Proof/Safety.lean ====
section
/-! DEFINITION. What counts as a safe run of the station, and the words that the statements about it use:
the invariants that every step keeps, which pulses a state permits, what an accepted copy does to the
Group Line Interface, and the checks on a command as the table of R159 lists them. -/

namespace Sys2Proof.Machine

/-! ### Commands -/

/-- The instant at which a command is taken. -/
def instantOf : Instr → Instant
  | .powerOnReset t _ => t
  | .supplyLoss t _ => t
  | .blockLineAsserted t _ => t
  | .blockLineReleased t _ => t
  | .setup t _ _ _ => t
  | .survey t _ _ _ _ => t
  | .readLevels t _ _ _ _ => t
  | .readRoll t _ _ => t
  | .readHolds t _ _ => t
  | .clearLevelOne t _ _ _ => t
  | .clearLevelAll t _ _ => t
  | .clearHolds t _ _ => t
  | .forceOutputs t _ _ _ => t
  | .releaseOutputs t _ _ _ => t
  | .restart t _ _ => t
  | .unknownCommand t _ _ _ => t
  | .markFrame t _ _ => t
  | .eventFrame t _ _ => t
  | .orderFrame t _ _ => t
  | .resultFrame t _ => t
  | .badCopy t _ _ _ => t
  | .transmissionStart t _ _ => t
  | .transmissionComplete t _ => t
  | .lagLimitRemoval t _ => t
  | .echoMiss t _ => t
  | .filterEntryExpiry t _ _ => t
  | .litEntry t _ _ => t
  | .litEnd t _ => t
  | .silenceTimerExpiry t _ => t
  | .fwdIndication t _ => t
  | .revIndication t _ => t
  | .prfIndication t _ => t
  | .ackIndication t _ => t
  | .inactivityExpiry t => t
  | .noExtinctionExpiry t => t
  | .markEvent t => t
  | .endStop t => t
  | .deferralLoReached t => t
  | .deferralLimit t => t
  | .refireExpiry t => t
  | .bypassTrainExpiry t => t
  | .ackWindowExpiry t => t
  | .prfGatherExpiry t => t
  | .surveyTestPulse t => t
  | .darkTimerExpiry t => t
  | .orderStale t => t
  | .forcedBlock t => t
  | .alarmAssertExpiry t _ => t
  | .alarmReleaseExpiry t _ => t
  | .commandOtherTarget t _ _ => t

/-- The command brings a power-on reset or takes the supply away (R1, R178). -/
def isPower : Instr → Bool
  | .powerOnReset _ _ => true
  | .supplyLoss _ _ => true
  | _ => false

/-- The copy, the head and the code of a COMMAND addressed to the station (R159, R174). -/
def commandOf : Instr → Option (RxCopy × CmdHead × Byte)
  | .setup _ rx head _ => some (rx, head, codeSetup)
  | .survey _ rx head _ _ => some (rx, head, codeSurvey)
  | .readLevels _ rx head _ _ => some (rx, head, codeReadLevels)
  | .readRoll _ rx head => some (rx, head, codeReadRoll)
  | .readHolds _ rx head => some (rx, head, codeReadHolds)
  | .clearLevelOne _ rx head _ => some (rx, head, codeClearOne)
  | .clearLevelAll _ rx head => some (rx, head, codeClearAll)
  | .clearHolds _ rx head => some (rx, head, codeClearHolds)
  | .forceOutputs _ rx head _ => some (rx, head, codeForce)
  | .releaseOutputs _ rx head _ => some (rx, head, codeRelease)
  | .restart _ rx head => some (rx, head, codeRestart)
  | .unknownCommand _ rx head code => some (rx, head, code)
  | .powerOnReset _ _ => none
  | .supplyLoss _ _ => none
  | .blockLineAsserted _ _ => none
  | .blockLineReleased _ _ => none
  | .markFrame _ _ _ => none
  | .eventFrame _ _ _ => none
  | .orderFrame _ _ _ => none
  | .resultFrame _ _ => none
  | .badCopy _ _ _ _ => none
  | .transmissionStart _ _ _ => none
  | .transmissionComplete _ _ => none
  | .lagLimitRemoval _ _ => none
  | .echoMiss _ _ => none
  | .filterEntryExpiry _ _ _ => none
  | .litEntry _ _ _ => none
  | .litEnd _ _ => none
  | .silenceTimerExpiry _ _ => none
  | .fwdIndication _ _ => none
  | .revIndication _ _ => none
  | .prfIndication _ _ => none
  | .ackIndication _ _ => none
  | .inactivityExpiry _ => none
  | .noExtinctionExpiry _ => none
  | .markEvent _ => none
  | .endStop _ => none
  | .deferralLoReached _ => none
  | .deferralLimit _ => none
  | .refireExpiry _ => none
  | .bypassTrainExpiry _ => none
  | .ackWindowExpiry _ => none
  | .prfGatherExpiry _ => none
  | .surveyTestPulse _ => none
  | .darkTimerExpiry _ => none
  | .orderStale _ => none
  | .forcedBlock _ => none
  | .alarmAssertExpiry _ _ => none
  | .alarmReleaseExpiry _ _ => none
  | .commandOtherTarget _ _ _ => none

/-- The copy that carries a frame. -/
def copyOf (c : Instr) : Option RxCopy :=
  match c with
  | .markFrame _ rx _ => some rx
  | .eventFrame _ rx _ => some rx
  | .orderFrame _ rx _ => some rx
  | .resultFrame _ rx => some rx
  | .commandOtherTarget _ rx _ => some rx
  | _ => (commandOf c).map Prod.fst

/-! ### Copies from the group line (R26 to R32) -/

/-- A good copy that completes now is accepted and is no clash: it is not foreign (R27), not from the own
position (R28, R31), and its sender and sequence hold no unexpired filter entry (R30). -/
def State.accepts (s : State) (rx : RxCopy) (fromPole : Bool) : Bool :=
  !foreignCopy s.group fromPole rx.sender && !s.fromOwn rx.sender
    && !filterHolds s.clock (filterKey rx.sender rx.seq) s.filter

/-- What a good copy does to its line whatever becomes of it (R19, R26, R34, R35, R36): the error score falls
by 1, DEAD ends, the silence timer restarts unless the line is LIT, and the gap and the LIT measurement count
afresh. -/
def LineState.heard (clock : Nat) (l : LineState) : LineState :=
  { l with
    errorScore := l.errorScore - 1
    dead := false
    silence := if l.lit then none else some clock
    litFrom := clock
    lightEnd := some clock }

/-- `s` with the line of a copy that has just been heard good. -/
def State.heardOn (s : State) (l : Line) : State := s.setLine l ((s.line l).heard s.clock)

/-- What an accepted copy that is no clash does to the Group Line Interface (R26, R30, R32): its line is
heard and counts one accepted copy, and its filter entry takes the present instant. -/
def State.received (s : State) (rx : RxCopy) : State :=
  ((s.heardOn rx.line).setLine rx.line
    { (s.line rx.line).heard s.clock with
      acceptedCount := min 65535 ((s.line rx.line).acceptedCount + 1) }).setFilter
    (filterWrite (rx.sender.toNat * 256 + rx.seq.toNat) s.clock s.filter)

/-- The copy of a frame as it stands when a station that has taken the supply of `s` receives it at `t`. -/
def State.at (s : State) (t : Instant) (rx : RxCopy) : State := (s.advance t).received rx

/-- A COMMAND copy that completes at `t` reaches the Command Unit: the station has supply, the copy is
accepted, and it is addressed to the station (R2, R32). -/
def reachesCmu (t : Instant) (rx : RxCopy) (head : CmdHead) (s : State) : Bool :=
  s.supplied && (s.advance t).accepts rx true
    && (decide (head.target = 15) || decide (head.target.toNat = s.position))

/-! ### Fields on the line (section 11.1) -/

/-- A field of `size` bytes that carries a value, high byte first. -/
def bigEndian (size value : Nat) : List Byte :=
  (List.range size).reverse.map (fun i => BitVec.ofNat 8 (value / 256 ^ i))

/-- Fields laid out one after the other, each given by its size in bytes and its value. -/
def laidOut (fields : List (Nat × Nat)) : List Byte := fields.flatMap (fun x => bigEndian x.1 x.2)

/-! ### What a station shows of its own mark (R45) -/

/-- The report of the own entry: the last own mark, when there has been one. -/
def State.ownReport (s : State) : Option RollReport :=
  match s.entry s.position with
  | none => none
  | some x => x.held

/-- The own entry stands, and holds a mark taken at `t` with a fired value and a placing's source. -/
def State.ownMarkIs (s : State) (t : Instant) (fired : Fired) (source : Source) : Prop :=
  ∃ h, s.ownReport = some h ∧ h.markInstant = t ∧ h.report.fired = fired ∧ h.report.source = source

/-- A pulse of a kind at `t` on the fibres 1 to L (R118, R177). -/
def pulseToAll (kind : PulseKind) (t : Instant) (levels : Nat) : Pulse where
  kind := kind
  instant := t
  fibres := levelsUpTo levels

/-! ### Where the station goes (R10 to R15) -/

/-- Where an order takes a SYNCED station (R10). -/
def State.fromSynced (s : State) (o : Order) : StationState :=
  if s.blockAsserted ∨ s.stc.clashLatch ∨ s.cfg.redundancy < s.lvt.consumed then .synced
  else
    match o.blockState with
    | .deblock => .running
    | .bypass => if s.inPairOf o then .bypassing else .synced
    | .block => .synced

/-- Where a station goes that leaves RUNNING or BYPASSING and does not enter the other (R11 to R13). -/
def State.fromFiring (s : State) : StationState :=
  if s.cfg.redundancy < s.lvt.consumed then .tripped
  else if s.stc.syncLost then .listening
  else .synced

/-- The station state once the consumed count of the level table has become `consumed`, with the current
order as it stands (R10, R12, R15): a rise above R trips LISTENING and SYNCED, any other change has SYNCED
evaluate R10, and an unchanged count leaves the state. -/
def State.afterCountChange (s : State) (consumed : Nat) : StationState :=
  if consumed = s.lvt.consumed then s.stc.state
  else if s.stc.state = .listening ∨ s.stc.state = .synced then
    if s.lvt.consumed < consumed ∧ s.cfg.redundancy < consumed then .tripped
    else if s.stc.state = .synced then
      { s with lvt := { s.lvt with consumed := consumed } }.fromSynced s.orh.current
    else .listening
  else s.stc.state

/-! ### The end of a survey (R131, R169 to R171, R174) -/

/-- What the RESULT of a survey says of its results: count OK, count failed, how many failures are listed, and
the list. -/
def surveyCounts (v : SurveyRecord) : List Byte :=
  [v.countOk, v.countFailed, v.failures.length].map (BitVec.ofNat 8) ++ v.failures.map (BitVec.ofNat 8)

/-- The CMU is IDLE, no test is scheduled, and an open SURVEY window is discarded without a result; a MAIN or
PVF window stays open. -/
def State.withoutSurvey (s : State) : State :=
  { s with
    cmu := { executing := none }
    pst := { s.pst with
      surveyTest := none
      window := s.pst.window.filter (fun w => decide (w.kind = .main ∨ w.kind = .pvf)) } }

/-- A survey in progress has been aborted, with its partial data; where none is in progress, nothing. -/
def State.aborted (s : State) : State :=
  match s.cmu.executing with
  | none => s
  | some v =>
    produceResult v.tag v.code .aborted .state (surveyCounts v ++ [BitVec.ofNat 8 v.next]) s.withoutSurvey

/-! ### What a pulse does to the level records (R74, R81, R83, R92, R123) -/

/-- Level `k`'s record after a firing at `t`: a FORWARD valve whose forward interval has then lasted
ticks(1,000) gives each level one FWD outcome, present for a level of the roster; a shorter one gives none. -/
def State.firedRecord (s : State) (t : Instant) (k : Nat) (x : LevelRecord) : LevelRecord :=
  match s.vcm.vf with
  | none => x
  | some vf =>
    if s.vcm.valve = .forward ∧ ticksAt s.prl.tEst 1000 ≤ instantDiff t vf then
      x.takeFwd (s.vcm.roster.contains k)
    else x

/-- Level `k`'s record after a window has closed: each target of a MAIN or PVF window has one ACK outcome, and
the tested level of a SURVEY window its result. -/
def closedRecord (w : Option AckWindow) (k : Nat) (x : LevelRecord) : LevelRecord :=
  match w with
  | none => x
  | some w =>
    match w.kind with
    | .survey n =>
      if k = n then
        x.takeSurvey (if w.acked = [] then .noAck else if w.acked = [n] then .ok else .cross)
      else x
    | _ => if k ∈ w.targets then x.takeAck (w.acked.contains k) else x

/-- The window that a pulse of this kind opens: its targets are the levels that are not SILENT at the pulse. -/
def State.openedWindow (s : State) (kind : WindowKind) (clock : Nat) : AckWindow where
  kind := kind
  targets := s.heardLevels
  acked := []
  expiry := timerExpiry { s.cfg.ackWindow with factor := max 1 s.cfg.ackWindow.factor } clock

/-- The re-fire interval started anew, with a factor of at least 2 (R119, R121). -/
def State.trainExpiry (s : State) (clock : Nat) : Nat :=
  timerExpiry { s.cfg.refire with factor := max 2 s.cfg.refire.factor } clock

/-- The train that a main pulse leaves (R119): none where the re-fire interval has factor 0. -/
def State.startedRefire (s : State) (clock : Nat) : Train :=
  if s.cfg.refire.factor = 0 then .stopped else .refire (s.trainExpiry clock)

/-! ### A mark placed by a reference (R100) -/

/-- The raw error of a reference at a target angle; a reference without an alpha agrees. -/
def errorAgainst (alphaT : Int) : Option Nat → Int
  | none => 0
  | some a => alphaT - a

/-- The instant `d` steps after a reference, moved by half the raw error beyond the deadband, and by
ticks(200) at most. -/
def State.latticeInstant (s : State) (d : Nat) (reference : Instant) (e : Int) : Instant :=
  let e' : Int := if -(s.cfg.latticeDeadband : Int) ≤ e ∧ e ≤ s.cfg.latticeDeadband then 0 else e
  let limit := ticksAt s.prl.tEst 200
  let half := (ticksAt s.prl.tEst e').tdiv 2
  let c := if half < -limit then -limit else if limit < half then limit else half
  instantPlus (instantPlus reference (d * ticksAt s.prl.tEst (36000 / s.group : Nat))) c

/-! ### The ranges of a SETUP (section 1.3) -/

/-- The field of a SETUP with an index from 1 to 27 is in range, judged with the values of the same command. -/
def fieldInRange (f : SetupFields) (index : Nat) : Prop :=
  let setting (b : Byte) : Prop := b.toNat < 64
  let alphaMin := f.alphaMin.toNat
  match index with
  | 1 => 8 ≤ f.levels.toNat ∧ f.levels.toNat ≤ 96
  | 2 => f.redundancy.toNat ≤ 8 ∧ 4 * f.redundancy.toNat < f.levels.toNat
  | 3 => 1 ≤ f.qf.toNat ∧ f.qf.toNat ≤ f.levels.toNat
  | 4 => 1 ≤ f.qr.toNat ∧ f.qr.toNat ≤ f.levels.toNat
  | 5 => 1 ≤ f.qpf.toNat ∧ f.qpf.toNat ≤ f.levels.toNat
  | 6 => 500 ≤ alphaMin ∧ alphaMin ≤ 3000
  | 7 => alphaMin ≤ f.alphaMaxR.toNat ∧ f.alphaMaxR.toNat ≤ 16500
  | 8 => alphaMin ≤ f.alphaMaxI.toNat ∧ f.alphaMaxI.toNat ≤ 16500
  | 9 => 300 ≤ f.gammaCrit.toNat ∧ f.gammaCrit.toNat ≤ 1500
  | 10 => f.acf.toNat ≤ 3000
  | 11 => 1 ≤ f.ncf.toNat ∧ f.ncf.toNat ≤ 15
  | 12 => f.gammaDeadband.toNat ≤ 500
  | 13 => f.latticeDeadband.toNat ≤ 200
  | 14 => True
  | 15 => setting f.refire
  | 16 => setting f.ackWindow
  | 17 => setting f.prfGather
  | 18 => f.window.toNat ∈ [1, 2, 4, 8, 16, 32]
  | 19 => 1 ≤ f.prfLimit.toNat
  | 20 => setting f.tripAssert
  | 21 => setting f.tripRelease
  | 22 => setting f.redAssert
  | 23 => setting f.redRelease
  | 24 => setting f.cfAssert
  | 25 => setting f.cfRelease
  | 26 => setting f.prfAssert
  | 27 => setting f.prfRelease
  | _ => False

/-! ### The checks of R159 -/

/-- The station states in which each command is taken, as the table of R159 lists them by code. -/
def takenIn (code : Nat) (state : StationState) (valve : ValveState) : Bool :=
  match code with
  | 1 => decide (state = .unset)
  | 2 => decide (state = .synced ∧ valve ≠ .dark)
  | 3 => decide (state ≠ .unset)
  | 4 => true
  | 5 => true
  | 6 => decide (state = .listening ∨ state = .synced ∨ state = .tripped)
  | 7 => decide (state = .listening ∨ state = .synced ∨ state = .tripped)
  | 8 => decide (state ≠ .unset)
  | 9 => decide (state ≠ .unset)
  | 10 => decide (state ≠ .unset)
  | 11 => decide (state ≠ .unset)
  | _ => false

/-- The arguments of a command are in range for a valve of `levels` levels (R163 to R165, R168, R174). The
fields of a SETUP are judged by R4 instead. -/
def argumentsOk (levels : Nat) : Instr → Bool
  | .survey _ _ _ first last =>
    decide (1 ≤ first.toNat ∧ first.toNat ≤ last.toNat ∧ last.toNat ≤ levels)
  | .readLevels _ _ _ first count =>
    decide (1 ≤ first.toNat ∧ 1 ≤ count.toNat ∧ count.toNat ≤ 16
      ∧ first.toNat + count.toNat ≤ levels + 1)
  | .clearLevelOne _ _ _ n => decide (1 ≤ n.toNat ∧ n.toNat ≤ levels)
  | .forceOutputs _ _ _ lines =>
    decide (lines.toNat ≠ 0 ∧ lines.toNat % 4 ≠ 3 ∧ lines.toNat / 4 % 4 ≠ 3
      ∧ lines.toNat / 16 % 4 ≠ 3 ∧ lines.toNat / 64 ≠ 3)
  | .releaseOutputs _ _ _ lines => decide (1 ≤ lines.toNat ∧ lines.toNat < 16)
  | _ => true

/-- The refusal of a command with a code, by the first check of R159 that refuses it; `none` when every
check passes. -/
def refusalOf (c : Instr) (code : Byte) (s : State) : Option Detail :=
  if s.stc.strapError then some .strap
  else if code.toNat = 0 ∨ 11 < code.toNat then some .unknown
  else if s.cmu.executing.isSome ∧ code.toNat ≠ 11 then some .busy
  else if takenIn code.toNat s.stc.state s.vcm.valve = false then some .state
  else if argumentsOk s.cfg.levels c = false then some .argument
  else none

/-! ### Pulses (R3, R122) -/

/-- A pulse of this kind is one that a station in this state, with the block line at this level, may send
(R3, R122, R128, R131). -/
def pulsePermitted (state : StationState) (blocked : Bool) : PulseKind → Bool
  | .main => decide (state = .running) && !blocked
  | .refire => decide (state = .running) && !blocked
  | .bypass => (decide (state = .running) || decide (state = .bypassing)) && !blocked
  | .pvf => decide (state ≠ .unset)
  | .survey => decide (state = .synced)

/-! ### Invariants -/

/-- T_est lies within its clamp (R51). -/
def PeriodOk (s : State) : Prop := 15000 ≤ s.prl.tEst ∧ s.prl.tEst ≤ 22000

/-- A line's queue, score and counters keep their bounds (R23, R34, R38), a LIT line holds no copy and
runs no silence timer (R35, R36), and no copy is in transmission with a lag above 4,095 ticks (R25). -/
def LineState.Ok (l : LineState) : Prop :=
  l.queue.length ≤ 4 ∧ l.errorScore ≤ 64 ∧ (l.lit = true → l.queue = [] ∧ l.silence = none)
    ∧ (∀ x ∈ l.sending, x.copy.hasLag = true → x.copy.age x.start ≤ 4095)
    ∧ l.sentCount ≤ 65535 ∧ l.dropCount ≤ 65535 ∧ l.acceptedCount ≤ 65535 ∧ l.badCount ≤ 65535
    ∧ l.foreignCount ≤ 65535 ∧ l.duplicateCount ≤ 65535 ∧ l.echoCount ≤ 65535
    ∧ l.echoMissCount ≤ 65535

/-- Both lines are in order, and with STRAP ERROR both echo-pending records are NONE (R33). -/
def LinesOk (s : State) : Prop :=
  s.lineA.Ok ∧ s.lineB.Ok ∧ (s.stc.strapError = true → s.lineA.echo = none ∧ s.lineB.echo = none)

/-- The filter table is in its one form: sorted by key, each key once. -/
def FilterOk (s : State) : Prop := s.filter.Pairwise (fun x y => x.key < y.key)

/-- The fields of a SETUP record are in the ranges of section 1.3. -/
def Setup.InRange (c : Setup) : Prop :=
  8 ≤ c.levels ∧ c.levels ≤ 96 ∧ c.redundancy ≤ 8 ∧ 4 * c.redundancy < c.levels
    ∧ 1 ≤ c.qf ∧ c.qf ≤ c.levels ∧ 1 ≤ c.qr ∧ c.qr ≤ c.levels ∧ 1 ≤ c.qpf ∧ c.qpf ≤ c.levels
    ∧ 500 ≤ c.alphaMin ∧ c.alphaMin ≤ 3000
    ∧ c.alphaMin ≤ c.alphaMaxR ∧ c.alphaMaxR ≤ 16500 ∧ c.alphaMin ≤ c.alphaMaxI ∧ c.alphaMaxI ≤ 16500
    ∧ 300 ≤ c.gammaCrit ∧ c.gammaCrit ≤ 1500 ∧ c.acf ≤ 3000 ∧ 1 ≤ c.ncf ∧ c.ncf ≤ 15
    ∧ c.gammaDeadband ≤ 500 ∧ c.latticeDeadband ≤ 200 ∧ c.linkLatency ≤ 255
    ∧ c.window ∈ [1, 2, 4, 8, 16, 32] ∧ 1 ≤ c.prfLimit ∧ c.prfLimit ≤ 255

/-- The SETUP record is absent exactly in UNSET, and in range where it stands (R2, R4); a station with
STRAP ERROR is in UNSET (R2), and STRAP ERROR is the check on the sampled straps (R1). -/
def SetupOk (s : State) : Prop :=
  (s.stc.setup = none ↔ s.stc.state = .unset) ∧ (∀ c ∈ s.stc.setup, c.InRange)
    ∧ (s.stc.strapError = true → s.stc.state = .unset) ∧ s.stc.strapError = strapErrorOf s.stc.straps

/-- STC's runs and counts keep their bounds (R7, R8, R18). -/
def RunsOk (s : State) : Prop :=
  s.stc.syncCount ≤ 7 ∧ s.stc.badRun ≤ 3 ∧ s.stc.goodRun ≤ 8 ∧ s.stc.clashCount ≤ 65535
    ∧ s.stc.syncLossCount ≤ 65535 ∧ s.stc.tripCount ≤ 65535
    ∧ (s.stc.clashLatch = true → s.stc.syncCount = 0)

/-- The roll holds one entry for each position of the group, and its counts keep their bounds (R40, R46,
R52, R56). -/
def RollOk (s : State) : Prop :=
  s.prl.roll.length = s.group ∧ (∀ x ∈ s.prl.roll, x.missed ≤ 255) ∧ s.prl.localRun ≤ 3
    ∧ s.prl.marksRefused ≤ 65535 ∧ s.prl.outliers ≤ 65535

/-- The last-arrival record, where it stands, names a position of the group (R50). -/
def ArrivalOk (s : State) : Prop :=
  ∀ x ∈ s.prl.lastArrival, 1 ≤ x.position ∧ x.position ≤ s.group

/-- A level record's state is the one that its miss counts and latch decide (R80, R82, R84). -/
def LevelRecord.Ok (r : LevelRecord) : Prop :=
  r.prfCount ≤ 255 ∧
    match r.state with
    | .silent => r.fwdMiss = 3 ∧ r.ackMiss ≤ 3
    | .nofire => r.ackMiss = 3 ∧ r.fwdMiss ≤ 2
    | .suspect => r.fwdMiss ≤ 2 ∧ r.ackMiss ≤ 2 ∧ (r.fwdMiss ≠ 0 ∨ r.ackMiss ≠ 0)
    | .normal => r.fwdMiss = 0 ∧ r.ackMiss = 0

/-- The level table holds L records in order, with the counts, quorums and conditions that they give (R79,
R87 to R89); before a SETUP it holds none (R79). -/
def LevelsOk (s : State) : Prop :=
  (∀ r ∈ s.lvt.levels, r.Ok) ∧
    match s.stc.setup with
    | none => s.lvt.levels = [] ∧ s.lvt.consumed = 0
    | some c =>
      s.lvt.levels.length = c.levels
        ∧ s.lvt.silentCount = s.lvt.levels.countP (fun r => decide (r.state = .silent))
        ∧ s.lvt.consumed
          = s.lvt.levels.countP (fun r => decide (r.state = .silent) || decide (r.state = .nofire))
        ∧ s.lvt.qfEff = max 1 (min c.qf (c.levels - s.lvt.silentCount))
        ∧ s.lvt.qrEff = max 1 (min c.qr (c.levels - s.lvt.silentCount))
        ∧ (s.lvt.tripCondition = true ↔ c.redundancy < s.lvt.consumed)
        ∧ (s.lvt.redundancyLow = true ↔
            (s.lvt.consumed = c.redundancy ∧ 0 < c.redundancy)
              ∨ (1 ≤ s.lvt.consumed ∧ c.redundancy = 0))

/-- The valve's records fit its cycle state (R62, R63, R64, R67, R69, R70). -/
def ValveOk (s : State) : Prop :=
  (s.vcm.valve = .dark → s.vcm.vf = none ∧ s.vcm.fwdInterval = none ∧ s.vcm.noExtinction = none)
    ∧ (s.vcm.valve = .forward → s.vcm.vf.isSome = true)
    ∧ (s.vcm.valve = .conducting → s.vcm.f.isSome = true ∧ s.vcm.noExtinction.isSome = true)
    ∧ (s.vcm.valve = .recovering → s.vcm.e.isSome = true ∧ s.vcm.noExtinction = none)
    ∧ (s.vcm.valve ≠ .forward → s.vcm.roster = [])
    ∧ (s.vcm.valve ≠ .dark → s.vcm.pulseInDark = false)
    ∧ s.vcm.muHold ≤ 6000

/-- While a deferral waits, no mark is armed, and the station is RUNNING with the block line released (R95,
R105, R108). -/
def DeferralOk (s : State) : Prop :=
  s.fic.deferral.isSome = true →
    s.fic.armed = none ∧ s.stc.state = .running ∧ s.blockAsserted = false

/-- Trains run only in the states that permit their pulses (R119 to R122). -/
def TrainOk (s : State) : Prop :=
  match s.pst.train with
  | .stopped => True
  | .refire _ => s.stc.state = .running ∧ s.blockAsserted = false
  | .bypass _ => s.stc.state = .bypassing ∧ s.blockAsserted = false

/-- The order age is held at its top, a forced copy is the current order with BLOCK (R141, R142), and the
failure advance count keeps its bounds: 0 while RECTIFIER is current (R98, R114). -/
def OrderOk (s : State) : Prop :=
  s.orh.age ≤ 16777215
    ∧ (s.orh.pendingForced = true →
        s.orh.pending = some { s.orh.current with blockState := .block }
          ∧ s.orh.current.blockState = .deblock)
    ∧ s.fic.advanceCount ≤ 15
    ∧ (s.orh.current.mode = .rectifier → s.fic.advanceCount = 0)

/-- The delay logic of an alarm line is consistent with its condition (R153, R154): an idle line's level is
its condition, and a delay runs only toward the condition and only where its factor is not 0. -/
def AlarmLine.Ok (assertDelay releaseDelay : TimeSetting) (x : AlarmLine) : Prop :=
  match x.timer with
  | .idle => x.logic = x.condition
  | .asserting _ => x.condition = true ∧ x.logic = false ∧ assertDelay.factor ≠ 0
  | .releasing _ => x.condition = false ∧ x.logic = true ∧ releaseDelay.factor ≠ 0

/-- The four alarm lines are consistent, each of the three conditions taken from another record is the one
that record holds (R150, R151), and the PRF ring holds W counts (R147). -/
def AlarmsOk (s : State) : Prop :=
  (∀ n, (s.pmn.line n).Ok (s.cfg.assertDelay n) (s.cfg.releaseDelay n))
    ∧ s.pmn.tripRequest.condition = s.lvt.tripCondition
    ∧ s.pmn.redundancyLow.condition = s.lvt.redundancyLow
    ∧ s.pmn.commutationFailure.condition = s.pmn.cfHold
    ∧ (∀ c ∈ s.stc.setup, s.pmn.ring.length = c.window
        ∧ (s.pmn.prfRate.condition = true ↔ c.prfLimit ≤ s.pmn.ring.sum))

/-- A survey executes only in SYNCED, within its range, with its results counted and its failures listed up
to sixteen (R160, R168 to R171). -/
def SurveyOk (s : State) : Prop :=
  ∀ v ∈ s.cmu.executing,
    s.stc.state = .synced ∧ v.first ≤ v.next ∧ v.next ≤ v.last
      ∧ v.countOk + v.countFailed + v.first = v.next
      ∧ v.failures.length = min 16 v.countFailed
      ∧ (∀ n ∈ v.failures, v.first ≤ n ∧ n < v.next)
      ∧ v.marks ≤ v.last - v.first + 9

end Sys2Proof.Machine
end

