-- ==== Sys2Proof/Certificates/Slice0/Obligations.lean ====
section
/-! DEFINITION. The statements for the provers, from the numbered rules of the spec, file by file. A frame is
said by an equation between states: `u = { r with … }` names every block that changes. -/

open Sys2Proof Sys2Proof.Machine

/-! ### The step, time and the whole machine -/

/-- The block's step takes the command at the front of the queue with the queue's rest behind it, and with
nothing waiting it idles. (The idling is the model's choice, log entry 7.) -/
def Obligations.StepTakesTheFront : Prop :=
  (∀ (c : Instr) (rest : List Instr) (s : State), s.pending = c :: rest →
      step s = exec c (s.setPending rest))
    ∧ ∀ s : State, s.pending = [] → step s = .next s

/-- Every command completes: no fault, no refusal. The tick counter then reads the command's instant, time
has not run backwards nor a whole turn of the counter, and the queue of waiting commands is untouched. (Time
as an operand of every command is the model's choice, log entry 1. That no command stops the station is what
the model deduces from the manual, which names no such stop, log entry 2.) -/
def Obligations.EveryCommandCompletes : Prop :=
  ∀ (c : Instr) (s : State), ∃ u, exec c s = .next u ∧ u.pending = s.pending
    ∧ u.now = instantOf c ∧ s.clock ≤ u.clock ∧ u.clock < s.clock + 4294967296

/-- What passing time does (R141): the tick counter comes to the instant; the order age advances with it, is
held at 16,777,215 and does not run in UNSET; the firing fibres are dark again; nothing else changes. (Time
as an operand of every command is the model's choice, log entry 1; that no event is forced to occur while time
passes is log entry 8; that the fibres show the pulses of the latest command alone is log entry 12.) -/
def Obligations.TimePasses : Prop :=
  ∀ (s : State) (t : Instant), ∃ elapsed : Nat,
    elapsed < 4294967296 ∧ BitVec.ofNat 32 (s.clock + elapsed) = t
      ∧ s.advance t = { s with
          clock := s.clock + elapsed
          firing := []
          orh := { s.orh with
            age := if s.stc.state = .unset then s.orh.age
              else min 16777215 (s.orh.age + elapsed) } }

/-- The sampled straps and STRAP ERROR are held until the next power-on reset (R1), and outside UNSET the
SETUP record is held too and the station does not return to UNSET (R4). -/
def Obligations.StrapsAndSetupHeld : Prop :=
  ∀ (c : Instr) (s u : State), isPower c = false → exec c s = .next u →
    u.stc.straps = s.stc.straps ∧ u.stc.strapError = s.stc.strapError
      ∧ (s.stc.state ≠ .unset → u.stc.setup = s.stc.setup ∧ u.stc.state ≠ .unset)

/-- UNSET is left by the adoption of a SETUP and by nothing else, and never with STRAP ERROR set (R2, R5).
Until then the blocks that depend on the SETUP record do not act (R2): they stand as they are, no pulse
leaves, and no order is taken, while the sequence counter of the FIC runs on (R113). (The block line acts on
trains and deferrals in every state, and in UNSET it finds both at their power-on values.) -/
def Obligations.UnsetHoldsTheBlocks : Prop :=
  ∀ (c : Instr) (s u : State), s.stc.state = .unset → exec c s = .next u →
    (u.stc.state ≠ .unset →
      ∃ t rx head fields, c = .setup t rx head fields ∧ firstBadField fields = none
        ∧ s.stc.strapError = false ∧ u.stc.setup = some (setupOf fields) ∧ u.stc.state = .listening)
      ∧ (isPower c = false → s.pst.train = .stopped → s.fic.deferral = none → u.stc.state = .unset →
        u.prl = s.prl ∧ u.vcm = s.vcm ∧ u.lvt = s.lvt ∧ u.pst = s.pst ∧ u.orh = s.orh ∧ u.pmn = s.pmn
          ∧ u.fic = { s.fic with seqCounter := u.fic.seqCounter } ∧ u.firing = [])

/-! ### Supply, straps and the block line -/

/-- POWER_ON_RESET, and SUPPLY_LOSS when a feed returns to a station without supply (R1, R177, R178): the
straps are sampled, the group size open for 6 and closed for 12 and the frequency open for 50 Hz and closed
for 60 Hz, and the position is checked; every block stands at the power-on values of its own table (R1, R39,
R58, R77, R93, R117, R133, R144, R157, R160). The tick counter runs on, and the waiting commands stay (log
entries 1 and 9). (That no light is known to have ended on a line is log entry 29.) -/
def Obligations.PowerOnValues : Prop :=
  ∀ (t : Instant) (w : StrapWires) (feeds : Feeds) (s : State), ∃ u,
    exec (.powerOnReset t w) s = .next u
      ∧ (s.supplied = false → feeds.first = true ∨ feeds.second = true →
          exec (.supplyLoss t { feeds := feeds, wires := w }) s = .next { u with feeds := feeds })
      ∧ u.stc = { state := .unset
                  straps :=
                    { position := w.position
                      groupSize := if w.sizeClosed then .twelve else .six
                      frequency := if w.frequencyClosed then .hz60 else .hz50 }
                  strapError := decide (w.position.toNat = 0 ∨ 12 < w.position.toNat
                    ∨ (w.sizeClosed = false ∧ 6 < w.position.toNat))
                  setup := none, syncCount := 0, badRun := 0, goodRun := 0, syncLost := false
                  clashLatch := false, clashSeen := false, darkTimer := none
                  clashCount := 0, syncLossCount := 0, tripCount := 0 }
      ∧ u.lineA = u.lineB
      ∧ u.lineA = { queue := [], sending := none, echo := none, errorScore := 0, lit := false
                    litFrom := u.clock, lightEnd := none, silence := some u.clock, dead := false
                    sentCount := 0, dropCount := 0, acceptedCount := 0, badCount := 0
                    foreignCount := 0, duplicateCount := 0, echoCount := 0, echoMissCount := 0 }
      ∧ u.lineA.health = .good ∧ u.filter = []
      ∧ u.prl.roll = List.replicate (if w.sizeClosed then 12 else 6)
          { held := none, missed := 0, lastEvent := none }
      ∧ u.prl.tEst = (if w.frequencyClosed then 16667 else 20000)
      ∧ u.prl.lastArrival = none ∧ u.prl.localRun = 0 ∧ u.prl.marksRefused = 0 ∧ u.prl.outliers = 0
      ∧ u.vcm = { valve := .dark, fwdSet := [], revSet := [], roster := [], vf := none, f := none
                  e := none, fwdInterval := none, gamma := none, mu := none, muHold := 2000
                  inactivity := none, noExtinction := none, spent := false, pulseInDark := false
                  failureInCycle := false, shortCount := 0, noExtCount := 0 }
      ∧ u.lvt.levels = [] ∧ u.lvt.silentCount = 0 ∧ u.lvt.consumed = 0
      ∧ u.lvt.tripCondition = false ∧ u.lvt.redundancyLow = false
      ∧ u.fic = { armed := none, alphaLast := none, deferral := none, cause := none, advanceCount := 0
                  seqCounter := 0, lateCount := 0, endStopCount := 0, forcedCount := 0 }
      ∧ u.pst = { train := .stopped, window := none, gather := none, surveyTest := none
                  pvfSeen := false, pvfCount := 0, strayAck := 0 }
      ∧ u.orh.current = { seq := none, mode := .rectifier, blockState := .block, bypass := none
                          alphaOrder := 9000, gammaOrder := 1800 }
      ∧ u.orh.pending = none ∧ u.orh.accepted = 0 ∧ u.orh.refused = 0 ∧ u.orh.losses = 0
      ∧ u.pmn.cyclePrf = [] ∧ u.pmn.peakHold = 0 ∧ u.pmn.gammaMin = none ∧ u.pmn.cfHold = false
      ∧ (∀ n, u.pmn.line n = { condition := false, logic := false, timer := .idle, override := .none })
      ∧ u.cmu.executing = none ∧ u.blockAsserted = true ∧ u.feeds = { first := true, second := true }
      ∧ u.supplied = true ∧ (∀ n, u.alarmOutput n = false)
      ∧ u.pending = s.pending

/-- SUPPLY_LOSS (R177, R178): either feed alone sustains the station, so that while one stays nothing changes
but which feeds have supply, and the alarm lines show what they showed; with both gone all four alarm lines
show asserted, nothing else changes at that instant, and until a power-on reset no command has any effect but
the passing of time (log entry 9). -/
def Obligations.SupplyLossAsserts : Prop :=
  ∀ (t : Instant) (w : StrapWires) (s : State),
    (s.supplied = true ↔ s.feeds.first = true ∨ s.feeds.second = true)
      ∧ (∃ u, exec (.supplyLoss t { feeds := { first := false, second := false }, wires := w }) s = .next u
          ∧ u = { s.advance t with feeds := { first := false, second := false } }
          ∧ ∀ n, u.alarmOutput n = true)
      ∧ (∀ feeds : Feeds, s.supplied = true → feeds.first = true ∨ feeds.second = true →
          ∃ u, exec (.supplyLoss t { feeds := feeds, wires := w }) s = .next u
            ∧ u = { s.advance t with feeds := feeds } ∧ ∀ n, u.alarmOutput n = s.alarmOutput n)
      ∧ ∀ (v : State) (c : Instr), v.supplied = false → isPower c = false →
          exec c v = .next (v.advance (instantOf c))

/-- BLOCK_LINE_ASSERTED (R11, R12, R13, R122, R178): a change that has held for 20 ticks is recognised. Trains
stop and no pulse leaves; RUNNING and BYPASSING are left for TRIPPED with the consumed count above R, for
LISTENING with SYNC LOST set, and for SYNCED otherwise; other states stay. A deferral that waits ends with
fired NO, and the station leaves RUNNING as it would without one (R108); STC judges that mark before or after
the exit, so SYNC LOST may be the one the mark leaves (log entry 3). A shorter change, or a line already
asserted, does nothing. (The measured duration as an operand is the model's choice, log entry 4, and that no
reset or earlier change bounds it is log entry 32.) -/
def Obligations.BlockLineAsserted : Prop :=
  ∀ (t : Instant) (held : Nat) (s : State), s.supplied = true → SurveyOk s →
    let above := s.cfg.redundancy < s.lvt.consumed
    (s.blockAsserted = false → 20 ≤ held → ∃ u, exec (.blockLineAsserted t held) s = .next u
        ∧ u.blockAsserted = true ∧ u.pst.train = .stopped ∧ u.firing = [] ∧ u.fic.deferral = none
        ∧ (s.fic.deferral = none →
            u.stc.state =
              (if s.stc.state = .running ∨ s.stc.state = .bypassing then
                if above then .tripped
                else if s.stc.syncLost then .listening else .synced
              else s.stc.state)
            ∧ u = { s.advance t with
                blockAsserted := true, stc := u.stc, pst := { s.pst with train := .stopped } }
            ∧ u.stc.tripCount = (if u.stc.state = .tripped ∧ s.stc.state ≠ .tripped then
                min 65535 (s.stc.tripCount + 1) else s.stc.tripCount)
            ∧ (s.stc.state ≠ .running ∧ s.stc.state ≠ .bypassing → u.stc = s.stc))
        ∧ (s.fic.deferral.isSome = true → ∀ x, u.entry u.position = some x →
            ∃ r, x.held = some r ∧ r.report.fired = .no ∧ r.markInstant = t)
        ∧ (∀ a, s.fic.deferral = some a → DeferralOk s →
            let large : Prop := match a.placing with
              | .group _ _ _ e => 1000 < e ∨ e < -1000
              | _ => False
            (above → u.stc.state = .tripped)
            ∧ (¬ above → (u.stc.state = .synced ∨ u.stc.state = .listening)
              ∧ (s.stc.syncLost = false → ¬ large → u.stc.state = .synced)
              ∧ (s.stc.syncLost = true → s.stc.goodRun < 7 → u.stc.state = .listening))
            ∧ u.stc.tripCount = (if above then min 65535 (s.stc.tripCount + 1) else s.stc.tripCount)
            ∧ (s.vcm.valve ≠ .dark → u.orh.current = s.orh.current ∧ u.orh.pending = s.orh.pending)
            ∧ u = { s.advance t with
                blockAsserted := true, choices := u.choices, stc := u.stc, lineA := u.lineA
                lineB := u.lineB, prl := u.prl, fic := u.fic, orh := u.orh, pmn := u.pmn
                vcm := { s.vcm with failureInCycle := false }
                pst := { s.pst with train := .stopped, pvfSeen := false } }))
      ∧ (s.blockAsserted = true ∨ held < 20 →
          exec (.blockLineAsserted t held) s = .next (s.advance t))

/-- BLOCK_LINE_RELEASED (R10, R122, R171, R178): a release that has held for 20 ticks is recognised. SYNCED
goes on to RUNNING or BYPASSING when the current order and the other conditions of R10 hold, which aborts a
survey in progress; no pulse and no train starts. A shorter change, or a line already released, does nothing.
(The measured duration as an operand is the model's choice, log entry 4, and that no reset or earlier change
bounds it, so that the first release may come less than 20 ticks after a power-on reset, is log entry 32.) -/
def Obligations.BlockLineReleased : Prop :=
  ∀ (t : Instant) (held : Nat) (s : State), s.supplied = true →
    (s.blockAsserted = true → 20 ≤ held → ∃ u, exec (.blockLineReleased t held) s = .next u
        ∧ u.blockAsserted = false ∧ u.firing = []
        ∧ u.stc.state =
            (if s.stc.state = .synced ∧ s.stc.clashLatch = false
                ∧ ¬ s.cfg.redundancy < s.lvt.consumed then
              match s.orh.current.blockState with
              | .deblock => .running
              | .bypass => if s.inPair then .bypassing else .synced
              | .block => .synced
            else s.stc.state)
        ∧ (u.stc.state = s.stc.state → u = { s.advance t with blockAsserted := false })
        ∧ (u.stc.state ≠ s.stc.state →
            u = State.aborted { s.advance t with
              blockAsserted := false
              stc := { s.stc with state := u.stc.state, darkTimer := none } }))
      ∧ (s.blockAsserted = false ∨ held < 20 →
          exec (.blockLineReleased t held) s = .next (s.advance t))

/-! ### Copies from the group line -/

/-- A copy that passes the checks is accepted and dispatched (R26, R30, R32): its line is heard, its filter
entry takes the present instant, and from then on a copy with the same sender and sequence is a duplicate
for 64,000 ticks, while every other entry stands as it was. -/
def Obligations.AcceptedCopy : Prop :=
  ∀ (rx : RxCopy) (fromPole : Bool) (s : State), s.accepts rx fromPole = true →
    (∀ dispatch : State → State, receiveCopy rx fromPole dispatch s = dispatch (s.received rx))
      ∧ (∀ later : Nat, s.clock ≤ later →
          filterHolds later (filterKey rx.sender rx.seq) (s.received rx).filter
            = decide (later - s.clock ≤ 64000))
      ∧ (∀ (sender seq : Byte) (now : Nat), (sender, seq) ≠ (rx.sender, rx.seq) →
          filterHolds now (filterKey sender seq) (s.received rx).filter
            = filterHolds now (filterKey sender seq) s.filter)

/-- A good copy that fails a check goes no further than the Group Line Interface, whatever block it is meant
for: a foreign copy (R27), which is a MARK, EVENT or RESULT from the pole control station or from above G, or an
ORDER or COMMAND from another sender than the pole control station; the echo of the own copy (R28), a duplicate (R30), and a clash, which is notified
to Station Control (R31). Every one of them is a good copy for its line (R26). -/
def Obligations.DroppedCopies : Prop :=
  ∀ (rx : RxCopy) (fromPole : Bool) (dispatch : State → State) (s : State),
    let l := (s.line rx.line).heard s.clock
    let foreign := foreignCopy s.group fromPole rx.sender
    let own := !s.stc.strapError && decide (rx.sender.toNat = s.position)
    let echo := own && (s.line rx.line).echo.any
      (fun p => decide (p.seq = rx.seq) && decide (s.clock - p.completed ≤ 200))
    let known := filterHolds s.clock (filterKey rx.sender rx.seq) s.filter
    (foreign = true ↔ (fromPole = true ∧ rx.sender.toNat ≠ 0)
          ∨ (fromPole = false ∧ (rx.sender.toNat = 0 ∨ s.group < rx.sender.toNat)))
      ∧ (foreign = true → receiveCopy rx fromPole dispatch s
        = s.setLine rx.line { l with foreignCount := min 65535 (l.foreignCount + 1) })
      ∧ (foreign = false → echo = true → receiveCopy rx fromPole dispatch s
        = s.setLine rx.line { l with echo := none, echoCount := min 65535 (l.echoCount + 1) })
      ∧ (foreign = false → echo = false → known = true → receiveCopy rx fromPole dispatch s
        = s.setLine rx.line { l with duplicateCount := min 65535 (l.duplicateCount + 1) })
      ∧ (foreign = false → echo = false → known = false → own = true →
        receiveCopy rx fromPole dispatch s
          = stcClash ((s.setLine rx.line l).setFilter
              (filterWrite (filterKey rx.sender rx.seq) s.clock s.filter)))

/-- A clash notification acts by the station state, with STRAP ERROR clear (R14, R171): it always counts; in
LISTENING it sets the latch and the sync count to 0; in SYNCED it sets the latch and returns to LISTENING, or
to TRIPPED from there with the consumed count above R (R15), which aborts a survey in progress; in RUNNING and
BYPASSING it sets the clash-seen flag. Nothing else changes. -/
def Obligations.ClashActs : Prop :=
  ∀ s : State, s.stc.strapError = false →
    let counted := min 65535 (s.stc.clashCount + 1)
    let above := s.cfg.redundancy < s.lvt.consumed
    (stcClash s).stc.clashCount = counted
      ∧ (s.stc.state = .listening → stcClash s = { s with stc := { s.stc with
          clashCount := counted, clashLatch := true, syncCount := 0 } })
      ∧ (s.stc.state = .synced → stcClash s = State.aborted { s with stc := { s.stc with
          clashCount := counted, clashLatch := true
          state := if above then .tripped else .listening
          syncCount := 0, badRun := 0, goodRun := 0, syncLost := false, darkTimer := none
          tripCount := if above then min 65535 (s.stc.tripCount + 1) else s.stc.tripCount } })
      ∧ (s.stc.state = .running ∨ s.stc.state = .bypassing →
          stcClash s = { s with stc := { s.stc with clashCount := counted, clashSeen := true } })
      ∧ (s.stc.state = .unset ∨ s.stc.state = .tripped →
          stcClash s = { s with stc := { s.stc with clashCount := counted } })

/-- RESULT_FRAME and COMMAND_OTHER_TARGET (R32): an accepted copy of either is counted and entered in the
filter, and is not handed on. -/
def Obligations.CountedNotHandedOn : Prop :=
  ∀ (t : Instant) (rx : RxCopy) (head : CmdHead) (s : State), s.supplied = true →
    ((s.advance t).accepts rx false = true → exec (.resultFrame t rx) s = .next (s.at t rx))
      ∧ ((s.advance t).accepts rx true = true → head.target ≠ 15 → head.target.toNat ≠ s.position →
          exec (.commandOtherTarget t rx head) s = .next (s.at t rx))

/-- BAD_COPY (R19, R26, R34, R35): a bad copy raises the line's bad count by 1 and its error score by 4, held at
64; its end starts the gap and the LIT measurement afresh; it touches neither the silence timer nor the other
line nor any block. -/
def Obligations.BadCopyCounts : Prop :=
  ∀ (t : Instant) (line : Line) (bytes : List Byte) (cutShort : Bool) (s : State), s.supplied = true →
    copyIsBad bytes cutShort = true →
    exec (.badCopy t line bytes cutShort) s = .next ((s.advance t).setLine line
      { s.line line with
        badCount := min 65535 ((s.line line).badCount + 1)
        errorScore := min 64 ((s.line line).errorScore + 4)
        litFrom := (s.advance t).clock, lightEnd := some (s.advance t).clock })

/-! ### Producing and sending frames -/

/-- A copy that arrives at a transmit queue, by the four rows of R23. A displaced RESULT is the oldest one;
the copies before and behind it keep their order, and a head that is then too old is removed (R25). -/
def Obligations.EnqueueRule : Prop :=
  ∀ (clock : Nat) (c : TxCopy) (l : LineState),
    (l.lit = true → l.place clock c = { l with dropCount := min 65535 (l.dropCount + 1) })
      ∧ (l.lit = false → l.queue.length < 4 → l.place clock c = { l with queue := l.queue ++ [c] })
      ∧ (l.lit = false → 4 ≤ l.queue.length →
          (c.hasLag = false ∨ ∀ x ∈ l.queue, x.hasLag = true) →
          l.place clock c = { l with dropCount := min 65535 (l.dropCount + 1) })
      ∧ (∀ (before behind : List TxCopy) (r : TxCopy), l.lit = false → 4 ≤ l.queue.length →
          c.hasLag = true → l.queue = before ++ r :: behind → r.hasLag = false →
          (∀ x ∈ before, x.hasLag = true) →
          ∃ gone kept, before ++ behind ++ [c] = gone ++ kept
            ∧ (∀ x ∈ gone, x.hasLag = true ∧ 4096 ≤ x.age clock)
            ∧ (∀ x ∈ kept.head?, x.hasLag = false ∨ x.age clock < 4096)
            ∧ l.place clock c = { l with
                queue := kept, dropCount := min 65535 (l.dropCount + 1 + gone.length) })

/-- A produced frame takes the sequence counter, which wraps from 255 to 0, and the sampled position; a MARK
or EVENT takes the present instant as its reference instant; one copy is placed on each line (R22, R113). -/
def Obligations.FrameProduced : Prop :=
  ∀ (body : TxBody) (s : State), ∃ c : TxCopy,
    c.body = body ∧ c.seq = s.fic.seqCounter ∧ c.sender.toNat = s.position
      ∧ c.ref = (match body with | .result _ => none | _ => some s.clock)
      ∧ produce body s = { s with
          fic := { s.fic with seqCounter := s.fic.seqCounter + 1 }
          lineA := s.lineA.place s.clock c, lineB := s.lineB.place s.clock c }

/-- TRANSMISSION_START (R19, R24, R25, R29, R35): with a copy waiting, none in transmission, and the line not LIT
and dark for the station's gap of 10 + 3 × position ticks, measured afresh from the end of the last copy, own
or received, the head leaves the queue with its lag stamped and its check computed, and the sent count rises;
an echo still pending is missed. A MARK or EVENT whose age has reached 4,096 ticks is removed instead. Where
one of the conditions fails, nothing starts. (For how long the receiver has seen no carrier is an operand, log
entry 4. That an event whose condition fails has no effect is the model's choice, log entry 8.) -/
def Obligations.TransmissionStarts : Prop :=
  ∀ (t : Instant) (line : Line) (dark : Nat) (s : State), s.supplied = true →
    let r := s.advance t
    let l := s.line line
    let gap := 10 + 3 * s.position
    (∀ (c : TxCopy) (rest : List TxCopy), l.queue = c :: rest → l.sending = none → l.lit = false →
        gap ≤ dark → (∀ ended, l.lightEnd = some ended → ended + gap ≤ r.clock) →
        ((c.hasLag = false ∨ c.age r.clock < 4096) →
          ∃ gone kept, rest = gone ++ kept ∧ (∀ x ∈ gone, x.hasLag = true ∧ 4096 ≤ x.age r.clock)
            ∧ (∀ x ∈ kept.head?, x.hasLag = false ∨ x.age r.clock < 4096)
            ∧ exec (.transmissionStart t line dark) s = .next (r.setLine line
                { l with
                  queue := kept
                  sending := some
                    { copy := c, start := r.clock, bytes := withCheck (c.frameBytes (c.age r.clock)) }
                  litFrom := r.clock
                  sentCount := min 65535 (l.sentCount + 1)
                  dropCount := min 65535 (l.dropCount + gone.length)
                  echo := none
                  echoMissCount := if l.echo.isSome then min 65535 (l.echoMissCount + 1)
                    else l.echoMissCount
                  errorScore := if l.echo.isSome then min 64 (l.errorScore + 4)
                    else l.errorScore }))
        ∧ (c.hasLag = true ∧ 4096 ≤ c.age r.clock →
            exec (.transmissionStart t line dark) s = exec (.lagLimitRemoval t line) s))
      ∧ (l.queue = [] ∨ l.sending.isSome = true ∨ l.lit = true ∨ dark < gap
          ∨ (∃ ended, l.lightEnd = some ended ∧ r.clock < ended + gap) →
          exec (.transmissionStart t line dark) s = .next r)

/-- TRANSMISSION_COMPLETE (R19, R20, R24, R28, R33): a copy stands on the line as seven bytes of alternating ones
and zeros, the start delimiter, the frame bytes and the check, at 0.8 ticks a byte. When it has been on the
line from its start delimiter to its check, none is in transmission any more, the gap and the LIT measurement
start afresh, and the echo-pending record takes its sequence number and the completion instant; with STRAP
ERROR it stays NONE. Earlier nothing happens. (The byte of the start delimiter, and that the preamble starts
with a one, are log entry 22; that a length of no whole number of ticks ends at the next whole tick is log
entry 23. That an event whose condition fails has no effect is the model's choice, log entry 8.) -/
def Obligations.TransmissionCompletes : Prop :=
  ∀ (t : Instant) (line : Line) (s : State), s.supplied = true →
    let r := s.advance t
    (∀ x, (s.line line).sending = some x →
        (4 * (x.bytes.length + 1) ≤ 5 * (r.clock - x.start) →
          exec (.transmissionComplete t line) s = .next (r.setLine line
            { s.line line with
              sending := none
              litFrom := r.clock, lightEnd := some r.clock
              echo := if s.stc.strapError then none
                else some { seq := x.copy.seq, completed := r.clock } }))
        ∧ (5 * (r.clock - x.start) < 4 * (x.bytes.length + 1) →
          exec (.transmissionComplete t line) s = .next r))
      ∧ ((s.line line).sending = none → exec (.transmissionComplete t line) s = .next r)
      ∧ ∀ frame : List Byte,
          onLine (withCheck frame) = List.replicate 7 0xAA ++ [Config.startDelimiter] ++ withCheck frame
            ∧ lineTenths (onLine (withCheck frame)) = 8 * (frame.length + 10)

/-- LAG_LIMIT_REMOVAL (R25): MARK and EVENT copies at the head whose reference instant lies 4,096 ticks or
more in the past are removed one after the other, each counted as a drop, until the head is a RESULT or
young enough; copies behind such a head are not judged. -/
def Obligations.LagLimitRemoves : Prop :=
  ∀ (t : Instant) (line : Line) (s : State), s.supplied = true →
    let r := s.advance t
    ∃ gone kept, (s.line line).queue = gone ++ kept
      ∧ (∀ x ∈ gone, x.hasLag = true ∧ 4096 ≤ x.age r.clock)
      ∧ (∀ x ∈ kept.head?, x.hasLag = false ∨ x.age r.clock < 4096)
      ∧ exec (.lagLimitRemoval t line) s = .next (r.setLine line
          { s.line line with
            queue := kept
            dropCount := min 65535 ((s.line line).dropCount + gone.length) })

/-- LIT_ENTRY and LIT_END (R35, R36): more than 100 ticks of free carrier make a line LIT, remove every waiting
copy into the drop count and stop the silence timer. Carrier is not free while the station sends on the line
or a copy is in reception there, and the measurement starts again when the station starts a copy and, since
neither a copy sent nor one received is free carrier, at the end of either. The drop of carrier ends LIT and
restarts the silence timer. (For how long carrier has been present, and whether a copy is in reception, are
operands, log entry 4. That an event whose condition fails has no effect is the model's choice, log entry
8.) -/
def Obligations.LitEntersAndEnds : Prop :=
  ∀ (t : Instant) (line : Line) (carrier : CarrierView) (s : State), s.supplied = true →
    let r := s.advance t
    let l := s.line line
    (l.lit = false → l.sending = none → carrier.inReception = false → 100 < carrier.ticks →
        l.litFrom + 100 < r.clock →
        exec (.litEntry t line carrier) s = .next (r.setLine line
          { l with
            lit := true, queue := []
            dropCount := min 65535 (l.dropCount + l.queue.length), silence := none }))
      ∧ (l.lit = true ∨ l.sending.isSome = true ∨ carrier.inReception = true ∨ carrier.ticks ≤ 100
          ∨ r.clock ≤ l.litFrom + 100 →
          exec (.litEntry t line carrier) s = .next r)
      ∧ (l.lit = true → exec (.litEnd t line) s = .next (r.setLine line
          { l with lit := false, litFrom := r.clock, lightEnd := some r.clock, silence := some r.clock }))
      ∧ (l.lit = false → exec (.litEnd t line) s = .next r)

/-- SILENCE_TIMER_EXPIRY, ECHO_MISS and FILTER_ENTRY_EXPIRY (R29, R30, R36): a running silence timer expires
when more than 2 × T_est ticks have passed, and the line becomes DEAD; an echo-pending record still PENDING
when more than 200 ticks have passed counts a miss, raises the error score by 4, held at 64, and becomes
NONE; a filter entry older than 64,000 ticks becomes nothing, and every other entry stands. (That an event
whose condition fails has no effect is the model's choice, log entry 8.) -/
def Obligations.LineTimersExpire : Prop :=
  ∀ (t : Instant) (line : Line) (sender seq : Byte) (s : State), s.supplied = true →
    let r := s.advance t
    let l := s.line line
    (∀ start, l.silence = some start → 2 * s.prl.tEst < r.clock - start →
        exec (.silenceTimerExpiry t line) s
          = .next (r.setLine line { l with dead := true, silence := none }))
      ∧ ((∀ start ∈ l.silence, r.clock - start ≤ 2 * s.prl.tEst) →
          exec (.silenceTimerExpiry t line) s = .next r)
      ∧ (∀ p, l.echo = some p → 200 < r.clock - p.completed →
          exec (.echoMiss t line) s = .next (r.setLine line
            { l with
              echo := none
              echoMissCount := min 65535 (l.echoMissCount + 1)
              errorScore := min 64 (l.errorScore + 4) }))
      ∧ ((∀ p ∈ l.echo, r.clock - p.completed ≤ 200) → exec (.echoMiss t line) s = .next r)
      ∧ ∃ table, exec (.filterEntryExpiry t sender seq) s = .next { r with filter := table }
          ∧ (∀ x, x ∈ table ↔ x ∈ s.filter ∧
              ¬ (x.key = sender.toNat * 256 + seq.toNat ∧ 64000 < r.clock - x.written))

/-! ### Frames for the Peer Roll, the FIC and the Order Holder -/

/-- MARK_FRAME taken (R41, R43, R48 to R51): a MARK whose codes are those of R40, whose angles and count are
in range and whose mark instant is later than the one held writes its sender's entry. The mark instant is
the arrival less the lag less the link latency; the last event kind stays, the missed counter becomes 0,
and no other entry changes. The mark is offered to the period estimate: an empty record takes it; one not
later than the record changes nothing; a later one becomes the record, and from a position one to three
places on it gives a sample, G times the interval divided by the distance. An entry one to three places
before the own position, later than the own last mark and not later than the present, is handed to the FIC;
no other is. Nothing else changes. -/
def Obligations.MarkWritten : Prop :=
  ∀ (t : Instant) (rx : RxCopy) (m : MarkFields) (s : State) (x : RollEntry) (report : MarkReport),
    s.supplied = true → (s.advance t).accepts rx false = true → s.stc.state ≠ .unset →
    s.entry rx.sender.toNat = some x → reportOf m = some report →
    (m.alpha.toNat ≤ 36000 ∨ m.alpha.toNat = 65535) → (m.gamma.toNat ≤ 36000 ∨ m.gamma.toNat = 65535) →
    (m.mu.toNat ≤ 36000 ∨ m.mu.toNat = 65535) → m.consumed.toNat ≤ 96 →
    let sender := rx.sender.toNat
    let mark := rx.arrival - m.lag.setWidth 32 - BitVec.ofNat 32 s.cfg.linkLatency
    let written : RollReport := { markInstant := mark, acceptInstant := t, seq := rx.seq, report := report }
    (x.held = none ∨ x.missed = 255 ∨ ∀ r ∈ x.held, later mark r.markInstant = true) →
    let r := s.at t rx
    let before (k d : Nat) : Nat := (k + s.group - d - 1) % s.group + 1
    let usable (d : Nat) : Prop := sender = before s.position d
      ∧ (∀ own, s.ownReport = some own → later mark own.markInstant = true) ∧ later mark t = false
    ∃ u, exec (.markFrame t rx m) s = .next u
      ∧ u.entry sender = some { held := some written, missed := 0, lastEvent := x.lastEvent }
      ∧ (∀ k, k ≠ sender → u.entry k = s.entry k)
      ∧ u = { r with
          prl := { r.prl with
            roll := u.prl.roll, tEst := u.prl.tEst, lastArrival := u.prl.lastArrival
            outliers := u.prl.outliers }
          fic := { r.fic with armed := u.fic.armed, lateCount := u.fic.lateCount } }
      ∧ (s.prl.lastArrival = none → u.prl.lastArrival = some { position := sender, instant := mark }
          ∧ u.prl.tEst = s.prl.tEst ∧ u.prl.outliers = s.prl.outliers)
      ∧ (∀ old, s.prl.lastArrival = some old →
          (later mark old.instant = false → u.prl.lastArrival = some old
            ∧ u.prl.tEst = s.prl.tEst ∧ u.prl.outliers = s.prl.outliers)
          ∧ (later mark old.instant = true →
              u.prl.lastArrival = some { position := sender, instant := mark }
              ∧ (∀ d, 1 ≤ d → d ≤ 3 → old.position = before sender d →
                  let sample := s.group * (instantDiff mark old.instant).toNat / d
                  u.prl.tEst = (judgeSample sample s).prl.tEst
                    ∧ u.prl.outliers = (judgeSample sample s).prl.outliers)
              ∧ (1 ≤ old.position → old.position ≤ s.group →
                  (∀ d, 1 ≤ d → d ≤ 3 → old.position ≠ before sender d) →
                  u.prl.tEst = s.prl.tEst ∧ u.prl.outliers = s.prl.outliers)))
      ∧ (∀ d, 1 ≤ d → d ≤ 3 → usable d →
          u.fic = (handReference d written { r with prl := u.prl }).fic)
      ∧ ((∀ d, 1 ≤ d → d ≤ 3 → ¬ usable d) → u.fic = s.fic)

/-- MARK_FRAME refused (R42): a MARK with a code outside R40, an angle above 36,000, a consumed count above
96 or a mark instant not later than the one held counts as refused and clears the missed counter of its
sender's entry; it writes nothing else. -/
def Obligations.MarkRefused : Prop :=
  ∀ (t : Instant) (rx : RxCopy) (m : MarkFields) (s : State) (x : RollEntry),
    s.supplied = true → (s.advance t).accepts rx false = true → s.stc.state ≠ .unset →
    s.entry rx.sender.toNat = some x →
    let mark := rx.arrival - m.lag.setWidth 32 - BitVec.ofNat 32 s.cfg.linkLatency
    (6 < m.fired.toNat ∨ 2 < m.source.toNat ∨ m.station.toNat = 0 ∨ 5 < m.station.toNat
      ∨ (36000 < m.alpha.toNat ∧ m.alpha.toNat ≠ 65535)
      ∨ (36000 < m.gamma.toNat ∧ m.gamma.toNat ≠ 65535)
      ∨ (36000 < m.mu.toNat ∧ m.mu.toNat ≠ 65535)
      ∨ 96 < m.consumed.toNat
      ∨ (x.missed ≠ 255 ∧ ∃ h, x.held = some h ∧ later mark h.markInstant = false)) →
    let r := s.at t rx
    ∃ u, exec (.markFrame t rx m) s = .next u
      ∧ u = { r with prl := { r.prl with
          roll := u.prl.roll, marksRefused := min 65535 (r.prl.marksRefused + 1) } }
      ∧ u.entry rx.sender.toNat = some { x with missed := 0 }
      ∧ ∀ k, k ≠ rx.sender.toNat → u.entry k = s.entry k

/-- EVENT_FRAME (R44, R114): a listed kind becomes the last event kind of its sender's entry and changes no
other field of the roll; a commutation failure sets the failure advance count to N_cf while INVERTER is
current, and touches nothing else; a pair of codes that is not listed counts as a refused mark. -/
def Obligations.EventWritten : Prop :=
  ∀ (t : Instant) (rx : RxCopy) (e : EventFields) (s : State) (x : RollEntry),
    s.supplied = true → (s.advance t).accepts rx false = true → s.stc.state ≠ .unset →
    s.entry rx.sender.toNat = some x →
    let r := s.at t rx
    let kind : Option EventKind :=
      if e.kind = 1 ∧ e.subkind = 1 then some .recoveryShort
      else if e.kind = 1 ∧ e.subkind = 2 then some .noExtinction
      else if e.kind = 2 ∧ e.subkind = 0 then some .protectiveFire
      else none
    (∀ k, kind = some k → ∃ u, exec (.eventFrame t rx e) s = .next u
        ∧ u.entry rx.sender.toNat = some { x with lastEvent := some k }
        ∧ (∀ j, j ≠ rx.sender.toNat → u.entry j = s.entry j)
        ∧ u = { r with
            prl := { r.prl with roll := u.prl.roll }
            fic := { r.fic with
              advanceCount := if k ≠ .protectiveFire ∧ s.orh.current.mode = .inverter then s.cfg.ncf
                else r.fic.advanceCount } })
      ∧ (kind = none → exec (.eventFrame t rx e) s = .next
          { r with prl := { r.prl with marksRefused := min 65535 (r.prl.marksRefused + 1) } })

/-- ORDER_FRAME (R134, R135, R141): an ORDER with known mode and block state, and with a bypass position in
1..G when it says BYPASS, becomes the pending order with all six fields as carried, sets the order age to 0
and counts; any other counts as refused and changes nothing else. The current order stays in either case. -/
def Obligations.OrderTaken : Prop :=
  ∀ (t : Instant) (rx : RxCopy) (o : OrderFields) (s : State),
    s.supplied = true → (s.advance t).accepts rx true = true → s.stc.state ≠ .unset →
    let r := s.at t rx
    (∀ (mode : Mode) (state : BlockState), o.mode.toNat = mode.code → o.blockState.toNat = state.code →
        (state = .bypass → 1 ≤ o.bypass.toNat ∧ o.bypass.toNat ≤ s.group) →
        exec (.orderFrame t rx o) s = .next { r with orh := { r.orh with
          pending := some
            { seq := some o.orderSeq, mode := mode, blockState := state, bypass := some o.bypass
              alphaOrder := o.alphaOrder.toNat, gammaOrder := o.gammaOrder.toNat }
          pendingForced := false, age := 0, stale := false
          accepted := min 65535 (r.orh.accepted + 1) } })
      ∧ ((o.mode ≠ 1 ∧ o.mode ≠ 2) ∨ (o.blockState ≠ 1 ∧ o.blockState ≠ 2 ∧ o.blockState ≠ 3)
          ∨ (o.blockState = 3 ∧ (o.bypass = 0 ∨ s.group < o.bypass.toNat)) →
          exec (.orderFrame t rx o) s = .next
            { r with orh := { r.orh with refused := min 65535 (r.orh.refused + 1) } })

/-! ### Maintenance commands -/

/-- A COMMAND is judged by the checks of R159 in their order and refused by the first that fails: one RESULT
with completion REFUSED, the detail of the check and no data goes out, and nothing else happens, for every
one of the twelve COMMAND rows. For UNKNOWN_COMMAND, whose code is not one of the eleven, that answer is its
own effect: REFUSED/UNKNOWN wherever STRAP ERROR is clear. -/
def Obligations.CommandRefused : Prop :=
  (∀ (c : Instr) (s : State) (rx : RxCopy) (head : CmdHead) (code : Byte) (detail : Detail),
    commandOf c = some (rx, head, code) → wellFormed c = true →
    reachesCmu (instantOf c) rx head s = true →
    refusalOf c code (s.at (instantOf c) rx) = some detail →
    exec c s = .next (produceResult head.tag code .refused detail [] (s.at (instantOf c) rx)))
  ∧ ∀ (t : Instant) (rx : RxCopy) (head : CmdHead) (code : Byte) (s : State),
    reachesCmu t rx head s = true → s.stc.strapError = false → (code.toNat = 0 ∨ 11 < code.toNat) →
    exec (.unknownCommand t rx head code) s
      = .next (produceResult head.tag code .refused .unknown [] (s.at t rx))

/-- A SETUP with a field out of range is refused as a whole (R4, R162): the fields are judged in ascending
index order, each against the values of the same command and the ranges of section 1.3, and the RESULT is
REFUSED/FIELD with the index of the first one found out of range; no field is adopted and the station stays as
it was. No field is found out of range exactly when all 27 are in range. -/
def Obligations.SetupRefusedWhole : Prop :=
  (∀ (t : Instant) (rx : RxCopy) (head : CmdHead) (f : SetupFields) (s : State) (index : Nat),
    reachesCmu t rx head s = true → s.stc.strapError = false → s.cmu.executing = none →
    s.stc.state = .unset → firstBadField f = some index →
    (index, false) ∈ setupChecks f ∧ (∀ check ∈ setupChecks f, check.1 < index → check.2 = true)
      ∧ exec (.setup t rx head f) s
        = .next (produceResult head.tag 1 .refused .field [BitVec.ofNat 8 index] (s.at t rx)))
    ∧ ∀ f : SetupFields,
      (firstBadField f = none ↔ ∀ k, 1 ≤ k → k ≤ 27 → fieldInRange f k)
        ∧ ∀ index, firstBadField f = some index ↔
            1 ≤ index ∧ index ≤ 27 ∧ ¬ fieldInRange f index
              ∧ ∀ k, 1 ≤ k → k < index → fieldInRange f k

/-- SETUP adopted (R5, R162): the record is written, the RESULT is DONE, the blocks held in UNSET start from
their power-on values with the level table formed, and the station is in LISTENING with its runs cleared.
The record is in range, so the consumed count of 0 is not above R. -/
def Obligations.SetupAdopted : Prop :=
  ∀ (t : Instant) (rx : RxCopy) (head : CmdHead) (f : SetupFields) (s : State),
    reachesCmu t rx head s = true → s.stc.strapError = false → s.cmu.executing = none →
    s.stc.state = .unset → firstBadField f = none →
    let c := setupOf f
    let p := produceResult head.tag 1 .done .none [] (s.at t rx)
    let fresh : LevelRecord :=
      { state := .normal, fwdMiss := 0, ackMiss := 0, prfCount := 0, seen := false
        lastSurvey := none }
    c.InRange ∧
    exec (.setup t rx head f) s = .next { p with
      stc := { p.stc with
        state := .listening, setup := some c, syncCount := 0, badRun := 0, goodRun := 0
        syncLost := false, darkTimer := none }
      prl := Prl.powerOn p.stc.straps
      vcm := Vcm.powerOn
      lvt := { levels := List.replicate c.levels fresh, silentCount := 0, consumed := 0
               qfEff := min c.qf c.levels, qrEff := min c.qr c.levels
               redundancyLow := false, tripCondition := false }
      fic := { Fic.powerOn with seqCounter := p.fic.seqCounter }
      pst := Pst.powerOn
      orh := Orh.powerOn
      pmn := { Pmn.powerOn with ring := List.replicate c.window 0 } }

/-- SURVEY taken (R160, R168): the CMU enters EXECUTING with the record of R160, and no RESULT is produced. -/
def Obligations.SurveyTaken : Prop :=
  ∀ (t : Instant) (rx : RxCopy) (head : CmdHead) (first last : Byte) (s : State),
    reachesCmu t rx head s = true → s.stc.strapError = false → s.cmu.executing = none →
    s.stc.state = .synced → s.vcm.valve ≠ .dark →
    1 ≤ first.toNat → first.toNat ≤ last.toNat → last.toNat ≤ s.cfg.levels →
    let record : SurveyRecord :=
      { tag := head.tag, code := 2, first := first.toNat, last := last.toNat, next := first.toNat
        marks := 0, countOk := 0, countFailed := 0, failures := [] }
    exec (.survey t rx head first last) s
      = .next { s.at t rx with cmu := { executing := some record } }

/-- READ_LEVELS, READ_ROLL and READ_HOLDS (R38, R57, R94, R158, R163, R172 to R174): carried out at once, each
answers DONE with its data as the records stand when the command is taken, and changes nothing else. The data
is laid out field by field, each field given here with its size in bytes and its value, the codes being places
in the lists of R172: a level record in three bytes, a roll entry in 19, an order in nine, the holds in 101. -/
def Obligations.ReadsAnswered : Prop :=
  ∀ (t : Instant) (rx : RxCopy) (head : CmdHead) (first count : Byte) (s : State),
    reachesCmu t rx head s = true → s.stc.strapError = false → s.cmu.executing = none →
    let r := s.at t rx
    let flag (b : Bool) (place : Nat) : Nat := if b then 2 ^ place else 0
    let angle (a : Option Nat) : Nat × Nat := (2, a.getD 65535)
    let station := [StationState.unset, .listening, .synced, .running, .bypassing, .tripped].idxOf
    let fired := [Fired.no, .main, .deferred, .endStop, .bypass, .protective, .forced].idxOf
    let source := [Source.group, .flywheel, .localVoltage].idxOf
    let health := [Health.good, .degraded, .dead, .lit].idxOf
    let level (x : LevelRecord) : List (Nat × Nat) :=
      [ (1, 64 * [LevelState.normal, .suspect, .silent, .nofire].idxOf x.state + 16 * x.fwdMiss
          + 4 * x.ackMiss + flag x.seen 1),
        (1, x.prfCount), (1, [none, some SurveyResult.ok, some .noAck, some .cross].idxOf x.lastSurvey) ]
    let event (x : RollEntry) : Nat :=
      [none, some EventKind.recoveryShort, some .noExtinction, some .protectiveFire].idxOf x.lastEvent
    let entry (x : RollEntry) : List (Nat × Nat) :=
      match x.held with
      | none =>
        [(1, 0), (1, 16 * event x), (8, 0), angle none, angle none, angle none, (2, 0), (1, x.missed)]
      | some h =>
        let m := h.report
        let f := m.flags
        [ (1, flag true 7 + flag m.orderSeq.isSome 6 + 8 * station m.station + fired m.fired),
          (1, 64 * source m.source + 16 * event x + 4 * health m.healthA + health m.healthB),
          (1, flag f.commutationFail 0 + flag f.protectiveFire 1 + flag f.syncLost 2 + flag f.orderStale 3
            + flag f.clash 4 + flag f.tripCondition 5 + flag f.groupLost 6),
          (4, h.markInstant.toNat), (2, (h.acceptInstant - h.markInstant).toNat), (1, h.seq.toNat),
          angle m.alpha, angle m.gamma, angle m.mu,
          (1, m.consumed), (1, (m.orderSeq.getD 0).toNat), (1, x.missed) ]
    let line (l : LineState) : List (Nat × Nat) :=
      [ (2, l.sentCount), (2, l.dropCount), (2, l.acceptedCount), (2, l.badCount), (2, l.foreignCount),
        (2, l.duplicateCount), (2, l.echoCount), (2, l.echoMissCount), (1, l.errorScore),
        (1, health l.health) ]
    let order (o : Option Order) : List (Nat × Nat) :=
      match o with
      | none => [(9, 0)]
      | some o =>
        [ (1, flag true 0 + flag o.seq.isSome 1), (1, (o.seq.getD 0).toNat),
          (1, [Mode.rectifier, .inverter].idxOf o.mode + 1),
          (1, [BlockState.block, .deblock, .bypass].idxOf o.blockState + 1),
          (1, (o.bypass.getD 0).toNat), (2, o.alphaOrder), (2, o.gammaOrder) ]
    let alarm (n : AlarmName) : Nat × Nat :=
      let x := r.pmn.line n
      let timer := match x.timer with | .idle => 0 | .asserting _ => 1 | .releasing _ => 2
      (1, flag x.condition 7 + flag x.logic 6 + 16 * timer
        + 4 * [Override.none, .forcedOn, .forcedOff].idxOf x.override + flag (r.alarmOutput n) 0)
    (s.stc.state ≠ .unset → 1 ≤ first.toNat → 1 ≤ count.toNat → count.toNat ≤ 16 →
        first.toNat + count.toNat ≤ s.cfg.levels + 1 → ∃ data,
        exec (.readLevels t rx head first count) s
            = .next (produceResult head.tag 3 .done .none data r)
          ∧ data = laidOut
            ([(1, first.toNat), (1, count.toNat), (1, s.lvt.silentCount), (1, s.lvt.consumed)]
              ++ ((s.lvt.levels.drop (first.toNat - 1)).take count.toNat).flatMap level)
          ∧ (s.lvt.levels.length = s.cfg.levels → data.length = 4 + 3 * count.toNat))
      ∧ (∃ data, exec (.readRoll t rx head) s = .next (produceResult head.tag 4 .done .none data r)
          ∧ data = laidOut ((4, t.toNat) :: s.prl.roll.flatMap entry)
          ∧ (s.prl.roll.length = s.group → data.length = 4 + 19 * s.group))
      ∧ ∃ data, exec (.readHolds t rx head) s = .next (produceResult head.tag 5 .done .none data r)
          ∧ data = laidOut
            ([ (1, station r.stc.state), (2, r.stc.clashCount), (2, r.stc.syncLossCount),
                (2, r.stc.tripCount) ]
              ++ line r.lineA ++ line r.lineB
              ++ [ (2, r.prl.tEst), (2, r.prl.marksRefused), (2, r.prl.outliers),
                (2, r.vcm.shortCount), (2, r.vcm.noExtCount),
                (2, r.fic.lateCount), (2, r.fic.endStopCount), (2, r.fic.forcedCount),
                (1, r.fic.advanceCount), (2, r.pst.pvfCount), (2, r.pst.strayAck) ]
              ++ order (some r.orh.current) ++ order r.orh.pending
              ++ [ (3, r.orh.age), (2, r.orh.accepted), (2, r.orh.refused), (2, r.orh.losses),
                (2, r.pmn.peakHold), angle r.pmn.gammaMin, (2, r.pmn.ring.sum),
                alarm .tripRequest, alarm .redundancyLow, alarm .commutationFailure, alarm .prfRate ])
          ∧ data.length = 101

/-- CLEAR_LEVEL_ONE and CLEAR_LEVEL_ALL (R10, R15, R80, R87, R91, R164): each named record returns to NORMAL with
both miss counts 0, the flag clear and no survey result, its PRF count kept; no other record changes; the
counts are recomputed, the sets lose the levels that are SILENT, and the two alarm conditions are handed on.
In LISTENING and TRIPPED the station state stays; in SYNCED a changed count has R10 evaluated, which may lead
on to RUNNING or BYPASSING and else leaves SYNCED as it stood. The Pulse Stage is not touched. The RESULT is
DONE. -/
def Obligations.LevelsCleared : Prop :=
  ∀ (t : Instant) (rx : RxCopy) (head : CmdHead) (n : Byte) (s : State),
    reachesCmu t rx head s = true → s.stc.strapError = false → s.cmu.executing = none →
    (s.stc.state = .listening ∨ s.stc.state = .synced ∨ s.stc.state = .tripped) → LevelsOk s →
    let cleared (r : LevelRecord) : LevelRecord :=
      { state := .normal, fwdMiss := 0, ackMiss := 0, prfCount := r.prfCount, seen := false
        lastSurvey := none }
    let clock := (s.advance t).clock
    let follows (v : State) : Prop :=
      let state := if s.stc.state = .synced ∧ v.lvt.consumed ≠ s.lvt.consumed then
        v.fromSynced s.orh.current else s.stc.state
      let heard (set : List Nat) := set.filter (fun k =>
        decide ((itemAt v.lvt.levels k).map LevelRecord.state ≠ some .silent))
      v.lvt.silentCount = v.lvt.levels.countP (fun x => decide (x.state = .silent))
        ∧ v.lvt.consumed = v.lvt.levels.countP (fun x => decide (x.state = .silent ∨ x.state = .nofire))
        ∧ (v.lvt.tripCondition = true ↔ s.cfg.redundancy < v.lvt.consumed)
        ∧ v.stc = { s.stc with
            state := state
            darkTimer := if state = s.stc.state then s.stc.darkTimer else none }
        ∧ v = { s.at t rx with
            lvt := v.lvt, stc := v.stc
            vcm := { s.vcm with fwdSet := heard s.vcm.fwdSet, revSet := heard s.vcm.revSet }
            pmn := { s.pmn with
              tripRequest := s.pmn.tripRequest.hand clock s.cfg.tripAssert s.cfg.tripRelease
                v.lvt.tripCondition
              redundancyLow := s.pmn.redundancyLow.hand clock s.cfg.redAssert s.cfg.redRelease
                v.lvt.redundancyLow } }
    (1 ≤ n.toNat → n.toNat ≤ s.cfg.levels → ∃ v,
        exec (.clearLevelOne t rx head n) s = .next (produceResult head.tag 6 .done .none [] v)
          ∧ (∀ k, itemAt v.lvt.levels k
              = (itemAt s.lvt.levels k).map (fun r => if k = n.toNat then cleared r else r))
          ∧ follows v)
      ∧ ∃ v, exec (.clearLevelAll t rx head) s = .next (produceResult head.tag 7 .done .none [] v)
          ∧ v.lvt.levels = s.lvt.levels.map cleared ∧ v.lvt.consumed = 0 ∧ v.lvt.silentCount = 0
          ∧ follows v

/-- CLEAR_HOLDS (R148, R149, R164): the PRF peak hold becomes 0 and the gamma minimum hold absent, and nothing
else changes; the RESULT is DONE. FORCE_OUTPUTS and RELEASE_OUTPUTS (R152, R155, R156, R165): the override of
each named line changes, and nothing else of its record; a forced output stands at its forced level and a
released one at the logic level; the RESULT is DONE with the four overrides and outputs as they then
stand. -/
def Obligations.MonitorCommandsCarried : Prop :=
  ∀ (t : Instant) (rx : RxCopy) (head : CmdHead) (lines : Byte) (s : State),
    reachesCmu t rx head s = true → s.stc.strapError = false → s.cmu.executing = none →
    s.stc.state ≠ .unset →
    exec (.clearHolds t rx head) s = .next (produceResult head.tag 8 .done .none []
      { s.at t rx with pmn := { s.pmn with peakHold := 0, gammaMin := none } }) ∧
    let field : AlarmName → Nat := forceField lines
    (lines.toNat ≠ 0 → (∀ n, field n ≠ 3) → ∃ v,
        exec (.forceOutputs t rx head lines) s
            = .next (produceResult head.tag 9 .done .none v.outputsData v)
          ∧ v = { s.at t rx with pmn := { s.pmn with
              tripRequest := v.pmn.tripRequest, redundancyLow := v.pmn.redundancyLow
              commutationFailure := v.pmn.commutationFailure, prfRate := v.pmn.prfRate } }
          ∧ ∀ n, v.pmn.line n = { s.pmn.line n with
                override := if field n = 1 then .forcedOn else if field n = 2 then .forcedOff
                  else (s.pmn.line n).override }
            ∧ (field n = 1 → v.alarmOutput n = true) ∧ (field n = 2 → v.alarmOutput n = false)
            ∧ (field n = 0 → v.alarmOutput n = s.alarmOutput n))
      ∧ (1 ≤ lines.toNat → lines.toNat < 16 → ∃ v,
        exec (.releaseOutputs t rx head lines) s
            = .next (produceResult head.tag 10 .done .none v.outputsData v)
          ∧ v = { s.at t rx with pmn := { s.pmn with
              tripRequest := v.pmn.tripRequest, redundancyLow := v.pmn.redundancyLow
              commutationFailure := v.pmn.commutationFailure, prfRate := v.pmn.prfRate } }
          ∧ ∀ n, v.pmn.line n = { s.pmn.line n with
                override := if releaseNames lines n then .none else (s.pmn.line n).override }
            ∧ (releaseNames lines n = true → v.alarmOutput n = (s.pmn.line n).logic))

/-- RESTART (R16, R39, R58, R77, R93, R117, R133, R144, R157, R166, R167): the RESULT is DONE and is produced
first; then every block takes its RESTART values at once, in both CMU states, and the station is in
LISTENING, or in TRIPPED from there with the consumed count above R. The Group Line Interface and the level
table are kept. -/
def Obligations.RestartCarried : Prop :=
  ∀ (t : Instant) (rx : RxCopy) (head : CmdHead) (s : State),
    reachesCmu t rx head s = true → s.stc.strapError = false → s.stc.state ≠ .unset →
    1 ≤ s.cfg.prfLimit →
    let r := s.at t rx
    let p := produceResult head.tag 11 .done .none [] r
    ∃ u, exec (.restart t rx head) s = .next u
      ∧ u = { p with
          stc := { p.stc with
            state := if s.cfg.redundancy < s.lvt.consumed then .tripped else .listening
            syncCount := 0, badRun := 0, goodRun := 0, syncLost := false, clashLatch := false
            clashSeen := false, darkTimer := none
            tripCount := if s.cfg.redundancy < s.lvt.consumed then min 65535 (s.stc.tripCount + 1)
              else s.stc.tripCount }
          prl := { Prl.powerOn s.stc.straps with
            marksRefused := s.prl.marksRefused, outliers := s.prl.outliers }
          vcm := { Vcm.powerOn with
            gamma := s.vcm.gamma, mu := s.vcm.mu, shortCount := s.vcm.shortCount
            noExtCount := s.vcm.noExtCount }
          fic := { Fic.powerOn with
            lateCount := s.fic.lateCount, endStopCount := s.fic.endStopCount
            forcedCount := s.fic.forcedCount }
          pst := { Pst.powerOn with pvfCount := s.pst.pvfCount, strayAck := s.pst.strayAck }
          orh := { Orh.powerOn with
            age := r.orh.age, stale := r.orh.stale, accepted := s.orh.accepted
            refused := s.orh.refused, losses := s.orh.losses }
          pmn := u.pmn
          cmu := { executing := none } }
      ∧ u.pmn.cyclePrf = [] ∧ u.pmn.ring = List.replicate s.pmn.ring.length 0
      ∧ u.pmn.peakHold = s.pmn.peakHold ∧ u.pmn.gammaMin = s.pmn.gammaMin
      ∧ u.pmn.cfHold = s.pmn.cfHold
      ∧ u.pmn.tripRequest = { s.pmn.tripRequest with override := .none }
      ∧ u.pmn.redundancyLow = { s.pmn.redundancyLow with override := .none }
      ∧ u.pmn.commutationFailure = { s.pmn.commutationFailure with override := .none }
      ∧ u.pmn.prfRate.condition = false ∧ u.pmn.prfRate.override = .none

/-! ### Level indications -/

/-- The four indications (R59, R60, R62, R63, R85): in UNSET, and on an input outside 1 to L, they are
discarded; a FWD or REV from a SILENT level is a sign of life and nothing more; one from another level joins
its set, FWD in FORWARD also the roster, and restarts the inactivity timer. Where the set does not reach its
effective quorum, or is not read in the valve's state (R61), that is all. -/
def Obligations.IndicationsJoin : Prop :=
  ∀ (t : Instant) (n : Nat) (s : State), s.supplied = true →
    let r := s.advance t
    (s.stc.state = .unset ∨ n = 0 ∨ s.cfg.levels < n →
        exec (.fwdIndication t n) s = .next r ∧ exec (.revIndication t n) s = .next r
          ∧ exec (.prfIndication t n) s = .next r ∧ exec (.ackIndication t n) s = .next r)
      ∧ (s.stc.state ≠ .unset → 1 ≤ n → n ≤ s.cfg.levels → s.levelState n = some .silent →
          let v := { r with lvt := { s.lvt with
            levels := changeAt (fun x => { x with seen := true }) s.lvt.levels n } }
          exec (.fwdIndication t n) s = .next v ∧ exec (.revIndication t n) s = .next v)
      ∧ (s.stc.state ≠ .unset → 1 ≤ n → n ≤ s.cfg.levels → s.levelState n ≠ some .silent →
          ((s.vcm.valve = .forward ∨ s.vcm.valve = .conducting
              ∨ (insertLevel n s.vcm.fwdSet).length < s.lvt.qfEff) →
            exec (.fwdIndication t n) s = .next { r with vcm := { s.vcm with
              fwdSet := insertLevel n s.vcm.fwdSet
              roster := if s.vcm.valve = .forward then insertLevel n s.vcm.roster else s.vcm.roster
              inactivity := some r.clock } })
          ∧ ((s.vcm.valve = .reverse ∨ s.vcm.valve = .recovering
              ∨ (insertLevel n s.vcm.revSet).length < s.lvt.qrEff) →
            exec (.revIndication t n) s = .next { r with vcm := { s.vcm with
              revSet := insertLevel n s.vcm.revSet
              inactivity := some r.clock } }))
      ∧ ∀ (set : List Nat) (m : Nat), m ∈ insertLevel n set ↔ m = n ∨ m ∈ set

/-- FWD_INDICATION that completes the forward quorum in DARK, REVERSE or RECOVERING: the entry into FORWARD (R52,
R62, R64, R65, R72, R103, R108, R114, R131, R138, R149). V_f takes the instant, the roster the set, and the
interval from the old V_f is reported to the period estimate. From RECOVERING gamma is measured, and one below
gamma_crit is a RECOVERY SHORT, with its count, its EVENT on both lines, the hold and the failure advance of an
inverter. A LOCAL mark is armed where none is, where a FLYWHEEL mark is and the entry is from DARK, and where
one is and the own last mark was not placed by the group; another armed mark stands. A survey schedules its
next level, unless a SURVEY window is open. A pending order becomes current, and with none the ORH and the
station state stand as they were. A deferral waits on while firing stays permitted; an order that ends that
ends it with fired NO, and one that bypasses the own pair with a bypass firing. -/
def Obligations.ForwardEntered : Prop :=
  ∀ (t : Instant) (n : Nat) (s : State), s.supplied = true → s.stc.state ≠ .unset → 1 ≤ n →
    n ≤ s.cfg.levels → s.levelState n ≠ some .silent →
    (s.vcm.valve = .dark ∨ s.vcm.valve = .reverse ∨ s.vcm.valve = .recovering) →
    s.lvt.qfEff ≤ (insertLevel n s.vcm.fwdSet).length →
    let r := s.advance t
    let gamma : Option Nat :=
      if s.vcm.valve = .recovering then
        s.vcm.e.map (fun e => min 36000 (cdegAt s.prl.tEst (t - e).toNat))
      else none
    let short := gamma.any (fun g => decide (g < s.cfg.gammaCrit))
    let event : TxCopy :=
      { sender := BitVec.ofNat 8 s.position, seq := s.fic.seqCounter, ref := some r.clock
        body := .event .recoveryShort }
    let placedLocal : Prop := s.fic.armed = none ∨ ∃ a, s.fic.armed = some a ∧ a.placing = .flywheel
      ∧ (s.vcm.valve = .dark ∨ ∃ own, s.ownReport = some own ∧ own.report.source ≠ .group)
    (s.fic.deferral = none → ∃ u, exec (.fwdIndication t n) s = .next u
      ∧ u.vcm = { s.vcm with
          valve := .forward, fwdSet := [], revSet := [], roster := insertLevel n s.vcm.fwdSet
          vf := some t, fwdInterval := s.vcm.vf.map (fun old => (t - old).toNat)
          gamma := (match gamma with
            | none => s.vcm.gamma
            | some g => some { angle := g, instant := t })
          inactivity := some r.clock, pulseInDark := false
          failureInCycle := short || s.vcm.failureInCycle
          shortCount := if short then min 65535 (s.vcm.shortCount + 1) else s.vcm.shortCount }
      ∧ u.prl = (match s.vcm.vf with
          | none => s.prl
          | some old => if s.prl.localRun = 3 then (judgeSample (t - old).toNat s).prl else s.prl)
      ∧ u.pmn = { s.pmn with
          gammaMin := (match gamma, s.pmn.gammaMin with
            | none, kept => kept
            | some g, none => some g
            | some g, some kept => some (min kept g))
          cfHold := short || s.pmn.cfHold
          commutationFailure := if short then
              s.pmn.commutationFailure.hand r.clock s.cfg.cfAssert s.cfg.cfRelease true
            else s.pmn.commutationFailure }
      ∧ u.lvt = s.lvt ∧ u.filter = s.filter ∧ u.blockAsserted = s.blockAsserted ∧ u.firing = []
      ∧ u.fic.deferral = none
      ∧ (placedLocal → ∃ a, u.fic.armed = some a ∧ a.placing = .localVoltage ∧ a.alphaT = u.alphaTarget
          ∧ (s.orh.pending = none → a.m = instantPlus t (ticksAt u.prl.tEst a.alphaT)))
      ∧ (s.orh.pending = none →
          u.orh = r.orh ∧ u.cmu = s.cmu
            ∧ u.stc = { s.stc with
                darkTimer := if s.vcm.valve = .dark then none else s.stc.darkTimer }
            ∧ (¬ placedLocal → u.fic.armed = s.fic.armed)
            ∧ u.fic = { s.fic with
                armed := u.fic.armed
                seqCounter := if short then s.fic.seqCounter + 1 else s.fic.seqCounter
                advanceCount := if short ∧ s.orh.current.mode = .inverter then s.cfg.ncf
                  else s.fic.advanceCount }
            ∧ u.lineA = (if short then s.lineA.place r.clock event else s.lineA)
            ∧ u.lineB = (if short then s.lineB.place r.clock event else s.lineB)
            ∧ (s.cmu.executing = none → u.pst = s.pst)
            ∧ (∀ v, s.cmu.executing = some v →
                (∀ w k, s.pst.window = some w → w.kind = .survey k →
                  u.pst = { s.pst with surveyTest := none })
                ∧ ((∀ w ∈ s.pst.window, w.kind = .main ∨ w.kind = .pvf) →
                  u.pst = { s.pst with surveyTest := some { level := v.next, vf := t } })))
      ∧ (∀ o, s.orh.pending = some o → u.orh.current = o))
    ∧ (∀ a, s.fic.deferral = some a → DeferralOk s → (s.entry s.position).isSome = true →
        ∃ u, exec (.fwdIndication t n) s = .next u ∧ u.vcm.vf = some t
          ∧ ((s.orh.pending = none ∨ ∃ o, s.orh.pending = some o ∧ o.blockState = .deblock) →
            u.fic.deferral = some a ∧ u.fic.armed = none ∧ u.firing = [] ∧ u.vcm.valve = .forward
              ∧ u.vcm.roster = insertLevel n s.vcm.fwdSet ∧ u.stc.state = .running)
          ∧ (∀ o, s.orh.pending = some o → o.blockState = .bypass → s.inPairOf o = true →
            u.ownMarkIs t .bypass a.placing.source ∧ u.stc.state = .bypassing ∧ u.fic.deferral = none
              ∧ u.firing = [pulseToAll .bypass t s.cfg.levels] ∧ u.vcm.valve = .conducting)
          ∧ (∀ o, s.orh.pending = some o →
            (o.blockState = .block ∨ (o.blockState = .bypass ∧ s.inPairOf o = false)) →
            u.ownMarkIs t .no a.placing.source ∧ u.stc.state ≠ .running ∧ u.stc.state ≠ .bypassing
              ∧ u.fic.deferral = none ∧ u.firing = [] ∧ u.vcm.valve = .forward))

/-- REV_INDICATION that completes the reverse quorum (R12, R15, R55, R66, R69, R70, R74, R81, R108, R120).
CONDUCTING becomes RECOVERING: E takes the instant, the no-extinction timer and a REFIRE train stop, and mu is
measured from the take-over instant when there is one: the mark instant of the position G/3 places after the own
one, when its entry is HELD and not aged, its mark is MAIN, DEFERRED, END-STOP or BYPASS, and it is later than F.
FORWARD becomes REVERSE: every level that is not SILENT receives one FWD outcome, a scheduled survey test is
dropped, and a consumed count that the outcomes change has the station tripped or R10 evaluated. A deferral that
waits comes back under its limit: before it the deferral waits on, and where it has passed the FORCED pulse is
made at once, into the REVERSE valve. DARK becomes REVERSE, or after a pulse in DARK stays DARK with the set
emptied. (That the outcomes come before the forced pulse, which decides its window's targets, is the model's
choice, log entry 30.) -/
def Obligations.ReverseQuorumReached : Prop :=
  ∀ (t : Instant) (n : Nat) (s : State), s.supplied = true → s.stc.state ≠ .unset → 1 ≤ n →
    n ≤ s.cfg.levels → s.levelState n ≠ some .silent →
    s.lvt.qrEff ≤ (insertLevel n s.vcm.revSet).length →
    let r := s.advance t
    (s.vcm.valve = .conducting →
        let mu : Option Nat := s.takeOver.map (fun f =>
          if later t f then min 6000 (cdegAt s.prl.tEst (instantDiff t f).toNat) else 0)
        exec (.revIndication t n) s = .next { r with
          vcm := { s.vcm with
            valve := .recovering, fwdSet := [], revSet := [], pulseInDark := false
            e := some t, noExtinction := none, inactivity := some r.clock
            mu := (match mu with
              | none => s.vcm.mu
              | some x => some { angle := x, instant := t })
            muHold := mu.getD s.vcm.muHold }
          pst := { s.pst with train := (match s.pst.train with
            | .refire _ => .stopped
            | other => other) } })
      ∧ (s.vcm.valve = .forward → s.fic.deferral = none →
        ∃ u, exec (.revIndication t n) s = .next u
          ∧ u.vcm = { s.vcm with
              valve := .reverse, fwdSet := [], revSet := [], roster := [], pulseInDark := false
              inactivity := some r.clock }
          ∧ (∀ k, itemAt u.lvt.levels k
              = (itemAt s.lvt.levels k).map (fun x => x.takeFwd (s.vcm.roster.contains k)))
          ∧ u.pst.surveyTest = none ∧ u.firing = [] ∧ u.prl = s.prl ∧ u.orh = r.orh
          ∧ u.lvt.consumed
            = u.lvt.levels.countP (fun x => decide (x.state = .silent ∨ x.state = .nofire))
          ∧ u.stc.state = s.afterCountChange u.lvt.consumed
          ∧ (s.cmu.executing = none → u = { r with
              vcm := u.vcm, lvt := u.lvt, pst := { s.pst with surveyTest := none }
              pmn := { s.pmn with
                tripRequest := u.pmn.tripRequest, redundancyLow := u.pmn.redundancyLow }
              stc := { s.stc with
                state := u.stc.state
                darkTimer := if u.stc.state = s.stc.state then s.stc.darkTimer else none
                tripCount := if u.stc.state = .tripped ∧ s.stc.state ≠ .tripped then
                  min 65535 (s.stc.tripCount + 1) else s.stc.tripCount } }))
      ∧ (∀ a, s.vcm.valve = .forward → s.fic.deferral = some a → DeferralOk s →
          (s.entry s.position).isSome = true →
        let limit := instantPlus a.m (ticksAt s.prl.tEst 3000)
        let judged : State := { s with lvt := { s.lvt with
          levels := mapFrom (fun k x => x.takeFwd (s.vcm.roster.contains k)) 1 s.lvt.levels } }
        ∃ u, exec (.revIndication t n) s = .next u
          ∧ u.vcm = { s.vcm with
              valve := .reverse, fwdSet := [], revSet := [], roster := [], pulseInDark := false
              inactivity := some r.clock
              failureInCycle := if later limit t = true then s.vcm.failureInCycle else false }
          ∧ (later limit t = true →
            u.fic.deferral = some a ∧ u.firing = [] ∧ u.lvt.levels = judged.lvt.levels
              ∧ u.stc = s.stc ∧ u.pst = { s.pst with surveyTest := none } ∧ u.prl = s.prl)
          ∧ (later limit t = false →
            u.ownMarkIs t .forced a.placing.source ∧ u.fic.deferral = none
              ∧ u.firing = [pulseToAll .main t s.cfg.levels]
              ∧ u.fic.forcedCount = min 65535 (s.fic.forcedCount + 1)
              ∧ u.pst.window = some (judged.openedWindow .main r.clock)
              ∧ (∀ k, itemAt u.lvt.levels k
                = (itemAt judged.lvt.levels k).map (closedRecord s.pst.window k))
              ∧ u.stc.state = .running ∧ u.pst.train = s.pst.train))
      ∧ (∀ f, s.takeOver = some f ↔ ∃ x h,
          s.entry ((s.position + s.group / 3 - 1) % s.group + 1) = some x ∧ x.missed ≠ 255
            ∧ x.held = some h ∧ h.markInstant = f
            ∧ h.report.fired ∈ [Fired.main, .deferred, .endStop, .bypass]
            ∧ ∀ own, s.vcm.f = some own → later f own = true)
      ∧ (s.vcm.valve = .dark →
        exec (.revIndication t n) s = .next (if s.vcm.pulseInDark then
            { r with vcm := { s.vcm with revSet := [], inactivity := some r.clock } }
          else { r with
            vcm := { s.vcm with
              valve := .reverse, fwdSet := [], revSet := [], inactivity := some r.clock }
            stc := { s.stc with darkTimer := none } }))

/-- PRF_INDICATION (R15, R74, R86, R126, R128, R129, R146): the level's PRF count rises and the level joins the set
of the cycle, in every valve state. In DARK, FORWARD and REVERSE it joins the gather, which its first PRF
starts; at Q_pf the protective valve firing is made: one PVF pulse to all levels, CONDUCTING with cause
PROTECTIVE, the FWD outcomes of a forward interval that is long enough, with what a changed consumed count
brings, a PVF window on the levels that are not SILENT, the outcomes of an open MAIN or PVF window, the EVENT
PROTECTIVE-FIRE on both lines, the PVF count and the flag. A train that runs runs on. A deferral that waits
ends with fired PROTECTIVE (R108). (That the LVT and the PMN count the PRF before a firing it completes takes
a mark is the model's choice, log entry 10.) -/
def Obligations.PrfTaken : Prop :=
  ∀ (t : Instant) (n : Nat) (s : State), s.supplied = true → s.stc.state ≠ .unset → 1 ≤ n →
    n ≤ s.cfg.levels →
    let r := s.advance t
    let counted := changeAt (fun x => { x with
      prfCount := min 255 (x.prfCount + 1)
      seen := if x.state = .silent then true else x.seen }) s.lvt.levels n
    let gather : PrfGather := match s.pst.gather with
      | some g => { g with set := insertLevel n g.set }
      | none =>
        { set := [n]
          expiry := timerExpiry { s.cfg.prfGather with factor := max 1 s.cfg.prfGather.factor } r.clock }
    let gathers := s.vcm.valve = .dark ∨ s.vcm.valve = .forward ∨ s.vcm.valve = .reverse
    let event : TxCopy :=
      { sender := BitVec.ofNat 8 s.position, seq := s.fic.seqCounter, ref := some r.clock
        body := .event .protectiveFire }
    (¬ gathers ∨ gather.set.length < s.cfg.qpf →
        exec (.prfIndication t n) s = .next { r with
          lvt := { s.lvt with levels := counted }
          pmn := { s.pmn with cyclePrf := insertLevel n s.pmn.cyclePrf }
          pst := { s.pst with gather := if gathers then some gather else s.pst.gather } })
      ∧ (gathers → s.cfg.qpf ≤ gather.set.length →
        ∃ u, exec (.prfIndication t n) s = .next u
          ∧ u.vcm.valve = .conducting ∧ u.vcm.f = some t ∧ u.vcm.roster = []
          ∧ u.fic.cause = some .protective
          ∧ u.fic.deferral = none ∧ u.firing = [pulseToAll .pvf t s.cfg.levels]
          ∧ u.pst.gather = none ∧ u.pst.pvfCount = min 65535 (s.pst.pvfCount + 1)
          ∧ u.pst.window = some (s.openedWindow .pvf r.clock)
          ∧ u.pst.train = s.pst.train
          ∧ ((∀ w ∈ s.pst.window, w.kind = .main ∨ w.kind = .pvf) → ∀ k, itemAt u.lvt.levels k
              = (itemAt counted k).map (fun x => closedRecord s.pst.window k (s.firedRecord t k x)))
          ∧ (s.fic.deferral = none → u.pst.pvfSeen = true ∧ u.pmn.cyclePrf = insertLevel n s.pmn.cyclePrf
            ∧ (s.pst.window = none → u.stc.state = s.afterCountChange u.lvt.consumed)
            ∧ (s.cmu.executing = none → u.fic.seqCounter = s.fic.seqCounter + 1
              ∧ u.lineA = s.lineA.place r.clock event ∧ u.lineB = s.lineB.place r.clock event))
          ∧ (∀ a, s.fic.deferral = some a → (s.entry s.position).isSome = true →
              u.ownMarkIs t .protective a.placing.source))

/-- ACK_INDICATION (R85, R124): an ACK joins the acked set of an open SURVEY window, and of a MAIN or PVF
window that targets its level; otherwise it counts as stray, unless its level is SILENT. An ACK from a
SILENT level is a sign of life in every case. Nothing else changes. -/
def Obligations.AckTaken : Prop :=
  ∀ (t : Instant) (n : Nat) (s : State), s.supplied = true → s.stc.state ≠ .unset → 1 ≤ n →
    n ≤ s.cfg.levels →
    let r := s.advance t
    let seen := { s.lvt with levels := changeAt (fun x =>
      { x with seen := if x.state = .silent then true else x.seen }) s.lvt.levels n }
    (∀ w, s.pst.window = some w → ((∃ k, w.kind = .survey k) ∨ n ∈ w.targets) →
        exec (.ackIndication t n) s = .next { r with
          pst := { s.pst with window := some { w with acked := insertLevel n w.acked } }, lvt := seen })
      ∧ ((∀ w, s.pst.window = some w → (w.kind = .main ∨ w.kind = .pvf) ∧ n ∉ w.targets) →
        exec (.ackIndication t n) s = .next { r with
          pst := if s.levelState n = some .silent then s.pst
            else { s.pst with strayAck := min 65535 (s.pst.strayAck + 1) }
          lvt := seen })

/-! ### Timers of the valve and of the pulse stage -/

/-- INACTIVITY_EXPIRY (R7, R9, R63, R108): more than ticks(54,000) after the last FWD or REV the valve goes DARK:
the sets and the roster are emptied, V_f and the interval become absent, both timers stop, the sync count
becomes 0, and in SYNCED the DARK timer starts. A deferral waits on, and where its limit has passed its FORCED
pulse is made at once, into the DARK valve. NO_EXTINCTION_EXPIRY (R71, R72, R114, R150): more than
ticks(24,000) after F with the valve CONDUCTING and nothing spent, the timer is spent; outside BYPASSING a
NO EXTINCTION is declared, which counts, sets the hold, produces an EVENT and starts the failure advance of
an inverter. Earlier neither does anything, nor does the first in DARK, nor the second once spent or with the
valve elsewhere. (That an event whose condition fails has no effect is the
model's choice, log entry 8; that the timers are records that stop is log entry 14; that an event taken late
acts at the command's instant, which is then the EVENT's reference instant, is log entry 15; that a DARK entry
in TRIPPED sets the sync count to 0 as well is log entry 28.) -/
def Obligations.ValveTimersExpire : Prop :=
  ∀ (t : Instant) (s : State), s.supplied = true → s.stc.state ≠ .unset →
    let r := s.advance t
    let event : TxCopy :=
      { sender := BitVec.ofNat 8 s.position, seq := s.fic.seqCounter, ref := some r.clock
        body := .event .noExtinction }
    let dark : State := { r with
      vcm := { s.vcm with
        valve := .dark, fwdSet := [], revSet := [], roster := [], pulseInDark := false, vf := none
        fwdInterval := none, inactivity := none, noExtinction := none }
      stc := { s.stc with
        syncCount := 0
        darkTimer := if s.stc.state = .synced then some r.clock else s.stc.darkTimer }
      pst := { s.pst with surveyTest := none } }
    (∀ start, s.vcm.inactivity = some start → (3 * s.prl.tEst + 1) / 2 < r.clock - start →
        s.vcm.valve ≠ .dark →
        (s.fic.deferral = none → exec (.inactivityExpiry t) s = .next dark)
        ∧ (∀ a, s.fic.deferral = some a → DeferralOk s → (s.entry s.position).isSome = true →
          let limit := instantPlus a.m (ticksAt s.prl.tEst 3000)
          (later limit t = true → exec (.inactivityExpiry t) s = .next dark)
          ∧ (later limit t = false → ∃ u, exec (.inactivityExpiry t) s = .next u
            ∧ u.ownMarkIs t .forced a.placing.source ∧ u.fic.deferral = none
            ∧ u.firing = [pulseToAll .main t s.cfg.levels]
            ∧ u.fic.forcedCount = min 65535 (s.fic.forcedCount + 1)
            ∧ u.vcm = { dark.vcm with pulseInDark := true, failureInCycle := false }
            ∧ u.pst.window = some (s.openedWindow .main r.clock) ∧ u.pst.surveyTest = none
            ∧ (s.orh.pending = none → u.pst.train = s.pst.train ∧ u.stc.state = .running))))
      ∧ ((∀ start ∈ s.vcm.inactivity, r.clock - start ≤ (3 * s.prl.tEst + 1) / 2) ∨ s.vcm.valve = .dark →
        exec (.inactivityExpiry t) s = .next r)
      ∧ (∀ start, s.vcm.noExtinction = some start → (4 * s.prl.tEst + 3) / 6 < r.clock - start →
          s.vcm.valve = .conducting → s.vcm.spent = false →
          (s.stc.state = .bypassing → exec (.noExtinctionExpiry t) s
            = .next { r with vcm := { s.vcm with spent := true } })
          ∧ (s.stc.state ≠ .bypassing → ∃ u, exec (.noExtinctionExpiry t) s = .next u
            ∧ u = { r with
                vcm := { s.vcm with
                  spent := true, failureInCycle := true
                  noExtCount := min 65535 (s.vcm.noExtCount + 1) }
                fic := { s.fic with
                  seqCounter := s.fic.seqCounter + 1
                  advanceCount := if s.orh.current.mode = .inverter then s.cfg.ncf
                    else s.fic.advanceCount }
                lineA := s.lineA.place r.clock event, lineB := s.lineB.place r.clock event
                pmn := { s.pmn with cfHold := true, commutationFailure := u.pmn.commutationFailure } }
            ∧ u.pmn.commutationFailure.condition = true))
      ∧ ((∀ start ∈ s.vcm.noExtinction, r.clock - start ≤ (4 * s.prl.tEst + 3) / 6)
          ∨ s.vcm.spent = true ∨ s.vcm.valve ≠ .conducting →
        exec (.noExtinctionExpiry t) s = .next r)

/-- REFIRE_EXPIRY, BYPASS_TRAIN_EXPIRY and PRF_GATHER_EXPIRY (R67, R105, R108, R119, R121, R122, R127): an expired
train timer sends one pulse of its kind to all levels and starts the timer anew, its factor taken as 2 at least. A
valve found FORWARD enters CONDUCTING with cause PULSE, and a deferral that waits goes on waiting; one found DARK
notes the pulse; with the valve elsewhere nothing else of the station changes. An expired gather ends without a
firing. (That an event whose condition fails has no effect is the model's choice, log entry 8; that no forced pulse
is made with a re-fire pulse where the limit of the deferral has already passed is log entry 33.) -/
def Obligations.PulseTimersExpire : Prop :=
  ∀ (t : Instant) (expiry : Nat) (s : State), s.supplied = true → s.stc.state ≠ .unset →
    let r := s.advance t
    let next := timerExpiry { s.cfg.refire with factor := max 2 s.cfg.refire.factor } r.clock
    let fired (kind : PulseKind) (train : Train) (u : State) : Prop :=
      u.firing = [pulseToAll kind t s.cfg.levels] ∧ u.pst.train = train
        ∧ (s.vcm.valve = .forward →
            u.vcm.valve = .conducting ∧ u.vcm.f = some t ∧ u.fic = { s.fic with cause := some .pulse })
        ∧ (s.vcm.valve = .dark → u = { r with
            firing := u.firing, vcm := { s.vcm with pulseInDark := true }
            pst := { s.pst with train := train } })
        ∧ (s.vcm.valve ≠ .forward → s.vcm.valve ≠ .dark → u = { r with
            firing := u.firing, pst := { s.pst with train := train } })
    (s.pst.train = .refire expiry → expiry ≤ r.clock → s.stc.state = .running → s.blockAsserted = false →
        ∃ u, exec (.refireExpiry t) s = .next u ∧ fired .refire (.refire next) u)
      ∧ (s.pst.train = .bypass expiry → expiry ≤ r.clock → s.stc.state = .bypassing → s.inPair = true →
        s.blockAsserted = false →
        ∃ u, exec (.bypassTrainExpiry t) s = .next u ∧ fired .bypass (.bypass next) u)
      ∧ ((s.pst.train = .stopped ∨ ((s.pst.train = .refire expiry ∨ s.pst.train = .bypass expiry)
            ∧ r.clock < expiry)) →
        exec (.refireExpiry t) s = .next r ∧ exec (.bypassTrainExpiry t) s = .next r)
      ∧ (∀ g, s.pst.gather = some g → g.expiry ≤ r.clock →
        exec (.prfGatherExpiry t) s = .next { r with pst := { s.pst with gather := none } })
      ∧ ((∀ g ∈ s.pst.gather, r.clock < g.expiry) → exec (.prfGatherExpiry t) s = .next r)

/-- ACK_WINDOW_EXPIRY (R10, R12, R15, R83, R92, R125, R169): an expired MAIN or PVF window gives each of its
targets one ACK outcome, present for the levels that answered; a SURVEY window gives its level OK, NO-ACK or
CROSS. The record becomes NONE, no other level changes, and the counts are those of the new records. A
consumed count that rises above R in LISTENING or SYNCED trips the station, one that changes otherwise has
SYNCED evaluate R10; RUNNING and BYPASSING stay. While the station stays in SYNCED the CMU counts a survey
result. SURVEY_TEST_PULSE (R131): at V_f + ticks(1,000) of the same forward interval one pulse goes to the one
fibre, and a SURVEY window opens; before that, in another interval, out of FORWARD or SYNCED, or with the CMU
IDLE, none leaves. (That an event whose condition fails has no effect is the model's choice,
log entry 8.) -/
def Obligations.AckWindowsCloseAndTest : Prop :=
  ∀ (t : Instant) (s : State), s.supplied = true → s.stc.state ≠ .unset →
    let r := s.advance t
    (∀ w, s.pst.window = some w → w.expiry ≤ r.clock → ∃ u, exec (.ackWindowExpiry t) s = .next u
        ∧ u.pst.window = none ∧ u.firing = [] ∧ u.prl = s.prl ∧ u.orh = r.orh
        ∧ (∀ k, itemAt u.lvt.levels k = (itemAt s.lvt.levels k).map (fun x =>
            match w.kind with
            | .survey n =>
              if k = n then x.takeSurvey
                (if w.acked = [] then .noAck else if w.acked = [n] then .ok else .cross)
              else x
            | _ => if k ∈ w.targets then x.takeAck (w.acked.contains k) else x))
        ∧ u.lvt.consumed = u.lvt.levels.countP LevelRecord.lost
        ∧ u.stc.state = s.afterCountChange u.lvt.consumed
        ∧ ((s.stc.state = .listening ∨ s.stc.state = .synced) → s.lvt.consumed < u.lvt.consumed →
            s.cfg.redundancy < u.lvt.consumed →
            u.stc.state = .tripped ∧ (s.stc.state = .synced → u.cmu.executing = none))
        ∧ (s.stc.state = .running ∨ s.stc.state = .bypassing → u.stc = s.stc)
        ∧ (∀ n v, w.kind = .survey n → s.cmu.executing = some v → s.stc.state = .synced →
            u.stc.state = .synced →
            let result := if w.acked = [n] then SurveyResult.ok
              else if w.acked = [] then .noAck else .cross
            u.cmu.executing = if v.last < v.next + 1 then none else some (v.take result)))
      ∧ ((∀ w ∈ s.pst.window, r.clock < w.expiry) → exec (.ackWindowExpiry t) s = .next r)
      ∧ (∀ x v, s.pst.surveyTest = some x → s.cmu.executing = some v → s.stc.state = .synced →
        s.vcm.valve = .forward → s.vcm.vf = some x.vf → s.pst.window = none →
        later (instantPlus x.vf (ticksAt s.prl.tEst 1000)) t = false →
        exec (.surveyTestPulse t) s = .next { r with
          firing := [{ kind := .survey, instant := t, fibres := [x.level] }]
          pst := { s.pst with
            surveyTest := none
            window := some
              { kind := .survey x.level, targets := [x.level], acked := []
                expiry := timerExpiry
                  { s.cfg.ackWindow with factor := max 1 s.cfg.ackWindow.factor } r.clock } } })
      ∧ (∀ x, s.pst.surveyTest = some x →
        later (instantPlus x.vf (ticksAt s.prl.tEst 1000)) t = true ∨ s.vcm.valve ≠ .forward
          ∨ s.vcm.vf ≠ some x.vf ∨ s.stc.state ≠ .synced ∨ s.cmu.executing = none →
        exec (.surveyTestPulse t) s = .next r)
      ∧ (s.pst.surveyTest = none → exec (.surveyTestPulse t) s = .next r)

/-! ### Marks -/

/-- MARK_EVENT (R3, R105, R106, R109, R110, R118, R119, R121, R123): when the present instant has reached M of the
armed record, the mark is decided by the station state, the block line and the valve. BYPASSING in the pair
fires a bypass firing; a protective conduction gives PROTECTIVE; firing not permitted gives NO; a DARK valve is
fired; a FORWARD valve is fired when M lies in [lo, hi], deferred when earlier, and not fired when later; any
other valve state defers. Only a fired mark sends a pulse, and one of its kind to all levels. A main pulse
closes an open ACK window with its outcomes, opens a MAIN window on the levels that were not SILENT at the
pulse, and starts the REFIRE train anew; a bypass pulse opens no window and starts the BYPASS train anew. A
deferred mark leaves the record NONE and the deferral waiting, and changes nothing else. Before M, or with
nothing armed, nothing happens. (That an event whose condition fails has no effect is the model's choice, log
entry 8; that one taken late acts at the command's instant is log entry 15; that a FORWARD valve is then not
fired later than hi is log entry 24, and that this is so where a new T_est has moved hi behind the present log entry 31.) -/
def Obligations.MarkDecided : Prop :=
  ∀ (t : Instant) (s : State), s.supplied = true → s.stc.state ≠ .unset →
    let r := s.advance t
    (∀ a, s.fic.armed = some a → later a.m t = false → (s.entry s.position).isSome = true →
        (s.vcm.valve = .forward → s.vcm.vf.isSome = true) →
        let lo := instantPlus (s.vcm.vf.getD 0) (ticksAt s.prl.tEst s.cfg.alphaMin)
        let hi := instantPlus (s.vcm.vf.getD 0) (ticksAt s.prl.tEst 16500)
        let bypass := s.stc.state = .bypassing ∧ s.inPair = true ∧ s.blockAsserted = false
        let decided : Option Fired :=
          if bypass then some .bypass
          else if s.vcm.valve = .conducting ∧ s.fic.cause = some .protective then some .protective
          else if ¬ (s.stc.state = .running ∧ s.blockAsserted = false) then some .no
          else match s.vcm.valve with
            | .dark => some .main
            | .forward =>
              if earlier a.m lo then none
              else if later a.m hi ∨ later t hi then some .no else some .main
            | _ => none
        ∃ u, exec (.markEvent t) s = .next u
          ∧ u.firing = (match decided with
            | some .main => [pulseToAll .main t s.cfg.levels]
            | some .bypass => [pulseToAll .bypass t s.cfg.levels]
            | _ => [])
          ∧ (decided = none →
              u = { r with fic := { s.fic with armed := none, deferral := some a } })
          ∧ (∀ fired, decided = some fired → u.ownMarkIs t fired a.placing.source
              ∧ u.fic.alphaLast = some a.alphaT ∧ u.fic.deferral = s.fic.deferral)
          ∧ (decided = some .main ∨ decided = some .bypass → s.vcm.valve = .forward →
              u.vcm.valve = .conducting ∧ u.vcm.f = some t ∧ u.fic.cause = some .pulse)
          ∧ (decided = some .main →
              u.pst.window = some (s.openedWindow .main r.clock)
              ∧ (∀ k, itemAt u.lvt.levels k = (itemAt s.lvt.levels k).map (fun x =>
                  closedRecord s.pst.window k (s.firedRecord t k x)))
              ∧ (s.vcm.valve = .forward ∨ s.orh.pending = none →
                  u.pst.train = s.startedRefire r.clock))
          ∧ (decided = some .bypass →
              (s.cmu.executing = none → u.pst.window = s.pst.window)
              ∧ (∀ k, itemAt u.lvt.levels k = (itemAt s.lvt.levels k).map (s.firedRecord t k))
              ∧ (s.vcm.valve ≠ .dark ∨ s.orh.pending = none →
                  u.pst.train = .bypass (s.trainExpiry r.clock))))
      ∧ ((∀ a ∈ s.fic.armed, later a.m t = true) → exec (.markEvent t) s = .next r)

/-- Taking a mark (R22, R37, R45, R46, R50, R76, R102, R111, R112, R115, R129, R138, R146 to R148, R150): the own
entry takes the report, formed from the values as they stand, under the sequence number the MARK frame takes, and
one copy of that frame is placed on each line; where the mark ends a survey, its RESULT follows. Each peer entry
whose mark instant is not later than the own previous one counts a missed mark; the mark is offered to the period
estimate; the cycle's PRF count enters the ring; the flags that the mark has carried are cleared; STC judges the
mark; a DARK valve adopts a pending order; the advance count falls by one; and a FLYWHEEL mark is armed one period
on, moved toward the present target by ticks(200) at most. No pulse leaves, and no level record changes. (Where
the order of the hand-outs matters it is free, log entry 3: STC judges a LOCAL mark in LISTENING with T_est from
before or after the offer. That the MARK is produced before the RESULT of a survey it ends is log entry 27. At an
order age of 40,001 ticks the ORDER STALE flag is free, log entry 16.) -/
def Obligations.MarkTaken : Prop :=
  ∀ (fired : Fired) (a : ArmedMark) (wasForward : Bool) (s : State) (x : RollEntry),
    s.entry s.position = some x →
    let u := takeMark fired a wasForward s
    let own := x.held.map RollReport.markInstant
    let since (t : Instant) : Bool := own.all (fun o => later t o)
    let health (l : LineState) : Health :=
      if l.lit then .lit else if l.dead then .dead else if 16 ≤ l.errorScore then .degraded else .good
    let before (d : Nat) : Nat := (s.position + s.group - d - 1) % s.group + 1
    let heard : Prop := ∃ d, 1 ≤ d ∧ d ≤ 3 ∧ ∃ y h, s.entry (before d) = some y ∧ y.missed ≠ 255
      ∧ y.held = some h ∧ since h.markInstant = true ∧ later h.markInstant s.now = false
    let adopts := s.vcm.valve = .dark ∧ s.orh.pending.isSome = true
    (∃ h, u.entry s.position = some { held := some h, missed := 0, lastEvent := x.lastEvent }
        ∧ h.markInstant = s.now ∧ h.acceptInstant = s.now ∧ h.seq = s.fic.seqCounter
        ∧ h.report.fired = fired ∧ h.report.source = a.placing.source
        ∧ h.report.station = s.stc.state ∧ h.report.healthA = health s.lineA
        ∧ h.report.healthB = health s.lineB ∧ h.report.consumed = s.lvt.consumed
        ∧ h.report.orderSeq = s.orh.current.seq
        ∧ h.report.gamma = s.vcm.gamma.bind (fun g => if since g.instant then some g.angle else none)
        ∧ h.report.mu = s.vcm.mu.bind (fun g => if since g.instant then some g.angle else none)
        ∧ (wasForward = false → h.report.alpha = none)
        ∧ (∀ vf, wasForward = true → s.vcm.vf = some vf →
            h.report.alpha = some (min 36000 (cdegAt s.prl.tEst (instantDiff s.now vf).toNat)))
        ∧ h.report.flags.commutationFail = s.vcm.failureInCycle
        ∧ h.report.flags.protectiveFire = s.pst.pvfSeen ∧ h.report.flags.syncLost = s.stc.syncLost
        ∧ h.report.flags.clash = s.stc.clashSeen
        ∧ h.report.flags.groupLost = ((s.lineA.dead || s.lineA.lit) && (s.lineB.dead || s.lineB.lit))
        ∧ h.report.flags.tripCondition = s.lvt.tripCondition
        ∧ (s.orh.age ≠ 40001 → h.report.flags.orderStale = decide (40000 < s.orh.age))
        ∧ ∃ (c : TxCopy) (results : List TxCopy),
            c = { sender := BitVec.ofNat 8 s.position, seq := h.seq, ref := some s.clock
                  body := .mark h.report }
            ∧ results.length ≤ 1 ∧ (∀ y ∈ results, ∃ body, y.body = .result body)
            ∧ (s.cmu.executing = none → results = [])
            ∧ u.lineA = results.foldl (fun l y => l.place s.clock y) (s.lineA.place s.clock c)
            ∧ u.lineB = results.foldl (fun l y => l.place s.clock y) (s.lineB.place s.clock c)
            ∧ u.fic.seqCounter = s.fic.seqCounter + 1 + BitVec.ofNat 8 results.length)
      ∧ (∀ k, k ≠ s.position → u.entry k = (s.entry k).map (fun y =>
          let fresh := match y.held with
            | none => false
            | some h => decide (y.missed ≠ 255) && since h.markInstant
          { y with missed := if fresh then y.missed else min 255 (y.missed + 1) }))
      ∧ (∀ refHeard : Bool, (refHeard = true ↔ heard) → ¬ adopts →
          ∃ tEst, (tEst = s.prl.tEst
              ∨ (tEst = u.prl.tEst ∧ s.stc.state = .listening ∧ a.placing = .localVoltage))
            ∧ u.stc = { (judgeMark a.placing refHeard { s with prl := { s.prl with tEst := tEst } }).stc with
                clashSeen := false })
      ∧ (∀ o, s.vcm.valve = .dark → s.orh.pending = some o →
          u.orh.current = o
            ∧ u.orh.pending = (if 200000 < s.orh.age ∧ o.blockState = .deblock then
                some { o with blockState := .block } else none)
            ∧ u.fic.advanceCount = (if o.mode = .rectifier then 0 else s.fic.advanceCount) - 1)
      ∧ (¬ adopts → u.orh = { s.orh with stale := u.orh.stale }
          ∧ u.fic = { s.fic with
              armed := u.fic.armed, alphaLast := some a.alphaT, seqCounter := u.fic.seqCounter
              advanceCount := s.fic.advanceCount - 1 }
          ∧ (s.cmu.executing = none →
              u.cmu = s.cmu ∧ u.pst = { s.pst with pvfSeen := false }))
      ∧ (s.prl.lastArrival = none →
          u.prl.lastArrival = some { position := s.position, instant := s.now }
            ∧ u.prl.tEst = s.prl.tEst ∧ u.prl.outliers = s.prl.outliers)
      ∧ (∀ old, s.prl.lastArrival = some old → 1 ≤ s.position → s.position ≤ s.group →
          (later s.now old.instant = false → u.prl.lastArrival = some old
            ∧ u.prl.tEst = s.prl.tEst ∧ u.prl.outliers = s.prl.outliers)
          ∧ (later s.now old.instant = true →
              u.prl.lastArrival = some { position := s.position, instant := s.now }
              ∧ (∀ d, 1 ≤ d → d ≤ 3 → old.position = before d →
                  let sample := s.group * (instantDiff s.now old.instant).toNat / d
                  u.prl.tEst = (judgeSample sample s).prl.tEst
                    ∧ u.prl.outliers = (judgeSample sample s).prl.outliers)
              ∧ (1 ≤ old.position → old.position ≤ s.group →
                  (∀ d, 1 ≤ d → d ≤ 3 → old.position ≠ before d) →
                  u.prl.tEst = s.prl.tEst ∧ u.prl.outliers = s.prl.outliers)))
      ∧ u.prl.localRun = (if a.placing = .localVoltage then min 3 (s.prl.localRun + 1) else 0)
      ∧ u.prl.marksRefused = s.prl.marksRefused
      ∧ u.pmn.ring = s.pmn.ring.drop 1 ++ [s.pmn.cyclePrf.length] ∧ u.pmn.cyclePrf = []
      ∧ u.pmn.peakHold = max s.pmn.peakHold u.pmn.ring.sum
      ∧ u.pmn.cfHold = (s.pmn.cfHold && s.vcm.failureInCycle)
      ∧ u.vcm = { s.vcm with failureInCycle := false }
      ∧ u.pst.pvfSeen = false ∧ u.stc.clashSeen = false
      ∧ u.fic.alphaLast = some a.alphaT
      ∧ (let slew := clampAbs (ticksAt u.prl.tEst 200) (ticksAt u.prl.tEst (u.alphaTarget - a.alphaT))
         u.fic.armed = some
           { m := instantPlus (instantPlus s.now u.prl.tEst) slew
             alphaT := u.alphaTarget, placing := .flywheel })
      ∧ u.firing = s.firing ∧ u.lvt = s.lvt ∧ u.filter = s.filter ∧ u.blockAsserted = s.blockAsserted

/-- STC's judgement of an own mark (R6, R7, R8, R9 (a), R13, R15). In LISTENING a mark that qualifies counts
toward the eight that bring SYNCED, from where R10 and R12 may lead on at once, and another sets the count
to 0; a qualifying mark is GROUP with a raw error of 100 cdeg at most, or LOCAL with no reference heard and
a forward interval within T_est / 200 of T_est. In SYNCED, RUNNING and BYPASSING the runs follow the table
of R8: a bad run that reaches 3 sends SYNCED back to LISTENING and sets SYNC LOST in the other two, once, and
a good run of 8 clears SYNC LOST. In the other states nothing happens. -/
def Obligations.MarkJudged : Prop :=
  ∀ (placing : Placing) (refHeard : Bool) (s : State),
    let u := judgeMark placing refHeard s
    let qualifies : Prop :=
      match placing with
      | .group _ _ _ e => -100 ≤ e ∧ e ≤ 100
      | .localVoltage => refHeard = false ∧ ∃ x, s.vcm.fwdInterval = some x
          ∧ x ≤ s.prl.tEst + s.prl.tEst / 200 ∧ s.prl.tEst ≤ x + s.prl.tEst / 200
      | .flywheel => False
    let counts := s.stc.clashLatch = false ∧ s.vcm.valve ≠ .dark ∧ qualifies
    let runs : Nat × Nat :=
      match placing with
      | .group _ _ _ e =>
        if 1000 < e ∨ e < -1000 then (min 3 (s.stc.badRun + 1), 0)
        else if 100 < e ∨ e < -100 then (0, 0)
        else (0, min 8 (s.stc.goodRun + 1))
      | _ => (s.stc.badRun, 0)
    let large : Prop := match placing with
      | .group _ _ _ e => 1000 < e ∨ e < -1000
      | _ => False
    (s.stc.state = .listening → ¬ counts → u = { s with stc := { s.stc with syncCount := 0 } })
      ∧ (s.stc.state = .listening → counts → s.stc.syncCount < 7 →
          u = { s with stc := { s.stc with syncCount := s.stc.syncCount + 1 } })
      ∧ (s.stc.state = .listening → counts → s.stc.syncCount = 7 → s.stc.syncLost = false →
          u.stc.syncCount = 0 ∧ u.stc.badRun = 0 ∧ u.stc.goodRun = 0
            ∧ u.stc.state = (if s.cfg.redundancy < s.lvt.consumed then .tripped
              else s.fromSynced s.orh.current))
      ∧ ((s.stc.state = .synced ∨ s.stc.state = .running ∨ s.stc.state = .bypassing) →
          (¬ (large ∧ runs.1 = 3) → u = { s with stc := { s.stc with
            badRun := runs.1, goodRun := runs.2
            syncLost := if runs.2 = 8 then false else s.stc.syncLost } })
          ∧ (large → runs.1 = 3 → s.stc.state ≠ .synced → u = { s with stc := { s.stc with
            badRun := 3, goodRun := 0, syncLost := true
            syncLossCount := if s.stc.syncLost then s.stc.syncLossCount
              else min 65535 (s.stc.syncLossCount + 1) } })
          ∧ (large → runs.1 = 3 → s.stc.state = .synced →
            u.stc.syncLossCount = min 65535 (s.stc.syncLossCount + 1) ∧ u.stc.syncCount = 0
              ∧ u.stc.badRun = 0 ∧ u.stc.goodRun = 0 ∧ u.stc.syncLost = false
              ∧ u.stc.darkTimer = none ∧ u.cmu.executing = none
              ∧ u.stc.state = (if s.cfg.redundancy < s.lvt.consumed then .tripped else .listening)))
      ∧ (s.stc.state = .unset ∨ s.stc.state = .tripped → u = s)

/-- END_STOP, DEFERRAL_LO_REACHED and DEFERRAL_LIMIT (R106, R107, R108, R116, R118, R119, R123): the three firings
that are not made at M. Each sends one main pulse to all levels, closes an open ACK window and opens a MAIN
one, and takes the mark with its own fired value: END-STOP at hi with a later M armed, DEFERRED from lo of a
waiting deferral with the valve FORWARD, and not later than hi, FORCED at ticks(3,000) after M with the valve
elsewhere. A FORWARD valve enters CONDUCTING. END-STOP and DEFERRED start the REFIRE train anew. END-STOP and
FORCED count, and FORCED starts no train. Without the instant, the record or the valve state each needs,
nothing happens. (That an event whose condition fails has no effect is the model's choice, log entry 8; that
one taken late acts at the command's instant is log entry 15; that a FORWARD valve is not fired later than hi
is log entry 24, and that none is made at a new T_est that moves hi behind the present instant log entry 31.) -/
def Obligations.LateFiringsMade : Prop :=
  ∀ (t : Instant) (s : State) (a : ArmedMark), s.supplied = true → s.stc.state = .running →
    s.blockAsserted = false → (s.entry s.position).isSome = true →
    let r := s.advance t
    let made (fired : Fired) (u : State) : Prop :=
      u.ownMarkIs t fired a.placing.source ∧ u.firing = [pulseToAll .main t s.cfg.levels]
        ∧ u.fic.alphaLast = some a.alphaT ∧ u.fic.deferral = none
        ∧ u.pst.window = some (s.openedWindow .main r.clock)
        ∧ ∀ k, itemAt u.lvt.levels k = (itemAt s.lvt.levels k).map (fun x =>
            closedRecord s.pst.window k (s.firedRecord t k x))
    (∀ vf, s.vcm.vf = some vf → s.vcm.valve = .forward → s.fic.armed = some a → s.fic.deferral = none →
        let hi := instantPlus vf (ticksAt s.prl.tEst 16500)
        (later a.m hi = true → t = hi → ∃ u, exec (.endStop t) s = .next u
          ∧ made .endStop u ∧ u.vcm.valve = .conducting ∧ u.vcm.f = some t
          ∧ u.pst.train = s.startedRefire r.clock
          ∧ u.fic.endStopCount = min 65535 (s.fic.endStopCount + 1))
        ∧ (later a.m hi = false ∨ t ≠ hi → exec (.endStop t) s = .next r))
      ∧ (∀ vf, s.vcm.vf = some vf → s.vcm.valve = .forward → s.fic.deferral = some a →
        let lo := instantPlus vf (ticksAt s.prl.tEst s.cfg.alphaMin)
        let hi := instantPlus vf (ticksAt s.prl.tEst 16500)
        (later lo t = false → later t hi = false → ∃ u, exec (.deferralLoReached t) s = .next u
          ∧ made .deferred u ∧ u.vcm.valve = .conducting ∧ u.vcm.f = some t
          ∧ u.pst.train = s.startedRefire r.clock)
        ∧ (later lo t = true ∨ later t hi = true → exec (.deferralLoReached t) s = .next r)
        ∧ exec (.deferralLimit t) s = .next r)
      ∧ (s.vcm.valve ≠ .forward → s.fic.deferral = some a →
        let limit := instantPlus a.m (ticksAt s.prl.tEst 3000)
        (later limit t = false → ∃ u, exec (.deferralLimit t) s = .next u ∧ made .forced u
          ∧ u.fic.forcedCount = min 65535 (s.fic.forcedCount + 1)
          ∧ (s.vcm.valve ≠ .dark → u.pst.train = s.pst.train ∧ u.vcm.valve = s.vcm.valve))
        ∧ (later limit t = true → exec (.deferralLimit t) s = .next r)
        ∧ exec (.deferralLoReached t) s = .next r ∧ exec (.endStop t) s = .next r)

/-! ### The target angle and the mark sources -/

/-- The target angle (R54, R98, R99, R136): in RECTIFIER mode alpha_order clamped to its limits, whatever the mu
hold, g_min and the advance count, which is then 0; in INVERTER mode the smaller of alpha_order and the margin
angle, clamped. alpha_order is taken as 18,000 when above it; gamma_order as 6,000 when above it, and raised to
gamma_crit. g_min is the smallest gamma measured here, or reported by a peer that is held and not aged, since
the own last mark, and absent when there is none. With the SETUP record in range the target lies within
[500, 16,500] cdeg in both modes. -/
def Obligations.TargetAngle : Prop :=
  ∀ s : State,
    let order := s.orh.current
    let alphaOrder : Nat := if 18000 < order.alphaOrder then 18000 else order.alphaOrder
    let bounded : Nat := if 6000 < order.gammaOrder then 6000 else order.gammaOrder
    let gammaOrder : Nat := if bounded < s.cfg.gammaCrit then s.cfg.gammaCrit else bounded
    let since (t : Instant) : Prop := ∀ own, s.ownReport = some own → later t own.markInstant = true
    let counts (g : Nat) : Prop :=
      (∃ x, s.vcm.gamma = some x ∧ since x.instant ∧ x.angle = g)
      ∨ ∃ k y h, k ≠ s.position ∧ s.entry k = some y ∧ y.missed ≠ 255 ∧ y.held = some h
          ∧ since h.acceptInstant ∧ h.report.gamma = some g
    let deficit : Int := match s.gMin with
      | none => 0
      | some g =>
        let d : Int := if (g : Int) < gammaOrder then (gammaOrder : Int) - g else 0
        if d ≤ s.cfg.gammaDeadband then 0 else d
    let adv : Int := if 0 < s.fic.advanceCount then s.cfg.acf else 0
    let alphaG : Int := 18000 - gammaOrder - s.vcm.muHold - deficit - adv
    (s.orh.current.mode = .rectifier →
        s.alphaTarget = clampInt s.cfg.alphaMin s.cfg.alphaMaxR alphaOrder
          ∧ (OrderOk s → s.fic.advanceCount = 0))
      ∧ (s.orh.current.mode = .inverter →
        s.alphaTarget = clampInt s.cfg.alphaMin s.cfg.alphaMaxI (min (alphaOrder : Int) alphaG))
      ∧ (s.gMin = none ↔ ∀ g, ¬ counts g)
      ∧ (∀ g, s.gMin = some g → counts g ∧ ∀ g', counts g' → g ≤ g')
      ∧ (s.cfg.InRange → 500 ≤ s.alphaTarget ∧ s.alphaTarget ≤ 16500
        ∧ (s.cfg.alphaMin : Int) ≤ s.alphaTarget
        ∧ (s.orh.current.mode = .rectifier → s.alphaTarget ≤ s.cfg.alphaMaxR)
        ∧ (s.orh.current.mode = .inverter → s.alphaTarget ≤ s.cfg.alphaMaxI))

/-- A GROUP candidate (R96, R100, R101): the reference instant, d steps of ticks(S) and half the raw error
beyond the deadband, slewed by ticks(200) at most; an M before the present instant is taken as the present
one and counted late. It replaces nothing, a FLYWHEEL or LOCAL mark, or a GROUP mark from farther off; with
a deferral waiting it is discarded. Nothing else changes. -/
def Obligations.GroupCandidate : Prop :=
  ∀ (d : Nat) (ref : RollReport) (s : State),
    let alphaT := s.alphaTarget
    let e : Int := match ref.report.alpha with
      | none => 0
      | some a => alphaT - a
    let e' : Int := if -(s.cfg.latticeDeadband : Int) ≤ e ∧ e ≤ s.cfg.latticeDeadband then 0 else e
    let limit := ticksAt s.prl.tEst 200
    let half := (ticksAt s.prl.tEst e').tdiv 2
    let c := if half < -limit then -limit else if limit < half then limit else half
    let step : Int := ticksAt s.prl.tEst (36000 / s.group : Nat)
    let m := instantPlus (instantPlus ref.markInstant (d * step)) c
    let mark : ArmedMark :=
      { m := if earlier m s.now then s.now else m, alphaT := alphaT
        placing := .group d ref.markInstant ref.report.alpha e }
    let replaces : Prop := match s.fic.armed with
      | none => s.fic.deferral = none
      | some a => match a.placing with
        | .group d' _ _ _ => d < d'
        | _ => True
    let late := if earlier m s.now then min 65535 (s.fic.lateCount + 1) else s.fic.lateCount
    (replaces → handReference d ref s
        = { s with fic := { s.fic with armed := some mark, lateCount := late } })
      ∧ (¬ replaces → handReference d ref s = { s with fic := { s.fic with lateCount := late } })

/-- A sample of the period (R51): within a tenth of T_est it moves T_est by a sixteenth of the difference,
truncated toward zero, within 15,000 to 22,000; outside that gate it counts as an outlier and T_est stays. A
T_est in that range stays in it at every step, and starts in it. -/
def Obligations.SampleJudged : Prop :=
  (∀ (sample : Nat) (s : State),
    let T : Int := s.prl.tEst
    let diff : Int := sample - T
    let moved := T + (if 0 ≤ diff then diff / 16 else -(-diff / 16))
    (-(T / 10) ≤ diff ∧ diff ≤ T / 10 → ∃ T' : Nat,
        judgeSample sample s = { s with prl := { s.prl with tEst := T' } }
          ∧ (T' : Int) = (if moved < 15000 then 15000 else if 22000 < moved then 22000 else moved))
      ∧ (diff < -(T / 10) ∨ T / 10 < diff →
        judgeSample sample s
          = { s with prl := { s.prl with outliers := min 65535 (s.prl.outliers + 1) } }))
    ∧ (∀ s u : State, PeriodOk s → step s = .next u → PeriodOk u)
    ∧ PeriodOk State.reset

/-- A time setting (R175): bits 7..4 of its byte are the scale, 1, 10, 100 or 1,000 ticks for the codes 0 to
3, and codes from 4 are out of range; bits 3..0 are the factor. A timer so set, whose length R176 gives, runs
for more than factor × scale ticks and at most (factor + 1) × scale, but for the wrap of the tick counter,
which makes it longer by 6, 96 or 296 ticks; at 1 tick it runs for exactly factor + 1. It expires at a
reading that is a multiple of its scale. -/
def Obligations.TimeSettings : Prop :=
  (∀ b : Byte, (settingOk b = true ↔ b.toNat / 16 ≤ 3) ∧ (settingOf b).factor = b.toNat % 16
      ∧ (settingOf b).factor ≤ 15
      ∧ (b.toNat / 16 ≤ 3 → (settingOf b).scale.ticks = 10 ^ (b.toNat / 16)))
    ∧ ∀ (setting : TimeSetting) (clock : Nat), setting.factor ≤ 15 →
      let expiry := timerExpiry setting clock
      let scale := setting.scale.ticks
      let late := match setting.scale with
        | .us1 => 0 | .us10 => 6 | .us100 => 96 | .ms1 => 296
      clock + setting.factor * scale < expiry ∧ expiry ≤ clock + (setting.factor + 1) * scale + late
        ∧ (expiry / 4294967296 = clock / 4294967296 →
            expiry ≤ clock + (setting.factor + 1) * scale)
        ∧ expiry % 4294967296 % scale = 0
        ∧ (setting.scale = .us1 → expiry = clock + setting.factor + 1)

/-! ### Orders, station timers, alarm lines and level records -/

/-- An adoption (R10 to R13, R98, R104, R114, R135, R137 to R139, R142): the pending order becomes current, and none
is pending unless an order age above 200,000 ticks with DEBLOCK current forces a copy with BLOCK; the station
follows the table of R10 to R13; RECTIFIER sets the advance count to 0; and an armed mark is recomputed with
the target angle of the new order, from its own reference, own mark or V_f, an instant before the present
taken as the present, which counts for source GROUP. With no order pending nothing changes. The bypass pair of
an order is its bypass position and the position G/2 places after it. -/
def Obligations.OrderAdopted : Prop :=
  ∀ s : State,
    (s.orh.pending = none → adopt s = s)
      ∧ (∀ o : Order, s.inPairOf o = true ↔ ∃ p, o.bypass = some p
          ∧ (s.position = p.toNat ∨ s.position = (p.toNat + s.group / 2 - 1) % s.group + 1))
      ∧ s.inPair = s.inPairOf s.orh.current
      ∧ ∀ o, s.orh.pending = some o →
        (adopt s).orh = (if 200000 < s.orh.age ∧ o.blockState = .deblock then
            { s.orh with
              current := o, pending := some { o with blockState := .block }, pendingForced := true
              losses := min 65535 (s.orh.losses + 1) }
          else { s.orh with current := o, pending := none, pendingForced := false })
          ∧ (adopt s).fic.advanceCount
            = (if o.mode = .rectifier then 0 else s.fic.advanceCount)
          ∧ (let target := (adopt s).alphaTarget
            let tEst := s.prl.tEst
            let notBefore (m : Instant) : Instant := if earlier m s.now then s.now else m
            (s.fic.armed = none → (adopt s).fic.armed = none ∧ (adopt s).fic.lateCount = s.fic.lateCount)
            ∧ ∀ a, s.fic.armed = some a →
              (∀ d reference alpha e', a.placing = .group d reference alpha e' →
                let e := errorAgainst target alpha
                let m := s.latticeInstant d reference e
                (adopt s).fic.armed
                    = some { m := notBefore m, alphaT := target, placing := .group d reference alpha e }
                  ∧ (adopt s).fic.lateCount
                    = if earlier m s.now then min 65535 (s.fic.lateCount + 1) else s.fic.lateCount)
              ∧ (∀ own last, a.placing = .flywheel → s.ownReport = some own →
                s.fic.alphaLast = some last →
                let slew := clampAbs (ticksAt tEst 200) (ticksAt tEst (target - last))
                (adopt s).fic.armed = some
                    { m := notBefore (instantPlus (instantPlus own.markInstant tEst) slew)
                      alphaT := target, placing := .flywheel }
                  ∧ (adopt s).fic.lateCount = s.fic.lateCount)
              ∧ (∀ vf, a.placing = .localVoltage → s.vcm.vf = some vf →
                (adopt s).fic.armed = some
                    { m := notBefore (instantPlus vf (ticksAt tEst target))
                      alphaT := target, placing := .localVoltage }
                  ∧ (adopt s).fic.lateCount = s.fic.lateCount))
          ∧ (adopt s).vcm = s.vcm ∧ (adopt s).lvt = s.lvt ∧ (adopt s).prl = s.prl
          ∧ (adopt s).firing = s.firing
          ∧ (adopt s).stc.state = (match s.stc.state with
            | .synced => s.fromSynced o
            | .running =>
              match o.blockState with
              | .deblock => .running
              | .bypass => if s.inPairOf o then .bypassing else s.fromFiring
              | .block => s.fromFiring
            | .bypassing =>
              match o.blockState with
              | .deblock => if s.cfg.redundancy < s.lvt.consumed then .tripped else .running
              | .bypass => if s.inPairOf o then .bypassing else s.fromFiring
              | .block => s.fromFiring
            | other => other)
          ∧ ((adopt s).stc.state = s.stc.state → (adopt s).stc = s.stc)

/-- DARK_TIMER_EXPIRY (R9 (b), R15, R171), ORDER_STALE (R141) and FORCED_BLOCK (R142): more than 4 × T_est ticks of
a DARK valve send SYNCED back to LISTENING, or on to TRIPPED with the consumed count above R, which aborts a
survey in progress; the ORDER STALE flag is the order age above 40,000; an order age above 200,000 with DEBLOCK
current makes a copy of the current order with BLOCK pending and counts an order loss, once while it is
pending. (That an event whose condition fails has no effect is the model's choice, log entry 8.) -/
def Obligations.StationTimersExpire : Prop :=
  ∀ (t : Instant) (s : State), s.supplied = true → s.stc.state ≠ .unset →
    let r := s.advance t
    let above := s.cfg.redundancy < s.lvt.consumed
    (∀ start, s.stc.darkTimer = some start → 4 * s.prl.tEst < r.clock - start → s.stc.state = .synced →
        exec (.darkTimerExpiry t) s = .next (State.aborted { r with stc := { s.stc with
          state := if above then .tripped else .listening
          syncCount := 0, badRun := 0, goodRun := 0, syncLost := false, darkTimer := none
          tripCount := if above then min 65535 (s.stc.tripCount + 1) else s.stc.tripCount } }))
      ∧ ((∀ start ∈ s.stc.darkTimer, r.clock - start ≤ 4 * s.prl.tEst) →
        exec (.darkTimerExpiry t) s = .next r)
      ∧ exec (.orderStale t) s
          = .next { r with orh := { r.orh with stale := decide (40000 < r.orh.age) } }
      ∧ exec (.forcedBlock t) s
          = .next (if 200000 < r.orh.age ∧ s.orh.current.blockState = .deblock
              ∧ s.orh.pendingForced = false then
            { r with orh := { r.orh with
              pending := some { s.orh.current with blockState := .block }, pendingForced := true
              losses := min 65535 (s.orh.losses + 1) } }
          else r)

/-- The delay logic of an alarm line (R151, R153, R154) and ALARM_ASSERT_EXPIRY and ALARM_RELEASE_EXPIRY. A
condition handed with the value it has does nothing; a change starts the delay toward it or stops the delay
away from it, and with factor 0 acts at once; an expiry gives the logic level its new value. No other line
changes. (That an event whose condition fails has no effect is the model's choice, log entry 8.) -/
def Obligations.AlarmDelaysRun : Prop :=
  (∀ (clock : Nat) (toAssert toRelease : TimeSetting) (condition : Bool) (x : AlarmLine),
    x.Ok toAssert toRelease →
    x.hand clock toAssert toRelease condition =
      match x.condition, condition, x.timer with
      | false, true, .idle =>
        if toAssert.factor = 0 then { x with condition := true, logic := true }
        else { x with condition := true, timer := .asserting (timerExpiry toAssert clock) }
      | false, true, _ => { x with condition := true, timer := .idle }
      | true, false, .idle =>
        if toRelease.factor = 0 then { x with condition := false, logic := false }
        else { x with condition := false, timer := .releasing (timerExpiry toRelease clock) }
      | true, false, _ => { x with condition := false, timer := .idle }
      | _, _, _ => x)
    ∧ ∀ (t : Instant) (name : AlarmName) (s : State), s.supplied = true → s.stc.state ≠ .unset →
      let r := s.advance t
      let x := s.pmn.line name
      (∀ expiry, x.timer = .asserting expiry →
          exec (.alarmAssertExpiry t name) s = .next (if expiry ≤ r.clock then
            { r with pmn := s.pmn.setAlarm name { x with logic := true, timer := .idle } } else r))
        ∧ (∀ expiry, x.timer = .releasing expiry →
          exec (.alarmReleaseExpiry t name) s = .next (if expiry ≤ r.clock then
            { r with pmn := s.pmn.setAlarm name { x with logic := false, timer := .idle } } else r))
        ∧ (x.timer = .idle → exec (.alarmAssertExpiry t name) s = .next r
          ∧ exec (.alarmReleaseExpiry t name) s = .next r)
        ∧ ∀ (y : AlarmLine) (other : AlarmName),
          (s.pmn.setAlarm name y).line other = if other = name then y else s.pmn.line other

/-- The outcomes of a level record (R80 to R84, R92), and the counts, quorums and conditions of the table
(R87 to R89). Three absent FWD outcomes latch SILENT, three absent ACK outcomes or one failed survey result
latch NOFIRE; a latched level keeps its state but that NOFIRE may become SILENT; each record stays in
order. A consumed count that the new records change has LISTENING and SYNCED tripped when it rises above R, and
SYNCED evaluate R10 otherwise (R10, R12, R15). -/
def Obligations.LevelOutcomesApplied : Prop :=
  (∀ x : LevelRecord, x.Ok →
    let latched := x.state = .silent ∨ x.state = .nofire
    let lowered (n : Nat) : LevelState := if n = 0 then .normal else .suspect
    x.takeFwd true = (if x.state = .silent then x
      else { x with fwdMiss := 0, state := if latched then x.state else lowered x.ackMiss })
    ∧ x.takeFwd false = (if x.state = .silent then x
      else if x.fwdMiss = 2 then { x with fwdMiss := 3, state := .silent, seen := false }
      else { x with fwdMiss := x.fwdMiss + 1, state := if latched then x.state else .suspect })
    ∧ x.takeAck true = (match x.state with
      | .silent => x
      | .nofire => { x with seen := true }
      | _ => { x with ackMiss := 0, state := lowered x.fwdMiss })
    ∧ x.takeAck false = (if latched then x
      else if x.ackMiss = 2 then { x with ackMiss := 3, state := .nofire, seen := false }
      else { x with ackMiss := x.ackMiss + 1, state := .suspect })
    ∧ (∀ result : SurveyResult, x.takeSurvey result =
        let y := { x with lastSurvey := some result }
        match x.state, result with
        | .silent, .ok => y
        | .silent, _ => { y with ackMiss := 3 }
        | .nofire, .ok => { y with seen := true }
        | .nofire, _ => y
        | _, .ok => { y with ackMiss := 0, state := lowered x.fwdMiss }
        | _, _ => { y with ackMiss := 3, state := .nofire, seen := false })
    ∧ (∀ present result, (x.takeFwd present).Ok ∧ (x.takeAck present).Ok ∧ (x.takeSurvey result).Ok
        ∧ x.signOfLife.Ok ∧ x.takePrf.Ok ∧ x.clear.Ok))
    ∧ ∀ (levels : List LevelRecord) (s : State),
      let u := setLevels levels s
      let silent := levels.countP (fun x => decide (x.state = .silent))
      let consumed := levels.countP (fun x => decide (x.state = .silent ∨ x.state = .nofire))
      u.lvt.levels = levels ∧ u.lvt.silentCount = silent ∧ u.lvt.consumed = consumed
        ∧ u.lvt.qfEff = max 1 (min s.cfg.qf (s.cfg.levels - silent))
        ∧ u.lvt.qrEff = max 1 (min s.cfg.qr (s.cfg.levels - silent))
        ∧ (u.lvt.tripCondition = true ↔ s.cfg.redundancy < consumed)
        ∧ (u.lvt.redundancyLow = true ↔ (consumed = s.cfg.redundancy ∧ 0 < s.cfg.redundancy)
            ∨ (1 ≤ consumed ∧ s.cfg.redundancy = 0))
        ∧ u.pmn.tripRequest.condition = u.lvt.tripCondition
        ∧ u.pmn.redundancyLow.condition = u.lvt.redundancyLow
        ∧ u.stc.state = s.afterCountChange consumed
        ∧ (s.cmu.executing = none → u = { s with
            lvt := u.lvt, vcm := { s.vcm with fwdSet := u.vcm.fwdSet, revSet := u.vcm.revSet }
            pmn := { s.pmn with
              tripRequest := u.pmn.tripRequest, redundancyLow := u.pmn.redundancyLow }
            stc := { s.stc with
              state := u.stc.state
              darkTimer := if u.stc.state = s.stc.state then s.stc.darkTimer else none
              tripCount := if u.stc.state = .tripped ∧ s.stc.state ≠ .tripped then
                min 65535 (s.stc.tripCount + 1) else s.stc.tripCount } })

/-! ### Invariants -/

/-- The machine right after reset meets every invariant. -/
def Obligations.ResetMeetsInvariants : Prop :=
  PeriodOk State.reset ∧ LinesOk State.reset ∧ FilterOk State.reset ∧ SetupOk State.reset
    ∧ RunsOk State.reset ∧ RollOk State.reset ∧ ArrivalOk State.reset ∧ LevelsOk State.reset
    ∧ ValveOk State.reset ∧ DeferralOk State.reset ∧ TrainOk State.reset ∧ OrderOk State.reset
    ∧ AlarmsOk State.reset ∧ SurveyOk State.reset

/-- Every step keeps the invariants of the group line, the filter, Station Control and the roll, each by
itself (R1, R2, R4, R7, R8, R18, R23, R25, R33 to R36, R38, R40, R46, R50): the bounds of every count, a LIT
line empty and silent, no copy on the line with a lag above its limit, the SETUP record absent exactly in
UNSET and in range elsewhere, one roll entry for each position, and a last-arrival record that names a position
of the group. -/
def Obligations.StepKeepsLineAndStation : Prop :=
  ∀ s u : State, step s = .next u →
    (LinesOk s → LinesOk u) ∧ (FilterOk s → FilterOk u) ∧ (SetupOk s → SetupOk u)
      ∧ (RunsOk s → RunsOk u) ∧ (RollOk s → RollOk u)
      ∧ (SetupOk s → RollOk s → DeferralOk s → ArrivalOk s → ArrivalOk u)

/-- Every step keeps the level table and the alarm lines consistent (R79, R80, R82, R84, R87 to R89, R147,
R150, R151, R153, R154): each record's state is the one its miss counts and latch give, the counts, quorums
and conditions are those of the records, and each alarm line holds the condition of its source. -/
def Obligations.StepKeepsLevelsAndAlarms : Prop :=
  ∀ s u : State, SetupOk s → LevelsOk s → step s = .next u →
    LevelsOk u ∧ (AlarmsOk s → AlarmsOk u)

/-- Every step keeps the valve, the deferral, the trains, the orders and the survey consistent (R62 to R70,
R95, R105, R108, R114, R119 to R122, R141, R142, R160, R168 to R171): the valve's records fit its state, a
deferral waits only in RUNNING with the block line released and nothing armed, trains run only where their
pulses are permitted, and a survey executes only in SYNCED, with its results counted. -/
def Obligations.StepKeepsFiring : Prop :=
  ∀ s u : State, step s = .next u →
    (ValveOk s → ValveOk u) ∧ (DeferralOk s → DeferralOk u)
      ∧ (DeferralOk s → TrainOk s → TrainOk u) ∧ (SetupOk s → OrderOk s → OrderOk u)
      ∧ (SurveyOk s → SurveyOk u)

/-- Firing pulses leave only where they are permitted, whatever the command (R3, R106, R108, R118, R122, R128,
R131, R177): main and re-fire pulses in RUNNING, bypass pulses in BYPASSING, and from RUNNING only where the
station enters BYPASSING with the command, each with the block line released; protective firings outside
UNSET; test pulses in SYNCED. Every pulse leaves at the command's instant, a test pulse on one fibre and every
other on the fibres 1 to L. A main pulse of a mark made into a FORWARD valve lies from V_f + ticks(alpha_min)
to V_f + ticks(16,500), but for an instant half a turn of the tick counter from M, which is neither before nor
after it. (That the pulses of a command stand on the fibres in the state after it is the model's
choice, log entry 12; that an event taken late makes no main pulse later than hi is log entry 24.) -/
def Obligations.PulsesPermitted : Prop :=
  ∀ (c : Instr) (s u : State), DeferralOk s → exec c s = .next u →
    (∀ p ∈ u.firing, pulsePermitted s.stc.state s.blockAsserted p.kind = true ∧ p.instant = instantOf c
      ∧ (p.kind = .survey → ∃ n, p.fibres = [n])
      ∧ (p.kind ≠ .survey → p.fibres = levelsUpTo s.cfg.levels)
      ∧ (p.kind = .bypass → s.stc.state = .bypassing ∨ u.stc.state = .bypassing))
    ∧ ∀ t vf, (c = .markEvent t ∨ c = .endStop t ∨ c = .deferralLoReached t) →
      PeriodOk s → s.cfg.InRange → s.vcm.valve = .forward → s.vcm.vf = some vf →
      (∀ a ∈ s.fic.armed, instantDiff t a.m ≠ -2147483648) → (∃ p ∈ u.firing, p.kind = .main) →
      earlier t (instantPlus vf (ticksAt s.prl.tEst s.cfg.alphaMin)) = false
        ∧ later t (instantPlus vf (ticksAt s.prl.tEst 16500)) = false

/-! ### Frames -/

/-- Reading a copy gives back the command that wrote it (R20, R21, R172 to R175), for every frame a command
stands for, with every field at every value it can carry; and a station reads the MARK and the EVENT of a
peer as the peer meant them. (How the bytes of a copy become a command, and which bytes a command stands for, are
deduced from chapter 11, log entries 19 and 20.) -/
def Obligations.FramesReadBack : Prop :=
  (∀ (c : Instr) (rx : RxCopy) (bytes : List Byte) (position : Nat),
    encodeCopy c = some bytes → copyOf c = some rx →
    (∀ x ∈ commandOf c, x.2.1.target = 15 ∨ x.2.1.target.toNat = position) →
    decodeCopy position (instantOf c) rx.line rx.arrival bytes false = c)
    ∧ (∀ (r : MarkReport) (lag : Nat), r.station ≠ .unset → r.consumed ≤ 96 → lag ≤ 4095 →
      (∀ a ∈ r.alpha, a ≤ 36000) → (∀ a ∈ r.gamma, a ≤ 36000) → (∀ a ∈ r.mu, a ≤ 36000) →
      let m := decodeMark (markBody r lag)
      reportOf m = some r ∧ m.lag.toNat = lag ∧ valuesTooLarge m = false)
    ∧ (∀ (k : EventKind) (lag : Nat), lag ≤ 4095 →
      let e := decodeEvent (eventBody k lag)
      eventOfCodes e.kind e.subkind = some k ∧ e.lag.toNat = lag)
    ∧ ∀ (c : TxCopy) (lag : Nat), (∀ r, c.body = .result r → r.data.length ≤ 249) →
      copyIsBad (withCheck (c.frameBytes lag)) false = false

/-! ### The end of a survey -/

/-- The end of a survey (R131, R161, R169 to R171, R174). A result counts OK or failed, a failure being listed up
to the sixteenth; past the last level the survey is DONE with its counts. A mark counts, and beyond the step
limit, one for each level and eight more, the survey FAILED with NO VOLTAGE. An exit from SYNCED has it
ABORTED with STATE. The partial data of the two is the counts and the next level. Each end leaves the CMU
IDLE, no test scheduled and no SURVEY window open. An IDLE CMU drops the result and counts no mark. At the
close of the last level's window with its own ACK, and at a mark that leaves the station in SYNCED, that is
what happens. (That a mark's frame takes its sequence before the RESULT it brings is the model's choice, log
entry 27.) -/
def Obligations.SurveyEnds : Prop :=
  (∀ (s : State) (result : SurveyResult), s.cmu.executing = none →
    cmuSurveyResult result s = s ∧ countSurveyMark s = s)
  ∧ ∀ (s : State) (v : SurveyRecord), s.cmu.executing = some v →
    let taken (result : SurveyResult) : SurveyRecord :=
      if result = .ok then { v with countOk := v.countOk + 1, next := v.next + 1 }
      else { v with
        countFailed := v.countFailed + 1, next := v.next + 1
        failures := if v.failures.length < 16 then v.failures ++ [v.next] else v.failures }
    let marks := min 255 (v.marks + 1)
    let limit := v.last - v.first + 1 + 8
    let progress := surveyCounts v ++ [BitVec.ofNat 8 v.next]
    let answer (seq : Byte) (completion : Completion) (detail : Detail) (data : List Byte) : TxCopy :=
      { sender := BitVec.ofNat 8 s.position, seq := seq, ref := none
        body := .result
          { tag := v.tag, code := v.code, completion := completion, detail := detail, data := data } }
    (∀ result, cmuSurveyResult result s =
        if v.last < v.next + 1 then
          produceResult v.tag v.code .done .none (surveyCounts (taken result)) s.withoutSurvey
        else { s with cmu := { executing := some (taken result) } })
      ∧ countSurveyMark s =
        (if limit < marks then produceResult v.tag v.code .failed .noVoltage progress s.withoutSurvey
        else { s with cmu := { executing := some { v with marks := marks } } })
      ∧ (∀ new, s.stc.state = .synced → new ≠ .synced →
          let left := enterState new s
          left.stc = { s.stc with state := new, darkTimer := none } ∧ left.cmu.executing = none
            ∧ left.pst = s.withoutSurvey.pst
            ∧ left.lineA = s.lineA.place s.clock (answer s.fic.seqCounter .aborted .state progress)
            ∧ left.lineB = s.lineB.place s.clock (answer s.fic.seqCounter .aborted .state progress))
      ∧ (∀ t w n, s.supplied = true → s.stc.state = .synced → LevelsOk s → s.pst.window = some w →
          w.kind = .survey n → w.acked = [n] → w.expiry ≤ (s.advance t).clock → v.next = v.last →
          let clock := (s.advance t).clock
          let done := answer s.fic.seqCounter .done .none (surveyCounts (taken .ok))
          ∃ u, exec (.ackWindowExpiry t) s = .next u ∧ u.stc = s.stc ∧ u.cmu.executing = none
            ∧ u.pst = { s.pst with window := none, surveyTest := none }
            ∧ u.lineA = s.lineA.place clock done ∧ u.lineB = s.lineB.place clock done)
      ∧ ∀ fired a wasForward, s.stc.state = .synced →
          let u := takeMark fired a wasForward s
          u.stc.state = .synced →
          (marks ≤ limit → u.cmu.executing = some { v with marks := marks })
          ∧ (limit < marks → u.cmu.executing = none ∧ u.pst.surveyTest = none
            ∧ ∃ (m : TxCopy) (report : MarkReport), m.body = .mark report ∧ m.seq = s.fic.seqCounter
              ∧ u.lineA = (s.lineA.place s.clock m).place s.clock
                  (answer (s.fic.seqCounter + 1) .failed .noVoltage progress))
end

