-- ==== Sys2Proof/Laws/State.lean ====
section
/-! SUPPORT. Every field of `State` after every update of it, and what the readings that many operations
share (`now`, `cfg`, `group`, `position`) make of an update. -/

namespace Sys2Proof.Machine

variable (s : State)

/-! ### `setStc` -/

@[simp] theorem State.setStc_clock (x : Stc) : (s.setStc x).clock = s.clock := rfl
@[simp] theorem State.setStc_supplied (x : Stc) : (s.setStc x).supplied = s.supplied := rfl
@[simp] theorem State.setStc_feeds (x : Stc) : (s.setStc x).feeds = s.feeds := rfl
@[simp] theorem State.setStc_blockAsserted (x : Stc) : (s.setStc x).blockAsserted = s.blockAsserted := rfl
@[simp] theorem State.setStc_firing (x : Stc) : (s.setStc x).firing = s.firing := rfl
@[simp] theorem State.setStc_choices (x : Stc) : (s.setStc x).choices = s.choices := rfl
@[simp] theorem State.setStc_stc (x : Stc) : (s.setStc x).stc = x := rfl
@[simp] theorem State.setStc_lineA (x : Stc) : (s.setStc x).lineA = s.lineA := rfl
@[simp] theorem State.setStc_lineB (x : Stc) : (s.setStc x).lineB = s.lineB := rfl
@[simp] theorem State.setStc_filter (x : Stc) : (s.setStc x).filter = s.filter := rfl
@[simp] theorem State.setStc_prl (x : Stc) : (s.setStc x).prl = s.prl := rfl
@[simp] theorem State.setStc_vcm (x : Stc) : (s.setStc x).vcm = s.vcm := rfl
@[simp] theorem State.setStc_lvt (x : Stc) : (s.setStc x).lvt = s.lvt := rfl
@[simp] theorem State.setStc_fic (x : Stc) : (s.setStc x).fic = s.fic := rfl
@[simp] theorem State.setStc_pst (x : Stc) : (s.setStc x).pst = s.pst := rfl
@[simp] theorem State.setStc_orh (x : Stc) : (s.setStc x).orh = s.orh := rfl
@[simp] theorem State.setStc_pmn (x : Stc) : (s.setStc x).pmn = s.pmn := rfl
@[simp] theorem State.setStc_cmu (x : Stc) : (s.setStc x).cmu = s.cmu := rfl
@[simp] theorem State.setStc_pending (x : Stc) : (s.setStc x).pending = s.pending := rfl
@[simp] theorem State.setStc_now (x : Stc) : (s.setStc x).now = s.now := rfl

/-! ### `setFilter` -/

@[simp] theorem State.setFilter_clock (x : List FilterEntry) : (s.setFilter x).clock = s.clock := rfl
@[simp] theorem State.setFilter_supplied (x : List FilterEntry) : (s.setFilter x).supplied = s.supplied := rfl
@[simp] theorem State.setFilter_feeds (x : List FilterEntry) : (s.setFilter x).feeds = s.feeds := rfl
@[simp] theorem State.setFilter_blockAsserted (x : List FilterEntry) : (s.setFilter x).blockAsserted = s.blockAsserted := rfl
@[simp] theorem State.setFilter_firing (x : List FilterEntry) : (s.setFilter x).firing = s.firing := rfl
@[simp] theorem State.setFilter_choices (x : List FilterEntry) : (s.setFilter x).choices = s.choices := rfl
@[simp] theorem State.setFilter_stc (x : List FilterEntry) : (s.setFilter x).stc = s.stc := rfl
@[simp] theorem State.setFilter_lineA (x : List FilterEntry) : (s.setFilter x).lineA = s.lineA := rfl
@[simp] theorem State.setFilter_lineB (x : List FilterEntry) : (s.setFilter x).lineB = s.lineB := rfl
@[simp] theorem State.setFilter_filter (x : List FilterEntry) : (s.setFilter x).filter = x := rfl
@[simp] theorem State.setFilter_prl (x : List FilterEntry) : (s.setFilter x).prl = s.prl := rfl
@[simp] theorem State.setFilter_vcm (x : List FilterEntry) : (s.setFilter x).vcm = s.vcm := rfl
@[simp] theorem State.setFilter_lvt (x : List FilterEntry) : (s.setFilter x).lvt = s.lvt := rfl
@[simp] theorem State.setFilter_fic (x : List FilterEntry) : (s.setFilter x).fic = s.fic := rfl
@[simp] theorem State.setFilter_pst (x : List FilterEntry) : (s.setFilter x).pst = s.pst := rfl
@[simp] theorem State.setFilter_orh (x : List FilterEntry) : (s.setFilter x).orh = s.orh := rfl
@[simp] theorem State.setFilter_pmn (x : List FilterEntry) : (s.setFilter x).pmn = s.pmn := rfl
@[simp] theorem State.setFilter_cmu (x : List FilterEntry) : (s.setFilter x).cmu = s.cmu := rfl
@[simp] theorem State.setFilter_pending (x : List FilterEntry) : (s.setFilter x).pending = s.pending := rfl
@[simp] theorem State.setFilter_now (x : List FilterEntry) : (s.setFilter x).now = s.now := rfl
@[simp] theorem State.setFilter_cfg (x : List FilterEntry) : (s.setFilter x).cfg = s.cfg := rfl
@[simp] theorem State.setFilter_group (x : List FilterEntry) : (s.setFilter x).group = s.group := rfl
@[simp] theorem State.setFilter_position (x : List FilterEntry) : (s.setFilter x).position = s.position := rfl
@[simp] theorem State.setFilter_heldBlocks (x : List FilterEntry) : (s.setFilter x).heldBlocks = s.heldBlocks := rfl

/-! ### `setPrl` -/

@[simp] theorem State.setPrl_clock (x : Prl) : (s.setPrl x).clock = s.clock := rfl
@[simp] theorem State.setPrl_supplied (x : Prl) : (s.setPrl x).supplied = s.supplied := rfl
@[simp] theorem State.setPrl_feeds (x : Prl) : (s.setPrl x).feeds = s.feeds := rfl
@[simp] theorem State.setPrl_blockAsserted (x : Prl) : (s.setPrl x).blockAsserted = s.blockAsserted := rfl
@[simp] theorem State.setPrl_firing (x : Prl) : (s.setPrl x).firing = s.firing := rfl
@[simp] theorem State.setPrl_choices (x : Prl) : (s.setPrl x).choices = s.choices := rfl
@[simp] theorem State.setPrl_stc (x : Prl) : (s.setPrl x).stc = s.stc := rfl
@[simp] theorem State.setPrl_lineA (x : Prl) : (s.setPrl x).lineA = s.lineA := rfl
@[simp] theorem State.setPrl_lineB (x : Prl) : (s.setPrl x).lineB = s.lineB := rfl
@[simp] theorem State.setPrl_filter (x : Prl) : (s.setPrl x).filter = s.filter := rfl
@[simp] theorem State.setPrl_prl (x : Prl) : (s.setPrl x).prl = x := rfl
@[simp] theorem State.setPrl_vcm (x : Prl) : (s.setPrl x).vcm = s.vcm := rfl
@[simp] theorem State.setPrl_lvt (x : Prl) : (s.setPrl x).lvt = s.lvt := rfl
@[simp] theorem State.setPrl_fic (x : Prl) : (s.setPrl x).fic = s.fic := rfl
@[simp] theorem State.setPrl_pst (x : Prl) : (s.setPrl x).pst = s.pst := rfl
@[simp] theorem State.setPrl_orh (x : Prl) : (s.setPrl x).orh = s.orh := rfl
@[simp] theorem State.setPrl_pmn (x : Prl) : (s.setPrl x).pmn = s.pmn := rfl
@[simp] theorem State.setPrl_cmu (x : Prl) : (s.setPrl x).cmu = s.cmu := rfl
@[simp] theorem State.setPrl_pending (x : Prl) : (s.setPrl x).pending = s.pending := rfl
@[simp] theorem State.setPrl_now (x : Prl) : (s.setPrl x).now = s.now := rfl
@[simp] theorem State.setPrl_cfg (x : Prl) : (s.setPrl x).cfg = s.cfg := rfl
@[simp] theorem State.setPrl_group (x : Prl) : (s.setPrl x).group = s.group := rfl
@[simp] theorem State.setPrl_position (x : Prl) : (s.setPrl x).position = s.position := rfl
@[simp] theorem State.setPrl_heldBlocks (x : Prl) : (s.setPrl x).heldBlocks = s.heldBlocks := rfl

/-! ### `setVcm` -/

@[simp] theorem State.setVcm_clock (x : Vcm) : (s.setVcm x).clock = s.clock := rfl
@[simp] theorem State.setVcm_supplied (x : Vcm) : (s.setVcm x).supplied = s.supplied := rfl
@[simp] theorem State.setVcm_feeds (x : Vcm) : (s.setVcm x).feeds = s.feeds := rfl
@[simp] theorem State.setVcm_blockAsserted (x : Vcm) : (s.setVcm x).blockAsserted = s.blockAsserted := rfl
@[simp] theorem State.setVcm_firing (x : Vcm) : (s.setVcm x).firing = s.firing := rfl
@[simp] theorem State.setVcm_choices (x : Vcm) : (s.setVcm x).choices = s.choices := rfl
@[simp] theorem State.setVcm_stc (x : Vcm) : (s.setVcm x).stc = s.stc := rfl
@[simp] theorem State.setVcm_lineA (x : Vcm) : (s.setVcm x).lineA = s.lineA := rfl
@[simp] theorem State.setVcm_lineB (x : Vcm) : (s.setVcm x).lineB = s.lineB := rfl
@[simp] theorem State.setVcm_filter (x : Vcm) : (s.setVcm x).filter = s.filter := rfl
@[simp] theorem State.setVcm_prl (x : Vcm) : (s.setVcm x).prl = s.prl := rfl
@[simp] theorem State.setVcm_vcm (x : Vcm) : (s.setVcm x).vcm = x := rfl
@[simp] theorem State.setVcm_lvt (x : Vcm) : (s.setVcm x).lvt = s.lvt := rfl
@[simp] theorem State.setVcm_fic (x : Vcm) : (s.setVcm x).fic = s.fic := rfl
@[simp] theorem State.setVcm_pst (x : Vcm) : (s.setVcm x).pst = s.pst := rfl
@[simp] theorem State.setVcm_orh (x : Vcm) : (s.setVcm x).orh = s.orh := rfl
@[simp] theorem State.setVcm_pmn (x : Vcm) : (s.setVcm x).pmn = s.pmn := rfl
@[simp] theorem State.setVcm_cmu (x : Vcm) : (s.setVcm x).cmu = s.cmu := rfl
@[simp] theorem State.setVcm_pending (x : Vcm) : (s.setVcm x).pending = s.pending := rfl
@[simp] theorem State.setVcm_now (x : Vcm) : (s.setVcm x).now = s.now := rfl
@[simp] theorem State.setVcm_cfg (x : Vcm) : (s.setVcm x).cfg = s.cfg := rfl
@[simp] theorem State.setVcm_group (x : Vcm) : (s.setVcm x).group = s.group := rfl
@[simp] theorem State.setVcm_position (x : Vcm) : (s.setVcm x).position = s.position := rfl
@[simp] theorem State.setVcm_heldBlocks (x : Vcm) : (s.setVcm x).heldBlocks = s.heldBlocks := rfl

/-! ### `setLvt` -/

@[simp] theorem State.setLvt_clock (x : Lvt) : (s.setLvt x).clock = s.clock := rfl
@[simp] theorem State.setLvt_supplied (x : Lvt) : (s.setLvt x).supplied = s.supplied := rfl
@[simp] theorem State.setLvt_feeds (x : Lvt) : (s.setLvt x).feeds = s.feeds := rfl
@[simp] theorem State.setLvt_blockAsserted (x : Lvt) : (s.setLvt x).blockAsserted = s.blockAsserted := rfl
@[simp] theorem State.setLvt_firing (x : Lvt) : (s.setLvt x).firing = s.firing := rfl
@[simp] theorem State.setLvt_choices (x : Lvt) : (s.setLvt x).choices = s.choices := rfl
@[simp] theorem State.setLvt_stc (x : Lvt) : (s.setLvt x).stc = s.stc := rfl
@[simp] theorem State.setLvt_lineA (x : Lvt) : (s.setLvt x).lineA = s.lineA := rfl
@[simp] theorem State.setLvt_lineB (x : Lvt) : (s.setLvt x).lineB = s.lineB := rfl
@[simp] theorem State.setLvt_filter (x : Lvt) : (s.setLvt x).filter = s.filter := rfl
@[simp] theorem State.setLvt_prl (x : Lvt) : (s.setLvt x).prl = s.prl := rfl
@[simp] theorem State.setLvt_vcm (x : Lvt) : (s.setLvt x).vcm = s.vcm := rfl
@[simp] theorem State.setLvt_lvt (x : Lvt) : (s.setLvt x).lvt = x := rfl
@[simp] theorem State.setLvt_fic (x : Lvt) : (s.setLvt x).fic = s.fic := rfl
@[simp] theorem State.setLvt_pst (x : Lvt) : (s.setLvt x).pst = s.pst := rfl
@[simp] theorem State.setLvt_orh (x : Lvt) : (s.setLvt x).orh = s.orh := rfl
@[simp] theorem State.setLvt_pmn (x : Lvt) : (s.setLvt x).pmn = s.pmn := rfl
@[simp] theorem State.setLvt_cmu (x : Lvt) : (s.setLvt x).cmu = s.cmu := rfl
@[simp] theorem State.setLvt_pending (x : Lvt) : (s.setLvt x).pending = s.pending := rfl
@[simp] theorem State.setLvt_now (x : Lvt) : (s.setLvt x).now = s.now := rfl
@[simp] theorem State.setLvt_cfg (x : Lvt) : (s.setLvt x).cfg = s.cfg := rfl
@[simp] theorem State.setLvt_group (x : Lvt) : (s.setLvt x).group = s.group := rfl
@[simp] theorem State.setLvt_position (x : Lvt) : (s.setLvt x).position = s.position := rfl
@[simp] theorem State.setLvt_heldBlocks (x : Lvt) : (s.setLvt x).heldBlocks = s.heldBlocks := rfl

/-! ### `setFic` -/

@[simp] theorem State.setFic_clock (x : Fic) : (s.setFic x).clock = s.clock := rfl
@[simp] theorem State.setFic_supplied (x : Fic) : (s.setFic x).supplied = s.supplied := rfl
@[simp] theorem State.setFic_feeds (x : Fic) : (s.setFic x).feeds = s.feeds := rfl
@[simp] theorem State.setFic_blockAsserted (x : Fic) : (s.setFic x).blockAsserted = s.blockAsserted := rfl
@[simp] theorem State.setFic_firing (x : Fic) : (s.setFic x).firing = s.firing := rfl
@[simp] theorem State.setFic_choices (x : Fic) : (s.setFic x).choices = s.choices := rfl
@[simp] theorem State.setFic_stc (x : Fic) : (s.setFic x).stc = s.stc := rfl
@[simp] theorem State.setFic_lineA (x : Fic) : (s.setFic x).lineA = s.lineA := rfl
@[simp] theorem State.setFic_lineB (x : Fic) : (s.setFic x).lineB = s.lineB := rfl
@[simp] theorem State.setFic_filter (x : Fic) : (s.setFic x).filter = s.filter := rfl
@[simp] theorem State.setFic_prl (x : Fic) : (s.setFic x).prl = s.prl := rfl
@[simp] theorem State.setFic_vcm (x : Fic) : (s.setFic x).vcm = s.vcm := rfl
@[simp] theorem State.setFic_lvt (x : Fic) : (s.setFic x).lvt = s.lvt := rfl
@[simp] theorem State.setFic_fic (x : Fic) : (s.setFic x).fic = x := rfl
@[simp] theorem State.setFic_pst (x : Fic) : (s.setFic x).pst = s.pst := rfl
@[simp] theorem State.setFic_orh (x : Fic) : (s.setFic x).orh = s.orh := rfl
@[simp] theorem State.setFic_pmn (x : Fic) : (s.setFic x).pmn = s.pmn := rfl
@[simp] theorem State.setFic_cmu (x : Fic) : (s.setFic x).cmu = s.cmu := rfl
@[simp] theorem State.setFic_pending (x : Fic) : (s.setFic x).pending = s.pending := rfl
@[simp] theorem State.setFic_now (x : Fic) : (s.setFic x).now = s.now := rfl
@[simp] theorem State.setFic_cfg (x : Fic) : (s.setFic x).cfg = s.cfg := rfl
@[simp] theorem State.setFic_group (x : Fic) : (s.setFic x).group = s.group := rfl
@[simp] theorem State.setFic_position (x : Fic) : (s.setFic x).position = s.position := rfl
@[simp] theorem State.setFic_heldBlocks (x : Fic) : (s.setFic x).heldBlocks = s.heldBlocks := rfl

/-! ### `setPst` -/

@[simp] theorem State.setPst_clock (x : Pst) : (s.setPst x).clock = s.clock := rfl
@[simp] theorem State.setPst_supplied (x : Pst) : (s.setPst x).supplied = s.supplied := rfl
@[simp] theorem State.setPst_feeds (x : Pst) : (s.setPst x).feeds = s.feeds := rfl
@[simp] theorem State.setPst_blockAsserted (x : Pst) : (s.setPst x).blockAsserted = s.blockAsserted := rfl
@[simp] theorem State.setPst_firing (x : Pst) : (s.setPst x).firing = s.firing := rfl
@[simp] theorem State.setPst_choices (x : Pst) : (s.setPst x).choices = s.choices := rfl
@[simp] theorem State.setPst_stc (x : Pst) : (s.setPst x).stc = s.stc := rfl
@[simp] theorem State.setPst_lineA (x : Pst) : (s.setPst x).lineA = s.lineA := rfl
@[simp] theorem State.setPst_lineB (x : Pst) : (s.setPst x).lineB = s.lineB := rfl
@[simp] theorem State.setPst_filter (x : Pst) : (s.setPst x).filter = s.filter := rfl
@[simp] theorem State.setPst_prl (x : Pst) : (s.setPst x).prl = s.prl := rfl
@[simp] theorem State.setPst_vcm (x : Pst) : (s.setPst x).vcm = s.vcm := rfl
@[simp] theorem State.setPst_lvt (x : Pst) : (s.setPst x).lvt = s.lvt := rfl
@[simp] theorem State.setPst_fic (x : Pst) : (s.setPst x).fic = s.fic := rfl
@[simp] theorem State.setPst_pst (x : Pst) : (s.setPst x).pst = x := rfl
@[simp] theorem State.setPst_orh (x : Pst) : (s.setPst x).orh = s.orh := rfl
@[simp] theorem State.setPst_pmn (x : Pst) : (s.setPst x).pmn = s.pmn := rfl
@[simp] theorem State.setPst_cmu (x : Pst) : (s.setPst x).cmu = s.cmu := rfl
@[simp] theorem State.setPst_pending (x : Pst) : (s.setPst x).pending = s.pending := rfl
@[simp] theorem State.setPst_now (x : Pst) : (s.setPst x).now = s.now := rfl
@[simp] theorem State.setPst_cfg (x : Pst) : (s.setPst x).cfg = s.cfg := rfl
@[simp] theorem State.setPst_group (x : Pst) : (s.setPst x).group = s.group := rfl
@[simp] theorem State.setPst_position (x : Pst) : (s.setPst x).position = s.position := rfl
@[simp] theorem State.setPst_heldBlocks (x : Pst) : (s.setPst x).heldBlocks = s.heldBlocks := rfl

/-! ### `setOrh` -/

@[simp] theorem State.setOrh_clock (x : Orh) : (s.setOrh x).clock = s.clock := rfl
@[simp] theorem State.setOrh_supplied (x : Orh) : (s.setOrh x).supplied = s.supplied := rfl
@[simp] theorem State.setOrh_feeds (x : Orh) : (s.setOrh x).feeds = s.feeds := rfl
@[simp] theorem State.setOrh_blockAsserted (x : Orh) : (s.setOrh x).blockAsserted = s.blockAsserted := rfl
@[simp] theorem State.setOrh_firing (x : Orh) : (s.setOrh x).firing = s.firing := rfl
@[simp] theorem State.setOrh_choices (x : Orh) : (s.setOrh x).choices = s.choices := rfl
@[simp] theorem State.setOrh_stc (x : Orh) : (s.setOrh x).stc = s.stc := rfl
@[simp] theorem State.setOrh_lineA (x : Orh) : (s.setOrh x).lineA = s.lineA := rfl
@[simp] theorem State.setOrh_lineB (x : Orh) : (s.setOrh x).lineB = s.lineB := rfl
@[simp] theorem State.setOrh_filter (x : Orh) : (s.setOrh x).filter = s.filter := rfl
@[simp] theorem State.setOrh_prl (x : Orh) : (s.setOrh x).prl = s.prl := rfl
@[simp] theorem State.setOrh_vcm (x : Orh) : (s.setOrh x).vcm = s.vcm := rfl
@[simp] theorem State.setOrh_lvt (x : Orh) : (s.setOrh x).lvt = s.lvt := rfl
@[simp] theorem State.setOrh_fic (x : Orh) : (s.setOrh x).fic = s.fic := rfl
@[simp] theorem State.setOrh_pst (x : Orh) : (s.setOrh x).pst = s.pst := rfl
@[simp] theorem State.setOrh_orh (x : Orh) : (s.setOrh x).orh = x := rfl
@[simp] theorem State.setOrh_pmn (x : Orh) : (s.setOrh x).pmn = s.pmn := rfl
@[simp] theorem State.setOrh_cmu (x : Orh) : (s.setOrh x).cmu = s.cmu := rfl
@[simp] theorem State.setOrh_pending (x : Orh) : (s.setOrh x).pending = s.pending := rfl
@[simp] theorem State.setOrh_now (x : Orh) : (s.setOrh x).now = s.now := rfl
@[simp] theorem State.setOrh_cfg (x : Orh) : (s.setOrh x).cfg = s.cfg := rfl
@[simp] theorem State.setOrh_group (x : Orh) : (s.setOrh x).group = s.group := rfl
@[simp] theorem State.setOrh_position (x : Orh) : (s.setOrh x).position = s.position := rfl
@[simp] theorem State.setOrh_heldBlocks (x : Orh) : (s.setOrh x).heldBlocks = s.heldBlocks := rfl

/-! ### `setPmn` -/

@[simp] theorem State.setPmn_clock (x : Pmn) : (s.setPmn x).clock = s.clock := rfl
@[simp] theorem State.setPmn_supplied (x : Pmn) : (s.setPmn x).supplied = s.supplied := rfl
@[simp] theorem State.setPmn_feeds (x : Pmn) : (s.setPmn x).feeds = s.feeds := rfl
@[simp] theorem State.setPmn_blockAsserted (x : Pmn) : (s.setPmn x).blockAsserted = s.blockAsserted := rfl
@[simp] theorem State.setPmn_firing (x : Pmn) : (s.setPmn x).firing = s.firing := rfl
@[simp] theorem State.setPmn_choices (x : Pmn) : (s.setPmn x).choices = s.choices := rfl
@[simp] theorem State.setPmn_stc (x : Pmn) : (s.setPmn x).stc = s.stc := rfl
@[simp] theorem State.setPmn_lineA (x : Pmn) : (s.setPmn x).lineA = s.lineA := rfl
@[simp] theorem State.setPmn_lineB (x : Pmn) : (s.setPmn x).lineB = s.lineB := rfl
@[simp] theorem State.setPmn_filter (x : Pmn) : (s.setPmn x).filter = s.filter := rfl
@[simp] theorem State.setPmn_prl (x : Pmn) : (s.setPmn x).prl = s.prl := rfl
@[simp] theorem State.setPmn_vcm (x : Pmn) : (s.setPmn x).vcm = s.vcm := rfl
@[simp] theorem State.setPmn_lvt (x : Pmn) : (s.setPmn x).lvt = s.lvt := rfl
@[simp] theorem State.setPmn_fic (x : Pmn) : (s.setPmn x).fic = s.fic := rfl
@[simp] theorem State.setPmn_pst (x : Pmn) : (s.setPmn x).pst = s.pst := rfl
@[simp] theorem State.setPmn_orh (x : Pmn) : (s.setPmn x).orh = s.orh := rfl
@[simp] theorem State.setPmn_pmn (x : Pmn) : (s.setPmn x).pmn = x := rfl
@[simp] theorem State.setPmn_cmu (x : Pmn) : (s.setPmn x).cmu = s.cmu := rfl
@[simp] theorem State.setPmn_pending (x : Pmn) : (s.setPmn x).pending = s.pending := rfl
@[simp] theorem State.setPmn_now (x : Pmn) : (s.setPmn x).now = s.now := rfl
@[simp] theorem State.setPmn_cfg (x : Pmn) : (s.setPmn x).cfg = s.cfg := rfl
@[simp] theorem State.setPmn_group (x : Pmn) : (s.setPmn x).group = s.group := rfl
@[simp] theorem State.setPmn_position (x : Pmn) : (s.setPmn x).position = s.position := rfl
@[simp] theorem State.setPmn_heldBlocks (x : Pmn) : (s.setPmn x).heldBlocks = s.heldBlocks := rfl

/-! ### `setCmu` -/

@[simp] theorem State.setCmu_clock (x : Cmu) : (s.setCmu x).clock = s.clock := rfl
@[simp] theorem State.setCmu_supplied (x : Cmu) : (s.setCmu x).supplied = s.supplied := rfl
@[simp] theorem State.setCmu_feeds (x : Cmu) : (s.setCmu x).feeds = s.feeds := rfl
@[simp] theorem State.setCmu_blockAsserted (x : Cmu) : (s.setCmu x).blockAsserted = s.blockAsserted := rfl
@[simp] theorem State.setCmu_firing (x : Cmu) : (s.setCmu x).firing = s.firing := rfl
@[simp] theorem State.setCmu_choices (x : Cmu) : (s.setCmu x).choices = s.choices := rfl
@[simp] theorem State.setCmu_stc (x : Cmu) : (s.setCmu x).stc = s.stc := rfl
@[simp] theorem State.setCmu_lineA (x : Cmu) : (s.setCmu x).lineA = s.lineA := rfl
@[simp] theorem State.setCmu_lineB (x : Cmu) : (s.setCmu x).lineB = s.lineB := rfl
@[simp] theorem State.setCmu_filter (x : Cmu) : (s.setCmu x).filter = s.filter := rfl
@[simp] theorem State.setCmu_prl (x : Cmu) : (s.setCmu x).prl = s.prl := rfl
@[simp] theorem State.setCmu_vcm (x : Cmu) : (s.setCmu x).vcm = s.vcm := rfl
@[simp] theorem State.setCmu_lvt (x : Cmu) : (s.setCmu x).lvt = s.lvt := rfl
@[simp] theorem State.setCmu_fic (x : Cmu) : (s.setCmu x).fic = s.fic := rfl
@[simp] theorem State.setCmu_pst (x : Cmu) : (s.setCmu x).pst = s.pst := rfl
@[simp] theorem State.setCmu_orh (x : Cmu) : (s.setCmu x).orh = s.orh := rfl
@[simp] theorem State.setCmu_pmn (x : Cmu) : (s.setCmu x).pmn = s.pmn := rfl
@[simp] theorem State.setCmu_cmu (x : Cmu) : (s.setCmu x).cmu = x := rfl
@[simp] theorem State.setCmu_pending (x : Cmu) : (s.setCmu x).pending = s.pending := rfl
@[simp] theorem State.setCmu_now (x : Cmu) : (s.setCmu x).now = s.now := rfl
@[simp] theorem State.setCmu_cfg (x : Cmu) : (s.setCmu x).cfg = s.cfg := rfl
@[simp] theorem State.setCmu_group (x : Cmu) : (s.setCmu x).group = s.group := rfl
@[simp] theorem State.setCmu_position (x : Cmu) : (s.setCmu x).position = s.position := rfl
@[simp] theorem State.setCmu_heldBlocks (x : Cmu) : (s.setCmu x).heldBlocks = s.heldBlocks := rfl

/-! ### `setBlock` -/

@[simp] theorem State.setBlock_clock (x : Bool) : (s.setBlock x).clock = s.clock := rfl
@[simp] theorem State.setBlock_supplied (x : Bool) : (s.setBlock x).supplied = s.supplied := rfl
@[simp] theorem State.setBlock_feeds (x : Bool) : (s.setBlock x).feeds = s.feeds := rfl
@[simp] theorem State.setBlock_blockAsserted (x : Bool) : (s.setBlock x).blockAsserted = x := rfl
@[simp] theorem State.setBlock_firing (x : Bool) : (s.setBlock x).firing = s.firing := rfl
@[simp] theorem State.setBlock_choices (x : Bool) : (s.setBlock x).choices = s.choices := rfl
@[simp] theorem State.setBlock_stc (x : Bool) : (s.setBlock x).stc = s.stc := rfl
@[simp] theorem State.setBlock_lineA (x : Bool) : (s.setBlock x).lineA = s.lineA := rfl
@[simp] theorem State.setBlock_lineB (x : Bool) : (s.setBlock x).lineB = s.lineB := rfl
@[simp] theorem State.setBlock_filter (x : Bool) : (s.setBlock x).filter = s.filter := rfl
@[simp] theorem State.setBlock_prl (x : Bool) : (s.setBlock x).prl = s.prl := rfl
@[simp] theorem State.setBlock_vcm (x : Bool) : (s.setBlock x).vcm = s.vcm := rfl
@[simp] theorem State.setBlock_lvt (x : Bool) : (s.setBlock x).lvt = s.lvt := rfl
@[simp] theorem State.setBlock_fic (x : Bool) : (s.setBlock x).fic = s.fic := rfl
@[simp] theorem State.setBlock_pst (x : Bool) : (s.setBlock x).pst = s.pst := rfl
@[simp] theorem State.setBlock_orh (x : Bool) : (s.setBlock x).orh = s.orh := rfl
@[simp] theorem State.setBlock_pmn (x : Bool) : (s.setBlock x).pmn = s.pmn := rfl
@[simp] theorem State.setBlock_cmu (x : Bool) : (s.setBlock x).cmu = s.cmu := rfl
@[simp] theorem State.setBlock_pending (x : Bool) : (s.setBlock x).pending = s.pending := rfl
@[simp] theorem State.setBlock_now (x : Bool) : (s.setBlock x).now = s.now := rfl
@[simp] theorem State.setBlock_cfg (x : Bool) : (s.setBlock x).cfg = s.cfg := rfl
@[simp] theorem State.setBlock_group (x : Bool) : (s.setBlock x).group = s.group := rfl
@[simp] theorem State.setBlock_position (x : Bool) : (s.setBlock x).position = s.position := rfl
@[simp] theorem State.setBlock_heldBlocks (x : Bool) : (s.setBlock x).heldBlocks = s.heldBlocks := rfl

/-! ### `setFeeds` -/

@[simp] theorem State.setFeeds_clock (x : Feeds) : (s.setFeeds x).clock = s.clock := rfl
@[simp] theorem State.setFeeds_supplied (x : Feeds) : (s.setFeeds x).supplied = feedsSustain x := rfl
@[simp] theorem State.setFeeds_feeds (x : Feeds) : (s.setFeeds x).feeds = x := rfl
@[simp] theorem State.setFeeds_blockAsserted (x : Feeds) : (s.setFeeds x).blockAsserted = s.blockAsserted := rfl
@[simp] theorem State.setFeeds_firing (x : Feeds) : (s.setFeeds x).firing = s.firing := rfl
@[simp] theorem State.setFeeds_choices (x : Feeds) : (s.setFeeds x).choices = s.choices := rfl
@[simp] theorem State.setFeeds_stc (x : Feeds) : (s.setFeeds x).stc = s.stc := rfl
@[simp] theorem State.setFeeds_lineA (x : Feeds) : (s.setFeeds x).lineA = s.lineA := rfl
@[simp] theorem State.setFeeds_lineB (x : Feeds) : (s.setFeeds x).lineB = s.lineB := rfl
@[simp] theorem State.setFeeds_filter (x : Feeds) : (s.setFeeds x).filter = s.filter := rfl
@[simp] theorem State.setFeeds_prl (x : Feeds) : (s.setFeeds x).prl = s.prl := rfl
@[simp] theorem State.setFeeds_vcm (x : Feeds) : (s.setFeeds x).vcm = s.vcm := rfl
@[simp] theorem State.setFeeds_lvt (x : Feeds) : (s.setFeeds x).lvt = s.lvt := rfl
@[simp] theorem State.setFeeds_fic (x : Feeds) : (s.setFeeds x).fic = s.fic := rfl
@[simp] theorem State.setFeeds_pst (x : Feeds) : (s.setFeeds x).pst = s.pst := rfl
@[simp] theorem State.setFeeds_orh (x : Feeds) : (s.setFeeds x).orh = s.orh := rfl
@[simp] theorem State.setFeeds_pmn (x : Feeds) : (s.setFeeds x).pmn = s.pmn := rfl
@[simp] theorem State.setFeeds_cmu (x : Feeds) : (s.setFeeds x).cmu = s.cmu := rfl
@[simp] theorem State.setFeeds_pending (x : Feeds) : (s.setFeeds x).pending = s.pending := rfl
@[simp] theorem State.setFeeds_now (x : Feeds) : (s.setFeeds x).now = s.now := rfl
@[simp] theorem State.setFeeds_cfg (x : Feeds) : (s.setFeeds x).cfg = s.cfg := rfl
@[simp] theorem State.setFeeds_group (x : Feeds) : (s.setFeeds x).group = s.group := rfl
@[simp] theorem State.setFeeds_position (x : Feeds) : (s.setFeeds x).position = s.position := rfl
@[simp] theorem State.setFeeds_heldBlocks (x : Feeds) : (s.setFeeds x).heldBlocks = s.heldBlocks := rfl

/-! ### `setPending` -/

@[simp] theorem State.setPending_clock (x : List Instr) : (s.setPending x).clock = s.clock := rfl
@[simp] theorem State.setPending_supplied (x : List Instr) : (s.setPending x).supplied = s.supplied := rfl
@[simp] theorem State.setPending_feeds (x : List Instr) : (s.setPending x).feeds = s.feeds := rfl
@[simp] theorem State.setPending_blockAsserted (x : List Instr) : (s.setPending x).blockAsserted = s.blockAsserted := rfl
@[simp] theorem State.setPending_firing (x : List Instr) : (s.setPending x).firing = s.firing := rfl
@[simp] theorem State.setPending_choices (x : List Instr) : (s.setPending x).choices = s.choices := rfl
@[simp] theorem State.setPending_stc (x : List Instr) : (s.setPending x).stc = s.stc := rfl
@[simp] theorem State.setPending_lineA (x : List Instr) : (s.setPending x).lineA = s.lineA := rfl
@[simp] theorem State.setPending_lineB (x : List Instr) : (s.setPending x).lineB = s.lineB := rfl
@[simp] theorem State.setPending_filter (x : List Instr) : (s.setPending x).filter = s.filter := rfl
@[simp] theorem State.setPending_prl (x : List Instr) : (s.setPending x).prl = s.prl := rfl
@[simp] theorem State.setPending_vcm (x : List Instr) : (s.setPending x).vcm = s.vcm := rfl
@[simp] theorem State.setPending_lvt (x : List Instr) : (s.setPending x).lvt = s.lvt := rfl
@[simp] theorem State.setPending_fic (x : List Instr) : (s.setPending x).fic = s.fic := rfl
@[simp] theorem State.setPending_pst (x : List Instr) : (s.setPending x).pst = s.pst := rfl
@[simp] theorem State.setPending_orh (x : List Instr) : (s.setPending x).orh = s.orh := rfl
@[simp] theorem State.setPending_pmn (x : List Instr) : (s.setPending x).pmn = s.pmn := rfl
@[simp] theorem State.setPending_cmu (x : List Instr) : (s.setPending x).cmu = s.cmu := rfl
@[simp] theorem State.setPending_pending (x : List Instr) : (s.setPending x).pending = x := rfl
@[simp] theorem State.setPending_now (x : List Instr) : (s.setPending x).now = s.now := rfl
@[simp] theorem State.setPending_cfg (x : List Instr) : (s.setPending x).cfg = s.cfg := rfl
@[simp] theorem State.setPending_group (x : List Instr) : (s.setPending x).group = s.group := rfl
@[simp] theorem State.setPending_position (x : List Instr) : (s.setPending x).position = s.position := rfl
@[simp] theorem State.setPending_heldBlocks (x : List Instr) : (s.setPending x).heldBlocks = s.heldBlocks := rfl

/-! ### `addPulse` and `countChoice` -/

@[simp] theorem State.addPulse_clock (x : Pulse) : (s.addPulse x).clock = s.clock := rfl
@[simp] theorem State.addPulse_supplied (x : Pulse) : (s.addPulse x).supplied = s.supplied := rfl
@[simp] theorem State.addPulse_feeds (x : Pulse) : (s.addPulse x).feeds = s.feeds := rfl
@[simp] theorem State.addPulse_blockAsserted (x : Pulse) : (s.addPulse x).blockAsserted = s.blockAsserted := rfl
@[simp] theorem State.addPulse_firing (x : Pulse) : (s.addPulse x).firing = s.firing ++ [x] := rfl
@[simp] theorem State.addPulse_choices (x : Pulse) : (s.addPulse x).choices = s.choices := rfl
@[simp] theorem State.addPulse_stc (x : Pulse) : (s.addPulse x).stc = s.stc := rfl
@[simp] theorem State.addPulse_lineA (x : Pulse) : (s.addPulse x).lineA = s.lineA := rfl
@[simp] theorem State.addPulse_lineB (x : Pulse) : (s.addPulse x).lineB = s.lineB := rfl
@[simp] theorem State.addPulse_filter (x : Pulse) : (s.addPulse x).filter = s.filter := rfl
@[simp] theorem State.addPulse_prl (x : Pulse) : (s.addPulse x).prl = s.prl := rfl
@[simp] theorem State.addPulse_vcm (x : Pulse) : (s.addPulse x).vcm = s.vcm := rfl
@[simp] theorem State.addPulse_lvt (x : Pulse) : (s.addPulse x).lvt = s.lvt := rfl
@[simp] theorem State.addPulse_fic (x : Pulse) : (s.addPulse x).fic = s.fic := rfl
@[simp] theorem State.addPulse_pst (x : Pulse) : (s.addPulse x).pst = s.pst := rfl
@[simp] theorem State.addPulse_orh (x : Pulse) : (s.addPulse x).orh = s.orh := rfl
@[simp] theorem State.addPulse_pmn (x : Pulse) : (s.addPulse x).pmn = s.pmn := rfl
@[simp] theorem State.addPulse_cmu (x : Pulse) : (s.addPulse x).cmu = s.cmu := rfl
@[simp] theorem State.addPulse_pending (x : Pulse) : (s.addPulse x).pending = s.pending := rfl
@[simp] theorem State.addPulse_now (x : Pulse) : (s.addPulse x).now = s.now := rfl
@[simp] theorem State.addPulse_cfg (x : Pulse) : (s.addPulse x).cfg = s.cfg := rfl
@[simp] theorem State.addPulse_group (x : Pulse) : (s.addPulse x).group = s.group := rfl
@[simp] theorem State.addPulse_position (x : Pulse) : (s.addPulse x).position = s.position := rfl
@[simp] theorem State.addPulse_heldBlocks (x : Pulse) : (s.addPulse x).heldBlocks = s.heldBlocks := rfl
@[simp] theorem State.countChoice_clock : s.countChoice.clock = s.clock := rfl
@[simp] theorem State.countChoice_supplied : s.countChoice.supplied = s.supplied := rfl
@[simp] theorem State.countChoice_feeds : s.countChoice.feeds = s.feeds := rfl
@[simp] theorem State.countChoice_blockAsserted : s.countChoice.blockAsserted = s.blockAsserted := rfl
@[simp] theorem State.countChoice_firing : s.countChoice.firing = s.firing := rfl
@[simp] theorem State.countChoice_choices : s.countChoice.choices = s.choices + 1 := rfl
@[simp] theorem State.countChoice_stc : s.countChoice.stc = s.stc := rfl
@[simp] theorem State.countChoice_lineA : s.countChoice.lineA = s.lineA := rfl
@[simp] theorem State.countChoice_lineB : s.countChoice.lineB = s.lineB := rfl
@[simp] theorem State.countChoice_filter : s.countChoice.filter = s.filter := rfl
@[simp] theorem State.countChoice_prl : s.countChoice.prl = s.prl := rfl
@[simp] theorem State.countChoice_vcm : s.countChoice.vcm = s.vcm := rfl
@[simp] theorem State.countChoice_lvt : s.countChoice.lvt = s.lvt := rfl
@[simp] theorem State.countChoice_fic : s.countChoice.fic = s.fic := rfl
@[simp] theorem State.countChoice_pst : s.countChoice.pst = s.pst := rfl
@[simp] theorem State.countChoice_orh : s.countChoice.orh = s.orh := rfl
@[simp] theorem State.countChoice_pmn : s.countChoice.pmn = s.pmn := rfl
@[simp] theorem State.countChoice_cmu : s.countChoice.cmu = s.cmu := rfl
@[simp] theorem State.countChoice_pending : s.countChoice.pending = s.pending := rfl
@[simp] theorem State.countChoice_now  : (s.countChoice).now = s.now := rfl
@[simp] theorem State.countChoice_cfg  : (s.countChoice).cfg = s.cfg := rfl
@[simp] theorem State.countChoice_group  : (s.countChoice).group = s.group := rfl
@[simp] theorem State.countChoice_position  : (s.countChoice).position = s.position := rfl
@[simp] theorem State.countChoice_heldBlocks  : (s.countChoice).heldBlocks = s.heldBlocks := rfl

/-! ### `setLine` -/

@[simp] theorem State.setLine_a_clock (x : LineState) : (s.setLine .a x).clock = s.clock := rfl
@[simp] theorem State.setLine_a_supplied (x : LineState) : (s.setLine .a x).supplied = s.supplied := rfl
@[simp] theorem State.setLine_a_feeds (x : LineState) : (s.setLine .a x).feeds = s.feeds := rfl
@[simp] theorem State.setLine_a_blockAsserted (x : LineState) : (s.setLine .a x).blockAsserted = s.blockAsserted := rfl
@[simp] theorem State.setLine_a_firing (x : LineState) : (s.setLine .a x).firing = s.firing := rfl
@[simp] theorem State.setLine_a_choices (x : LineState) : (s.setLine .a x).choices = s.choices := rfl
@[simp] theorem State.setLine_a_stc (x : LineState) : (s.setLine .a x).stc = s.stc := rfl
@[simp] theorem State.setLine_a_lineA (x : LineState) : (s.setLine .a x).lineA = x := rfl
@[simp] theorem State.setLine_a_lineB (x : LineState) : (s.setLine .a x).lineB = s.lineB := rfl
@[simp] theorem State.setLine_a_filter (x : LineState) : (s.setLine .a x).filter = s.filter := rfl
@[simp] theorem State.setLine_a_prl (x : LineState) : (s.setLine .a x).prl = s.prl := rfl
@[simp] theorem State.setLine_a_vcm (x : LineState) : (s.setLine .a x).vcm = s.vcm := rfl
@[simp] theorem State.setLine_a_lvt (x : LineState) : (s.setLine .a x).lvt = s.lvt := rfl
@[simp] theorem State.setLine_a_fic (x : LineState) : (s.setLine .a x).fic = s.fic := rfl
@[simp] theorem State.setLine_a_pst (x : LineState) : (s.setLine .a x).pst = s.pst := rfl
@[simp] theorem State.setLine_a_orh (x : LineState) : (s.setLine .a x).orh = s.orh := rfl
@[simp] theorem State.setLine_a_pmn (x : LineState) : (s.setLine .a x).pmn = s.pmn := rfl
@[simp] theorem State.setLine_a_cmu (x : LineState) : (s.setLine .a x).cmu = s.cmu := rfl
@[simp] theorem State.setLine_a_pending (x : LineState) : (s.setLine .a x).pending = s.pending := rfl
@[simp] theorem State.setLine_b_clock (x : LineState) : (s.setLine .b x).clock = s.clock := rfl
@[simp] theorem State.setLine_b_supplied (x : LineState) : (s.setLine .b x).supplied = s.supplied := rfl
@[simp] theorem State.setLine_b_feeds (x : LineState) : (s.setLine .b x).feeds = s.feeds := rfl
@[simp] theorem State.setLine_b_blockAsserted (x : LineState) : (s.setLine .b x).blockAsserted = s.blockAsserted := rfl
@[simp] theorem State.setLine_b_firing (x : LineState) : (s.setLine .b x).firing = s.firing := rfl
@[simp] theorem State.setLine_b_choices (x : LineState) : (s.setLine .b x).choices = s.choices := rfl
@[simp] theorem State.setLine_b_stc (x : LineState) : (s.setLine .b x).stc = s.stc := rfl
@[simp] theorem State.setLine_b_lineA (x : LineState) : (s.setLine .b x).lineA = s.lineA := rfl
@[simp] theorem State.setLine_b_lineB (x : LineState) : (s.setLine .b x).lineB = x := rfl
@[simp] theorem State.setLine_b_filter (x : LineState) : (s.setLine .b x).filter = s.filter := rfl
@[simp] theorem State.setLine_b_prl (x : LineState) : (s.setLine .b x).prl = s.prl := rfl
@[simp] theorem State.setLine_b_vcm (x : LineState) : (s.setLine .b x).vcm = s.vcm := rfl
@[simp] theorem State.setLine_b_lvt (x : LineState) : (s.setLine .b x).lvt = s.lvt := rfl
@[simp] theorem State.setLine_b_fic (x : LineState) : (s.setLine .b x).fic = s.fic := rfl
@[simp] theorem State.setLine_b_pst (x : LineState) : (s.setLine .b x).pst = s.pst := rfl
@[simp] theorem State.setLine_b_orh (x : LineState) : (s.setLine .b x).orh = s.orh := rfl
@[simp] theorem State.setLine_b_pmn (x : LineState) : (s.setLine .b x).pmn = s.pmn := rfl
@[simp] theorem State.setLine_b_cmu (x : LineState) : (s.setLine .b x).cmu = s.cmu := rfl
@[simp] theorem State.setLine_b_pending (x : LineState) : (s.setLine .b x).pending = s.pending := rfl
@[simp] theorem State.setLine_clock (l : Line) (x : LineState) : (s.setLine l x).clock = s.clock := by cases l <;> rfl
@[simp] theorem State.setLine_supplied (l : Line) (x : LineState) : (s.setLine l x).supplied = s.supplied := by cases l <;> rfl
@[simp] theorem State.setLine_feeds (l : Line) (x : LineState) : (s.setLine l x).feeds = s.feeds := by cases l <;> rfl
@[simp] theorem State.setLine_blockAsserted (l : Line) (x : LineState) : (s.setLine l x).blockAsserted = s.blockAsserted := by cases l <;> rfl
@[simp] theorem State.setLine_firing (l : Line) (x : LineState) : (s.setLine l x).firing = s.firing := by cases l <;> rfl
@[simp] theorem State.setLine_choices (l : Line) (x : LineState) : (s.setLine l x).choices = s.choices := by cases l <;> rfl
@[simp] theorem State.setLine_stc (l : Line) (x : LineState) : (s.setLine l x).stc = s.stc := by cases l <;> rfl
@[simp] theorem State.setLine_filter (l : Line) (x : LineState) : (s.setLine l x).filter = s.filter := by cases l <;> rfl
@[simp] theorem State.setLine_prl (l : Line) (x : LineState) : (s.setLine l x).prl = s.prl := by cases l <;> rfl
@[simp] theorem State.setLine_vcm (l : Line) (x : LineState) : (s.setLine l x).vcm = s.vcm := by cases l <;> rfl
@[simp] theorem State.setLine_lvt (l : Line) (x : LineState) : (s.setLine l x).lvt = s.lvt := by cases l <;> rfl
@[simp] theorem State.setLine_fic (l : Line) (x : LineState) : (s.setLine l x).fic = s.fic := by cases l <;> rfl
@[simp] theorem State.setLine_pst (l : Line) (x : LineState) : (s.setLine l x).pst = s.pst := by cases l <;> rfl
@[simp] theorem State.setLine_orh (l : Line) (x : LineState) : (s.setLine l x).orh = s.orh := by cases l <;> rfl
@[simp] theorem State.setLine_pmn (l : Line) (x : LineState) : (s.setLine l x).pmn = s.pmn := by cases l <;> rfl
@[simp] theorem State.setLine_cmu (l : Line) (x : LineState) : (s.setLine l x).cmu = s.cmu := by cases l <;> rfl
@[simp] theorem State.setLine_pending (l : Line) (x : LineState) : (s.setLine l x).pending = s.pending := by cases l <;> rfl
@[simp] theorem State.setLine_now (l : Line) (x : LineState) : (s.setLine l x).now = s.now := by cases l <;> rfl
@[simp] theorem State.setLine_cfg (l : Line) (x : LineState) : (s.setLine l x).cfg = s.cfg := by cases l <;> rfl
@[simp] theorem State.setLine_group (l : Line) (x : LineState) : (s.setLine l x).group = s.group := by cases l <;> rfl
@[simp] theorem State.setLine_position (l : Line) (x : LineState) : (s.setLine l x).position = s.position := by cases l <;> rfl
@[simp] theorem State.setLine_heldBlocks (l : Line) (x : LineState) : (s.setLine l x).heldBlocks = s.heldBlocks := by cases l <;> rfl
@[simp] theorem State.setLine_line_self (l : Line) (x : LineState) : (s.setLine l x).line l = x := by
  cases l <;> rfl
@[simp] theorem State.setLine_line_a_b (x : LineState) : (s.setLine .a x).line .b = s.line .b := rfl
@[simp] theorem State.setLine_line_b_a (x : LineState) : (s.setLine .b x).line .a = s.line .a := rfl
@[simp] theorem State.setLine_setLine (l : Line) (x y : LineState) :
    (s.setLine l x).setLine l y = s.setLine l y := by cases l <;> rfl
theorem State.setLine_line_of_ne {l m : Line} (h : m ≠ l) (x : LineState) :
    (s.setLine l x).line m = s.line m := by
  cases l <;> cases m <;> first | rfl | exact absurd rfl h

/-! ### `advance` -/

@[simp] theorem State.advance_clock (t : Instant) :
    (s.advance t).clock = s.clock + s.ticksUntil t := rfl
@[simp] theorem State.advance_supplied (t : Instant) : (s.advance t).supplied = s.supplied := rfl
@[simp] theorem State.advance_feeds (t : Instant) : (s.advance t).feeds = s.feeds := rfl
@[simp] theorem State.advance_blockAsserted (t : Instant) : (s.advance t).blockAsserted = s.blockAsserted := rfl
@[simp] theorem State.advance_firing (t : Instant) : (s.advance t).firing = [] := rfl
@[simp] theorem State.advance_choices (t : Instant) : (s.advance t).choices = s.choices := rfl
@[simp] theorem State.advance_stc (t : Instant) : (s.advance t).stc = s.stc := rfl
@[simp] theorem State.advance_lineA (t : Instant) : (s.advance t).lineA = s.lineA := rfl
@[simp] theorem State.advance_lineB (t : Instant) : (s.advance t).lineB = s.lineB := rfl
@[simp] theorem State.advance_filter (t : Instant) : (s.advance t).filter = s.filter := rfl
@[simp] theorem State.advance_prl (t : Instant) : (s.advance t).prl = s.prl := rfl
@[simp] theorem State.advance_vcm (t : Instant) : (s.advance t).vcm = s.vcm := rfl
@[simp] theorem State.advance_lvt (t : Instant) : (s.advance t).lvt = s.lvt := rfl
@[simp] theorem State.advance_fic (t : Instant) : (s.advance t).fic = s.fic := rfl
@[simp] theorem State.advance_pst (t : Instant) : (s.advance t).pst = s.pst := rfl
@[simp] theorem State.advance_orh (t : Instant) :
    (s.advance t).orh = { s.orh with age := ageAfter s.heldBlocks s.orh.age (s.ticksUntil t) } := rfl
@[simp] theorem State.advance_pmn (t : Instant) : (s.advance t).pmn = s.pmn := rfl
@[simp] theorem State.advance_cmu (t : Instant) : (s.advance t).cmu = s.cmu := rfl
@[simp] theorem State.advance_pending (t : Instant) : (s.advance t).pending = s.pending := rfl
@[simp] theorem State.advance_cfg (t : Instant) : (s.advance t).cfg = s.cfg := rfl
@[simp] theorem State.advance_group (t : Instant) : (s.advance t).group = s.group := rfl
@[simp] theorem State.advance_position (t : Instant) : (s.advance t).position = s.position := rfl
@[simp] theorem State.advance_heldBlocks (t : Instant) : (s.advance t).heldBlocks = s.heldBlocks := rfl
@[simp] theorem State.advance_line (t : Instant) (l : Line) : (s.advance t).line l = s.line l := by
  cases l <;> rfl

/-- The tick counter reads the instant that time has passed to. -/
@[simp] theorem State.advance_now (t : Instant) : (s.advance t).now = t := by
  have h : BitVec.ofNat 32 (s.clock + (t - s.now).toNat) = s.now + (t - s.now) := by
    rw [BitVec.ofNat_add, BitVec.ofNat_toNat, BitVec.setWidth_eq]
    rfl
  show BitVec.ofNat 32 (s.clock + (t - s.now).toNat) = t
  rw [h, BitVec.add_comm, BitVec.sub_add_cancel]

/-- Time passes by less than a whole turn of the tick counter. -/
theorem State.ticksUntil_lt (t : Instant) : s.ticksUntil t < 4294967296 := (t - s.now).isLt

end Sys2Proof.Machine
end

