-- ==== Sys2Proof/Laws/Ops.lean ====
section
/-! SUPPORT. What the shared operations can do, said once: the frame of a command, effects without an order,
and sets of levels. -/

namespace Sys2Proof.Machine

/-! ### The frame of a command -/

/-- With supply, a command has its effect at its instant. -/
theorem act_supplied {s : State} (h : s.supplied = true) (t : Instant) (effect : State → State) :
    act t s effect = .next (effect (s.advance t)) := by simp [act, h]

/-- Without supply, a command only lets time pass. -/
theorem act_unsupplied {s : State} (h : s.supplied = false) (t : Instant) (effect : State → State) :
    act t s effect = .next (s.advance t) := by simp [act, h]

/-- A command always answers a next state. -/
theorem act_next (t : Instant) (s : State) (effect : State → State) :
    ∃ u, act t s effect = .next u ∧ (u = effect (s.advance t) ∨ u = s.advance t) := by
  cases h : s.supplied
  · exact ⟨_, act_unsupplied h t effect, .inr rfl⟩
  · exact ⟨_, act_supplied h t effect, .inl rfl⟩

/-- A property that time passing and the effect keep is kept by the command. -/
theorem act_keeps {P : State → Prop} {t : Instant} {s u : State} {effect : State → State}
    (ht : P (s.advance t)) (he : P (s.advance t) → P (effect (s.advance t)))
    (h : act t s effect = .next u) : P u := by
  obtain ⟨v, hv, rfl | rfl⟩ := act_next t s effect <;> rw [hv] at h <;> cases h
  · exact he ht
  · exact ht

theorem unlessHeld_of_ne {s : State} (h : s.stc.state ≠ .unset) (effect : State → State) :
    s.unlessHeld effect = effect s := by simp [State.unlessHeld, State.heldBlocks, h]

theorem unlessHeld_of_unset {s : State} (h : s.stc.state = .unset) (effect : State → State) :
    s.unlessHeld effect = s := by simp [State.unlessHeld, State.heldBlocks, h]

/-! ### Effects without an order -/

theorem mem_insertions_perm {α : Type} (x : α) (l : List α) :
    ∀ o ∈ insertions x l, o.Perm (x :: l) := by
  induction l with
  | nil => simp [insertions]
  | cons y rest ih =>
    intro o ho
    simp only [insertions, List.mem_cons, List.mem_map] at ho
    obtain rfl | ⟨p, hp, rfl⟩ := ho
    · exact .refl _
    · exact ((ih p hp).cons y).trans (.swap x y rest)

/-- Every order of a list is a permutation of it. -/
theorem mem_orders_perm {α : Type} (l : List α) : ∀ o ∈ orders l, o.Perm l := by
  induction l with
  | nil => simp [orders]
  | cons x rest ih =>
    intro o ho
    simp only [orders, List.mem_flatMap] at ho
    obtain ⟨p, hp, ho⟩ := ho
    exact (mem_insertions_perm x p o ho).trans ((ih p hp).cons x)

/-- Effects without an order have the outcome of one of their orders, and may count one free choice. -/
theorem inAnyOrder_cases (effects : List (State → State)) (s : State) :
    ∃ o : List (State → State), o.Perm effects
      ∧ (inAnyOrder effects s = inOrder o s ∨ inAnyOrder effects s = (inOrder o s).countChoice) := by
  simp only [inAnyOrder]
  split
  · exact ⟨effects, .refl _, .inl rfl⟩
  · rw [List.getD_eq_getElem?_getD]
    generalize hk : Config.orderTaken s.choices % (outcomes effects s).length = k
    cases h : (outcomes effects s)[k]? with
    | none => exact ⟨effects, .refl _, .inr rfl⟩
    | some u =>
      obtain ⟨o, ho, rfl⟩ := List.mem_map.1 (List.mem_of_getElem? h)
      exact ⟨o, mem_orders_perm _ o ho, .inr rfl⟩

theorem inOrder_keeps {P : State → Prop} (effects : List (State → State))
    (he : ∀ f ∈ effects, ∀ s, P s → P (f s)) (s : State) (hs : P s) : P (inOrder effects s) := by
  induction effects generalizing s with
  | nil => exact hs
  | cons f rest ih =>
    exact ih (fun g hg => he g (List.mem_cons_of_mem _ hg)) (f s) (he f List.mem_cons_self s hs)

/-- A property that every effect keeps, and that the count of free choices does not touch, is kept by the
effects in any order. -/
theorem inAnyOrder_keeps {P : State → Prop} (effects : List (State → State))
    (hc : ∀ s, P s → P s.countChoice) (he : ∀ f ∈ effects, ∀ s, P s → P (f s)) (s : State) (hs : P s) :
    P (inAnyOrder effects s) := by
  obtain ⟨o, ho, h | h⟩ := inAnyOrder_cases effects s <;> rw [h]
  · exact inOrder_keeps o (fun f hf => he f (ho.mem_iff.1 hf)) s hs
  · exact hc _ (inOrder_keeps o (fun f hf => he f (ho.mem_iff.1 hf)) s hs)

/-! ### Ranges of a SETUP -/

theorem within_iff (lo hi x : Nat) : within lo hi x = true ↔ lo ≤ x ∧ x ≤ hi := by
  simp [within]

/-- A time setting is in range when bits 7 and 6 of its byte are clear. -/
theorem settingOk_iff (b : Byte) : settingOk b = true ↔ b.toNat < 64 := by
  have h : ∀ n, n < 256 → ((scaleOfCode (n / 16)).isSome = true ↔ n < 64) := by decide +kernel
  exact h _ b.isLt

/-! ### Sets and indexed lists -/

theorem mem_insertLevel (n m : Nat) (set : List Nat) : m ∈ insertLevel n set ↔ m = n ∨ m ∈ set := by
  induction set with
  | nil => simp [insertLevel]
  | cons x rest ih =>
    simp only [insertLevel]
    split
    · simp
    · split
      · subst_vars; simp
      · simp only [List.mem_cons, ih]; exact or_left_comm

@[simp] theorem mapFrom_length {α β : Type} (f : Nat → α → β) (start : Nat) (items : List α) :
    (mapFrom f start items).length = items.length := by
  induction items generalizing start with
  | nil => rfl
  | cons x rest ih => simp [mapFrom, ih]

theorem mapFrom_getElem? {α β : Type} (f : Nat → α → β) (start : Nat) (items : List α) (i : Nat) :
    (mapFrom f start items)[i]? = (items[i]?).map (f (start + i)) := by
  induction items generalizing start i with
  | nil => simp [mapFrom]
  | cons x rest ih =>
    cases i with
    | zero => simp [mapFrom]
    | succ i => simp [mapFrom, ih, ← Nat.add_assoc, Nat.add_right_comm]

/-- An item of a list changed by its index. -/
theorem itemAt_mapFrom {α β : Type} (f : Nat → α → β) (items : List α) (n : Nat) :
    itemAt (mapFrom f 1 items) n = (itemAt items n).map (f n) := by
  unfold itemAt
  split
  · rfl
  · rename_i h
    rw [mapFrom_getElem?, show 1 + (n - 1) = n by omega]

/-- An item of a list in which one item has been changed. -/
theorem itemAt_changeAt {α : Type} (f : α → α) (items : List α) (n k : Nat) :
    itemAt (changeAt f items n) k = (itemAt items k).map (fun x => if k = n then f x else x) := by
  rw [changeAt, itemAt_mapFrom]

@[simp] theorem changeAt_length {α : Type} (f : α → α) (items : List α) (n : Nat) :
    (changeAt f items n).length = items.length := by simp [changeAt]

theorem mem_mapFrom {α β : Type} {f : Nat → α → β} {items : List α} {start : Nat} {y : β}
    (h : y ∈ mapFrom f start items) : ∃ i, ∃ x ∈ items, y = f i x := by
  induction items generalizing start with
  | nil => simp [mapFrom] at h
  | cons x rest ih =>
    simp only [mapFrom, List.mem_cons] at h
    obtain rfl | h := h
    · exact ⟨start, x, List.mem_cons_self, rfl⟩
    · obtain ⟨i, z, hz, e⟩ := ih h
      exact ⟨i, z, List.mem_cons_of_mem _ hz, e⟩

end Sys2Proof.Machine
end

