-- ==== Sys2Proof/Laws/Line.lean ====
section
/-! SUPPORT. What the operations of the Group Line Interface do: the filter table, the queue, producing a
frame, and the checks on a good copy. -/

namespace Sys2Proof.Machine

/-! ### The filter table (R30) -/

/-- Looking up after a write: the written key holds the written instant, every other key stands. -/
theorem filterLookup_write (key other written : Nat) (table : List FilterEntry) :
    filterLookup other (filterWrite key written table)
      = if other = key then some written else filterLookup other table := by
  induction table with
  | nil => simp only [filterWrite, filterLookup]; grind
  | cons x rest ih =>
    simp only [filterWrite]
    split <;> (try split) <;> simp only [filterLookup, ih] <;> grind

theorem mem_filterWrite {key written : Nat} {table : List FilterEntry} {y : FilterEntry}
    (h : y ∈ filterWrite key written table) : y = ⟨key, written⟩ ∨ y ∈ table := by
  induction table with
  | nil => simpa [filterWrite] using h
  | cons x rest ih =>
    simp only [filterWrite] at h
    split at h
    · simp at h; grind
    · split at h
      · simp at h; grind
      · simp only [List.mem_cons] at h
        rcases h with h | h
        · grind
        · rcases ih h with h | h <;> grind

/-- A write keeps the table sorted by key, each key once. -/
theorem filterWrite_sorted (key written : Nat) {table : List FilterEntry}
    (h : table.Pairwise (fun x y => x.key < y.key)) :
    (filterWrite key written table).Pairwise (fun x y => x.key < y.key) := by
  induction table with
  | nil => simp [filterWrite]
  | cons x rest ih =>
    rw [List.pairwise_cons] at h
    simp only [filterWrite]
    split
    · rename_i hlt
      refine List.pairwise_cons.2 ⟨?_, List.pairwise_cons.2 h⟩
      intro y hy
      rcases List.mem_cons.1 hy with rfl | hy
      · exact hlt
      · exact Nat.lt_trans hlt (h.1 y hy)
    · split
      · rename_i heq
        exact List.pairwise_cons.2 ⟨fun y hy => heq ▸ h.1 y hy, h.2⟩
      · rename_i h1 h2
        refine List.pairwise_cons.2 ⟨fun y hy => ?_, ih h.2⟩
        rcases mem_filterWrite hy with rfl | hy
        · show x.key < key; omega
        · exact h.1 y hy

/-- A key names its sender and its sequence value. -/
theorem filterKey_inj {a b c d : Byte} (h : filterKey a b = filterKey c d) : a = c ∧ b = d := by
  simp only [filterKey] at h
  have := a.isLt; have := b.isLt; have := c.isLt; have := d.isLt
  constructor <;> apply BitVec.eq_of_toNat_eq <;> omega

/-! ### The queue (R23, R25) -/

/-- The heads that are too old leave, and the copy they leave at the head is not too old. -/
theorem withoutOldHeads_spec (clock : Nat) (l : List TxCopy) :
    ∃ gone, l = gone ++ withoutOldHeads clock l ∧ (∀ x ∈ gone, x.tooOld clock = true)
      ∧ ∀ x ∈ (withoutOldHeads clock l).head?, x.tooOld clock = false := by
  induction l with
  | nil => exact ⟨[], by simp [withoutOldHeads]⟩
  | cons c rest ih =>
    simp only [withoutOldHeads]
    split
    · rename_i h
      obtain ⟨g, h1, h2, h3⟩ := ih
      refine ⟨c :: g, by simp [← h1], ?_, h3⟩
      intro x hx
      rcases List.mem_cons.1 hx with rfl | hx
      · exact h
      · exact h2 x hx
    · rename_i h
      exact ⟨[], by simp, by simp, by simp [h]⟩

/-- The queue head judged under the lag limit: what leaves, what stays, and the drop count. -/
theorem LineState.judgeHead_spec (clock : Nat) (l : LineState) :
    ∃ gone kept, l.queue = gone ++ kept ∧ (∀ x ∈ gone, x.tooOld clock = true)
      ∧ (∀ x ∈ kept.head?, x.tooOld clock = false)
      ∧ l.judgeHead clock
        = { l with queue := kept, dropCount := min 65535 (l.dropCount + gone.length) } := by
  obtain ⟨g, h1, h2, h3⟩ := withoutOldHeads_spec clock l.queue
  refine ⟨g, _, h1, h2, h3, ?_⟩
  have : l.queue.length = g.length + (withoutOldHeads clock l.queue).length := by
    have := congrArg List.length h1
    rwa [List.length_append] at this
  simp only [LineState.judgeHead, count16By, this, Nat.add_sub_cancel]

/-! ### Copies on the line (R19, R20, R35) -/

/-- A copy on the line is its bytes with the preamble of seven and the start delimiter before them. -/
@[simp] theorem onLine_length (bytes : List Byte) : (onLine bytes).length = bytes.length + 8 := by
  simp [onLine, preamble]

/-- A copy in transmission is complete when its bytes and its start delimiter have taken 0.8 ticks each. -/
theorem Sending.finished_iff (clock : Nat) (x : Sending) :
    x.finished clock = true ↔ 4 * (x.bytes.length + 1) ≤ 5 * (clock - x.start) := by
  simp only [Sending.finished, lineTenths, onLine_length, preamble, List.length_replicate,
    decide_eq_true_eq]
  omega

/-- A line has been dark for a gap when its receiver says so and the gap has passed since the last light known
to have ended there. -/
theorem LineState.le_darkFor (clock gap dark : Nat) (l : LineState) :
    gap ≤ l.darkFor clock dark
      ↔ gap ≤ dark ∧ ∀ ended, l.lightEnd = some ended → gap ≤ clock - ended := by
  simp only [LineState.darkFor]
  cases l.lightEnd with
  | none => simp
  | some ended => simp only [Option.some.injEq, forall_eq']; exact Nat.le_min

/-- Carrier has been free for more than 100 ticks. -/
theorem LineState.lt_litMeasure (clock : Nat) (carrier : CarrierView) (l : LineState) :
    100 < l.litMeasure clock carrier
      ↔ l.sending = none ∧ carrier.inReception = false ∧ 100 < carrier.ticks ∧ l.litFrom + 100 < clock := by
  simp only [LineState.litMeasure]
  cases l.sending <;> cases carrier.inReception <;> simp
  omega

/-! ### Producing a frame (R22, R113) -/

/-- The copy that a frame produced now puts on each line. -/
def producedCopy (body : TxBody) (s : State) : TxCopy where
  sender := byteOf s.position
  seq := s.fic.seqCounter
  ref := match body with
    | .result _ => none
    | _ => some s.clock
  body := body

/-- Producing a frame takes the sequence counter and places one copy on each line; nothing else changes. -/
theorem produce_eq (body : TxBody) (s : State) :
    produce body s = { s with
      fic := { s.fic with seqCounter := s.fic.seqCounter + 1 }
      lineA := s.lineA.place s.clock (producedCopy body s)
      lineB := s.lineB.place s.clock (producedCopy body s) } := rfl

/-! ### The checks on a good copy (R26 to R33) -/

@[simp] theorem setLine_fromOwn (s : State) (l : Line) (x : LineState) (sender : Byte) :
    (s.setLine l x).fromOwn sender = s.fromOwn sender := by cases l <;> rfl

@[simp] theorem setFilter_fromOwn (s : State) (table : List FilterEntry) (sender : Byte) :
    (s.setFilter table).fromOwn sender = s.fromOwn sender := rfl

theorem setLine_line_same (s : State) (l : Line) : s.setLine l (s.line l) = s := by cases l <;> rfl

/-- A copy that the checks pass reaches its block, in the state that the reception leaves. -/
theorem receiveCopy_accepted {s : State} {rx : RxCopy} {fromPole : Bool} (h : s.accepts rx fromPole = true)
    (dispatch : State → State) : receiveCopy rx fromPole dispatch s = dispatch (s.received rx) := by
  simp only [State.accepts, Bool.and_eq_true, Bool.not_eq_true'] at h
  obtain ⟨⟨h1, h2⟩, h3⟩ := h
  simp [receiveCopy, judgeCopy, changeLine, h1, h3, State.isEcho, h2]
  cases (LineState.goodCopy s.clock (s.line rx.line)).echo <;> simp <;>
    obtain ⟨l, a, b, c⟩ := rx <;> cases l <;> rfl

/-- A COMMAND that reaches the Command Unit is taken in the state that the reception leaves. -/
theorem receiveCommand_reaches {t : Instant} {rx : RxCopy} {head : CmdHead} {s : State}
    (h : reachesCmu t rx head s = true) (take : State → State) :
    act t s (receiveCommand rx head take) = .next (take (s.at t rx)) := by
  simp only [reachesCmu, Bool.and_eq_true] at h
  obtain ⟨⟨h1, h2⟩, h3⟩ := h
  rw [act_supplied h1, receiveCommand, receiveCopy_accepted h2, ← State.at]
  have : (s.at t rx).addressed head = true := by
    simp only [State.addressed, State.at, State.received, State.heardOn, State.setFilter_position,
      State.setLine_position, State.advance_position]
    exact h3
  simp [this]

/-- A good copy leaves every block beyond the line, the filter and Station Control as it is, until it is
dispatched. -/
theorem State.received_eq (s : State) (rx : RxCopy) :
    s.received rx = { s with
      lineA := (s.received rx).lineA, lineB := (s.received rx).lineB
      filter := filterWrite (rx.sender.toNat * 256 + rx.seq.toNat) s.clock s.filter } := by
  simp only [State.received, State.heardOn]
  cases rx.line <;> rfl

/-! ### The state after a reception -/

@[simp] theorem State.received_clock (s : State) (rx : RxCopy) : (s.received rx).clock = s.clock := by
  simp [State.received, State.heardOn]
@[simp] theorem State.received_supplied (s : State) (rx : RxCopy) : (s.received rx).supplied = s.supplied := by
  simp [State.received, State.heardOn]
@[simp] theorem State.received_blockAsserted (s : State) (rx : RxCopy) : (s.received rx).blockAsserted = s.blockAsserted := by
  simp [State.received, State.heardOn]
@[simp] theorem State.received_firing (s : State) (rx : RxCopy) : (s.received rx).firing = s.firing := by
  simp [State.received, State.heardOn]
@[simp] theorem State.received_choices (s : State) (rx : RxCopy) : (s.received rx).choices = s.choices := by
  simp [State.received, State.heardOn]
@[simp] theorem State.received_stc (s : State) (rx : RxCopy) : (s.received rx).stc = s.stc := by
  simp [State.received, State.heardOn]
@[simp] theorem State.received_prl (s : State) (rx : RxCopy) : (s.received rx).prl = s.prl := by
  simp [State.received, State.heardOn]
@[simp] theorem State.received_vcm (s : State) (rx : RxCopy) : (s.received rx).vcm = s.vcm := by
  simp [State.received, State.heardOn]
@[simp] theorem State.received_lvt (s : State) (rx : RxCopy) : (s.received rx).lvt = s.lvt := by
  simp [State.received, State.heardOn]
@[simp] theorem State.received_fic (s : State) (rx : RxCopy) : (s.received rx).fic = s.fic := by
  simp [State.received, State.heardOn]
@[simp] theorem State.received_pst (s : State) (rx : RxCopy) : (s.received rx).pst = s.pst := by
  simp [State.received, State.heardOn]
@[simp] theorem State.received_orh (s : State) (rx : RxCopy) : (s.received rx).orh = s.orh := by
  simp [State.received, State.heardOn]
@[simp] theorem State.received_pmn (s : State) (rx : RxCopy) : (s.received rx).pmn = s.pmn := by
  simp [State.received, State.heardOn]
@[simp] theorem State.received_cmu (s : State) (rx : RxCopy) : (s.received rx).cmu = s.cmu := by
  simp [State.received, State.heardOn]
@[simp] theorem State.received_pending (s : State) (rx : RxCopy) : (s.received rx).pending = s.pending := by
  simp [State.received, State.heardOn]
@[simp] theorem State.received_now (s : State) (rx : RxCopy) : (s.received rx).now = s.now := by
  simp [State.received, State.heardOn]
@[simp] theorem State.received_cfg (s : State) (rx : RxCopy) : (s.received rx).cfg = s.cfg := by
  simp [State.received, State.heardOn]
@[simp] theorem State.received_group (s : State) (rx : RxCopy) : (s.received rx).group = s.group := by
  simp [State.received, State.heardOn]
@[simp] theorem State.received_position (s : State) (rx : RxCopy) : (s.received rx).position = s.position := by
  simp [State.received, State.heardOn]
@[simp] theorem State.received_heldBlocks (s : State) (rx : RxCopy) : (s.received rx).heldBlocks = s.heldBlocks := by
  simp [State.received, State.heardOn]
@[simp] theorem State.at_supplied (s : State) (t : Instant) (rx : RxCopy) : (s.at t rx).supplied = s.supplied := by
  simp [State.at]
@[simp] theorem State.at_blockAsserted (s : State) (t : Instant) (rx : RxCopy) : (s.at t rx).blockAsserted = s.blockAsserted := by
  simp [State.at]
@[simp] theorem State.at_choices (s : State) (t : Instant) (rx : RxCopy) : (s.at t rx).choices = s.choices := by
  simp [State.at]
@[simp] theorem State.at_stc (s : State) (t : Instant) (rx : RxCopy) : (s.at t rx).stc = s.stc := by
  simp [State.at]
@[simp] theorem State.at_prl (s : State) (t : Instant) (rx : RxCopy) : (s.at t rx).prl = s.prl := by
  simp [State.at]
@[simp] theorem State.at_vcm (s : State) (t : Instant) (rx : RxCopy) : (s.at t rx).vcm = s.vcm := by
  simp [State.at]
@[simp] theorem State.at_lvt (s : State) (t : Instant) (rx : RxCopy) : (s.at t rx).lvt = s.lvt := by
  simp [State.at]
@[simp] theorem State.at_fic (s : State) (t : Instant) (rx : RxCopy) : (s.at t rx).fic = s.fic := by
  simp [State.at]
@[simp] theorem State.at_pst (s : State) (t : Instant) (rx : RxCopy) : (s.at t rx).pst = s.pst := by
  simp [State.at]
@[simp] theorem State.at_pmn (s : State) (t : Instant) (rx : RxCopy) : (s.at t rx).pmn = s.pmn := by
  simp [State.at]
@[simp] theorem State.at_cmu (s : State) (t : Instant) (rx : RxCopy) : (s.at t rx).cmu = s.cmu := by
  simp [State.at]
@[simp] theorem State.at_pending (s : State) (t : Instant) (rx : RxCopy) : (s.at t rx).pending = s.pending := by
  simp [State.at]
@[simp] theorem State.at_cfg (s : State) (t : Instant) (rx : RxCopy) : (s.at t rx).cfg = s.cfg := by
  simp [State.at]
@[simp] theorem State.at_group (s : State) (t : Instant) (rx : RxCopy) : (s.at t rx).group = s.group := by
  simp [State.at]
@[simp] theorem State.at_position (s : State) (t : Instant) (rx : RxCopy) : (s.at t rx).position = s.position := by
  simp [State.at]
@[simp] theorem State.at_heldBlocks (s : State) (t : Instant) (rx : RxCopy) : (s.at t rx).heldBlocks = s.heldBlocks := by
  simp [State.at]
@[simp] theorem State.at_clock (s : State) (t : Instant) (rx : RxCopy) :
    (s.at t rx).clock = (s.advance t).clock := by simp [State.at]
@[simp] theorem State.at_firing (s : State) (t : Instant) (rx : RxCopy) : (s.at t rx).firing = [] := by
  simp [State.at]
@[simp] theorem State.at_now (s : State) (t : Instant) (rx : RxCopy) : (s.at t rx).now = t := by
  simp [State.at]
@[simp] theorem State.at_orh (s : State) (t : Instant) (rx : RxCopy) :
    (s.at t rx).orh = (s.advance t).orh := by simp [State.at]

/-! ### Fields on the line (section 11.1) -/

@[simp] theorem bigEndian_length (size value : Nat) : (bigEndian size value).length = size := by
  simp [bigEndian]

theorem laidOut_append (x y : List (Nat × Nat)) : laidOut (x ++ y) = laidOut x ++ laidOut y := by
  simp [laidOut]

/-- Laid-out fields take the sum of their sizes. -/
theorem laidOut_length (fields : List (Nat × Nat)) :
    (laidOut fields).length = (fields.map Prod.fst).sum := by
  simp [laidOut, List.length_flatMap]

/-- The bytes of a field of two, high byte first. -/
theorem bigEndian_two (n : Nat) : bigEndian 2 n = [BitVec.ofNat 8 (n / 256), BitVec.ofNat 8 n] := by
  simp [bigEndian, List.range, List.range.loop]

theorem bytes16_eq (w : BitVec 16) : bytes16 w = bigEndian 2 w.toNat := by
  rw [bigEndian_two, bytes16]
  congr 2 <;> (apply BitVec.eq_of_toNat_eq; simp [BitVec.extractLsb'_toNat, Nat.shiftRight_eq_div_pow])

theorem natBytes16_eq (n : Nat) : natBytes16 n = bigEndian 2 n := by
  rw [natBytes16, bytes16_eq, bigEndian_two, bigEndian_two, List.cons.injEq, List.cons.injEq]
  refine ⟨?_, ?_, rfl⟩ <;> apply BitVec.eq_of_toNat_eq <;> simp <;> omega

theorem natBytes24_eq (n : Nat) : natBytes24 n = bigEndian 3 n := by
  rw [natBytes24, natBytes16_eq]; rfl

theorem bytes32_eq (w : BitVec 32) : bytes32 w = bigEndian 4 w.toNat := by
  simp only [bytes32, bytes16_eq, bigEndian, List.range, List.range.loop, List.reverse_cons,
    List.reverse_nil, List.nil_append, List.cons_append, List.map_cons, List.map_nil, List.cons.injEq, and_true]
  refine ⟨?_, ?_, ?_, ?_⟩ <;> apply BitVec.eq_of_toNat_eq
    <;> simp [BitVec.extractLsb'_toNat, Nat.shiftRight_eq_div_pow] <;> omega

end Sys2Proof.Machine
end

