-- ==== Sys2Proof/Laws/Station.lean ====
section
/-! SUPPORT. What the transitions of Station Control do, and what they leave alone. -/

namespace Sys2Proof.Machine

/-- Everything that a transition of Station Control leaves alone: all but STC itself, the trains and survey
records of the PST, the CMU, and the queues and the sequence counter that the RESULT of an aborted survey
goes through. -/
def State.offStation (s : State) :=
  (s.clock, s.feeds, s.blockAsserted, s.firing, s.choices, s.filter, s.prl, s.vcm, s.lvt,
    { s.fic with seqCounter := 0 }, s.orh, s.pmn, s.pending)

theorem produce_offStation (body : TxBody) (s : State) : (produce body s).offStation = s.offStation := by
  simp [produce_eq, State.offStation]

/-- A survey that ends leaves only the CMU and the PST changed. -/
theorem endSurvey_offStation (s : State) : (endSurvey s).offStation = s.offStation := rfl

theorem abortSurvey_offStation (s : State) : (abortSurvey s).offStation = s.offStation := by
  unfold abortSurvey
  split
  · rfl
  · rw [produceResult, produce_offStation, endSurvey_offStation]

/-- After the exit from SYNCED no survey executes. -/
theorem abortSurvey_executing (s : State) : (abortSurvey s).cmu.executing = none := by
  unfold abortSurvey
  split
  · assumption
  · simp [produceResult, produce_eq, endSurvey]

theorem abortSurvey_stc (s : State) : (abortSurvey s).stc = s.stc := by
  unfold abortSurvey
  split
  · rfl
  · simp [produceResult, produce_eq, endSurvey]

theorem abortSurvey_train (s : State) : (abortSurvey s).pst.train = s.pst.train := by
  unfold abortSurvey
  split
  · rfl
  · simp [produceResult, produce_eq, endSurvey]

theorem abortSurvey_idle {s : State} (h : s.cmu.executing = none) : abortSurvey s = s := by
  simp [abortSurvey, h]

/-- A window record without a SURVEY window. -/
theorem withoutSurveyWindow_eq (w : Option AckWindow) :
    withoutSurveyWindow w = w.filter (fun w => decide (w.kind = .main ∨ w.kind = .pvf)) := by
  cases w with
  | none => rfl
  | some w => cases h : w.kind <;> simp [withoutSurveyWindow, h, Option.filter]

/-- A survey that ends leaves the CMU IDLE, no test and no SURVEY window. -/
theorem endSurvey_eq (s : State) : endSurvey s = s.withoutSurvey := by
  rw [endSurvey, withoutSurveyWindow_eq]; rfl

/-- What an exit from SYNCED does to a survey, as the statements say it. -/
theorem abortSurvey_eq (s : State) : abortSurvey s = s.aborted := by
  unfold abortSurvey State.aborted
  simp only [endSurvey_eq]
  cases s.cmu.executing <;> rfl

/-! ### Entering a state -/

/-- Entering a state: the state and the DARK timer. -/
theorem enterState_stc (new : StationState) (s : State) :
    (enterState new s).stc = { s.stc with state := new, darkTimer := none } := by
  simp only [enterState]
  split
  · rw [abortSurvey_stc]; rfl
  · rfl

theorem enterState_train (new : StationState) (s : State) :
    (enterState new s).pst.train = trainAfter s.stc.state new s.pst.train := by
  simp only [enterState]
  split
  · rw [abortSurvey_train]; rfl
  · rfl

theorem enterState_offStation (new : StationState) (s : State) :
    (enterState new s).offStation = s.offStation := by
  simp only [enterState]
  split
  · rw [abortSurvey_offStation]; rfl
  · rfl

/-- With no survey executing, entering a state changes STC and the trains and nothing else. -/
theorem enterState_idle {s : State} (h : s.cmu.executing = none) (new : StationState) :
    enterState new s = { s with
      stc := { s.stc with state := new, darkTimer := none }
      pst := { s.pst with train := trainAfter s.stc.state new s.pst.train } } := by
  simp only [enterState]
  split
  · rw [abortSurvey_idle (by simpa using h)]; rfl
  · rfl

/-- A survey that executes does not outlive the exit from SYNCED. -/
theorem enterState_executing {s : State} (h : s.stc.state = .synced) (new : StationState) :
    (enterState new s).cmu.executing = none := by
  simp only [enterState, h, if_true]
  exact abortSurvey_executing _

theorem enterTripped_stc (s : State) :
    (enterTripped s).stc = { s.stc with
      state := .tripped, darkTimer := none, tripCount := count16 s.stc.tripCount } := by
  simp only [enterTripped, State.setStc_stc, enterState_stc]

theorem enterTripped_offStation (s : State) : (enterTripped s).offStation = s.offStation :=
  enterState_offStation .tripped s

theorem enterListening_offStation (s : State) : (enterListening s).offStation = s.offStation := by
  simp only [enterListening]
  split
  · rw [enterTripped_offStation]; exact enterState_offStation .listening s
  · exact enterState_offStation .listening s

theorem evaluateDeblock_offStation (s : State) : (evaluateDeblock s).offStation = s.offStation := by
  simp only [evaluateDeblock]
  split
  · split
    · exact enterState_offStation _ s
    · split
      · exact enterState_offStation _ s
      · rfl
    · rfl
  · rfl

theorem startDarkTimer_offStation (s : State) : (startDarkTimer s).offStation = s.offStation := by
  unfold startDarkTimer; split <;> rfl

theorem enterSynced_offStation (s : State) : (enterSynced s).offStation = s.offStation := by
  have h : ∀ x : Stc, ((enterState .synced s).setStc x).offStation = s.offStation :=
    fun _ => enterState_offStation .synced s
  simp only [enterSynced]
  split
  · rw [enterListening_offStation, h]
  · split
    · rw [enterTripped_offStation, h]
    · rw [evaluateDeblock_offStation, startDarkTimer_offStation, h]

theorem leaveFiring_offStation (s : State) : (leaveFiring s).offStation = s.offStation := by
  unfold leaveFiring
  split
  · exact enterTripped_offStation s
  · exact enterSynced_offStation s

/-- An adoption reaches the station state and nothing beyond `offStation`. -/
theorem stcAdopt_offStation (s : State) : (stcAdopt s).offStation = s.offStation := by
  unfold stcAdopt
  split
  · exact evaluateDeblock_offStation s
  · split
    · rfl
    · split
      · exact enterState_offStation _ s
      · exact leaveFiring_offStation s
    · exact leaveFiring_offStation s
  · split
    · split
      · exact enterTripped_offStation s
      · exact enterState_offStation _ s
    · split
      · rfl
      · exact leaveFiring_offStation s
    · exact leaveFiring_offStation s
  · rfl

theorem stcConsumedChanged_offStation (old : Nat) (s : State) :
    (stcConsumedChanged old s).offStation = s.offStation := by
  unfold stcConsumedChanged
  split
  · exact enterTripped_offStation s
  · exact evaluateDeblock_offStation s

theorem stcClash_offStation (s : State) : (stcClash s).offStation = s.offStation := by
  simp only [stcClash]
  split
  · rfl
  · exact enterListening_offStation _
  · rfl
  · rfl
  · rfl

/-! ### Where the transitions lead -/

/-- Outside SYNCED, R10 is not evaluated. -/
theorem evaluateDeblock_of_ne {s : State} (h : s.stc.state ≠ .synced) : evaluateDeblock s = s := by
  simp [evaluateDeblock, h]

/-- R10 leads from SYNCED to SYNCED, RUNNING or BYPASSING. -/
theorem evaluateDeblock_state (s : State) :
    (evaluateDeblock s).stc.state = s.stc.state
      ∨ s.stc.state = .synced ∧ s.blockAsserted = false
        ∧ ((evaluateDeblock s).stc.state = .running ∨ (evaluateDeblock s).stc.state = .bypassing) := by
  simp only [evaluateDeblock]
  split
  · rename_i h
    have hb : s.blockAsserted = false := by simpa using h.2.1
    split
    · exact .inr ⟨h.1, hb, .inl (by rw [enterState_stc])⟩
    · split
      · exact .inr ⟨h.1, hb, .inr (by rw [enterState_stc])⟩
      · exact .inl rfl
    · exact .inl rfl
  · exact .inl rfl

/-- Entry into LISTENING ends there, or in TRIPPED with the consumed count above R. -/
theorem enterListening_state (s : State) :
    (enterListening s).stc.state = if s.overConsumed then .tripped else .listening := by
  have h : ∀ x : Stc, x.setup = s.stc.setup →
      ((enterState .listening s).setStc x).overConsumed = s.overConsumed := by
    intro x hx
    have hl : (enterState .listening s).lvt = s.lvt := by
      have := enterState_offStation .listening s
      simp only [State.offStation, Prod.mk.injEq] at this
      exact this.2.2.2.2.2.2.2.2.1
    simp only [State.overConsumed, State.cfg, State.setStc_stc, State.setStc_lvt, hl, hx]
    rfl
  simp only [enterListening]
  rw [h _ (by simp only [enterState_stc])]
  split
  · simp only [enterTripped_stc]
  · simp only [State.setStc_stc, enterState_stc]

end Sys2Proof.Machine
end

