-- ==== Sys2Proof/Laws/Levels.lean ====
section
/-! SUPPORT. What handing a condition to an alarm line and changing the level table do. -/

namespace Sys2Proof.Machine

/-! ### Alarm lines (R151 to R154) -/

theorem Pmn.setAlarm_line (p : Pmn) (name other : AlarmName) (x : AlarmLine) :
    (p.setAlarm name x).line other = if other = name then x else p.line other := by
  cases name <;> cases other <;> rfl

@[simp] theorem Pmn.setAlarm_same (p : Pmn) (name : AlarmName) : p.setAlarm name (p.line name) = p := by
  cases name <;> rfl

theorem AlarmLine.hand_condition (clock : Nat) (toAssert toRelease : TimeSetting) (condition : Bool)
    (x : AlarmLine) : (x.hand clock toAssert toRelease condition).condition = condition := by
  unfold AlarmLine.hand AlarmLine.rise AlarmLine.fall
  split
  · assumption
  · split
    · rename_i h; rw [h]; repeat' split
      all_goals rfl
    · rename_i h
      have : condition = false := by cases condition <;> simp_all
      rw [this]; repeat' split
      all_goals rfl

theorem AlarmLine.hand_override (clock : Nat) (toAssert toRelease : TimeSetting) (condition : Bool)
    (x : AlarmLine) : (x.hand clock toAssert toRelease condition).override = x.override := by
  unfold AlarmLine.hand AlarmLine.rise AlarmLine.fall
  repeat' split
  all_goals rfl

/-- The record of a line after a condition has been handed to it. -/
def handedLine (name : AlarmName) (condition : Bool) (s : State) : AlarmLine :=
  (s.pmn.line name).hand s.clock (s.cfg.assertDelay name) (s.cfg.releaseDelay name) condition

/-- Handing a condition changes the record of the one line and nothing else of the station. -/
theorem handCondition_eq (name : AlarmName) (condition : Bool) (s : State) :
    handCondition name condition s
      = { s with pmn := s.pmn.setAlarm name (handedLine name condition s) } := rfl

/-- The line that takes a condition holds it. -/
theorem handCondition_condition (name : AlarmName) (condition : Bool) (s : State) :
    ((handCondition name condition s).pmn.line name).condition = condition := by
  rw [handCondition_eq]
  show ((s.pmn.setAlarm name _).line name).condition = condition
  rw [Pmn.setAlarm_line, if_pos rfl, handedLine, AlarmLine.hand_condition]

/-- Every other line stands. -/
theorem handCondition_other {name other : AlarmName} (h : other ≠ name) (condition : Bool) (s : State) :
    (handCondition name condition s).pmn.line other = s.pmn.line other := by
  rw [handCondition_eq]
  show (s.pmn.setAlarm name _).line other = _
  rw [Pmn.setAlarm_line, if_neg h]

/-! ### The level table (R87 to R89) -/

/-- The state after the records have changed and before Station Control takes the consumed count. -/
def levelsSet (levels : List LevelRecord) (s : State) : State :=
  let s := s.setLvt (lvtOf s.cfg levels)
  let s := s.setVcm { s.vcm with
    fwdSet := heardOnly levels s.vcm.fwdSet, revSet := heardOnly levels s.vcm.revSet }
  let s := handCondition .tripRequest s.lvt.tripCondition s
  handCondition .redundancyLow s.lvt.redundancyLow s

/-- Records change in two steps: the table, the sets and the two conditions; then Station Control, when the
consumed count has changed. -/
theorem setLevels_eq (levels : List LevelRecord) (s : State) :
    setLevels levels s
      = if (levelsSet levels s).lvt.consumed = s.lvt.consumed then levelsSet levels s
        else stcConsumedChanged s.lvt.consumed (levelsSet levels s) := rfl

theorem levelsSet_eq (levels : List LevelRecord) (s : State) :
    levelsSet levels s = { s with
      lvt := lvtOf s.cfg levels
      vcm := { s.vcm with
        fwdSet := heardOnly levels s.vcm.fwdSet, revSet := heardOnly levels s.vcm.revSet }
      pmn := (levelsSet levels s).pmn } := rfl

theorem setLevels_offStation (levels : List LevelRecord) (s : State) :
    (setLevels levels s).offStation = (levelsSet levels s).offStation := by
  rw [setLevels_eq]
  split
  · rfl
  · exact stcConsumedChanged_offStation _ _

/-- The table after its records have changed is the one its records give. -/
theorem setLevels_lvt (levels : List LevelRecord) (s : State) :
    (setLevels levels s).lvt = lvtOf s.cfg levels := by
  have h := setLevels_offStation levels s
  simp only [State.offStation, Prod.mk.injEq] at h
  exact h.2.2.2.2.2.2.2.2.1

theorem setLevels_pmn (levels : List LevelRecord) (s : State) :
    (setLevels levels s).pmn = (levelsSet levels s).pmn := by
  have h := setLevels_offStation levels s
  simp only [State.offStation, Prod.mk.injEq] at h
  exact h.2.2.2.2.2.2.2.2.2.2.2.1

/-- The two conditions of the table stand in their alarm lines. -/
theorem setLevels_conditions (levels : List LevelRecord) (s : State) :
    (setLevels levels s).pmn.tripRequest.condition = (setLevels levels s).lvt.tripCondition
      ∧ (setLevels levels s).pmn.redundancyLow.condition = (setLevels levels s).lvt.redundancyLow := by
  rw [setLevels_pmn, setLevels_lvt]
  constructor
  · show ((levelsSet levels s).pmn.line .tripRequest).condition = _
    unfold levelsSet
    rw [handCondition_other (by decide), handCondition_condition]; rfl
  · show ((levelsSet levels s).pmn.line .redundancyLow).condition = _
    unfold levelsSet
    rw [handCondition_condition]; rfl

end Sys2Proof.Machine
end

