-- ==== Sys2Proof/Laws/Marks.lean ====
section
/-! SUPPORT. What taking a mark does, part by part, and what it leaves alone. -/

namespace Sys2Proof.Machine

/-! ### The parts of a mark -/

/-- Forming the report and the own entry changes the ORDER STALE flag, the roll, the queues, the sequence
counter and the two flags a mark carries. -/
theorem reportMark_eq (fired : Fired) (placing : Placing) (wasForward : Bool) (s : State) :
    ∃ report, report = (staleMark s).markReport fired placing wasForward
      ∧ reportMark fired placing wasForward s
        = clearSeenFlags (produce (.mark report)
            (writeOwnEntry report s.fic.seqCounter (countMissed (staleMark s)))) := ⟨_, rfl, rfl⟩

/-- The orders of a mark's hand-outs differ in the choices counted, but not in whether they keep a property
that each hand-out keeps. -/
theorem markHandouts_keeps {P : State → Prop} (placing : Placing) (refHeard : Bool)
    (hc : ∀ s, P s → P s.countChoice) (hj : ∀ s, P s → P (judgeMark placing refHeard s))
    (ha : ∀ s, P s → P (adopt s)) (hs : ∀ s, P s → P (countSurveyMark s))
    (ho : ∀ s, P s → P (offerOwnMark placing s)) (s : State) (h : P s) :
    P (markHandouts placing refHeard s) := by
  have hm : ∀ f ∈ [judgeMark placing refHeard]
      ++ (if s.vcm.valve = .dark then [adopt] else [])
      ++ (if s.cmu.executing.isSome then [countSurveyMark] else []), ∀ x, P x → P (f x) := by
    intro f hf x hx
    simp only [List.mem_append, List.mem_singleton] at hf
    rcases hf with (rfl | hf) | hf
    · exact hj x hx
    · split at hf
      · rw [List.mem_singleton.1 hf]; exact ha x hx
      · cases hf
    · split at hf
      · rw [List.mem_singleton.1 hf]; exact hs x hx
      · cases hf
  simp only [markHandouts]
  split
  · refine inAnyOrder_keeps _ hc ?_ s h
    intro f hf x hx
    rcases List.mem_append.1 hf with hf | hf
    · exact hm f hf x hx
    · rw [List.mem_singleton.1 hf]; exact ho x hx
  · exact ho _ (inAnyOrder_keeps _ hc hm s h)

/-- The judgement of a mark moves only Station Control and what `offStation` leaves out. -/
theorem judgeMark_offStation (placing : Placing) (refHeard : Bool) (s : State) :
    (judgeMark placing refHeard s).offStation = s.offStation := by
  have hr : ∀ x : State, (judgeRuns placing x).offStation = x.offStation := by
    intro x
    simp only [judgeRuns]
    split
    · unfold loseLattice
      split
      · exact enterListening_offStation _
      · split <;> rfl
    · split <;> rfl
  unfold judgeMark
  split
  · simp only [judgeListening]
    split <;> split <;> first | exact enterSynced_offStation _ | rfl
  · exact hr s
  · exact hr s
  · exact hr s
  · rfl

theorem countSurveyMark_offStation (s : State) : (countSurveyMark s).offStation = s.offStation := by
  unfold countSurveyMark
  split
  · rfl
  · simp only []
    split
    · rw [produceResult, produce_offStation, endSurvey_offStation]
    · rfl

/-! ### What no hand-out touches -/

/-- What neither the judgement of a mark, an adoption, the survey's count nor the period estimate touches. -/
def State.offHandouts (s : State) :=
  (s.clock, s.feeds, s.blockAsserted, s.firing, s.filter, s.prl.roll, s.vcm, s.lvt, s.pmn, s.pending)

theorem offHandouts_of_offStation {s u : State} (h : u.offStation = s.offStation) :
    u.offHandouts = s.offHandouts := by
  simp only [State.offStation, Prod.mk.injEq] at h
  simp only [State.offHandouts, Prod.mk.injEq]
  grind

theorem adopt_offHandouts (s : State) : (adopt s).offHandouts = s.offHandouts := by
  have hf : ∀ x : State, (forceBlock x).offHandouts = x.offHandouts := by
    intro x; unfold forceBlock; split <;> rfl
  have hr : ∀ x : State, (recomputeArmed x).offHandouts = x.offHandouts := by
    intro x
    unfold recomputeArmed
    split
    · rfl
    · split
      · simp only [countLate]; split <;> rfl
      · split <;> rfl
      · split <;> rfl
  have hfic : ∀ x : State, (ficAdopt x).offHandouts = x.offHandouts := by
    intro x
    simp only [ficAdopt]
    rw [hr]; split <;> rfl
  unfold adopt
  split
  · rfl
  · rw [hf, hfic, offHandouts_of_offStation (stcAdopt_offStation _)]; rfl

theorem offerOwnMark_offHandouts (placing : Placing) (s : State) :
    (offerOwnMark placing s).offHandouts = s.offHandouts := by
  have hj : ∀ n (x : State), (judgeSample n x).offHandouts = x.offHandouts := by
    intro n x; unfold judgeSample; split <;> rfl
  have ho : ∀ p t (x : State), (offerMark p t x).offHandouts = x.offHandouts := by
    intro p t x
    unfold offerMark
    simp only []
    split
    · rfl
    · split
      · split
        · exact hj _ x
        · rfl
      · rfl
  exact ho _ _ s

/-- The hand-outs of a mark leave the clock, the supply, the pulses, the filter, the roll, the valve, the
levels, the PMN and the waiting commands alone. -/
theorem markHandouts_offHandouts (placing : Placing) (refHeard : Bool) (s : State) :
    (markHandouts placing refHeard s).offHandouts = s.offHandouts :=
  markHandouts_keeps (P := fun u => u.offHandouts = s.offHandouts) placing refHeard
    (fun u h => by rw [← h]; rfl)
    (fun u h => by rw [← h]; exact offHandouts_of_offStation (judgeMark_offStation placing refHeard u))
    (fun u h => by rw [← h]; exact adopt_offHandouts u)
    (fun u h => by rw [← h]; exact offHandouts_of_offStation (countSurveyMark_offStation u))
    (fun u h => by rw [← h]; exact offerOwnMark_offHandouts placing u) s rfl

end Sys2Proof.Machine
end

