-- ==== Sys2Proof/Laws/Time.lean ====
section
/-! SUPPORT. Boundaries of a scale (R176) and the clamp (R96). -/

namespace Sys2Proof.Machine

theorem Scale.ticks_pos (scale : Scale) : 0 < scale.ticks := by cases scale <;> decide

/-- The next boundary lies after the instant it is counted from. -/
theorem lt_nextBoundary (scale : Scale) (clock : Nat) : clock < nextBoundary scale clock := by
  have hr : clock % 4294967296 < 4294967296 := Nat.mod_lt _ (by decide)
  have hle : clock % 4294967296 ≤ clock := Nat.mod_le _ _
  have hm : clock % 4294967296 < (clock % 4294967296 / scale.ticks + 1) * scale.ticks := by
    have := Nat.lt_div_mul_add (a := clock % 4294967296) scale.ticks_pos
    rwa [Nat.succ_mul]
  simp only [nextBoundary]
  split <;> omega

/-- Each boundary lies after the one before. -/
theorem boundaryAfter_ge (scale : Scale) (n clock : Nat) : clock + n ≤ boundaryAfter scale n clock := by
  induction n generalizing clock with
  | zero => exact Nat.le_refl _
  | succ n ih =>
    have := ih (nextBoundary scale clock)
    have := lt_nextBoundary scale clock
    simp only [boundaryAfter]
    omega

/-- A timer never expires at its start. -/
theorem lt_timerExpiry (setting : TimeSetting) (clock : Nat) : clock < timerExpiry setting clock := by
  have := boundaryAfter_ge setting.scale (setting.factor + 1) clock
  unfold timerExpiry
  omega

/-- The boundaries of the 1-tick scale are the ticks. -/
theorem nextBoundary_us1 (clock : Nat) : nextBoundary .us1 clock = clock + 1 := by
  have hle : clock % 4294967296 ≤ clock := Nat.mod_le _ _
  simp [nextBoundary, Scale.ticks]
  omega

/-- A clamped value lies in its range. -/
theorem clampInt_bounds {lo hi : Int} (h : lo ≤ hi) (x : Int) :
    lo ≤ clampInt lo hi x ∧ clampInt lo hi x ≤ hi := by
  unfold clampInt
  split
  · omega
  · split <;> omega

end Sys2Proof.Machine
end

