-- ==== Sys2Proof/Tests/Slice0.lean ====
section
/-! SUPPORT. Tests: ill-formed commands are refused by WellFormed; numbers that the spec prints; one or two
small steps per command; and, for every statement with hypotheses, states that meet them. -/

namespace Sys2Proof.Tests

open Sys2Proof Sys2Proof.Machine

-- one test after the other: in parallel, their checks wait for each other in many threads
set_option Elab.async false

/-! ### Small states -/

/-- An instant. -/
def tick (n : Nat) : Instant := BitVec.ofNat 32 n

/-- The SETUP of the tests: L = 8, R = 1, quorums of 3, Q_pf = 2. -/
def fields : SetupFields where
  levels := 8
  redundancy := 1
  qf := 3
  qr := 3
  qpf := 2
  alphaMin := 500
  alphaMaxR := 16000
  alphaMaxI := 16000
  gammaCrit := 1200
  acf := 1200
  ncf := 4
  gammaDeadband := 50
  latticeDeadband := 20
  linkLatency := 3
  refire := 0x29
  ackWindow := 0x19
  prfGather := 0x24
  window := 2
  prfLimit := 3
  tripAssert := 0x22
  tripRelease := 0x3F
  redAssert := 0x22
  redRelease := 0x3F
  cfAssert := 0x22
  cfRelease := 0x3F
  prfAssert := 0x22
  prfRelease := 0x3F

/-- A station at position 1 that has adopted the SETUP of the tests, at 1,000,000 ticks, in a state, with the
block line released. -/
def ready (state : StationState) : State :=
  { State.reset with
    clock := 1000000
    blockAsserted := false
    stc := { State.reset.stc with state := state, setup := some (setupOf fields) }
    lvt := Lvt.formed (setupOf fields)
    pmn := { Pmn.powerOn with ring := [0, 0] } }

/-- `s` with its valve in a state, V_f and F at 995,000 and E at 998,000. -/
def valveIn (valve : ValveState) (s : State) : State :=
  s.setVcm { s.vcm with
    valve := valve
    vf := if valve = .dark then none else some (tick 995000)
    f := some (tick 995000), e := some (tick 998000)
    noExtinction := if valve = .conducting then some 995000 else none
    inactivity := some 995000 }

/-- An own mark at 980,000 from a source that stands in the own entry. -/
def markedBy (source : Source) (s : State) : State :=
  writeOwnEntry
    { fired := .main, source := source, station := .running
      flags := ⟨false, false, false, false, false, false, false⟩
      healthA := .good, healthB := .good, consumed := 0, alpha := none, gamma := none, mu := none
      orderSeq := none } 0 { s with clock := 980000 } |> fun u => { u with clock := s.clock }

/-- `s` with an own mark of source GROUP. -/
def marked (s : State) : State := markedBy .group s

/-- An armed mark at `m` with a target of 1,500 cdeg, by a placing. -/
def placedAt (m : Nat) (placing : Placing) : ArmedMark := { m := tick m, alphaT := 1500, placing }

/-- A LOCAL mark at `m`. -/
def markAt (m : Nat) : ArmedMark := placedAt m .localVoltage

/-- `s` with a mark armed. -/
def armed (m : Nat) (s : State) : State := s.setFic { s.fic with armed := some (markAt m) }

/-- `s` with a mark armed by a placing. -/
def armedBy (placing : Placing) (s : State) : State :=
  s.setFic { s.fic with armed := some (placedAt 1001000 placing) }

/-- `s` with a deferral that waits. -/
def deferred (m : Nat) (s : State) : State := s.setFic { s.fic with deferral := some (markAt m) }

/-- A copy on line A from a sender, complete at 1,000,020. -/
def copyFrom (sender : Byte) : RxCopy := { line := .a, arrival := tick 1000000, sender, seq := 7 }

/-- `s` with an order pending that has a block state and a bypass position. -/
def ordered (blockState : BlockState) (bypass : Byte) (s : State) : State :=
  s.setOrh { s.orh with pending := some ⟨some 5, .rectifier, blockState, some bypass, 2000, 1800⟩ }

/-- `s` with a count of consumed levels. -/
def consuming (n : Nat) (s : State) : State := s.setLvt { s.lvt with consumed := n }

/-- `s` with an ACK window of a kind open on level 2 until an expiry. -/
def windowed (kind : WindowKind) (expiry : Nat) (s : State) : State :=
  s.setPst { s.pst with window := some ⟨kind, [2], [], expiry⟩ }

/-- The copy of a COMMAND or ORDER. -/
def rx : RxCopy := copyFrom 0

/-- The head of a COMMAND to every station. -/
def head : CmdHead := { target := 15, tag := 9 }

/-- The instant at which the copies are complete. -/
def t : Instant := tick 1000020

/-- The next state of a command. -/
def after (c : Instr) (s : State) : State :=
  match exec c s with
  | .next u => u
  | .fault _ => State.reset
  | .refused _ => State.reset

/-- The queue of line A after a command, as the bodies that wait. -/
def waiting (s : State) : List TxBody := s.lineA.queue.map TxCopy.body

/-- A MARK from a peer: fired MAIN, source GROUP, station RUNNING, no angles. -/
def peerMark : MarkFields where
  fired := 1
  lag := 12
  source := 0
  station := 3
  flags := ⟨false, false, false, false, false, false, false⟩
  healthA := 0
  healthB := 0
  consumed := 0
  alpha := 65535
  gamma := 65535
  mu := 65535
  orderSeq := none

/-- An ORDER: RECTIFIER, DEBLOCK. -/
def order : OrderFields where
  orderSeq := 5
  mode := 1
  blockState := 2
  bypass := 0
  alphaOrder := 2000
  gammaOrder := 1800

/-- A copy of a frame that waits, produced at a count of the clock. -/
def copyOfEvent (ref : Nat) : TxCopy := { sender := 1, seq := 3, ref := some ref, body := .event .noExtinction }

/-- A RESULT that waits. -/
def copyOfResult : TxCopy :=
  { sender := 1, seq := 4, ref := none
    body := .result { tag := 1, code := 4, completion := .done, detail := .none, data := [] } }

/-- `s` with line A changed. -/
def onLineA (f : LineState → LineState) (s : State) : State := s.setLine .a (f s.lineA)

/-- A survey that executes, on the levels 2 to 4. -/
def surveying (s : State) : State :=
  s.setCmu { executing := some (SurveyRecord.start head 2 4) }

/-- `s` with level `n` in a state. -/
def levelIn (n : Nat) (state : LevelState) (s : State) : State :=
  s.setLvt { s.lvt with levels := changeAt (fun x => { x with state := state, fwdMiss := 3 }) s.lvt.levels n }

/-! ### WellFormed refuses what no event can be -/

theorem test_ill_formed_refused :
    ([ .setup t { rx with arrival := tick 1000030 } head fields,
       .survey t rx { head with target := 13 } 1 4,
       .readLevels t rx { head with target := 0 } 1 4,
       .readRoll t { rx with arrival := t } head,
       .readHolds t rx { head with target := 14 },
       .clearLevelOne t rx { head with target := 200 } 1,
       .clearLevelAll t { rx with arrival := tick 1000021 } head,
       .clearHolds t rx { head with target := 0 },
       .forceOutputs t rx { head with target := 16 } 1,
       .releaseOutputs t rx { head with target := 13 } 1,
       .restart t { rx with arrival := t } head,
       .unknownCommand t rx head 11,
       .markFrame t { rx with arrival := t } peerMark,
       .eventFrame t { rx with arrival := t } ⟨0, 1, 1⟩,
       .orderFrame t { rx with arrival := t } order,
       .resultFrame t { rx with arrival := t },
       .badCopy t .a (withCheck [3, 10, 0, 7, 5, 1, 2, 0, 0x07, 0xD0, 0x07, 0x08]) false,
       .blockLineAsserted t 19, .blockLineReleased t 19,
       .litEntry t .a ⟨100, false⟩, .litEntry t .a ⟨101, true⟩, .filterEntryExpiry t 13 0,
       .fwdIndication t 0, .revIndication t 97, .prfIndication t 0, .ackIndication t 97,
       .commandOtherTarget t rx head ] : List Instr).all (fun c => !wellFormed c) = true := by decide +kernel

theorem test_well_formed_taken :
    ([ .setup t rx head fields, .survey t rx { head with target := 12 } 1 4, .unknownCommand t rx head 12,
       .unknownCommand t rx head 0, .markFrame t rx peerMark, .badCopy t .a [9] true,
       .blockLineAsserted t 20, .blockLineReleased t 20, .litEntry t .a ⟨101, false⟩,
       .filterEntryExpiry t 12 0, .fwdIndication t 1, .revIndication t 96,
       .commandOtherTarget t rx { head with target := 2 } ] : List Instr).all wellFormed = true := by
  decide +kernel

/-! ### Numbers that the spec prints -/

/-- Conventions, the table of conversions at T_est = 20,000. -/
theorem test_conversions :
    ticksAt 20000 3000 = 1667 ∧ ticksAt 20000 200 = 111 ∧ ticksAt 20000 (-50) = -28
      ∧ cdegAt 20000 7803 = 14045 := by decide +kernel

/-- R96: the steps at G = 12, and truncation toward zero. -/
theorem test_steps_and_truncation :
    (1 * ticksAt 20000 3000, 2 * ticksAt 20000 3000, 3 * ticksAt 20000 3000) = (1667, 3334, 5001)
      ∧ halfTowardZero (-17) = -8 ∧ halfTowardZero 17 = 8 := by decide +kernel

/-- R21: the nine bytes 49 to 57 give the code 10,673. -/
theorem test_check_sequence : crc16 [49, 50, 51, 52, 53, 54, 55, 56, 57] = 10673 := by decide +kernel

/-- Sections 7.7 and 9.7: the expiries of four timers. -/
theorem test_timer_expiries :
    timerExpiry (settingOf 0x24) 5006130 = 5006600 ∧ timerExpiry (settingOf 0x19) 5006314 = 5006410
      ∧ timerExpiry (settingOf 0x22) 7021730 = 7022000
      ∧ timerExpiry (settingOf 0x3F) 7050400 = 7066000 := by decide +kernel

/-- R176: the boundary at the wrap follows the one before after 16, 196 or 1,296 ticks. -/
theorem test_boundaries_at_the_wrap :
    nextBoundary .us10 4294967280 = 4294967296 ∧ nextBoundary .us100 4294967100 = 4294967296
      ∧ nextBoundary .ms1 4294966000 = 4294967296 ∧ nextBoundary .us1 4294967295 = 4294967296 := by
  decide +kernel

/-- R88: the table of effective quorums, L = 24, Q_f = 22, Q_r = 20. -/
theorem test_effective_quorums :
    [0, 2, 3, 5, 24].map (fun n => (effectiveQuorum 22 24 n, effectiveQuorum 20 24 n))
      = [(22, 20), (22, 20), (21, 20), (19, 19), (1, 1)] := by decide +kernel

/-- R89: the table of conditions. -/
theorem test_redundancy_low :
    [(2, 1), (2, 2), (2, 3), (0, 0), (0, 1)].map (fun p => redundancyLowAt p.1 p.2)
      = [false, true, false, false, true] := by decide +kernel

/-- A station whose INVERTER order, mu hold and advance count are given, with g_min as its own gamma. -/
def inverter (alphaOrder gammaOrder muHold : Nat) (gMin : Option Nat) (count : Nat) : State :=
  let s := ready .running
  let s := s.setOrh { s.orh with current :=
    { s.orh.current with mode := .inverter, alphaOrder := alphaOrder, gammaOrder := gammaOrder } }
  let s := s.setVcm { s.vcm with
    muHold := muHold, gamma := gMin.map (fun g => { angle := g, instant := tick 999000 }) }
  s.setFic { s.fic with advanceCount := count }

/-- R99: the table of target angles. -/
theorem test_target_angles :
    [inverter 15000 1800 2000 (some 1650) 0, inverter 15000 1800 2000 (some 1760) 0,
      inverter 15000 1800 2000 none 0, inverter 15000 1800 2000 (some 1650) 3,
      inverter 13500 1800 2000 (some 1650) 0, inverter 15000 6000 6000 (some 300) 3].map State.alphaTarget
      = [14050, 14200, 14200, 12850, 13500, 500] := by decide +kernel

/-- Section 6.9, steps 1 and 3: the corrections of −1,170 and −950 cdeg both meet the slew limit. -/
theorem test_slew_limit :
    let s := (ready .running).setPrl { (ready .running).prl with tEst := 19991 }
    ticksAt 19991 (-1170) = -650 ∧ s.correction (-1170) = -111 ∧ s.correction (-950) = -111 := by
  decide +kernel

/-- R132: the results of a survey window for level 9. -/
theorem test_survey_results :
    [[9], [], [14], [9, 14], insertLevel 9 [9]].map (surveyResultOf 9)
      = [.ok, .noAck, .cross, .cross, .ok] := by decide +kernel

/-- Section 1.3 and R4: a SETUP in range, and the first field out of range. -/
theorem test_first_bad_field :
    firstBadField fields = none ∧ firstBadField { fields with levels := 7, redundancy := 9 } = some 1
      ∧ firstBadField { fields with redundancy := 2 } = some 2
      ∧ firstBadField { fields with window := 3 } = some 18
      ∧ firstBadField { fields with prfRelease := 0x40 } = some 27 := by decide +kernel

/-- R174: the data of READ HOLDS has 101 bytes, of READ ROLL 4 + 19 × G, of READ LEVELS 4 + 3 × count. -/
theorem test_data_sizes :
    (ready .running).holdsData.length = 101 ∧ (ready .running).rollData.length = 232
      ∧ ((ready .running).levelsData 3 4).length = 16 := by decide +kernel

/-! ### Bytes of frames, written out from chapter 11 -/

/-- R172 to R174: an ORDER, a MARK, an EVENT and a COMMAND, each from its bytes. -/
theorem test_frames_read :
    decodeCopy 1 t .a (tick 1000000)
        (withCheck [3, 10, 0, 7, 5, 1, 2, 0, 0x07, 0xD0, 0x07, 0x08]) false = .orderFrame t rx order
    ∧ decodeCopy 1 t .a (tick 1000000)
        (withCheck [1, 16, 4, 7, 0x10, 0x0C, 0x03, 0x00, 0x00, 0x00, 0xFF, 0xFF, 0xFF, 0xFF, 0xFF, 0xFF, 0, 0])
        false = .markFrame t (copyFrom 4) peerMark
    ∧ decodeCopy 1 t .a (tick 1000000) (withCheck [2, 6, 4, 7, 0x00, 0x0C, 1, 2]) false
        = .eventFrame t (copyFrom 4) ⟨12, 1, 2⟩
    ∧ decodeCopy 1 t .a (tick 1000000) (withCheck [4, 7, 0, 7, 15, 9, 2, 1, 4]) false
        = .survey t rx head 1 4
    ∧ decodeCopy 1 t .a (tick 1000000) (withCheck [4, 5, 0, 7, 2, 9, 11]) false
        = .commandOtherTarget t rx { head with target := 2 } := by decide +kernel

/-- R26: a wrong check, a wrong length, an unknown kind and a cut copy are bad. -/
theorem test_bad_copies :
    copyIsBad [2, 6, 4, 7, 0x00, 0x0C, 1, 2, 0, 0] false = true
      ∧ copyIsBad (withCheck [2, 5, 4, 7, 0x00, 0x0C, 1]) false = true
      ∧ copyIsBad (withCheck [6, 6, 4, 7, 0x00, 0x0C, 1, 2]) false = true
      ∧ copyIsBad (withCheck [2, 6, 4, 7, 0x00, 0x0C, 1, 2]) true = true
      ∧ copyIsBad (withCheck [2, 6, 4, 7, 0x00, 0x0C, 1, 2]) false = false := by decide +kernel

/-- The table gives no bits: no word spells a command, and a fetch word changes nothing. -/
theorem test_no_table_word : decodeTableWord 8 17 = none ∧ State.reset.withFetchWord 8 17 = State.reset := by
  decide +kernel


/-! ### Small steps and states that meet the hypotheses

Each `witness_<Statement>` shows states and operands that meet the hypotheses of that statement, clause by
clause, at a boundary value where a clause has one. -/

/-- The strap wires of position 1 in a group of twelve at 50 Hz. -/
def wires : StrapWires := ⟨1, true, false⟩

/-- The station before a SETUP. -/
def unsetStation : State := { State.reset with clock := 1000000 }

/-- The station with a conducting valve and a train of re-fire pulses due. -/
def refiring (expiry : Nat) : State :=
  let s := valveIn .conducting (ready .running)
  s.setPst { s.pst with train := .refire expiry }

/-- The station in BYPASSING, in the pair its order names, with its train due. -/
def bypassing (expiry : Nat) : State :=
  let s := ready .bypassing
  let s := s.setPst { s.pst with train := .bypass expiry }
  s.setOrh { s.orh with current := { s.orh.current with blockState := .bypass, bypass := some 1 } }

/-- The current order says DEBLOCK. -/
def deblocked (s : State) : State :=
  s.setOrh { s.orh with current := { s.orh.current with blockState := .deblock } }

theorem witness_StepTakesTheFront :
    ((ready .running).setPending [.orderStale t, .markEvent t]).pending = .orderStale t :: [.markEvent t]
      ∧ (ready .running).pending = [] := by decide +kernel

theorem test_step_takes_the_front :
    step ((ready .running).setPending [.litEnd t .a, .markEvent t])
      = .next (((ready .running).setPending [.markEvent t]).advance t) := rfl

theorem witness_StrapsAndSetupHeld :
    isPower (.orderStale t) = false
      ∧ exec (.orderStale t) (ready .running) = .next (after (.orderStale t) (ready .running))
      ∧ (ready .running).stc.state ≠ .unset := ⟨rfl, rfl, by decide +kernel⟩

theorem witness_UnsetHoldsTheBlocks :
    let u := unsetStation
    let c : Instr := .setup t rx head fields
    let d : Instr := .readRoll t rx head
    (exec c u = .next (after c u) ∧ exec d u = .next (after d u))
      ∧ u.stc.state = .unset ∧ (after c u).stc.state ≠ .unset ∧ isPower d = false
      ∧ u.pst.train = .stopped ∧ u.fic.deferral = none ∧ (after d u).stc.state = .unset
      ∧ (after d u).fic.seqCounter = 1 := ⟨⟨rfl, rfl⟩, by decide +kernel⟩

theorem witness_SupplyLossAsserts :
    let s := ready .running
    let v := after (.supplyLoss t ⟨⟨false, false⟩, wires⟩) s
    v.supplied = false ∧ isPower (.markEvent t) = false
      ∧ (s.supplied = true ∧ (after (.supplyLoss t ⟨⟨false, true⟩, wires⟩) s).supplied = true)
      ∧ (after (.supplyLoss t ⟨⟨true, false⟩, wires⟩) v).stc.state = .unset
      ∧ (after (.powerOnReset t wires) v).supplied = true := by decide +kernel

theorem witness_PowerOnValues :
    let v := (ready .running).setFeeds ⟨false, false⟩
    v.supplied = false ∧ (after (.supplyLoss t ⟨⟨false, true⟩, wires⟩) v).feeds = ⟨false, true⟩
      ∧ (after (.supplyLoss t ⟨⟨true, true⟩, wires⟩) v).supplied = true := by decide +kernel

/-- R1: position 7 in a group of six sets STRAP ERROR, and position 12 in a group of twelve does not. -/
theorem test_power_on :
    (after (.powerOnReset t ⟨7, false, true⟩) (ready .running)).stc.strapError = true
      ∧ (after (.powerOnReset t ⟨12, true, true⟩) (ready .running)).stc.strapError = false
      ∧ (after (.powerOnReset t ⟨12, true, true⟩) (ready .running)).prl.tEst = 16667 := by
  decide +kernel

theorem witness_surveyOk_idle (state : StationState) : SurveyOk (ready state) := by
  intro v hv; simp [ready, State.reset, State.powerOn] at hv

theorem witness_BlockLineAsserted :
    let s := ready .running
    let d := deferred 1000010 s
    let lost (run : Nat) := d.setStc { d.stc with syncLost := true, goodRun := run }
    (s.supplied = true ∧ s.blockAsserted = false ∧ 20 ≤ 20 ∧ s.fic.deferral = none
        ∧ (after (.blockLineAsserted t 20) s).stc.state = .synced
        ∧ (after (.blockLineAsserted t 20) (consuming 2 s)).stc.state = .tripped
        ∧ (after (.blockLineAsserted t 20) (ready .listening)).stc.state = .listening)
      ∧ (d.supplied = true ∧ d.blockAsserted = false ∧ d.cmu.executing = none
        ∧ d.fic.deferral.isSome = true ∧ d.fic.armed = none ∧ d.stc.state = .running
        ∧ (d.entry d.position).isSome = true ∧ (valveIn .reverse d).vcm.valve ≠ .dark)
      ∧ (¬ d.cfg.redundancy < (consuming 1 d).lvt.consumed ∧ d.stc.syncLost = false)
      ∧ d.cfg.redundancy < (consuming 2 d).lvt.consumed
      ∧ ((lost 6).stc.goodRun < 7 ∧ ¬ (lost 7).stc.goodRun < 7)
      ∧ 19 < 20 ∧ after (.blockLineAsserted t 19) s = s.advance t
      ∧ (s.setBlock true).blockAsserted = true := by decide +kernel

theorem witness_BlockLineReleased :
    let s := (deblocked (ready .synced)).setBlock true
    s.supplied = true ∧ s.blockAsserted = true ∧ 20 ≤ 20
      ∧ (after (.blockLineReleased t 20) s).stc.state ≠ s.stc.state ∧ s.cmu.executing = none
      ∧ s.pst.train = .stopped
      ∧ (after (.blockLineReleased t 20) ((ready .synced).setBlock true)).stc.state = .synced
      ∧ (ready .synced).blockAsserted = false ∧ 19 < 20 := by decide +kernel

/-- A filter entry 64,000 ticks old still holds, and one tick later it does not. -/
theorem witness_AcceptedCopy :
    let s := ready .running
    s.accepts (copyFrom 4) false = true ∧ s.clock ≤ s.clock + 64000
      ∧ filterHolds (s.clock + 64000) (filterKey 4 7) (s.received (copyFrom 4)).filter = true
      ∧ filterHolds (s.clock + 64001) (filterKey 4 7) (s.received (copyFrom 4)).filter = false
      ∧ ((4 : Byte), (8 : Byte)) ≠ ((4 : Byte), (7 : Byte)) := by decide +kernel

/-- An own copy whose echo is 200 ticks old; one tick later it is a clash. -/
theorem witness_DroppedCopies :
    let s := ready .running
    let echoed (at_ : Nat) := onLineA (fun l => { l with echo := some ⟨7, at_⟩ }) s
    let known := s.setFilter [⟨filterKey 4 7, 999000⟩]
    (foreignCopy s.group false 13 = true ∧ foreignCopy s.group false 12 = false
        ∧ foreignCopy s.group false 0 = true ∧ foreignCopy s.group false 4 = false
        ∧ foreignCopy s.group true 1 = true ∧ foreignCopy s.group true 0 = false)
      ∧ ((echoed 999800).line .a).echo.any (fun p => decide (p.seq = 7)
          && decide (s.clock - p.completed ≤ 200)) = true
      ∧ ((echoed 999799).line .a).echo.any (fun p => decide (p.seq = 7)
          && decide (s.clock - p.completed ≤ 200)) = false
      ∧ filterHolds known.clock (filterKey 4 7) known.filter = true
      ∧ foreignCopy s.group false 1 = false ∧ filterHolds s.clock (filterKey 1 7) s.filter = false
      ∧ decide ((1 : Byte).toNat = s.position) = true := by decide +kernel

theorem witness_ClashActs :
    ((ready .synced).stc.strapError = false ∧ unsetStation.stc.strapError = false)
      ∧ (ready .listening).stc.state = .listening ∧ (ready .synced).stc.state = .synced
      ∧ (ready .running).stc.state = .running ∧ (ready .bypassing).stc.state = .bypassing
      ∧ unsetStation.stc.state = .unset ∧ (ready .tripped).stc.state = .tripped
      ∧ (stcClash (consuming 1 (ready .synced))).stc.state = .listening
      ∧ (stcClash (surveying (consuming 2 (ready .synced)))).stc.state = .tripped
      ∧ (waiting (stcClash (surveying (ready .synced)))).length = 1 := by decide +kernel

theorem witness_CountedNotHandedOn :
    let s := ready .running
    s.supplied = true ∧ (s.advance t).accepts (copyFrom 4) false = true
      ∧ (s.advance t).accepts rx true = true ∧ (2 : Byte) ≠ 15 ∧ (2 : Byte).toNat ≠ s.position := by
  decide +kernel

theorem witness_BadCopyCounts :
    (ready .running).supplied = true ∧ copyIsBad [9] false = true
      ∧ ((after (.badCopy t .a [9] false) (ready .running)).lineA).errorScore = 4 := by decide +kernel

theorem witness_EnqueueRule :
    let l := (ready .running).lineA
    let full := { l with queue := [copyOfEvent 999000, copyOfResult, copyOfEvent 999500, copyOfResult] }
    let events := { l with queue := List.replicate 4 (copyOfEvent 999000) }
    ({ l with lit := true } : LineState).lit = true
      ∧ (l.lit = false ∧ l.queue.length < 4)
      ∧ (full.lit = false ∧ 4 ≤ full.queue.length ∧ copyOfResult.hasLag = false)
      ∧ (4 ≤ events.queue.length ∧ ∀ x ∈ events.queue, x.hasLag = true)
      ∧ ((copyOfEvent 1000000).hasLag = true
        ∧ full.queue = [copyOfEvent 999000] ++ copyOfResult :: [copyOfEvent 999500, copyOfResult]
        ∧ copyOfResult.hasLag = false ∧ ∀ x ∈ [copyOfEvent 999000], x.hasLag = true) := by
  decide +kernel

/-- The gap of position 1 is 13 ticks, and a lag of 4,095 ticks may still be stamped. -/
theorem witness_TransmissionStarts :
    let s (ref : Nat) := onLineA (fun l => { l with queue := [copyOfEvent ref, copyOfResult] }) (ready .running)
    let r := (s 0).advance t
    let ended (at_ : Nat) := onLineA (fun l => { l with lightEnd := some at_ }) (s 995925)
    (s 0).supplied = true ∧ (s 0).lineA.queue = copyOfEvent 0 :: [copyOfResult]
      ∧ (s 0).lineA.sending = none ∧ (s 0).lineA.lit = false ∧ 10 + 3 * (s 0).position ≤ 13
      ∧ (s 0).lineA.lightEnd = none
      ∧ ((ended 1000007).lineA.lightEnd = some 1000007 ∧ 1000007 + 13 ≤ r.clock
        ∧ r.clock < 1000008 + 13)
      ∧ (copyOfEvent 995925).age r.clock < 4096
      ∧ ((copyOfEvent 995924).hasLag = true ∧ 4096 ≤ (copyOfEvent 995924).age r.clock)
      ∧ copyOfResult.hasLag = false ∧ (ready .running).lineA.queue = [] ∧ 12 < 10 + 3 * (s 0).position
      ∧ (after (.transmissionStart t .a 13) (ended 1000007)).lineA.sending.isSome = true
      ∧ (after (.transmissionStart t .a 13) (ended 1000008)).lineA.sending = none
      ∧ ((after (.transmissionStart t .a 13) (s 995925)).lineA.sending.map Sending.bytes
          = some (withCheck [2, 6, 1, 3, 0x0F, 0xFF, 1, 2])) := by decide +kernel

/-- A frame of 10 bytes with its start delimiter takes 8.8 ticks: 8 are not enough and 9 are. -/
theorem witness_TransmissionCompletes :
    let sending : Sending := ⟨copyOfEvent 0, 1000011, List.replicate 10 0⟩
    let s := onLineA (fun l => { l with sending := some sending }) (ready .running)
    s.supplied = true ∧ s.lineA.sending = some sending
      ∧ 4 * (sending.bytes.length + 1) ≤ 5 * ((s.advance t).clock - sending.start)
      ∧ 5 * ((s.advance (tick 1000019)).clock - sending.start) < 4 * (sending.bytes.length + 1)
      ∧ (after (.transmissionComplete t .a) s).lineA.lightEnd = some 1000020
      ∧ (after (.transmissionComplete (tick 1000019) .a) s).lineA.sending = some sending
      ∧ (ready .running).lineA.sending = none := by decide +kernel

/-- R19: the next copy starts at the earliest one gap, 13 ticks, after the own one has ended. -/
theorem test_gap_after_own_copy :
    let sending : Sending := ⟨copyOfEvent 0, 1000000, List.replicate 10 0⟩
    let s := onLineA (fun l => { l with sending := some sending, queue := [copyOfResult] }) (ready .running)
    let ended := after (.transmissionComplete t .a) s
    (after (.transmissionStart (tick 1000032) .a 4000) ended).lineA.sending = none
      ∧ (after (.transmissionStart (tick 1000033) .a 4000) ended).lineA.sending.isSome = true := by
  decide +kernel

theorem witness_LagLimitRemoves :
    let s := onLineA (fun l => { l with queue := [copyOfEvent 995924, copyOfEvent 995925] }) (ready .running)
    s.supplied = true
      ∧ (after (.lagLimitRemoval t .a) s).lineA.queue = [copyOfEvent 995925] := by decide +kernel

/-- Carrier that has been free for 101 ticks, since the line's last own or received copy as well. -/
theorem witness_LitEntersAndEnds :
    let s (start : Nat) := onLineA (fun l => { l with litFrom := start }) (ready .running)
    let lit := onLineA (fun l => { l with lit := true, silence := none }) (s 0)
    let r := (s 0).advance t
    ((s 0).supplied = true ∧ (s 0).lineA.lit = false ∧ (s 0).lineA.sending = none ∧ 100 < 101
        ∧ (s 999919).lineA.litFrom + 100 < r.clock ∧ r.clock ≤ (s 999920).lineA.litFrom + 100)
      ∧ 100 ≤ 100 ∧ lit.supplied = true ∧ lit.lineA.lit = true
      ∧ (after (.litEntry t .a ⟨101, false⟩) (s 999919)).lineA.lit = true
      ∧ (after (.litEntry t .a ⟨101, false⟩) (s 999920)).lineA.lit = false
      ∧ (after (.litEntry t .a ⟨101, true⟩) (s 0)).lineA.lit = false := by decide +kernel

/-- Twice T_est is 40,000 ticks; an echo lasts 200 and a filter entry 64,000. -/
theorem witness_LineTimersExpire :
    let s := ready .running
    let r := s.advance t
    let silent (n : Nat) := onLineA (fun l => { l with silence := some n }) s
    let echoed (n : Nat) := onLineA (fun l => { l with echo := some ⟨7, n⟩ }) s
    s.supplied = true ∧ (silent 960019).lineA.silence = some 960019
      ∧ 2 * s.prl.tEst < r.clock - 960019 ∧ ¬ 2 * s.prl.tEst < r.clock - 960020
      ∧ (echoed 999819).lineA.echo = some ⟨7, 999819⟩
      ∧ 200 < r.clock - 999819 ∧ ¬ 200 < r.clock - 999820
      ∧ (after (.filterEntryExpiry t 4 7) (s.setFilter [⟨filterKey 4 7, 936019⟩])).filter = []
      ∧ (after (.filterEntryExpiry t 4 7) (s.setFilter [⟨filterKey 4 7, 936020⟩])).filter.length = 1 := by
  decide +kernel

theorem test_line_timers :
    let s := ready .running
    let silent (n : Nat) := onLineA (fun l => { l with silence := some n }) s
    let echoed (n : Nat) := onLineA (fun l => { l with echo := some ⟨7, n⟩ }) s
    (after (.silenceTimerExpiry t .a) (silent 960019)).lineA.health = .dead
      ∧ (after (.silenceTimerExpiry t .a) (silent 960020)).lineA.health = .good
      ∧ (after (.echoMiss t .a) (echoed 999819)).lineA.errorScore = 4
      ∧ (after (.echoMiss t .a) (echoed 999820)).lineA.errorScore = 0
      ∧ (after (.litEntry t .a ⟨101, false⟩) s).lineA.health = .lit
      ∧ (after (.litEnd t .a) (after (.litEntry t .a ⟨101, false⟩) s)).lineA.health = .good := by decide +kernel

/-! ### Frames -/

/-- The report of the peer's MARK. -/
def peerReport : MarkReport where
  fired := .main
  source := .group
  station := .running
  flags := peerMark.flags
  healthA := .good
  healthB := .good
  consumed := 0
  alpha := none
  gamma := none
  mu := none
  orderSeq := none

/-- `s` with a report of a position that holds a mark instant. -/
def heldAt (position m : Nat) (s : State) : State :=
  let record : RollReport :=
    { markInstant := tick m, acceptInstant := tick m, seq := 0, report := peerReport }
  s.setPrl { s.prl with roll := changeAt (fun x => { x with held := some record }) s.prl.roll position }

/-- `s` with a report of position 4 that holds a mark instant. -/
def heldMark (m : Nat) (s : State) : State := heldAt 4 m s

/-- `s` with the last arrival of a position at an instant. -/
def arrived (position m : Nat) (s : State) : State :=
  s.setPrl { s.prl with lastArrival := some { position, instant := tick m } }

/-- The mark instant of the peer's MARK is 999,985: the arrival at 1,000,000 less the lag 12 and the latency
3. It is later than 999,984 and not than itself. -/
theorem witness_MarkWritten :
    let s := heldMark 999984 (ready .running)
    let mark := (copyFrom 4).arrival - peerMark.lag.setWidth 32 - BitVec.ofNat 32 s.cfg.linkLatency
    s.supplied = true ∧ (s.advance t).accepts (copyFrom 4) false = true ∧ s.stc.state ≠ .unset
      ∧ (s.entry 4).isSome = true ∧ reportOf peerMark = some peerReport
      ∧ peerMark.alpha.toNat = 65535 ∧ peerMark.gamma.toNat = 65535 ∧ peerMark.mu.toNat = 65535
      ∧ peerMark.consumed.toNat ≤ 96 ∧ mark = tick 999985
      ∧ later mark (tick 999984) = true
      ∧ ((ready .running).entry 4).map RollEntry.held = some none := by decide +kernel

/-- From position 2 to position 4 lie two places, so an interval of 3,340 ticks gives a sample of
12 × 3,340 / 2 = 20,040, and T_est moves by 40 / 16 = 2. A MARK of position 12 hands its entry to position 1. -/
theorem witness_MarkWritten_sample :
    let s (position : Nat) (at_ : Nat) := (ready .running).setPrl
      { (ready .running).prl with lastArrival := some ⟨position, tick at_⟩ }
    let send (sender : Byte) (s : State) := after (.markFrame t (copyFrom sender) peerMark) s
    let m := marked (ready .running)
    (s 2 996645).prl.lastArrival = some ⟨2, tick 996645⟩
      ∧ (send 4 (s 2 996645)).prl.tEst = 20002 ∧ (send 4 (s 12 996645)).prl.tEst = 20000
      ∧ (later (tick 999985) (tick 999985) = false ∧ later (tick 999985) (tick 999984) = true)
      ∧ (send 4 (s 2 999985)).prl.lastArrival = some ⟨2, tick 999985⟩
      ∧ ((1 + 12 - 1 - 1) % 12 + 1 = 12 ∧ (1 + 12 - 3 - 1) % 12 + 1 = 10)
      ∧ (m.ownReport.map RollReport.markInstant = some (tick 980000)
        ∧ later (tick 999985) (tick 980000) = true ∧ later (tick 999985) t = false)
      ∧ (send 12 m).fic.armed.isSome = true ∧ (send 10 m).fic.armed.isSome = true
      ∧ (send 9 m).fic.armed = none := by decide +kernel

theorem test_mark_frame_at_its_limits :
    let s := heldMark 999984 (ready .running)
    let m := { peerMark with alpha := 36000, consumed := 96 }
    (after (.markFrame t (copyFrom 4) m) s).prl.marksRefused = 0
      ∧ ((after (.markFrame t (copyFrom 4) m) s).entry 4).bind (fun x => x.held.map RollReport.markInstant)
        = some (tick 999985)
      ∧ (after (.markFrame t (copyFrom 4) { m with alpha := 36001 }) s).prl.marksRefused = 1
      ∧ (after (.markFrame t (copyFrom 4) { m with consumed := 97 }) s).prl.marksRefused = 1 := by
  decide +kernel

theorem witness_MarkRefused :
    let s := heldMark 999985 (ready .running)
    let mark := (copyFrom 4).arrival - peerMark.lag.setWidth 32 - BitVec.ofNat 32 s.cfg.linkLatency
    s.supplied = true ∧ (s.advance t).accepts (copyFrom 4) false = true ∧ s.stc.state ≠ .unset
      ∧ (s.entry 4).isSome = true ∧ (s.entry 4).map RollEntry.missed = some 0
      ∧ later mark (tick 999985) = false ∧ 6 < (7 : BitVec 4).toNat ∧ 2 < (3 : BitVec 4).toNat
      ∧ (0 : BitVec 4).toNat = 0 ∧ 5 < (6 : BitVec 4).toNat
      ∧ (36000 < (36001 : BitVec 16).toNat ∧ (36001 : BitVec 16).toNat ≠ 65535)
      ∧ 96 < (97 : Byte).toNat := by decide +kernel

theorem witness_EventWritten :
    let s := ready .running
    s.supplied = true ∧ (s.advance t).accepts (copyFrom 4) false = true ∧ s.stc.state ≠ .unset
      ∧ (s.entry 4).isSome = true
      ∧ ((after (.eventFrame t (copyFrom 4) ⟨0, 2, 0⟩) s).entry 4).map RollEntry.lastEvent
        = some (some .protectiveFire)
      ∧ ((after (.eventFrame t (copyFrom 4) ⟨0, 1, 3⟩) s).entry 4).map RollEntry.lastEvent
        = some none := by decide +kernel

theorem witness_OrderTaken :
    let s := ready .running
    s.supplied = true ∧ (s.advance t).accepts rx true = true ∧ s.stc.state ≠ .unset
      ∧ order.mode.toNat = Mode.rectifier.code ∧ order.blockState.toNat = BlockState.deblock.code
      ∧ BlockState.deblock ≠ .bypass
      ∧ (after (.orderFrame t rx { order with blockState := 3, bypass := 12 }) s).orh.refused = 0
      ∧ (after (.orderFrame t rx { order with blockState := 3, bypass := 13 }) s).orh.refused = 1
      ∧ ((3 : Byte) ≠ 1 ∧ (3 : Byte) ≠ 2) ∧ ((4 : Byte) ≠ 1 ∧ (4 : Byte) ≠ 2 ∧ (4 : Byte) ≠ 3)
      ∧ s.group < (13 : Byte).toNat := by decide +kernel

/-! ### Maintenance commands -/

theorem witness_CommandRefused :
    let s := surveying (ready .synced)
    let c : Instr := .readRoll t rx head
    commandOf c = some (rx, head, 4) ∧ wellFormed c = true
      ∧ reachesCmu (instantOf c) rx head s = true ∧ refusalOf c 4 (s.at t rx) = some .busy
      ∧ reachesCmu t rx head (ready .running) = true ∧ (ready .running).stc.strapError = false
      ∧ (0 : Byte).toNat = 0 ∧ 11 < (12 : Byte).toNat
      ∧ waiting (after (.unknownCommand t rx head 12) (ready .running))
        = [.result ⟨9, 12, .refused, .unknown, []⟩] := by decide +kernel

theorem test_refusals :
    refusalOf (.survey t rx head 1 8) 2 ((valveIn .forward (ready .running)).at t rx) = some .state
      ∧ refusalOf (.survey t rx head 1 8) 2 ((valveIn .dark (ready .synced)).at t rx) = some .state
      ∧ refusalOf (.survey t rx head 1 8) 2 ((valveIn .forward (ready .synced)).at t rx) = none
      ∧ refusalOf (.survey t rx head 1 9) 2 ((valveIn .forward (ready .synced)).at t rx) = some .argument
      ∧ refusalOf (.restart t rx head) 11 ((surveying (ready .synced)).at t rx) = none := by decide +kernel

theorem witness_SetupRefusedWhole :
    let s := unsetStation
    reachesCmu t rx head s = true ∧ s.stc.strapError = false ∧ s.cmu.executing = none
      ∧ s.stc.state = .unset ∧ firstBadField { fields with levels := 97 } = some 1
      ∧ (1 ≤ 27 ∧ firstBadField { fields with prfRelease := 0x40 } = some 27) := by decide +kernel

theorem witness_SetupAdopted :
    let s := unsetStation
    reachesCmu t rx head s = true ∧ s.stc.strapError = false ∧ s.cmu.executing = none
      ∧ s.stc.state = .unset ∧ firstBadField fields = none
      ∧ (after (.setup t rx head fields) s).stc.state = .listening := by decide +kernel

theorem witness_SurveyTaken :
    let s := valveIn .forward (ready .synced)
    reachesCmu t rx head s = true ∧ s.stc.strapError = false ∧ s.cmu.executing = none
      ∧ s.stc.state = .synced ∧ s.vcm.valve ≠ .dark ∧ 1 ≤ (1 : Byte).toNat
      ∧ (1 : Byte).toNat ≤ (8 : Byte).toNat ∧ (8 : Byte).toNat ≤ s.cfg.levels := by decide +kernel

theorem witness_ReadsAnswered :
    let s := ready .running
    reachesCmu t rx head s = true ∧ s.stc.strapError = false ∧ s.cmu.executing = none
      ∧ s.stc.state ≠ .unset ∧ 1 ≤ (8 : Byte).toNat ∧ 1 ≤ (1 : Byte).toNat ∧ (1 : Byte).toNat ≤ 16
      ∧ (8 : Byte).toNat + (1 : Byte).toNat ≤ s.cfg.levels + 1
      ∧ s.lvt.levels.length = s.cfg.levels ∧ s.prl.roll.length = s.group := by decide +kernel

theorem test_reads :
    waiting (after (.readLevels t rx head 8 1) (ready .running))
        = [.result ⟨9, 3, .done, .none, [8, 1, 0, 0, 0x00, 0, 0]⟩]
      ∧ (waiting (after (.readHolds t rx head) (ready .running))).length = 1
      ∧ (waiting (after (.readRoll t rx head) unsetStation)).length = 1 := by decide +kernel

theorem witness_levelsOk (state : StationState) : LevelsOk (ready state) := by
  refine ⟨?_, ?_⟩
  · intro r hr
    have : r = { state := .normal, fwdMiss := 0, ackMiss := 0, prfCount := 0, seen := false, lastSurvey := none } :=
      List.eq_of_mem_replicate (n := 8) hr
    subst this
    exact ⟨by decide, rfl, rfl⟩
  · cases state <;> (show _ ∧ _; decide +kernel)

theorem witness_LevelsCleared :
    let s := ready .synced
    reachesCmu t rx head s = true ∧ s.stc.strapError = false ∧ s.cmu.executing = none
      ∧ s.stc.state = .synced ∧ (ready .listening).stc.state = .listening
      ∧ (ready .tripped).stc.state = .tripped ∧ (ready .listening).stc.state ≠ .synced
      ∧ 1 ≤ (8 : Byte).toNat ∧ (8 : Byte).toNat ≤ s.cfg.levels := by decide +kernel

theorem test_clears :
    let s := levelIn 3 .silent (ready .tripped)
    (itemAt (after (.clearLevelOne t rx head 3) s).lvt.levels 3).map LevelRecord.state = some .normal
      ∧ (itemAt (after (.clearLevelOne t rx head 2) s).lvt.levels 3).map LevelRecord.state = some .silent
      ∧ (itemAt (after (.clearLevelAll t rx head) s).lvt.levels 3).map LevelRecord.fwdMiss = some 0
      ∧ (after (.clearHolds t rx head) (s.setPmn { s.pmn with gammaMin := some 1700 })).pmn.gammaMin = none := by
  decide +kernel

/-- 11.3: a SUSPECT record with an ack miss count of 2 reads 0x48, and an EMPTY roll entry has its three angles
absent, 0xFFFF each. -/
theorem test_read_layout :
    (⟨.suspect, 0, 2, 5, false, some .noAck⟩ : LevelRecord).bytes = [0x48, 5, 2]
      ∧ (⟨none, 255, some .noExtinction⟩ : RollEntry).bytes
        = [0, 0x20] ++ List.replicate 8 0 ++ List.replicate 6 0xFF ++ [0, 0, 255]
      ∧ laidOut [(1, 5), (3, 40001), (2, 65535)] = [5, 0x00, 0x9C, 0x41, 0xFF, 0xFF] := by decide +kernel

/-- 0x66 names all four lines, ON and OFF in turn: 2, 1, 2, 1. -/
theorem witness_MonitorCommandsCarried :
    let s := ready .running
    reachesCmu t rx head s = true ∧ s.stc.strapError = false ∧ s.cmu.executing = none
      ∧ s.stc.state ≠ .unset ∧ (0x66 : Byte).toNat ≠ 0
      ∧ (∀ n ∈ alarmNames, forceField 0x66 n ≠ 3) ∧ 1 ≤ (15 : Byte).toNat ∧ (15 : Byte).toNat < 16
      ∧ alarmNames.map (after (.forceOutputs t rx head 0x66) s).alarmOutput = [false, true, false, true]
      ∧ alarmNames.map (after (.releaseOutputs t { rx with seq := 8 } head 15) (after (.forceOutputs t rx head 0x66) s)).alarmOutput
        = [false, false, false, false] := by decide +kernel

theorem witness_RestartCarried :
    let s := surveying (ready .synced)
    reachesCmu t rx head s = true ∧ s.stc.strapError = false ∧ s.stc.state ≠ .unset
      ∧ 1 ≤ s.cfg.prfLimit ∧ (after (.restart t rx head) s).stc.state = .listening
      ∧ (after (.restart t rx head) s).cmu.executing = none := by decide +kernel

/-! ### Level indications -/

/-- `s` with a forward and a reverse set that lack one level of their quorum of 3. -/
def nearQuorum (s : State) : State := s.setVcm { s.vcm with fwdSet := [1, 2], revSet := [1, 2] }

theorem witness_IndicationsJoin :
    let s := ready .running
    let q := levelIn 8 .silent s
    s.supplied = true ∧ unsetStation.stc.state = .unset ∧ s.cfg.levels < 9
      ∧ (s.stc.state ≠ .unset ∧ 1 ≤ 8 ∧ 8 ≤ s.cfg.levels ∧ q.levelState 8 = some .silent)
      ∧ s.levelState 8 ≠ some .silent
      ∧ (insertLevel 8 [1]).length < s.lvt.qfEff ∧ (insertLevel 8 [1]).length < s.lvt.qrEff
      ∧ (valveIn .forward s).vcm.valve = .forward ∧ (valveIn .recovering s).vcm.valve = .recovering := by
  decide +kernel

/-- The quorum is reached by the third level. Gamma is 1,199 cdeg after 666 ticks and 1,201 after 667. -/
theorem witness_ForwardEntered :
    let d := nearQuorum (valveIn .dark (ready .listening))
    let s := nearQuorum (valveIn .recovering (ready .running))
    let fly := armedBy .flywheel
    let v := nearQuorum (valveIn .reverse (surveying (ready .synced)))
    let e (ticks : Nat) := after (.fwdIndication t 8) (s.setVcm { s.vcm with e := some (tick (1000020 - ticks)) })
    (d.supplied = true ∧ d.stc.state ≠ .unset ∧ 8 ≤ d.cfg.levels ∧ d.levelState 8 ≠ some .silent
        ∧ d.vcm.valve = .dark ∧ d.lvt.qfEff = (insertLevel 8 d.vcm.fwdSet).length
        ∧ d.fic.deferral = none ∧ d.fic.armed = none ∧ d.orh.pending = none)
      ∧ (s.supplied = true ∧ s.stc.state ≠ .unset ∧ s.levelState 8 ≠ some .silent
        ∧ s.vcm.valve = .recovering ∧ s.lvt.qfEff ≤ (insertLevel 8 s.vcm.fwdSet).length
        ∧ (armed 1001000 s).fic.deferral = none ∧ (armed 1001000 s).orh.pending = none)
      ∧ ((fly d).fic.armed = some (placedAt 1001000 .flywheel)
        ∧ (after (.fwdIndication t 8) (fly d)).fic.armed.map ArmedMark.placing = some .localVoltage
        ∧ ((markedBy .flywheel s).ownReport.map (fun x => x.report.source) = some .flywheel
          ∧ (after (.fwdIndication t 8) (fly (markedBy .flywheel s))).fic.armed.map ArmedMark.placing
            = some .localVoltage)
        ∧ (after (.fwdIndication t 8) (fly (marked s))).fic.armed.map ArmedMark.placing = some .flywheel)
      ∧ ((e 666).vcm.shortCount = 1 ∧ waiting (e 666) = [.event .recoveryShort] ∧ (e 667).vcm.shortCount = 0)
      ∧ (v.cmu.executing.isSome = true ∧ v.pst.window = none
        ∧ (after (.fwdIndication t 8) v).pst.surveyTest = some ⟨2, t⟩
        ∧ (after (.fwdIndication t 8) (windowed .main 1000400 v)).pst.surveyTest = some ⟨2, t⟩
        ∧ (after (.fwdIndication t 8) (windowed (.survey 2) 1000400 v)).pst.surveyTest = none)
      ∧ (ordered .deblock 0 d).orh.pending.isSome = true := by decide +kernel

/-- A deferral that waits at an entry into FORWARD: with no order or DEBLOCK, with BLOCK, and with BYPASS in the
pair of the own position and outside it. -/
theorem witness_ForwardEntered_deferral :
    let d := nearQuorum (valveIn .reverse (deferred 1000010 (ready .running)))
    let b (bypass : Byte) := ordered .bypass bypass d
    (d.fic.deferral = some (markAt 1000010) ∧ d.fic.armed = none ∧ d.stc.state = .running
        ∧ d.blockAsserted = false ∧ (d.entry d.position).isSome = true ∧ d.orh.pending = none)
      ∧ (ordered .deblock 0 d).orh.pending.map Order.blockState = some .deblock
      ∧ (ordered .block 0 d).orh.pending.map Order.blockState = some .block
      ∧ (b 1).orh.pending.map (b 1).inPairOf = some true
      ∧ (b 2).orh.pending.map (b 2).inPairOf = some false
      ∧ (after (.fwdIndication t 8) d).fic.deferral = some (markAt 1000010) := by decide +kernel

/-- The limit of a deferral of M = 998,353 is the instant t of the quorum, and that of 998,354 the tick after it.
The valve at position 5 takes over from the one at position 1, four places on. -/
theorem witness_ReverseQuorumReached :
    let s (valve : ValveState) := nearQuorum (valveIn valve (ready .running))
    let d (m : Nat) := nearQuorum (deferred m (marked (valveIn .forward (ready .running))))
    let peer (m : Nat) := heldAt 5 m (s .conducting)
    (s .conducting).supplied = true ∧ (s .conducting).stc.state ≠ .unset ∧ 8 ≤ (s .conducting).cfg.levels
      ∧ (s .conducting).levelState 8 ≠ some .silent
      ∧ (s .conducting).lvt.qrEff = (insertLevel 8 (s .conducting).vcm.revSet).length
      ∧ (s .conducting).vcm.valve = .conducting
      ∧ ((s .forward).vcm.valve = .forward ∧ (s .forward).fic.deferral = none)
      ∧ (s .dark).vcm.valve = .dark
      ∧ ((d 998353).vcm.valve = .forward ∧ (d 998353).fic.deferral = some (markAt 998353)
        ∧ (d 998353).fic.armed = none ∧ (d 998353).stc.state = .running ∧ (d 998353).blockAsserted = false
        ∧ ((d 998353).entry (d 998353).position).isSome = true
        ∧ later (instantPlus (tick 998353) (ticksAt (d 998353).prl.tEst 3000)) t = false
        ∧ later (instantPlus (tick 998354) (ticksAt (d 998354).prl.tEst 3000)) t = true)
      ∧ (after (.revIndication t 8) (d 998353)).fic.forcedCount = 1
      ∧ (after (.revIndication t 8) (d 998354)).fic.deferral = some (markAt 998354)
      ∧ ((peer 995001).takeOver = some (tick 995001) ∧ (peer 995000).takeOver = none)
      ∧ (after (.revIndication t 8) (s .conducting)).vcm.valve = .recovering
      ∧ (after (.revIndication t 8) (s .forward)).vcm.valve = .reverse
      ∧ (after (.revIndication t 8) (s .dark)).vcm.valve = .reverse := by decide +kernel

theorem witness_PrfTaken :
    let s := valveIn .forward (ready .running)
    let g := s.setPst { s.pst with gather := some ⟨[1], 1000100⟩ }
    let d := valveIn .reverse (deferred 1000010 g)
    s.supplied = true ∧ s.stc.state ≠ .unset ∧ 8 ≤ s.cfg.levels ∧ [8].length < s.cfg.qpf
      ∧ ¬ ((valveIn .conducting s).vcm.valve = .dark ∨ (valveIn .conducting s).vcm.valve = .forward
        ∨ (valveIn .conducting s).vcm.valve = .reverse)
      ∧ (g.vcm.valve = .forward ∧ g.cfg.qpf = (insertLevel 8 [1]).length ∧ g.fic.deferral = none
        ∧ g.pst.window = none ∧ g.cmu.executing = none ∧ (windowed .pvf 1000400 g).pst.window.isSome = true)
      ∧ (d.vcm.valve = .reverse ∧ d.pst.gather = some ⟨[1], 1000100⟩ ∧ d.fic.deferral.isSome = true
        ∧ (d.entry d.position).isSome = true)
      ∧ (after (.prfIndication t 8) g).pst.pvfSeen = true
      ∧ waiting (after (.prfIndication t 8) g) = [.event .protectiveFire] := by decide +kernel

theorem witness_AckTaken :
    let s := ready .running
    let w (kind : WindowKind) (targets : List Nat) :=
      s.setPst { s.pst with window := some ⟨kind, targets, [], 1000400⟩ }
    s.supplied = true ∧ s.stc.state ≠ .unset ∧ 8 ≤ s.cfg.levels
      ∧ (w (.survey 3) [3]).pst.window.map AckWindow.kind = some (.survey 3)
      ∧ (8 ∈ [7, 8] ∧ 8 ∉ [7]) ∧ s.pst.window = none
      ∧ (after (.ackIndication t 8) (w .main [7, 8])).pst.strayAck = 0
      ∧ (after (.ackIndication t 8) (w .main [7])).pst.strayAck = 1 := by decide +kernel

/-! ### Timers of the valve and of the pulse stage -/

/-- The inactivity timer runs 30,000 ticks and the no-extinction timer 13,333 at T_est = 20,000. The limit of a
deferral lies ticks(3,000) = 1,667 after its M. -/
theorem witness_ValveTimersExpire :
    let s := valveIn .conducting (ready .running)
    let r := s.advance t
    let d := valveIn .reverse (deferred 1023334 (ready .running))
    (s.supplied = true ∧ s.stc.state ≠ .unset ∧ s.vcm.inactivity = some 995000
        ∧ (3 * s.prl.tEst + 1) / 2 = 30000 ∧ (4 * s.prl.tEst + 3) / 6 = 13333)
      ∧ (30000 < (s.advance (tick 1025001)).clock - 995000 ∧ s.vcm.valve ≠ .dark ∧ s.fic.deferral = none)
      ∧ (r.clock - 995000 ≤ 13333 ∧ s.vcm.noExtinction = some 995000
        ∧ 13333 < (s.advance (tick 1008334)).clock - 995000 ∧ s.vcm.valve = .conducting
        ∧ s.vcm.spent = false ∧ (valveIn .conducting (ready .bypassing)).stc.state = .bypassing)
      ∧ (valveIn .dark s).vcm.valve = .dark ∧ (valveIn .forward s).vcm.valve ≠ .conducting
      ∧ (s.setVcm { s.vcm with spent := true }).vcm.spent = true
      ∧ (d.fic.deferral = some (markAt 1023334) ∧ d.fic.armed = none ∧ d.stc.state = .running
        ∧ d.blockAsserted = false ∧ (d.entry d.position).isSome = true ∧ d.orh.pending = none
        ∧ instantPlus (tick 1023334) (ticksAt d.prl.tEst 3000) = tick 1025001
        ∧ later (tick 1025001) (tick 1025001) = false ∧ later (tick 1025002) (tick 1025001) = true) := by
  decide +kernel

theorem test_valve_timers :
    let s := valveIn .conducting (ready .running)
    (after (.inactivityExpiry (tick 1025001)) s).vcm.valve = .dark
      ∧ (after (.inactivityExpiry (tick 1025000)) s).vcm.valve = .conducting
      ∧ (after (.noExtinctionExpiry (tick 1008334)) s).vcm.noExtCount = 1
      ∧ (after (.noExtinctionExpiry (tick 1008333)) s).vcm.noExtCount = 0
      ∧ (after (.noExtinctionExpiry (tick 1008335)) (after (.noExtinctionExpiry (tick 1008334)) s)).vcm.noExtCount
        = 1 := by decide +kernel

/-- The limit of a deferral of M = 998,352 is 1,000,019: it has passed at the re-fire pulse. -/
theorem witness_PulseTimersExpire :
    let s := refiring 1000020
    let d := deferred 998352 (marked (valveIn .forward s))
    let late := after (.refireExpiry t) d
    let b := bypassing 1000020
    let g := (ready .running).setPst { (ready .running).pst with gather := some ⟨[1], 1000020⟩ }
    (s.supplied = true ∧ s.stc.state ≠ .unset ∧ s.pst.train = .refire 1000020
        ∧ 1000020 ≤ (s.advance t).clock ∧ s.stc.state = .running ∧ s.blockAsserted = false)
      ∧ (b.pst.train = .bypass 1000020 ∧ b.stc.state = .bypassing ∧ b.inPair = true
        ∧ b.blockAsserted = false)
      ∧ (d.vcm.valve = .forward ∧ d.pst.train = .refire 1000020 ∧ (valveIn .dark s).vcm.valve = .dark
        ∧ s.vcm.valve ≠ .forward ∧ s.vcm.valve ≠ .dark
        ∧ later (instantPlus (tick 998352) (ticksAt d.prl.tEst 3000)) (tick 1000018) = true
        ∧ later (instantPlus (tick 998352) (ticksAt d.prl.tEst 3000)) (tick 1000019) = false)
      ∧ (late.fic.deferral = some (markAt 998352) ∧ late.fic.forcedCount = 0
        ∧ (after (.deferralLimit t) late).fic.forcedCount = 1)
      ∧ ((refiring 1000021).pst.train = .refire 1000021 ∧ (s.advance t).clock < 1000021)
      ∧ (ready .running).pst.train = .stopped ∧ g.pst.gather = some ⟨[1], 1000020⟩
      ∧ (ready .running).pst.gather = none := by decide +kernel

theorem test_pulse_timers :
    ((after (.refireExpiry t) (refiring 1000020)).firing.map Pulse.kind = [.refire])
      ∧ ((after (.bypassTrainExpiry t) (bypassing 1000020)).firing.map Pulse.kind = [.bypass])
      ∧ (after (.refireExpiry t) (refiring 1000021)).firing = [] := by decide +kernel

theorem witness_AckWindowsCloseAndTest :
    let s := ready .running
    let w (state : StationState) (kind : WindowKind) (n : Nat) :=
      (ready state).setPst { (ready state).pst with window := some ⟨kind, [n], [], 1000020⟩ }
    let x := surveying (w .synced (.survey 2) 2)
    let f := valveIn .forward (surveying (ready .synced))
    let v := f.setPst { f.pst with surveyTest := some ⟨2, tick 995000⟩ }
    s.supplied = true ∧ s.stc.state ≠ .unset ∧ (w .running .main 2).pst.window.isSome = true
      ∧ 1000020 ≤ (s.advance t).clock ∧ s.pst.window = none
      ∧ ((w .synced (.survey 2) 2).stc.state = .synced ∧ (w .listening .main 2).stc.state = .listening)
      ∧ (x.cmu.executing.isSome = true ∧ x.stc.state = .synced
        ∧ (after (.ackWindowExpiry t) x).stc.state = .synced
        ∧ (after (.ackWindowExpiry t) x).cmu.executing.map SurveyRecord.countFailed = some 1)
      ∧ (v.pst.surveyTest = some ⟨2, tick 995000⟩ ∧ v.cmu.executing.isSome = true ∧ v.stc.state = .synced
        ∧ v.vcm.valve = .forward ∧ v.vcm.vf = some (tick 995000) ∧ v.pst.window = none
        ∧ later (instantPlus (tick 995000) (ticksAt v.prl.tEst 1000)) (tick 995556) = false
        ∧ later (instantPlus (tick 995000) (ticksAt v.prl.tEst 1000)) (tick 995555) = true)
      ∧ ((valveIn .reverse v).vcm.valve ≠ .forward
        ∧ (v.setVcm { v.vcm with vf := some (tick 995001) }).vcm.vf ≠ some (tick 995000)
        ∧ (v.setStc { v.stc with state := .running }).stc.state ≠ .synced ∧ (v.setCmu { executing := none }).cmu.executing = none)
      ∧ s.pst.surveyTest = none := by decide +kernel

/-- R131: the test pulse leaves at V_f + 556 on the fibre of its level alone. -/
theorem test_survey_pulse :
    let f := valveIn .forward (surveying (ready .synced))
    let v := f.setPst { f.pst with surveyTest := some ⟨2, tick 995000⟩ }
    (after (.surveyTestPulse (tick 995556)) { v with clock := 995500 }).firing
        = [{ kind := .survey, instant := tick 995556, fibres := [2] }]
      ∧ (after (.surveyTestPulse (tick 995555)) { v with clock := 995500 }).firing = []
      ∧ (after (.survey t rx head 2 4) (valveIn .forward (ready .synced))).cmu.executing.map SurveyRecord.next
        = some 2 := by decide +kernel

/-- A level of L = 8, R = 1 with one consumed: a second lost level trips a station in LISTENING. -/
theorem test_window_trips :
    let s := levelIn 5 .silent (ready .listening)
    let s := s.setLvt { s.lvt with consumed := 1, silentCount := 1, levels := changeAt (fun x =>
      { x with state := .suspect, ackMiss := 2 }) s.lvt.levels 2 }
    let s := s.setPst { s.pst with window := some ⟨.pvf, [2], [], 1000020⟩ }
    s.lvt.consumed < (after (.ackWindowExpiry t) s).lvt.consumed
      ∧ s.cfg.redundancy < (after (.ackWindowExpiry t) s).lvt.consumed
      ∧ (after (.ackWindowExpiry t) s).stc.state = .tripped := by decide +kernel

/-! ### Marks -/

/-- lo is V_f + ticks(500) = 995,278 and hi is V_f + ticks(16,500) = 1,004,167. -/
theorem witness_MarkDecided :
    let s (m : Nat) := armed m (marked (valveIn .forward (ready .running)))
    let b := armed 1000000 (bypassing 1000020)
    let dark := armed 1000000 (marked (ready .running))
    (s 1000020).supplied = true ∧ (s 1000020).stc.state ≠ .unset
      ∧ ((s 1000020).fic.armed = some (markAt 1000020) ∧ later (tick 1000020) t = false
        ∧ ((s 1000020).entry (s 1000020).position).isSome = true ∧ (s 1000020).vcm.vf.isSome = true
        ∧ later (tick 1000021) t = true)
      ∧ (instantPlus (tick 995000) (ticksAt 20000 500) = tick 995278
        ∧ earlier (tick 995277) (tick 995278) = true ∧ earlier (tick 995278) (tick 995278) = false)
      ∧ (instantPlus (tick 995000) (ticksAt 20000 16500) = tick 1004167
        ∧ later (tick 1004168) (tick 1004167) = true ∧ later (tick 1004167) (tick 1004167) = false)
      ∧ (b.stc.state = .bypassing ∧ b.inPair = true ∧ b.blockAsserted = false ∧ b.cmu.executing = none
        ∧ b.orh.pending = none ∧ (after (.markEvent t) b).firing.map Pulse.kind = [.bypass])
      ∧ (dark.vcm.valve = .dark ∧ dark.orh.pending = none
        ∧ (after (.markEvent t) dark).firing.map Pulse.kind = [.main])
      ∧ (after (.markEvent t) (windowed .main 1000400 (s 1000020))).pst.window.map AckWindow.targets
        = some [1, 2, 3, 4, 5, 6, 7, 8]
      ∧ (after (.markEvent t) (s 995277)).fic.deferral = some (markAt 995277)
      ∧ (after (.markEvent t) (s 1000021)) = (s 1000021).advance t := by decide +kernel

/-- A mark taken late fires no later than hi (R106). -/
theorem test_mark_at_hi :
    let s := armed 1004167 (marked (valveIn .forward (ready .running)))
    (after (.markEvent (tick 1004167)) s).firing.map Pulse.kind = [.main]
      ∧ (after (.markEvent (tick 1004168)) s).firing = [] := by decide +kernel

/-- The position one place before 1 is 12, and the last one of three is 10. An arrival of position 12 at 998,334
gives the sample 12 × 1,666 = 19,992. -/
theorem witness_MarkTaken :
    let s := marked (valveIn .forward (ready .running))
    let l := marked (valveIn .forward (ready .listening))
    let dark := ordered .deblock 0 (marked (ready .synced))
    let old := dark.setOrh { dark.orh with age := 200001 }
    let before (d : Nat) := (s.position + s.group - d - 1) % s.group + 1
    let u (position m : Nat) := (takeMark .main (markAt 1000000) true (arrived position m s)).prl
    (s.entry s.position).isSome = true ∧ s.vcm.vf = some (tick 995000) ∧ s.vcm.valve ≠ .dark
      ∧ s.orh.age ≠ 40001 ∧ s.orh.pending = none ∧ s.cmu.executing = none
      ∧ (before 1 = 12 ∧ before 3 = 10)
      ∧ ((heldAt 12 980001 l).referenceHeard = true ∧ (heldAt 12 980000 l).referenceHeard = false
        ∧ (heldAt 10 1000000 l).referenceHeard = true ∧ (heldAt 9 1000000 l).referenceHeard = false
        ∧ (heldAt 10 1000001 l).referenceHeard = false)
      ∧ (dark.vcm.valve = .dark ∧ (takeMark .no (markAt 1000000) false dark).orh.pending = none
        ∧ (takeMark .no (markAt 1000000) false dark).stc.state = .running
        ∧ (takeMark .no (markAt 1000000) false old).orh.pending.map Order.blockState = some .block)
      ∧ (s.prl.lastArrival = none ∧ (arrived 12 1000000 s).prl.lastArrival.isSome = true
        ∧ later s.now (tick 1000000) = false ∧ later s.now (tick 999999) = true)
      ∧ ((u 12 998334).tEst = 20000 ∧ (u 9 999999).outliers = 0 ∧ (u 12 999999).outliers = 1
        ∧ (u 12 998334).lastArrival = some ⟨1, tick 1000000⟩)
      ∧ (takeMark .main (markAt 1000000) true s).fic.armed.map (fun a => a.placing) = some .flywheel := by
  decide +kernel

/-- The eighth qualifying mark brings SYNCED; a raw error of 1,001 is a bad mark and one of 1,000 is not. -/
theorem witness_MarkJudged :
    let s (state : StationState) (count bad : Nat) :=
      let r := valveIn .forward (ready state)
      r.setStc { r.stc with syncCount := count, badRun := bad }
    let g (e : Int) : Placing := .group 1 (tick 0) none e
    (s .listening 6 0).stc.syncCount < 7 ∧ (s .listening 7 0).stc.syncCount = 7
      ∧ (s .listening 7 0).stc.syncLost = false ∧ (s .listening 7 0).stc.clashLatch = false
      ∧ (s .listening 7 0).vcm.valve ≠ .dark
      ∧ (judgeMark (g 100) true (s .listening 7 0)).stc.state = .synced
      ∧ (judgeMark (g 101) true (s .listening 7 0)).stc.syncCount = 0
      ∧ (judgeMark (g 1001) true (s .synced 0 2)).stc.state = .listening
      ∧ (judgeMark (g 1000) true (s .synced 0 2)).stc.state = .synced
      ∧ (judgeMark (g (-1001)) true (s .running 0 2)).stc.syncLost = true
      ∧ (judgeMark .flywheel true (s .tripped 0 2)).stc.state = .tripped := by decide +kernel

theorem witness_LateFiringsMade :
    let f := marked (valveIn .forward (ready .running))
    let e := armed 1004168 f
    let d := deferred 995000 f
    let n := deferred 998353 (marked (valveIn .reverse (ready .running)))
    (e.supplied = true ∧ e.stc.state = .running ∧ e.blockAsserted = false
        ∧ (e.entry e.position).isSome = true ∧ e.vcm.vf = some (tick 995000) ∧ e.vcm.valve = .forward
        ∧ e.fic.armed = some (markAt 1004168) ∧ e.fic.deferral = none
        ∧ instantPlus (tick 995000) (ticksAt e.prl.tEst 16500) = tick 1004167
        ∧ later (tick 1004168) (tick 1004167) = true ∧ later (tick 1004167) (tick 1004167) = false)
      ∧ (d.fic.deferral = some (markAt 995000) ∧ d.vcm.valve = .forward
        ∧ instantPlus (tick 995000) (ticksAt d.prl.tEst 500) = tick 995278
        ∧ later (tick 995278) (tick 995278) = false ∧ later (tick 995278) (tick 995277) = true
        ∧ later (tick 1004168) (tick 1004167) = true)
      ∧ (n.vcm.valve ≠ .forward ∧ n.vcm.valve ≠ .dark ∧ n.fic.deferral = some (markAt 998353)
        ∧ instantPlus (tick 998353) (ticksAt n.prl.tEst 3000) = t ∧ later t t = false
        ∧ later t (tick 1000019) = true) := by decide +kernel

theorem test_late_firings :
    let f := marked (valveIn .forward (ready .running))
    let n := deferred 998353 (marked (valveIn .reverse (ready .running)))
    (after (.endStop (tick 1004167)) (armed 1004168 f)).fic.endStopCount = 1
      ∧ (after (.endStop (tick 1004168)) (armed 1004168 f)).fic.endStopCount = 0
      ∧ (after (.deferralLoReached t) (deferred 995000 f)).firing.map Pulse.kind = [.main]
      ∧ (after (.deferralLimit t) n).fic.forcedCount = 1
      ∧ (after (.deferralLimit (tick 1000019)) n).fic.forcedCount = 0 := by decide +kernel

theorem witness_TargetAngle :
    (ready .running).orh.current.mode = .rectifier
      ∧ (inverter 15000 1800 2000 none 0).orh.current.mode = .inverter
      ∧ (ready .running).fic.advanceCount = 0 := by decide +kernel

theorem witness_orderOk : OrderOk (ready .running) := by
  unfold OrderOk; decide +kernel

theorem witness_setup_in_range : (setupOf fields).InRange := by
  unfold Setup.InRange; decide +kernel

/-- A record of position 12, d = 1: the lattice point lies ticks(3,000) = 1,667 after it. -/
theorem witness_GroupCandidate :
    let s := ready .running
    let ref : RollReport := ⟨tick 999000, tick 999010, 0, peerReport⟩
    let g := s.setFic { s.fic with armed := some ⟨tick 1000667, 1500, .group 2 (tick 999000) none 0⟩ }
    s.fic.armed = none ∧ s.fic.deferral = none
      ∧ ((handReference 1 ref s).fic.armed.map ArmedMark.m = some (tick 1000667))
      ∧ (handReference 1 ref g).fic.armed.map ArmedMark.m = some (tick 1000667)
      ∧ (handReference 2 ref g) = g := by decide +kernel

/-- A tenth of 20,000 is inside the gate of R51 and one tick more is outside. -/
theorem witness_SampleJudged :
    let s := ready .running
    (judgeSample 22000 s).prl.tEst = 20125 ∧ (judgeSample 22001 s).prl.tEst = 20000
      ∧ (judgeSample 22001 s).prl.outliers = 1 ∧ (judgeSample 19991 s).prl.tEst = 20000
      ∧ (judgeSample 18000 s).prl.tEst = 19875 ∧ (judgeSample 17999 s).prl.outliers = 1 := by decide +kernel

theorem witness_periodOk : PeriodOk (ready .running) := by
  unfold PeriodOk; decide +kernel

theorem witness_TimeSettings :
    (settingOf 0x3F).factor ≤ 15 ∧ (settingOf 0x3F).scale = .ms1 ∧ (settingOf 0x0F).scale = .us1
      ∧ timerExpiry (settingOf 0x3F) 4294966000 = 4294967296 + 15000
      ∧ timerExpiry (settingOf 0x0F) 1000000 = 1000016
      ∧ settingOk 0x3F = true ∧ settingOk 0x40 = false := by decide +kernel

/-! ### Orders, station timers, alarm lines and level records -/

theorem witness_OrderAdopted :
    let s := ready .synced
    let p (age : Nat) := (ordered .deblock 0 s).setOrh { (ordered .deblock 0 s).orh with age := age }
    let m := marked (p 0)
    let fly := m.setFic { (armedBy .flywheel m).fic with alphaLast := some 1500 }
    let group := armedBy (.group 2 (tick 998000) (some 1400) 100) m
    let voltage := armedBy .localVoltage (valveIn .forward m)
    s.orh.pending = none ∧ (p 200000).orh.pending.isSome = true
      ∧ [1, 7, 2].map (fun n => s.inPairOf ⟨none, .rectifier, .bypass, some n, 0, 0⟩) = [true, true, false]
      ∧ (adopt (p 200000)).stc.state = .running ∧ (adopt (p 200000)).orh.pending = none
      ∧ (adopt (p 200001)).orh.pending.map Order.blockState = some .block
      ∧ (fly.ownReport.isSome = true ∧ fly.fic.alphaLast = some 1500
        ∧ fly.fic.armed = some (placedAt 1001000 .flywheel))
      ∧ (group.fic.armed = some (placedAt 1001000 (.group 2 (tick 998000) (some 1400) 100))
        ∧ (adopt group).fic.lateCount = 0)
      ∧ (voltage.vcm.vf = some (tick 995000) ∧ (adopt voltage).fic.armed.map ArmedMark.alphaT = some 2000)
      := by decide +kernel

/-- The DARK timer runs 80,000 ticks. -/
theorem witness_StationTimersExpire :
    let d (start : Nat) := (ready .synced).setStc { (ready .synced).stc with darkTimer := some start }
    let a (age : Nat) := (ready .running).setOrh { (deblocked (ready .running)).orh with age := age }
    (d 920019).supplied = true ∧ (d 920019).stc.state ≠ .unset ∧ (d 920019).stc.darkTimer = some 920019
      ∧ 4 * (d 0).prl.tEst < ((d 0).advance t).clock - 920019 ∧ (d 0).stc.state = .synced
      ∧ (d 0).cmu.executing = none ∧ ¬ 4 * (d 0).prl.tEst < ((d 0).advance t).clock - 920020
      ∧ (after (.darkTimerExpiry t) (d 920019)).stc.state = .listening
      ∧ (after (.darkTimerExpiry t) (d 920020)).stc.state = .synced
      ∧ (after (.orderStale t) (a 39981)).orh.stale = true ∧ (after (.orderStale t) (a 39980)).orh.stale = false
      ∧ (after (.forcedBlock t) (a 199981)).orh.losses = 1
      ∧ (after (.forcedBlock t) (a 199980)).orh.losses = 0 := by decide +kernel

theorem witness_AlarmDelaysRun :
    let x : AlarmLine := ⟨true, false, .asserting 1000020, .none⟩
    let y : AlarmLine := ⟨false, true, .releasing 1000021, .none⟩
    let s := (ready .running).setPmn { (ready .running).pmn with tripRequest := x, prfRate := y }
    s.supplied = true ∧ s.stc.state ≠ .unset ∧ (s.pmn.line .tripRequest).timer = .asserting 1000020
      ∧ (s.pmn.line .prfRate).timer = .releasing 1000021 ∧ (s.pmn.line .redundancyLow).timer = .idle
      ∧ (after (.alarmAssertExpiry t .tripRequest) s).alarmOutput .tripRequest = true
      ∧ (after (.alarmReleaseExpiry t .prfRate) s).alarmOutput .prfRate = true
      ∧ (after (.alarmReleaseExpiry (tick 1000021) .prfRate) s).alarmOutput .prfRate = false := by
  decide +kernel

theorem witness_alarmLine_ok (delay : TimeSetting) : AlarmLine.powerOn.Ok delay delay := rfl

theorem witness_levelRecord_ok : (⟨.suspect, 2, 1, 0, false, none⟩ : LevelRecord).Ok := by
  unfold LevelRecord.Ok; decide

theorem witness_LevelOutcomesApplied :
    let x : LevelRecord := ⟨.suspect, 2, 1, 0, false, none⟩
    (x.takeFwd false).state = .silent ∧ (x.takeFwd true).state = .suspect
      ∧ (x.takeAck true).state = .suspect ∧ (ready .synced).cmu.executing = none := by decide +kernel

/-! ### Invariants and frames -/

theorem witness_reset_step : step State.reset = .next State.reset := rfl

theorem witness_reset_setupOk : SetupOk State.reset := by
  refine ⟨by decide +kernel, ?_, by decide +kernel, by decide +kernel⟩
  intro c hc; exact absurd hc (by simp [State.reset, State.powerOn, Stc.powerOn])

theorem witness_reset_deferralOk : DeferralOk State.reset := by
  intro h; exact absurd h (by decide +kernel)

/-- A step that acts: a mark that fires, from a state with no deferral. -/
theorem witness_PulsesPermitted :
    let s := armed 1000020 (marked (valveIn .forward (ready .running)))
    exec (.markEvent t) s = .next (after (.markEvent t) s) ∧ s.fic.deferral = none
      ∧ (15000 ≤ s.prl.tEst ∧ s.prl.tEst ≤ 22000) ∧ s.cfg = setupOf fields
      ∧ s.vcm.valve = .forward ∧ s.vcm.vf = some (tick 995000)
      ∧ s.fic.armed = some (markAt 1000020) ∧ instantDiff t (tick 1000020) ≠ -2147483648
      ∧ (after (.markEvent t) s).firing
        = [{ kind := .main, instant := t, fibres := [1, 2, 3, 4, 5, 6, 7, 8] }] := ⟨rfl, by decide +kernel⟩

theorem witness_arrivalOk :
    ArrivalOk ((ready .running).setPrl { (ready .running).prl with lastArrival := some ⟨12, t⟩ }) := by
  unfold ArrivalOk; decide +kernel

theorem witness_FramesReadBack :
    let c : Instr := .survey t rx head 1 4
    encodeCopy c = some (withCheck [4, 7, 0, 7, 15, 9, 2, 1, 4]) ∧ copyOf c = some rx ∧ head.target = 15
      ∧ peerReport.station ≠ .unset ∧ peerReport.consumed ≤ 96 ∧ 4095 ≤ 4095
      ∧ copyIsBad (withCheck (copyOfEvent 0 |>.frameBytes 4095)) false = false
      ∧ copyIsBad (withCheck (copyOfResult.frameBytes 0)) false = false := by decide +kernel

/-! ### The end of a survey -/

/-- `s` with a survey of levels 2 to 4 that stands at a level and has counted marks: the step limit is 11. -/
def surveyAt (next marks : Nat) (s : State) : State :=
  s.setCmu { executing := some { SurveyRecord.start head 2 4 with next := next, marks := marks } }

theorem witness_SurveyEnds :
    let s := ready .synced
    let w (next level : Nat) := (surveyAt next 0 s).setPst
      { s.pst with window := some ⟨.survey level, [level], [level], 1000020⟩ }
    let mark (marks : Nat) :=
      takeMark .no (placedAt 1000000 .flywheel) false (surveyAt 4 marks (marked (valveIn .reverse s)))
    s.cmu.executing = none
      ∧ ((surveyAt 4 0 s).cmu.executing.isSome = true ∧ 4 < 4 + 1 ∧ ¬ 4 < 3 + 1)
      ∧ (4 - 2 + 1 + 8 < 11 + 1 ∧ ¬ 4 - 2 + 1 + 8 < 10 + 1) ∧ (surveyAt 4 0 s).stc.state = .synced
      ∧ ((w 4 4).supplied = true ∧ (w 4 4).pst.window = some ⟨.survey 4, [4], [4], 1000020⟩
        ∧ 1000020 ≤ ((w 4 4).advance t).clock
        ∧ waiting (after (.ackWindowExpiry t) (w 4 4)) = [.result ⟨9, 2, .done, .none, [1, 0, 0]⟩])
      ∧ ((mark 10).stc.state = .synced ∧ (mark 10).cmu.executing.map SurveyRecord.marks = some 11)
      ∧ ((mark 11).stc.state = .synced ∧ (mark 11).cmu.executing = none
        ∧ (waiting (mark 11)).drop 1 = [.result ⟨9, 2, .failed, .noVoltage, [0, 0, 0, 4]⟩]) := by
  decide +kernel

end Sys2Proof.Tests
end

