-- ==== Sys2Proof/Proofs/Period.lean ====
section
/-! PROOFS. The period estimate of the Peer Roll (R50 to R52): what a sample does to it, and that T_est
stays in [15,000, 22,000]. T_est is written in three places only: a sample of the period, RESTART and the
adoption of a SETUP (which give the nominal period), and the power-on reset (the same). Every other operation
leaves the records of the PRL alone, which the `_prl` equations below say once each. -/

namespace Sys2Proof.Machine

/-! ### A sample (R51) -/

/-- A sixteenth, truncated toward zero. -/
theorem tdiv_sixteen (d : Int) : d.tdiv 16 = if 0 ≤ d then d / 16 else -(-d / 16) := by
  split
  · exact Int.tdiv_eq_ediv_of_nonneg ‹_›
  · rw [← Int.tdiv_eq_ediv_of_nonneg (by omega), Int.neg_tdiv, Int.neg_neg]

theorem movedPeriod_eq (tEst sample : Nat) :
    (movedPeriod tEst sample : Int)
      = clampInt 15000 22000 ((tEst : Int) + ((sample : Int) - tEst).tdiv 16) :=
  Int.toNat_of_nonneg (Int.le_trans (by decide) (clampInt_bounds (by decide) _).1)

theorem movedPeriod_bounds (tEst sample : Nat) :
    15000 ≤ movedPeriod tEst sample ∧ movedPeriod tEst sample ≤ 22000 := by
  have hb := clampInt_bounds (lo := 15000) (hi := 22000) (by decide)
    ((tEst : Int) + ((sample : Int) - tEst).tdiv 16)
  rw [← movedPeriod_eq] at hb
  omega

/-- A sample within the gate moves T_est and nothing else. -/
theorem judgeSample_within {sample : Nat} {s : State}
    (h : ((sample : Int) - s.prl.tEst).natAbs ≤ s.prl.tEst / 10) :
    judgeSample sample s
      = { s with prl := { s.prl with tEst := movedPeriod s.prl.tEst sample } } := if_pos h

/-- A sample outside the gate is counted as an outlier and does nothing else. -/
theorem judgeSample_outlier {sample : Nat} {s : State}
    (h : ¬ ((sample : Int) - s.prl.tEst).natAbs ≤ s.prl.tEst / 10) :
    judgeSample sample s
      = { s with prl := { s.prl with outliers := min 65535 (s.prl.outliers + 1) } } := if_neg h

/-! ### What leaves the records of the PRL alone: lines and Station Control -/

theorem prl_of_offStation {s u : State} (h : u.offStation = s.offStation) : u.prl = s.prl := by
  simp only [State.offStation, Prod.mk.injEq] at h
  obtain ⟨-, -, -, -, -, -, hprl, -⟩ := h
  exact hprl

@[simp] theorem changeLine_prl (l : Line) (f : LineState → LineState) (s : State) :
    (changeLine l f s).prl = s.prl := State.setLine_prl s l _

@[simp] theorem produce_prl (body : TxBody) (s : State) : (produce body s).prl = s.prl := by
  rw [produce_eq]

@[simp] theorem produceResult_prl (tag code : Byte) (completion : Completion) (detail : Detail)
    (data : List Byte) (s : State) : (produceResult tag code completion detail data s).prl = s.prl :=
  produce_prl _ s

@[simp] theorem enterListening_prl (s : State) : (enterListening s).prl = s.prl :=
  prl_of_offStation (enterListening_offStation s)

@[simp] theorem evaluateDeblock_prl (s : State) : (evaluateDeblock s).prl = s.prl :=
  prl_of_offStation (evaluateDeblock_offStation s)

@[simp] theorem stcAdopt_prl (s : State) : (stcAdopt s).prl = s.prl :=
  prl_of_offStation (stcAdopt_offStation s)

@[simp] theorem stcClash_prl (s : State) : (stcClash s).prl = s.prl :=
  prl_of_offStation (stcClash_offStation s)

@[simp] theorem judgeMark_prl (placing : Placing) (refHeard : Bool) (s : State) :
    (judgeMark placing refHeard s).prl = s.prl :=
  prl_of_offStation (judgeMark_offStation placing refHeard s)

@[simp] theorem countSurveyMark_prl (s : State) : (countSurveyMark s).prl = s.prl :=
  prl_of_offStation (countSurveyMark_offStation s)

@[simp] theorem stcBlockAsserted_prl (s : State) : (stcBlockAsserted s).prl = s.prl := by
  unfold stcBlockAsserted
  split
  · exact prl_of_offStation (leaveFiring_offStation s)
  · rfl

@[simp] theorem stcValveDark_prl (s : State) : (stcValveDark s).prl = s.prl := by
  simp only [stcValveDark]
  split
  · exact prl_of_offStation (startDarkTimer_offStation _)
  · rfl

@[simp] theorem leaveDark_prl (old : ValveState) (s : State) : (leaveDark old s).prl = s.prl := by
  unfold leaveDark; split <;> rfl

/-! ### Alarm lines, level table, orders and armed marks -/

@[simp] theorem handCondition_prl (name : AlarmName) (condition : Bool) (s : State) :
    (handCondition name condition s).prl = s.prl := rfl

@[simp] theorem closePrfCycle_prl (s : State) : (closePrfCycle s).prl = s.prl := rfl

@[simp] theorem reportCycle_prl (s : State) : (reportCycle s).prl = s.prl := rfl

@[simp] theorem pmnGamma_prl (gamma : Nat) (s : State) : (pmnGamma gamma s).prl = s.prl := rfl

@[simp] theorem touchLevel_prl (f : LevelRecord → LevelRecord) (n : Nat) (s : State) :
    (touchLevel f n s).prl = s.prl := rfl

@[simp] theorem setLevels_prl (levels : List LevelRecord) (s : State) :
    (setLevels levels s).prl = s.prl := by
  rw [prl_of_offStation (setLevels_offStation levels s), levelsSet_eq]

@[simp] theorem takeFwdOutcomes_prl (roster : List Nat) (s : State) :
    (takeFwdOutcomes roster s).prl = s.prl := setLevels_prl _ s

@[simp] theorem takeAckOutcomes_prl (targets acked : List Nat) (s : State) :
    (takeAckOutcomes targets acked s).prl = s.prl := setLevels_prl _ s

@[simp] theorem takeSurveyResult_prl (n : Nat) (result : SurveyResult) (s : State) :
    (takeSurveyResult n result s).prl = s.prl := setLevels_prl _ s

@[simp] theorem clearLevel_prl (n : Nat) (s : State) : (clearLevel n s).prl = s.prl := setLevels_prl _ s

@[simp] theorem clearAllLevels_prl (s : State) : (clearAllLevels s).prl = s.prl := setLevels_prl _ s

@[simp] theorem countLate_prl (late : Bool) (s : State) : (countLate late s).prl = s.prl := by
  cases late <;> rfl

@[simp] theorem handReference_prl (d : Nat) (ref : RollReport) (s : State) :
    (handReference d ref s).prl = s.prl := by
  simp only [handReference]; split <;> simp

@[simp] theorem handEntry_prl (sender : Nat) (s : State) : (handEntry sender s).prl = s.prl := by
  simp only [handEntry]
  split
  · split <;> simp
  · rfl

@[simp] theorem armFlywheel_prl (alphaT : Int) (s : State) : (armFlywheel alphaT s).prl = s.prl := rfl

@[simp] theorem decrementAdvance_prl (s : State) : (decrementAdvance s).prl = s.prl := rfl

@[simp] theorem disarm_prl (s : State) : (disarm s).prl = s.prl := rfl

@[simp] theorem clearDeferral_prl (s : State) : (clearDeferral s).prl = s.prl := rfl

@[simp] theorem ficForward_prl (fromDark : Bool) (vf : Instant) (s : State) :
    (ficForward fromDark vf s).prl = s.prl := by
  simp only [ficForward]; split <;> rfl

@[simp] theorem recomputeArmed_prl (s : State) : (recomputeArmed s).prl = s.prl := by
  unfold recomputeArmed
  split
  · rfl
  · split
    · simp
    · split <;> rfl
    · split <;> rfl

@[simp] theorem ficFailure_prl (s : State) : (ficFailure s).prl = s.prl := by
  unfold ficFailure; split <;> rfl

@[simp] theorem ficAdopt_prl (s : State) : (ficAdopt s).prl = s.prl := by
  simp only [ficAdopt, recomputeArmed_prl]; split <;> rfl

@[simp] theorem orhOrder_prl (o : OrderFields) (s : State) : (orhOrder o s).prl = s.prl := by
  unfold orhOrder; split <;> rfl

@[simp] theorem forceBlock_prl (s : State) : (forceBlock s).prl = s.prl := by
  unfold forceBlock; split <;> rfl

@[simp] theorem adopt_prl (s : State) : (adopt s).prl = s.prl := by
  unfold adopt; split <;> simp

/-! ### Windows, pulses and the entries they cause -/

@[simp] theorem declareFailure_prl (kind : EventKind) (s : State) :
    (declareFailure kind s).prl = s.prl := by
  simp [declareFailure, pmnFailure]

@[simp] theorem noExtinction_prl (s : State) : (noExtinction s).prl = s.prl := by
  simp only [noExtinction]; split <;> simp

@[simp] theorem cmuSurveyResult_prl (result : SurveyResult) (s : State) :
    (cmuSurveyResult result s).prl = s.prl := by
  unfold cmuSurveyResult
  split
  · rfl
  · simp only []
    split
    · rw [produceResult_prl]; rfl
    · rfl

@[simp] theorem deliverSurveyResult_prl (n : Nat) (result : SurveyResult) (s : State) :
    (deliverSurveyResult n result s).prl = s.prl := by
  refine inAnyOrder_keeps (P := fun u => u.prl = s.prl) _ (fun _ h => h) ?_ s rfl
  intro f hf x hx
  simp only [List.mem_cons, List.not_mem_nil, or_false] at hf
  obtain rfl | rfl := hf
  · rw [takeSurveyResult_prl, hx]
  · rw [cmuSurveyResult_prl, hx]

@[simp] theorem closeWindow_prl (s : State) : (closeWindow s).prl = s.prl := by
  unfold closeWindow
  split
  · rfl
  · simp only []
    split <;> simp

@[simp] theorem openWindow_prl (kind : WindowKind) (targets : List Nat) (s : State) :
    (openWindow kind targets s).prl = s.prl := closeWindow_prl s

@[simp] theorem pstAck_prl (n : Nat) (s : State) : (pstAck n s).prl = s.prl := by
  have hstray : ∀ x : State, (if x.silent n then x
      else x.setPst { x.pst with strayAck := count16 x.pst.strayAck }).prl = x.prl := by
    intro x; split <;> rfl
  simp only [pstAck, touchLevel_prl]
  split
  · exact hstray s
  · rw [apply_ite State.prl, hstray]
    exact ite_self _

@[simp] theorem evaluateForward_prl (s : State) : (evaluateForward s).prl = s.prl :=
  takeFwdOutcomes_prl _ s

@[simp] theorem enterConducting_prl (cause : Cause) (s : State) :
    (enterConducting cause s).prl = s.prl := by
  simp only [enterConducting, endGather, clearRoster, dropSurveyTest]
  split <;> simp

@[simp] theorem valvePulse_prl (s : State) : (valvePulse s).prl = s.prl := by
  unfold valvePulse; split <;> simp

@[simp] theorem valveProtective_prl (s : State) : (valveProtective s).prl = s.prl := by
  unfold valveProtective; split <;> simp

@[simp] theorem emitToAll_prl (kind : PulseKind) (s : State) : (emitToAll kind s).prl = s.prl := rfl

@[simp] theorem mainPulse_prl (fired : Fired) (s : State) : (mainPulse fired s).prl = s.prl := by
  simp only [mainPulse]; split <;> simp

@[simp] theorem bypassFiring_prl (s : State) : (bypassFiring s).prl = s.prl := by
  simp [bypassFiring]

@[simp] theorem refirePulse_prl (s : State) : (refirePulse s).prl = s.prl := by
  simp [refirePulse]

@[simp] theorem protectiveFiring_prl (s : State) : (protectiveFiring s).prl = s.prl := by
  simp [protectiveFiring, endGather]

@[simp] theorem testPulse_prl (s : State) : (testPulse s).prl = s.prl := by
  unfold testPulse
  split
  · rfl
  · rw [openWindow_prl]; rfl

@[simp] theorem measureGamma_prl (s : State) : (measureGamma s).prl = s.prl := by
  unfold measureGamma
  split
  · rfl
  · simp only []; split <;> simp

@[simp] theorem scheduleTest_prl (s : State) : (scheduleTest s).prl = s.prl := by
  unfold scheduleTest; split <;> rfl

@[simp] theorem enterRecovering_prl (s : State) : (enterRecovering s).prl = s.prl := by
  simp only [enterRecovering, measureMu]; split <;> rfl

/-! ### What changes the roll and leaves T_est alone -/

theorem reportMark_tEst (fired : Fired) (placing : Placing) (wasForward : Bool) (s : State) :
    (reportMark fired placing wasForward s).prl.tEst = s.prl.tEst := by
  obtain ⟨report, -, h⟩ := reportMark_eq fired placing wasForward s
  rw [h]
  simp [clearSeenFlags, writeOwnEntry, changeEntry, countMissed, staleMark]

theorem dispatchEvent_tEst (rx : RxCopy) (e : EventFields) (s : State) :
    (dispatchEvent rx e s).prl.tEst = s.prl.tEst := by
  have hp : ∀ kind, (prlEvent rx.sender.toNat kind s).prl.tEst = s.prl.tEst := by
    intro kind; cases kind <;> rfl
  simp only [dispatchEvent]
  split <;> simp [hp]

/-! ### T_est stays in its range -/

section
variable {s u : State}

/-- T_est stays in its range where it does not change. -/
theorem PeriodOk.of_tEst_eq (h : PeriodOk s) (e : u.prl.tEst = s.prl.tEst) : PeriodOk u := by
  unfold PeriodOk at *; rwa [e]

theorem PeriodOk.of_prl_eq (h : PeriodOk s) (e : u.prl = s.prl) : PeriodOk u := h.of_tEst_eq (by rw [e])

/-- The PRL as a reset forms it has the nominal period, which is in the range. -/
theorem periodOk_of_nominal {p : Straps} (e : u.prl.tEst = nominalPeriod p.frequency) : PeriodOk u := by
  unfold PeriodOk
  rw [e]
  cases p.frequency <;> decide

/-- A sample within the gate gives a clamped T_est; one outside leaves T_est alone (R51). -/
theorem PeriodOk.judgeSample (sample : Nat) (h : PeriodOk s) : PeriodOk (judgeSample sample s) := by
  by_cases hg : ((sample : Int) - s.prl.tEst).natAbs ≤ s.prl.tEst / 10
  · rw [judgeSample_within hg]; exact movedPeriod_bounds _ _
  · rw [judgeSample_outlier hg]; exact h

theorem PeriodOk.offerMark (position : Nat) (t : Instant) (h : PeriodOk s) :
    PeriodOk (offerMark position t s) := by
  unfold Machine.offerMark
  split
  · exact h
  · split
    · simp only []
      split
      · exact h.judgeSample _
      · exact h
    · exact h

theorem PeriodOk.offerOwnMark (placing : Placing) (h : PeriodOk s) : PeriodOk (offerOwnMark placing s) :=
  h.offerMark s.position s.now

theorem PeriodOk.reportInterval (interval : Option Nat) (h : PeriodOk s) :
    PeriodOk (reportInterval interval s) := by
  unfold Machine.reportInterval
  split
  · exact h
  · split
    · exact h.judgeSample _
    · exact h

/-! ### Marks -/

theorem PeriodOk.markHandouts (placing : Placing) (refHeard : Bool) (h : PeriodOk s) :
    PeriodOk (markHandouts placing refHeard s) :=
  markHandouts_keeps placing refHeard (fun _ h => h)
    (fun _ h => h.of_prl_eq (judgeMark_prl ..)) (fun _ h => h.of_prl_eq (adopt_prl _))
    (fun _ h => h.of_prl_eq (countSurveyMark_prl _)) (fun _ h => h.offerOwnMark placing) s h

theorem PeriodOk.takeMark (fired : Fired) (mark : ArmedMark) (wasForward : Bool) (h : PeriodOk s) :
    PeriodOk (takeMark fired mark wasForward s) := by
  have hr : PeriodOk (reportMark fired mark.placing wasForward s) := h.of_tEst_eq (reportMark_tEst ..)
  have hc : PeriodOk (reportCycle (closePrfCycle (reportMark fired mark.placing wasForward s))) :=
    hr.of_prl_eq (by simp)
  exact (hc.markHandouts mark.placing s.referenceHeard).of_prl_eq (by simp [Machine.takeMark])

theorem PeriodOk.judgeLimit (h : PeriodOk s) : PeriodOk (judgeLimit s) := by
  unfold Machine.judgeLimit
  split
  · exact h
  · split
    · exact PeriodOk.takeMark _ _ _ (h.of_prl_eq (by simp))
    · exact h

theorem PeriodOk.settleDeferral (h : PeriodOk s) : PeriodOk (settleDeferral s) := by
  unfold Machine.settleDeferral
  split
  · exact h
  · split
    · exact PeriodOk.takeMark _ _ _ (h.of_prl_eq (by simp))
    · split
      · exact PeriodOk.takeMark _ _ _ (h.of_prl_eq (by simp))
      · exact h

theorem PeriodOk.settleProtective (h : PeriodOk s) : PeriodOk (settleProtective s) := by
  unfold Machine.settleProtective
  split
  · exact h
  · exact PeriodOk.takeMark _ _ _ (h.of_prl_eq (by simp))

theorem PeriodOk.markForward (mark : ArmedMark) (h : PeriodOk s) : PeriodOk (markForward mark s) := by
  unfold Machine.markForward
  split
  · exact h.takeMark _ _ _
  · split
    · exact h
    · split
      · exact h.takeMark _ _ _
      · exact PeriodOk.takeMark _ _ _ (h.of_prl_eq (by simp))

theorem PeriodOk.decideMark (mark : ArmedMark) (h : PeriodOk s) : PeriodOk (decideMark mark s) := by
  unfold Machine.decideMark
  split
  · exact PeriodOk.takeMark _ _ _ (h.of_prl_eq (by simp))
  · split
    · exact h.takeMark _ _ _
    · split
      · exact h.takeMark _ _ _
      · split
        · exact h.markForward mark
        · exact PeriodOk.takeMark _ _ _ (h.of_prl_eq (by simp))
        · exact h

theorem PeriodOk.markNow (h : PeriodOk s) : PeriodOk (markNow s) := by
  unfold Machine.markNow
  split
  · exact h
  · exact PeriodOk.decideMark _ h

theorem PeriodOk.endStopNow (h : PeriodOk s) : PeriodOk (endStopNow s) := by
  unfold Machine.endStopNow
  split
  · exact h
  · exact PeriodOk.takeMark _ _ _ (h.of_prl_eq (by simp))

theorem PeriodOk.deferralLoNow (h : PeriodOk s) : PeriodOk (deferralLoNow s) := by
  unfold Machine.deferralLoNow
  split
  · exact h
  · exact PeriodOk.takeMark _ _ _ (h.of_prl_eq (by simp))

/-! ### Entries of the valve -/

theorem PeriodOk.enterForward (h : PeriodOk s) : PeriodOk (enterForward s) := by
  refine PeriodOk.settleDeferral (PeriodOk.of_prl_eq (s := Machine.reportInterval _ _) ?_
    (by rw [adopt_prl, scheduleTest_prl, ficForward_prl]))
  refine PeriodOk.reportInterval _ (h.of_prl_eq ?_)
  split <;> simp

theorem PeriodOk.enterReverse (h : PeriodOk s) : PeriodOk (enterReverse s) := by
  simp only [Machine.enterReverse]
  split
  · exact PeriodOk.judgeLimit (h.of_prl_eq (by simp [dropSurveyTest]))
  · exact h.of_prl_eq (by simp)

theorem PeriodOk.enterDark (h : PeriodOk s) : PeriodOk (enterDark s) :=
  PeriodOk.judgeLimit (h.of_prl_eq (by simp [dropSurveyTest]))

theorem PeriodOk.testForward (h : PeriodOk s) : PeriodOk (testForward s) := by
  unfold Machine.testForward
  split
  · exact h
  · split
    · exact h.enterForward
    · exact h.enterForward
    · exact h.enterForward
    · exact h

theorem PeriodOk.testReverse (h : PeriodOk s) : PeriodOk (testReverse s) := by
  unfold Machine.testReverse
  split
  · exact h
  · split
    · split
      · exact h
      · exact h.enterReverse
    · exact h.enterReverse
    · exact h.of_prl_eq (by simp)
    · exact h

theorem PeriodOk.pstPrf (n : Nat) (h : PeriodOk s) : PeriodOk (pstPrf n s) := by
  simp only [Machine.pstPrf]
  split
  · exact h
  · split
    · exact PeriodOk.settleProtective (h.of_prl_eq (by simp))
    · exact h

theorem PeriodOk.assertBlock (h : PeriodOk s) : PeriodOk (assertBlock s) := by
  have hs : PeriodOk (stopTrains (s.setBlock true)) := h
  simp only [Machine.assertBlock]
  split
  · exact hs.of_prl_eq (by simp)
  · refine inAnyOrder_keeps _ (fun _ h => h) ?_ _ hs
    intro f hf x hx
    simp only [List.mem_cons, List.not_mem_nil, or_false] at hf
    obtain rfl | rfl := hf
    · exact hx.of_prl_eq (by simp)
    · exact hx.settleDeferral

/-! ### Frames -/

theorem PeriodOk.dispatchMark (rx : RxCopy) (m : MarkFields) (h : PeriodOk s) :
    PeriodOk (dispatchMark rx m s) := by
  simp only [Machine.dispatchMark]
  split
  · exact h
  · split
    · exact h
    · refine PeriodOk.of_prl_eq (PeriodOk.offerMark _ _ ?_) (handEntry_prl ..)
      exact h

/-- An effect held in UNSET keeps what it keeps elsewhere. -/
theorem unlessHeld_keeps {P : State → Prop} {effect : State → State} (he : P s → P (effect s))
    (h : P s) : P (s.unlessHeld effect) := by
  unfold State.unlessHeld
  split
  · exact h
  · exact he h

/-- The state that the judgement of a good copy leaves. -/
def Judged.state : Judged → State
  | .dropped s => s
  | .clash s => s
  | .accepted s => s

theorem judgeCopy_prl (rx : RxCopy) (fromPole : Bool) (s : State) :
    (judgeCopy rx fromPole s).state.prl = s.prl := by
  simp only [judgeCopy]
  split
  · simp only [Judged.state, changeLine_prl]
  · split
    · simp only [Judged.state, changeLine_prl]
    · split
      · simp only [Judged.state, changeLine_prl]
      · split
        · simp only [Judged.state, State.setFilter_prl, changeLine_prl]
        · simp only [Judged.state, State.setFilter_prl, changeLine_prl]

/-- A good copy leaves the PRL alone until it comes to a clash or to its dispatch, if it comes to either. -/
theorem receiveCopy_cases (rx : RxCopy) (fromPole : Bool) (dispatch : State → State) (s : State) :
    ∃ r : State, r.prl = s.prl ∧ (receiveCopy rx fromPole dispatch s = r
      ∨ receiveCopy rx fromPole dispatch s = stcClash r
      ∨ receiveCopy rx fromPole dispatch s = dispatch r) := by
  refine ⟨(judgeCopy rx fromPole s).state, judgeCopy_prl rx fromPole s, ?_⟩
  unfold receiveCopy
  cases judgeCopy rx fromPole s with
  | dropped r => exact .inl rfl
  | clash r => exact .inr (.inl rfl)
  | accepted r => exact .inr (.inr rfl)

theorem PeriodOk.receiveCopy {rx : RxCopy} {fromPole : Bool} {dispatch : State → State} (h : PeriodOk s)
    (hd : ∀ x, PeriodOk x → PeriodOk (dispatch x)) : PeriodOk (receiveCopy rx fromPole dispatch s) := by
  obtain ⟨r, hr, e | e | e⟩ := receiveCopy_cases rx fromPole dispatch s <;> rw [e]
  · exact h.of_prl_eq hr
  · exact h.of_prl_eq (by rw [stcClash_prl, hr])
  · exact hd r (h.of_prl_eq hr)

/-! ### The frames in which a command acts -/

theorem PeriodOk.act {t : Instant} {effect : State → State} (h : PeriodOk s)
    (e : Machine.act t s effect = .next u) (he : ∀ x, PeriodOk x → PeriodOk (effect x)) : PeriodOk u :=
  act_keeps h (he _) e

theorem PeriodOk.due {t : Instant} {due : State → Bool} {effect : State → State} (h : PeriodOk s)
    (e : dueEvent t s due effect = .next u) (he : ∀ x, PeriodOk x → PeriodOk (effect x)) :
    PeriodOk u := by
  refine h.act e fun x hx => unlessHeld_keeps (fun _ => ?_) hx
  split
  · exact he x hx
  · exact hx

theorem PeriodOk.indication {t : Instant} {n : Nat} {effect : State → State} (h : PeriodOk s)
    (e : indication t n s effect = .next u) (he : ∀ x, PeriodOk x → PeriodOk (effect x)) :
    PeriodOk u := by
  refine h.act e fun x hx => unlessHeld_keeps (fun _ => ?_) hx
  split
  · exact he x hx
  · exact hx

/-! ### COMMAND frames -/

/-- A command is carried out or refused (R159). -/
theorem judgeCommand_cases (head : CmdHead) (code : Byte) (permitted argument : State → Bool)
    (carry : State → State) (s : State) :
    judgeCommand head code permitted argument carry s = carry s
      ∨ ∃ detail, judgeCommand head code permitted argument carry s
          = refuseWith head code detail [] s := by
  unfold judgeCommand
  split
  · exact .inr ⟨_, rfl⟩
  · split
    · exact .inr ⟨_, rfl⟩
    · split
      · exact .inr ⟨_, rfl⟩
      · split
        · exact .inr ⟨_, rfl⟩
        · exact .inl rfl

@[simp] theorem refuseWith_prl (head : CmdHead) (code : Byte) (detail : Detail) (data : List Byte)
    (s : State) : (refuseWith head code detail data s).prl = s.prl := produceResult_prl ..

@[simp] theorem doneWith_prl (head : CmdHead) (code : Byte) (data : List Byte) (s : State) :
    (doneWith head code data s).prl = s.prl := produceResult_prl ..

theorem PeriodOk.receiveCommand {rx : RxCopy} {head : CmdHead} {take : State → State} (h : PeriodOk s)
    (ht : ∀ x, PeriodOk x → PeriodOk (take x)) : PeriodOk (receiveCommand rx head take s) := by
  refine h.receiveCopy fun x hx => ?_
  split
  · exact ht x hx
  · exact hx

/-- A command whose carrying out keeps the range keeps it, refused or not. -/
theorem PeriodOk.command {t : Instant} {rx : RxCopy} {head : CmdHead} {code : Byte}
    {permitted argument : State → Bool} {carry : State → State} (h : PeriodOk s)
    (e : Machine.act t s (Machine.receiveCommand rx head (judgeCommand head code permitted argument carry))
      = .next u)
    (hc : ∀ x, PeriodOk x → PeriodOk (carry x)) : PeriodOk u := by
  refine h.act e fun _ ha => ha.receiveCommand fun x hx => ?_
  obtain hj | ⟨detail, hj⟩ := judgeCommand_cases head code permitted argument carry x <;> rw [hj]
  · exact hc x hx
  · exact hx.of_prl_eq (refuseWith_prl ..)

/-- The adoption of a SETUP starts T_est at the nominal period (R5). -/
theorem PeriodOk.takeSetup (head : CmdHead) (f : SetupFields) (h : PeriodOk s) :
    PeriodOk (takeSetup head f s) := by
  unfold Machine.takeSetup
  split
  · exact h.of_prl_eq (refuseWith_prl ..)
  · exact periodOk_of_nominal (by rw [adoptSetup, enterListening_prl]; rfl)

/-- RESTART starts T_est at the nominal period (R58). -/
theorem periodOk_softReset (s : State) : PeriodOk (softReset s) :=
  periodOk_of_nominal (by rw [softReset, enterListening_prl]; rfl)

/-- A power-on reset starts T_est at the nominal period (R1). -/
theorem periodOk_powerOn (p : Straps) (feeds : Feeds) (clock choices : Nat) (pending : List Instr) :
    PeriodOk (State.powerOn p feeds clock choices pending) := periodOk_of_nominal rfl

/-! ### Every command -/

/-- Every command keeps T_est in its range. -/
theorem PeriodOk.exec {i : Instr} (h : PeriodOk s) (e : exec i s = .next u) : PeriodOk u := by
  cases i with
  | powerOnReset t wires => cases e; exact periodOk_powerOn ..
  | supplyLoss t inputs =>
    simp only [Machine.exec, execSupplyLoss] at e
    split at e <;> cases e
    · exact periodOk_powerOn ..
    · exact h
  | blockLineAsserted t held =>
    rw [Machine.exec, execBlockLineAsserted] at e
    refine h.act e fun _ ha => ?_
    split
    · exact ha.assertBlock
    · exact ha
  | blockLineReleased t held =>
    rw [Machine.exec, execBlockLineReleased] at e
    refine h.act e fun x hx => ?_
    split
    · exact hx.of_prl_eq (evaluateDeblock_prl _)
    · exact hx
  | setup t rx head fields => exact h.command e fun _ hx => hx.takeSetup head fields
  | survey t rx head first last => exact h.command e fun _ hx => hx
  | readLevels t rx head first count => exact h.command e fun _ hx => hx.of_prl_eq (doneWith_prl ..)
  | readRoll t rx head => exact h.command e fun _ hx => hx.of_prl_eq (doneWith_prl ..)
  | readHolds t rx head => exact h.command e fun _ hx => hx.of_prl_eq (doneWith_prl ..)
  | clearLevelOne t rx head n => exact h.command e fun _ hx => hx.of_prl_eq (by simp)
  | clearLevelAll t rx head => exact h.command e fun _ hx => hx.of_prl_eq (by simp)
  | clearHolds t rx head => exact h.command e fun _ hx => hx.of_prl_eq (by simp)
  | forceOutputs t rx head lines => exact h.command e fun _ hx => hx.of_prl_eq (by simp)
  | releaseOutputs t rx head lines => exact h.command e fun _ hx => hx.of_prl_eq (by simp)
  | restart t rx head => exact h.command e fun _ _ => periodOk_softReset _
  | unknownCommand t rx head code =>
    rw [Machine.exec, execUnknownCommand] at e
    refine h.act e fun _ ha => ?_
    split
    · exact ha
    · exact ha.receiveCommand fun _ hx => hx.of_prl_eq (refuseWith_prl ..)
  | markFrame t rx m =>
    exact h.act e fun _ ha => ha.receiveCopy fun _ hx =>
      unlessHeld_keeps (PeriodOk.dispatchMark rx m) hx
  | eventFrame t rx f =>
    exact h.act e fun _ ha => ha.receiveCopy fun _ hx =>
      unlessHeld_keeps (fun hy => hy.of_tEst_eq (dispatchEvent_tEst rx f _)) hx
  | orderFrame t rx o =>
    exact h.act e fun _ ha => ha.receiveCopy fun _ hx =>
      unlessHeld_keeps (fun hy => hy.of_prl_eq (orhOrder_prl o _)) hx
  | resultFrame t rx => exact h.act e fun _ ha => ha.receiveCopy fun _ hx => hx
  | badCopy t line bytes cutShort =>
    rw [Machine.exec, execBadCopy] at e
    refine h.act e fun x hx => ?_
    split
    · exact hx.of_prl_eq (changeLine_prl ..)
    · exact hx
  | transmissionStart t line dark => exact h.act e fun _ hx => hx.of_prl_eq (changeLine_prl ..)
  | transmissionComplete t line => exact h.act e fun _ hx => hx.of_prl_eq (changeLine_prl ..)
  | lagLimitRemoval t line => exact h.act e fun _ hx => hx.of_prl_eq (changeLine_prl ..)
  | echoMiss t line => exact h.act e fun _ hx => hx.of_prl_eq (changeLine_prl ..)
  | filterEntryExpiry t sender seq =>
    rw [Machine.exec, execFilterEntryExpiry] at e
    exact h.act e fun _ hx => hx
  | litEntry t line carrier => exact h.act e fun _ hx => hx.of_prl_eq (changeLine_prl ..)
  | litEnd t line => exact h.act e fun _ hx => hx.of_prl_eq (changeLine_prl ..)
  | silenceTimerExpiry t line => exact h.act e fun _ hx => hx.of_prl_eq (changeLine_prl ..)
  | fwdIndication t level =>
    rw [Machine.exec, execFwdIndication] at e
    refine h.indication e fun x hx => ?_
    split
    · exact hx
    · exact PeriodOk.testForward hx
  | revIndication t level =>
    rw [Machine.exec, execRevIndication] at e
    refine h.indication e fun x hx => ?_
    split
    · exact hx
    · exact PeriodOk.testReverse hx
  | prfIndication t level => exact h.indication e fun _ hx => PeriodOk.pstPrf level hx
  | ackIndication t level => exact h.indication e fun _ hx => hx.of_prl_eq (pstAck_prl level _)
  | inactivityExpiry t => exact h.due e fun _ hx => hx.enterDark
  | noExtinctionExpiry t => exact h.due e fun _ hx => hx.of_prl_eq (noExtinction_prl _)
  | markEvent t => exact h.due e fun _ hx => hx.markNow
  | endStop t => exact h.due e fun _ hx => hx.endStopNow
  | deferralLoReached t => exact h.due e fun _ hx => hx.deferralLoNow
  | deferralLimit t =>
    rw [Machine.exec, execDeferralLimit] at e
    exact h.act e fun _ => unlessHeld_keeps PeriodOk.judgeLimit
  | refireExpiry t => exact h.due e fun _ hx => hx.of_prl_eq (refirePulse_prl _)
  | bypassTrainExpiry t => exact h.due e fun _ hx => hx.of_prl_eq (bypassFiring_prl _)
  | ackWindowExpiry t => exact h.due e fun _ hx => hx.of_prl_eq (closeWindow_prl _)
  | prfGatherExpiry t => exact h.due e fun _ hx => hx
  | surveyTestPulse t => exact h.due e fun _ hx => hx.of_prl_eq (testPulse_prl _)
  | darkTimerExpiry t => exact h.due e fun _ hx => hx.of_prl_eq (enterListening_prl _)
  | orderStale t =>
    rw [Machine.exec, execOrderStale] at e
    exact h.act e fun _ => unlessHeld_keeps id
  | forcedBlock t =>
    rw [Machine.exec, execForcedBlock] at e
    exact h.act e fun _ => unlessHeld_keeps fun hx => hx.of_prl_eq (forceBlock_prl _)
  | alarmAssertExpiry t line =>
    rw [Machine.exec, execAlarmAssertExpiry] at e
    exact h.act e fun _ => unlessHeld_keeps id
  | alarmReleaseExpiry t line =>
    rw [Machine.exec, execAlarmReleaseExpiry] at e
    exact h.act e fun _ => unlessHeld_keeps id
  | commandOtherTarget t rx head =>
    rw [Machine.exec, execCommandOtherTarget] at e
    refine h.act e fun _ ha => ?_
    split
    · exact ha
    · exact ha.receiveCopy fun _ hx => hx

/-- Every step keeps T_est in its range: with a command waiting as the command does, and idling otherwise. -/
theorem PeriodOk.step (h : PeriodOk s) (e : step s = .next u) : PeriodOk u := by
  unfold Machine.step at e
  split at e
  next => cases e; exact h
  next c rest _ => exact PeriodOk.exec (s := s.setPending rest) h e

end

/-- Settles O48: the gate and the clamp of a sample by the two equations of `judgeSample`; the range of T_est
by the step lemma, and at reset as at every power-on. -/
theorem sampleJudged : Obligations.SampleJudged := by
  refine ⟨fun sample s => ⟨fun hgate => ?_, fun hout => ?_⟩, fun s u => PeriodOk.step,
    periodOk_powerOn ..⟩
  · refine ⟨_, judgeSample_within (by omega), ?_⟩
    rw [movedPeriod_eq, tdiv_sixteen, clampInt]
  · exact judgeSample_outlier (by omega)

end Sys2Proof.Machine
end

