-- ==== Sys2Proof/Proofs/Target.lean ====
section
/-! PROOFS. The target angle of the Firing Instant Computer (R54, R97 to R99): the group minimum gamma as the
least of the gammas that take part in it, the two forms of the target angle, and its range. -/

namespace Sys2Proof.Machine

/-! ### The group minimum gamma (R54) -/

/-- The smaller of values that may be absent, taken one by one, is the minimum of those that are present. -/
theorem foldl_minOption (x : Option Nat) (xs : List (Option Nat)) :
    xs.foldl minOption x = ((x :: xs).filterMap id).min? := by
  induction xs generalizing x with
  | nil => cases x <;> rfl
  | cons y ys ih =>
    rw [List.foldl_cons, ih]
    cases x with
    | none => rfl
    | some a =>
      cases y with
      | none => rfl
      | some b => rfl

theorem mem_iff_itemAt {α : Type} {items : List α} {x : α} :
    x ∈ items ↔ ∃ k, itemAt items k = some x := by
  rw [List.mem_iff_getElem?]
  constructor
  · rintro ⟨i, h⟩
    exact ⟨i + 1, h⟩
  · rintro ⟨k, h⟩
    rw [itemAt, Option.ite_none_left_eq_some] at h
    exact ⟨k - 1, h.2⟩

section
variable {s : State}

theorem ownMark_eq : s.ownMark = s.ownReport.map RollReport.markInstant := by
  unfold State.ownMark State.ownReport
  split <;> simp [*]

/-- Later than the own last mark is later than the mark instant of the own report, where there is one. -/
theorem laterThanRecord_ownMark_iff (t : Instant) :
    laterThanRecord t s.ownMark = true
      ↔ ∀ own, s.ownReport = some own → later t own.markInstant = true := by
  rw [ownMark_eq]
  cases s.ownReport with
  | none => simp [laterThanRecord]
  | some own => simp [laterThanRecord]

theorem freshGamma_eq_some_iff {g : Nat} :
    s.freshGamma = some g
      ↔ ∃ x, s.vcm.gamma = some x ∧ laterThanRecord x.instant s.ownMark = true ∧ x.angle = g := by
  unfold State.freshGamma State.sinceOwnMark
  cases s.vcm.gamma with
  | none => simp
  | some x => simp

theorem RollEntry.recentGamma_eq_some_iff {own : Option Instant} {y : RollEntry} {g : Nat} :
    y.recentGamma own = some g
      ↔ y.missed ≠ 255 ∧ ∃ h, y.held = some h ∧ laterThanRecord h.acceptInstant own = true
        ∧ h.report.gamma = some g := by
  unfold RollEntry.recentGamma RollEntry.current
  by_cases hm : y.missed = 255
  · simp [hm]
  · cases y.held with
    | none => simp [hm]
    | some h => simp [hm]

/-- A gamma takes part in g_min: it was measured here since the own last mark, or a peer that is held and not
aged reports it in a MARK accepted since then. -/
def State.GammaCounts (s : State) (g : Nat) : Prop :=
  let since (t : Instant) : Prop := ∀ own, s.ownReport = some own → later t own.markInstant = true
  (∃ x, s.vcm.gamma = some x ∧ since x.instant ∧ x.angle = g)
    ∨ ∃ k y h, k ≠ s.position ∧ s.entry k = some y ∧ y.missed ≠ 255 ∧ y.held = some h
        ∧ since h.acceptInstant ∧ h.report.gamma = some g

/-- What each position of the roll gives to g_min. -/
def State.peerGammas (s : State) : List (Option Nat) :=
  mapFrom (fun k y => if k = s.position then none else RollEntry.recentGamma s.ownMark y) 1 s.prl.roll

theorem some_mem_peerGammas_iff {g : Nat} :
    some g ∈ s.peerGammas
      ↔ ∃ k y, k ≠ s.position ∧ s.entry k = some y ∧ y.recentGamma s.ownMark = some g := by
  simp only [State.peerGammas, mem_iff_itemAt, itemAt_mapFrom, Option.map_eq_some_iff,
    Option.ite_none_left_eq_some, State.entry]
  exact exists_congr fun k => exists_congr fun y => and_left_comm

theorem gammaCounts_iff_mem {g : Nat} :
    s.GammaCounts g ↔ g ∈ (s.freshGamma :: s.peerGammas).filterMap id := by
  simp only [List.mem_filterMap, id_eq, exists_eq_right, List.mem_cons, eq_comm (a := some g), freshGamma_eq_some_iff,
    some_mem_peerGammas_iff, RollEntry.recentGamma_eq_some_iff, laterThanRecord_ownMark_iff,
    State.GammaCounts, exists_and_left]

theorem gMin_eq_min? : s.gMin = ((s.freshGamma :: s.peerGammas).filterMap id).min? :=
  foldl_minOption s.freshGamma s.peerGammas

theorem gMin_eq_none_iff : s.gMin = none ↔ ∀ g, ¬ s.GammaCounts g := by
  simp only [gMin_eq_min?, List.min?_eq_none_iff, List.eq_nil_iff_forall_not_mem, gammaCounts_iff_mem]

theorem gMin_eq_some_iff {g : Nat} :
    s.gMin = some g ↔ s.GammaCounts g ∧ ∀ g', s.GammaCounts g' → g ≤ g' := by
  simp only [gMin_eq_min?, List.min?_eq_some_iff, gammaCounts_iff_mem]

/-! ### The order as supplied (R136) and the steps of R99 -/

theorem alphaOrder_eq :
    s.alphaOrder = if 18000 < s.orh.current.alphaOrder then 18000 else s.orh.current.alphaOrder := by
  unfold State.alphaOrder
  split <;> omega

theorem gammaOrder_eq :
    s.gammaOrder =
      (let bounded := if 6000 < s.orh.current.gammaOrder then 6000 else s.orh.current.gammaOrder
       if bounded < s.cfg.gammaCrit then s.cfg.gammaCrit else bounded) := by
  have hb : (if 6000 < s.orh.current.gammaOrder then 6000 else s.orh.current.gammaOrder)
      = min 6000 s.orh.current.gammaOrder := by split <;> omega
  simp only [hb]
  unfold State.gammaOrder
  split <;> omega

/-- The deficit, as R99 says it of signed values. -/
theorem deficitOf_eq (gammaOrder deadband : Nat) (gMin : Option Nat) :
    (deficitOf gammaOrder deadband gMin : Int) = match gMin with
      | none => 0
      | some g =>
        let d : Int := if (g : Int) < gammaOrder then (gammaOrder : Int) - g else 0
        if d ≤ deadband then 0 else d := by
  cases gMin with
  | none => rfl
  | some g =>
    have hd : ((gammaOrder - g : Nat) : Int)
        = if (g : Int) < gammaOrder then (gammaOrder : Int) - g else 0 := by
      split <;> omega
    simp only [deficitOf, ← hd, Int.ofNat_le]
    split <;> rfl

theorem advance1_eq : (s.advance1 : Int) = if 0 < s.fic.advanceCount then (s.cfg.acf : Int) else 0 :=
  apply_ite Nat.cast ..

/-! ### The target angle (R98, R99) -/

theorem alphaTarget_rectifier (h : s.orh.current.mode = .rectifier) :
    s.alphaTarget = clampInt s.cfg.alphaMin s.cfg.alphaMaxR s.alphaOrder := by
  rw [State.alphaTarget, h]

theorem alphaTarget_inverter (h : s.orh.current.mode = .inverter) :
    s.alphaTarget
      = clampInt s.cfg.alphaMin s.cfg.alphaMaxI (min (s.alphaOrder : Int) s.marginAngle) := by
  rw [State.alphaTarget, h]

/-- With the SETUP record in range the target lies within the limits of the current mode, and so within
[500, 16,500]. -/
theorem alphaTarget_bounds (hc : s.cfg.InRange) :
    500 ≤ s.alphaTarget ∧ s.alphaTarget ≤ 16500 ∧ (s.cfg.alphaMin : Int) ≤ s.alphaTarget
      ∧ (s.orh.current.mode = .rectifier → s.alphaTarget ≤ s.cfg.alphaMaxR)
      ∧ (s.orh.current.mode = .inverter → s.alphaTarget ≤ s.cfg.alphaMaxI) := by
  obtain ⟨-, -, -, -, -, -, -, -, -, -, hMin, -, hR, hMaxR, hI, hMaxI, -⟩ := hc
  cases hm : s.orh.current.mode with
  | rectifier =>
    have hb := clampInt_bounds (Int.ofNat_le.2 hR) s.alphaOrder
    rw [← alphaTarget_rectifier hm] at hb
    refine ⟨?_, ?_, hb.1, fun _ => hb.2, nofun⟩ <;> omega
  | inverter =>
    have hb := clampInt_bounds (Int.ofNat_le.2 hI) (min (s.alphaOrder : Int) s.marginAngle)
    rw [← alphaTarget_inverter hm] at hb
    refine ⟨?_, ?_, hb.1, nofun, fun _ => hb.2⟩ <;> omega

end

/-- Settles O46: the two forms of the target angle with the order as supplied, g_min as the least gamma that
counts, and the range from the clamps; the advance count of RECTIFIER mode is part of `OrderOk`. -/
theorem targetAngle : Obligations.TargetAngle := by
  intro s
  refine ⟨fun h => ⟨?_, fun hOrder => ?_⟩, fun h => ?_, gMin_eq_none_iff, fun g => gMin_eq_some_iff.1,
    alphaTarget_bounds⟩
  · rw [alphaTarget_rectifier h, alphaOrder_eq]
  · obtain ⟨-, -, -, hRectifier⟩ := hOrder
    exact hRectifier h
  · have hTarget := alphaTarget_inverter h
    rw [State.marginAngle, alphaOrder_eq, deficitOf_eq, advance1_eq, gammaOrder_eq] at hTarget
    exact hTarget

end Sys2Proof.Machine
end

