-- ==== Sys2Proof/Proofs/Acks.lean ====
section
/-! PROOFS. ACK indications (R59, R85, R124, R125): which open window an ACK joins, what a stray one counts,
and the sign of life of a SILENT level. -/

namespace Sys2Proof.Machine

/-! ### Indications (R2, R59) -/

/-- Outside UNSET, an indication on one of the valve's own inputs has its effect at its instant. -/
theorem indication_taken {n : Nat} {s : State} (hSupplied : s.supplied = true)
    (hState : s.stc.state ≠ .unset) (hn : 1 ≤ n ∧ n ≤ s.cfg.levels) (t : Instant)
    (effect : State → State) : indication t n s effect = .next (effect (s.advance t)) := by
  have hHeard : (s.advance t).stc.state ≠ .unset := hState
  have hInput : within 1 (s.advance t).cfg.levels n = true := (within_iff ..).2 hn
  rw [indication, act_supplied hSupplied, unlessHeld_of_ne hHeard, if_pos hInput]

/-! ### Signs of life (R85) -/

theorem signOfLife_eq (x : LevelRecord) :
    x.signOfLife = { x with seen := if x.state = .silent then true else x.seen } := by
  unfold LevelRecord.signOfLife
  split <;> rfl

theorem touchLevel_signOfLife (n : Nat) (s : State) :
    touchLevel LevelRecord.signOfLife n s = { s with
      lvt := { s.lvt with levels := changeAt (fun x =>
        { x with seen := if x.state = .silent then true else x.seen }) s.lvt.levels n } } := by
  rw [touchLevel, funext signOfLife_eq]
  rfl

/-! ### The window that an ACK joins (R124) -/

/-- An ACK from level `n` joins the window: a SURVEY window takes every ACK, the others those of their targets. -/
def AckWindow.Joins (w : AckWindow) (n : Nat) : Prop := (∃ k, w.kind = .survey k) ∨ n ∈ w.targets

section
variable {n : Nat} {w : AckWindow} {s : State}

theorem AckWindow.joins_iff_mem (hKind : w.kind = .main ∨ w.kind = .pvf) :
    w.Joins n ↔ n ∈ w.targets := by
  have hNoSurvey : ¬ ∃ k, w.kind = .survey k := by
    rintro ⟨k, hk⟩
    simp [hk] at hKind
  exact or_iff_right hNoSurvey

/-- An ACK that joins the open window is gathered, and its level shows life if it is SILENT. -/
theorem pstAck_joins (hw : s.pst.window = some w) (hj : w.Joins n) :
    pstAck n s = touchLevel LevelRecord.signOfLife n
      (s.setPst { s.pst with window := some { w with acked := insertLevel n w.acked } }) := by
  unfold pstAck
  rw [hw]
  obtain ⟨kind, targets, acked, expiry⟩ := w
  cases kind with
  | survey k => rfl
  | main =>
    have hTarget : n ∈ targets := (AckWindow.joins_iff_mem (.inl rfl)).1 hj
    simp [hTarget]
  | pvf =>
    have hTarget : n ∈ targets := (AckWindow.joins_iff_mem (.inr rfl)).1 hj
    simp [hTarget]

/-- An ACK that joins no window counts as stray unless its level is SILENT, which then shows life. -/
theorem pstAck_stray (hw : ∀ w, s.pst.window = some w → ¬ w.Joins n) :
    pstAck n s = touchLevel LevelRecord.signOfLife n
      (if s.levelState n = some .silent then s
        else s.setPst { s.pst with strayAck := min 65535 (s.pst.strayAck + 1) }) := by
  unfold pstAck
  cases hs : s.pst.window with
  | none => simp [State.silent, count16]
  | some w =>
    have hj : ¬ w.Joins n := hw w hs
    have hTarget : n ∉ w.targets := fun h => hj (.inr h)
    cases hk : w.kind with
    | survey k => exact absurd (.inl ⟨k, hk⟩) hj
    | main => simp [hk, hTarget, State.silent, count16]
    | pvf => simp [hk, hTarget, State.silent, count16]

end

/-- Settles O38: the indication has its effect, which gathers an ACK that joins the open window and counts
another as stray, with the sign of life in both cases. -/
theorem ackTaken : Obligations.AckTaken := by
  intro t n s hSupplied hState hLow hHigh
  have hExec : exec (.ackIndication t n) s = .next (pstAck n (s.advance t)) :=
    indication_taken hSupplied hState ⟨hLow, hHigh⟩ t (pstAck n)
  refine ⟨fun w hw hj => ?_, fun hStray => ?_⟩
  · rw [hExec, pstAck_joins (s := s.advance t) hw hj, touchLevel_signOfLife]
    rfl
  · have hNone : ∀ w, (s.advance t).pst.window = some w → ¬ w.Joins n := fun w hw =>
      have ⟨hKind, hTarget⟩ := hStray w hw
      mt (AckWindow.joins_iff_mem hKind).1 hTarget
    have hLevel : (s.advance t).levelState n = s.levelState n := rfl
    rw [hExec, pstAck_stray hNone, touchLevel_signOfLife, hLevel]
    split <;> rfl

end Sys2Proof.Machine
end

