-- ==== Sys2Proof/Proofs/TimeSettings.lean ====
section
/-! PROOFS. Time settings (R175) and the length of a timer so set (R176). A boundary is a reading that is a
multiple of the scale and leaves room for a whole scale unit and the wrap's delay before the tick counter wraps;
so boundaries lie at least a scale unit apart, and a timer of at most 16 of them meets the wrap at most once. -/

namespace Sys2Proof.Machine

/-! ### The byte (R175) -/

theorem ticks_of_scaleOfCode {code : Nat} (h : code ≤ 3) :
    ((scaleOfCode code).getD .us1).ticks = 10 ^ code := by
  match code, h with
  | 0, _ | 1, _ | 2, _ | 3, _ => rfl

theorem settingOk_iff_code_le (b : Byte) : settingOk b = true ↔ b.toNat / 16 ≤ 3 := by
  rw [settingOk_iff]
  omega

/-! ### Boundaries (R176) -/

/-- How much longer than a scale unit the boundary at the wrap is in coming. -/
def Scale.wrapDelay : Scale → Nat
  | .us1 => 0
  | .us10 => 6
  | .us100 => 96
  | .ms1 => 296

/-- The count reads a boundary of the scale: a multiple, and not the last one before the wrap, which the
longer scales leave out. -/
def Scale.IsBoundary (scale : Scale) (clock : Nat) : Prop :=
  clock % 4294967296 % scale.ticks = 0
    ∧ clock % 4294967296 + scale.ticks + scale.wrapDelay ≤ 4294967296

theorem Scale.ticks_le (scale : Scale) : scale.ticks ≤ 1000 := by cases scale <;> decide

theorem Scale.wrapDelay_le (scale : Scale) : scale.wrapDelay ≤ 296 := by cases scale <;> decide

/-- The next boundary is the next multiple of the scale; or it is the wrap, where that multiple lies within the
wrap's delay of it. -/
theorem nextBoundary_multiple_or_wrap (scale : Scale) (clock : Nat) :
    let multiple := (clock % 4294967296 / scale.ticks + 1) * scale.ticks
    (multiple + scale.wrapDelay < 4294967296
        ∧ nextBoundary scale clock = clock / 4294967296 * 4294967296 + multiple)
      ∨ (4294967296 ≤ multiple + scale.wrapDelay
        ∧ nextBoundary scale clock = (clock / 4294967296 + 1) * 4294967296) := by
  cases scale with
  | us1 =>
    simp only [nextBoundary_us1, Scale.ticks, Scale.wrapDelay]
    omega
  | us10 | us100 | ms1 =>
    simp only [nextBoundary]
    split
    case isTrue h =>
      obtain ⟨-, hLast⟩ := h
      simp only [Scale.ticks, Scale.wrapDelay] at hLast ⊢
      omega
    case isFalse h =>
      have hBefore := not_and.1 h nofun
      simp only [Scale.ticks, Scale.wrapDelay] at hBefore ⊢
      omega

/-- The next boundary comes within a scale unit on the same turn of the tick counter, or at the wrap within a
scale unit and the wrap's delay. -/
theorem nextBoundary_cases (scale : Scale) (clock : Nat) :
    (nextBoundary scale clock / 4294967296 = clock / 4294967296
        ∧ nextBoundary scale clock ≤ clock + scale.ticks ∧ scale.IsBoundary (nextBoundary scale clock))
      ∨ (nextBoundary scale clock = (clock / 4294967296 + 1) * 4294967296
        ∧ nextBoundary scale clock ≤ clock + scale.ticks + scale.wrapDelay) := by
  obtain ⟨hRoom, hNext⟩ | ⟨hNear, hNext⟩ := nextBoundary_multiple_or_wrap scale clock
  · have hTurn : nextBoundary scale clock / 4294967296 = clock / 4294967296 := by omega
    have hReading : nextBoundary scale clock % 4294967296
        = (clock % 4294967296 / scale.ticks + 1) * scale.ticks := by omega
    refine .inl ⟨hTurn, ?_, ?_, ?_⟩
    · have := Nat.div_mul_le_self (clock % 4294967296) scale.ticks
      rw [hNext, Nat.succ_mul]
      omega
    · rw [hReading, Nat.mul_mod_left]
    · rw [hReading]
      revert hRoom
      cases scale <;> simp only [Scale.ticks, Scale.wrapDelay] <;> omega
  · have := Nat.div_mul_le_self (clock % 4294967296) scale.ticks
    rw [Nat.succ_mul] at hNear
    exact .inr ⟨hNext, by omega⟩

theorem nextBoundary_isBoundary (scale : Scale) (clock : Nat) :
    scale.IsBoundary (nextBoundary scale clock) := by
  obtain ⟨-, -, h⟩ | ⟨h, -⟩ := nextBoundary_cases scale clock
  · exact h
  · have := scale.ticks_le
    have := scale.wrapDelay_le
    rw [h, Scale.IsBoundary, Nat.mul_mod_left, Nat.zero_mod]
    omega

/-- No two boundaries lie less than a scale unit apart. -/
theorem add_ticks_le_nextBoundary {scale : Scale} {clock : Nat} (h : scale.IsBoundary clock) :
    clock + scale.ticks ≤ nextBoundary scale clock := by
  obtain ⟨hMultiple, hRoom⟩ := h
  have hReading := Nat.div_mul_cancel (Nat.dvd_of_mod_eq_zero hMultiple)
  have hNext := nextBoundary_multiple_or_wrap scale clock
  simp only [Nat.succ_mul, hReading] at hNext
  omega

/-! ### Counting boundaries -/

theorem boundaryAfter_succ (scale : Scale) (n clock : Nat) :
    boundaryAfter scale (n + 1) clock = nextBoundary scale (boundaryAfter scale n clock) := by
  induction n generalizing clock with
  | zero => rfl
  | succ n ih => exact ih (nextBoundary scale clock)

theorem boundaryAfter_us1 (n clock : Nat) : boundaryAfter .us1 n clock = clock + n := by
  induction n with
  | zero => rfl
  | succ n ih => rw [boundaryAfter_succ, ih, nextBoundary_us1, Nat.add_assoc]

/-- The first boundary lies after the start, and each further one at least a scale unit later. -/
theorem lt_boundaryAfter_succ (scale : Scale) (n clock : Nat) :
    clock + n * scale.ticks < boundaryAfter scale (n + 1) clock := by
  induction n with
  | zero => simpa [boundaryAfter] using lt_nextBoundary scale clock
  | succ n ih =>
    have hStep := add_ticks_le_nextBoundary (nextBoundary_isBoundary scale (boundaryAfter scale n clock))
    rw [← boundaryAfter_succ, ← boundaryAfter_succ] at hStep
    rw [Nat.succ_mul]
    omega

/-- Up to 16 boundaries come within as many scale units on the same turn of the tick counter; or the wrap is met
once, and its delay added. -/
theorem boundaryAfter_cases (scale : Scale) (clock : Nat) {n : Nat} (hn : n ≤ 16) :
    (boundaryAfter scale n clock / 4294967296 = clock / 4294967296
        ∧ boundaryAfter scale n clock ≤ clock + n * scale.ticks)
      ∨ (boundaryAfter scale n clock / 4294967296 = clock / 4294967296 + 1
        ∧ boundaryAfter scale n clock % 4294967296 ≤ n * scale.ticks
        ∧ boundaryAfter scale n clock ≤ clock + n * scale.ticks + scale.wrapDelay) := by
  induction n with
  | zero => exact .inl ⟨rfl, Nat.le_add_right ..⟩
  | succ n ih =>
    have hTicks := scale.ticks_le
    have hDelay := scale.wrapDelay_le
    have hSpan : n * scale.ticks ≤ 16 * 1000 := Nat.mul_le_mul (by omega) hTicks
    have hNext := nextBoundary_cases scale (boundaryAfter scale n clock)
    rw [boundaryAfter_succ, Nat.succ_mul]
    obtain ⟨hTurn, hLe⟩ | ⟨hTurn, hReading, hLe⟩ := ih (by omega)
    · obtain ⟨hSame, hStep, -⟩ | ⟨hWrap, hStep⟩ := hNext
      · exact .inl (by omega)
      · exact .inr (by omega)
    · obtain ⟨hSame, hStep, -⟩ | ⟨hWrap, hStep⟩ := hNext
      · exact .inr (by omega)
      · -- The reading is still far from a second wrap.
        omega

/-- Settles O49: the byte by its scale codes, and the timer by its `factor + 1` boundaries, at most 16. -/
theorem timeSettings : Obligations.TimeSettings := by
  refine ⟨fun b => ⟨settingOk_iff_code_le b, rfl, ?_, ticks_of_scaleOfCode⟩, fun setting clock hFactor => ?_⟩
  · exact Nat.le_of_lt_succ (Nat.mod_lt b.toNat (by decide))
  · obtain ⟨scale, factor⟩ := setting
    have hCases := boundaryAfter_cases scale clock (Nat.succ_le_succ hFactor)
    have hBoundary := nextBoundary_isBoundary scale (boundaryAfter scale factor clock)
    rw [← boundaryAfter_succ] at hBoundary
    refine ⟨lt_boundaryAfter_succ scale factor clock, ?_, fun hSame => ?_, hBoundary.1, ?_⟩
    · have hLate : timerExpiry ⟨scale, factor⟩ clock
          ≤ clock + (factor + 1) * scale.ticks + scale.wrapDelay := by
        unfold timerExpiry
        obtain ⟨-, hLe⟩ | ⟨-, -, hLe⟩ := hCases
        · exact Nat.le_add_right_of_le hLe
        · exact hLe
      cases scale <;> exact hLate
    · obtain ⟨-, hLe⟩ | ⟨hTurn, -⟩ := hCases
      · exact hLe
      · exact absurd (hTurn.symm.trans hSame) (Nat.succ_ne_self _)
    · rintro ⟨⟩
      exact boundaryAfter_us1 (factor + 1) clock

end Sys2Proof.Machine
end

