-- ==== Sys2Proof/Proofs/Moves.lean ====
section
/-! PROOFS. What a command can do, said once. Every command is a run of small moves, and each move changes one
block or a few records of it. A move says of its change only what some invariant needs: that the block's own
invariant is kept. An invariant over every step is then proved move by move, and a run whose tags leave a block
out leaves the block alone. -/

namespace Sys2Proof.Machine

/-! ### Choices and orders -/

/-- Two choices by equivalent conditions with equal outcomes. -/
theorem ite_of_iff {α : Sort _} {p q : Prop} [Decidable p] [Decidable q] {a b c d : α} (h : p ↔ q) (ha : a = c)
    (hb : b = d) : (if p then a else b) = if q then c else d := ite_congr (propext h) (fun _ => ha) fun _ => hb

theorem perm_two {α : Type} {a b : α} {o : List α} (h : o.Perm [a, b]) : o = [a, b] ∨ o = [b, a] := by
  cases o with
  | nil => exact nomatch h.length_eq
  | cons x rest =>
    have hFirst : x ∈ [a, b] := h.subset List.mem_cons_self
    rw [List.mem_cons, List.mem_singleton] at hFirst
    obtain rfl | rfl := hFirst
    · exact .inl (congrArg (x :: ·) (List.perm_singleton.1 ((List.perm_cons x).1 h)))
    · exact .inr (congrArg (x :: ·) (List.perm_singleton.1 ((List.perm_cons x).1 (h.trans (.swap x a [])))))

theorem perm_three {α : Type} {a b c : α} {o : List α} (h : o.Perm [a, b, c]) : o = [a, b, c] ∨ o = [b, a, c]
    ∨ o = [b, c, a] ∨ o = [a, c, b] ∨ o = [c, a, b] ∨ o = [c, b, a] := by
  have hLed {x y z : α} {rest : List α} (hRest : (x :: rest).Perm [x, y, z]) : rest = [y, z] ∨ rest = [z, y] :=
    perm_two ((List.perm_cons x).1 hRest)
  cases o with
  | nil => exact nomatch h.length_eq
  | cons x rest =>
    have hFirst : x ∈ [a, b, c] := h.subset List.mem_cons_self
    rw [List.mem_cons, List.mem_cons, List.mem_singleton] at hFirst
    obtain rfl | rfl | rfl := hFirst
    · obtain rfl | rfl := hLed h
      · exact .inl rfl
      · exact .inr (.inr (.inr (.inl rfl)))
    · obtain rfl | rfl := hLed (h.trans (.swap x a [c]))
      · exact .inr (.inl rfl)
      · exact .inr (.inr (.inl rfl))
    · obtain rfl | rfl := hLed (h.trans ((List.Perm.cons a (.swap x b [])).trans (.swap x a [b])))
      · exact .inr (.inr (.inr (.inr (.inl rfl))))
      · exact .inr (.inr (.inr (.inr (.inr rfl))))

/-! ### Two shared updates -/

/-- The station moves to a state: the DARK timer stops (R9), and trains stop as R120 and R121 give. -/
def State.moved (new : StationState) (s : State) : State :=
  (s.setStc { s.stc with state := new, darkTimer := none }).setPst
    { s.pst with train := trainAfter s.stc.state new s.pst.train }

/-- The advance count that an adopted order leaves (R114). -/
def advanceUnder (mode : Mode) (count : Nat) : Nat :=
  match mode with
  | .rectifier => 0
  | .inverter => count

/-- A pending order becomes current (R138), and RECTIFIER sets the advance count to 0 (R114). -/
def State.ordered (o : Order) (s : State) : State :=
  (s.setOrh { s.orh with current := o, pending := none, pendingForced := false }).setFic
    { s.fic with advanceCount := advanceUnder o.mode s.fic.advanceCount }

/-- The station once a SETUP has been adopted (R5): the blocks have started, and the station is LISTENING. -/
def State.configured (c : Setup) (s : State) : State :=
  (startBlocks c s).setStc { s.stc with
    setup := some c, state := .listening, darkTimer := none, syncCount := 0, badRun := 0, goodRun := 0
    syncLost := false }

/-- Every block after RESTART, before the station enters LISTENING (R16). -/
def State.restarted (s : State) : State :=
  judgePrfRate { s with
    stc := s.stc.restart
    prl := s.prl.restart s.stc.straps
    vcm := s.vcm.restart
    fic := s.fic.restart
    pst := s.pst.restart
    orh := s.orh.restart
    pmn := s.pmn.restart
    cmu := { executing := none } }

/-! ### Moves -/

/-- What a move changes. `state` and `leave` are the changes of the station state, from RUNNING and BYPASSING
under `leave`; `fic` and `arm` those of the FIC's records, under `arm` also an arming beside a waiting deferral;
`train` and `loose` those of the train record, under `loose` also a train outside its state. -/
inductive Tag where
  | line | filter | stc | state | leave | prl | vcm | levels | touch | seq | fic | arm | defer | undefer
  | pst | window | train | loose | survey | progress | orh | order | pmn | pulse | block | release | choice
  | setup | restart
  deriving DecidableEq

/-- A small change of the station. -/
inductive Move : Tag → State → State → Prop where
  | line {s : State} (l : Line) (x : LineState) (hOk : (s.line l).Ok → x.Ok)
      (hEcho : s.stc.strapError = true → (s.line l).echo = none → x.echo = none) :
      Move .line s (s.setLine l x)
  | filter {s : State} (x : List FilterEntry) (h : FilterOk s → FilterOk (s.setFilter x)) :
      Move .filter s (s.setFilter x)
  | stc {s : State} (x : Stc) (h : RunsOk s → RunsOk (s.setStc x)) :
      Move .stc s (s.setStc { x with
        state := s.stc.state, straps := s.stc.straps, strapError := s.stc.strapError, setup := s.stc.setup })
  | state {s : State} (new : StationState) (hOld : s.stc.state ≠ .unset) (hNew : new ≠ .unset)
      (hFiring : s.stc.state ≠ .running ∧ s.stc.state ≠ .bypassing)
      (hIdle : s.stc.state = .synced → s.cmu.executing = none) : Move .state s (s.moved new)
  | leave {s : State} (new : StationState) (hNew : new ≠ .unset)
      (hFiring : s.stc.state = .running ∨ s.stc.state = .bypassing) : Move .leave s (s.moved new)
  | prl {s : State} (x : Prl) (hRoll : RollOk s → RollOk (s.setPrl x))
      (hArrival : ∀ a ∈ x.lastArrival, a ∈ s.prl.lastArrival
        ∨ (1 ≤ a.position ∧ a.position ≤ s.group) ∨ a.position = s.position) :
      Move .prl s (s.setPrl x)
  | vcm {s : State} (x : Vcm) (h : ValveOk s → ValveOk (s.setVcm x)) : Move .vcm s (s.setVcm x)
  | levels {s : State} (levels : List LevelRecord)
      (hOk : (∀ r ∈ s.lvt.levels, r.Ok) → ∀ r ∈ levels, r.Ok)
      (hLength : levels.length = s.lvt.levels.length) : Move .levels s (levelsSet levels s)
  | touch {s : State} (f : LevelRecord → LevelRecord) (n : Nat) (hOk : ∀ r, r.Ok → (f r).Ok)
      (hState : ∀ r, (f r).state = r.state) : Move .touch s (touchLevel f n s)
  | seq {s : State} : Move .seq s (s.setFic { s.fic with seqCounter := s.fic.seqCounter + 1 })
  | fic {s : State} (x : Fic) (hOrder : SetupOk s → OrderOk s → OrderOk (s.setFic x))
      (hArmed : s.fic.deferral.isSome = true → s.fic.armed = none → x.armed = none) :
      Move .fic s (s.setFic { x with deferral := s.fic.deferral, seqCounter := s.fic.seqCounter })
  | arm {s : State} (x : Fic) (hOrder : SetupOk s → OrderOk s → OrderOk (s.setFic x)) :
      Move .arm s (s.setFic { x with deferral := s.fic.deferral, seqCounter := s.fic.seqCounter })
  | defer {s : State} (mark : ArmedMark) (hArmed : s.fic.armed = none) (hState : s.stc.state = .running)
      (hBlock : s.blockAsserted = false) : Move .defer s (s.setFic { s.fic with deferral := some mark })
  | undefer {s : State} : Move .undefer s (clearDeferral s)
  | pst {s : State} (x : Pst) :
      Move .pst s (s.setPst { x with train := s.pst.train, window := s.pst.window })
  | window {s : State} (w : Option AckWindow) : Move .window s (s.setPst { s.pst with window := w })
  | train {s : State} (x : Train) (h : TrainOk (s.setPst { s.pst with train := x })) :
      Move .train s (s.setPst { s.pst with train := x })
  | loose {s : State} (x : Train) : Move .loose s (s.setPst { s.pst with train := x })
  | survey {s : State} : Move .survey s (endSurvey s)
  | progress {s : State} (x : Cmu) (h : SurveyOk s → SurveyOk (s.setCmu x)) :
      Move .progress s (s.setCmu x)
  | orh {s : State} (x : Orh) (h : OrderOk s → OrderOk (s.setOrh { x with current := s.orh.current })) :
      Move .orh s (s.setOrh { x with current := s.orh.current })
  | order {s : State} (o : Order) (h : s.orh.pending = some o) : Move .order s (s.ordered o)
  | pmn {s : State} (x : Pmn) (h : SetupOk s → AlarmsOk s → AlarmsOk (s.setPmn x)) : Move .pmn s (s.setPmn x)
  | pulse {s : State} (kind : PulseKind) (fibres : List Nat) : Move .pulse s (emitPulse kind fibres s)
  | block {s : State} : Move .block s (stopTrains (s.setBlock true))
  | release {s : State} : Move .release s (s.setBlock false)
  | choice {s : State} : Move .choice s s.countChoice
  | setup {s : State} (c : Setup) (hState : s.stc.state = .unset) (hStrap : s.stc.strapError = false)
      (hIdle : s.cmu.executing = none) (hRange : c.InRange) : Move .setup s (s.configured c)
  | restart {s : State} (hState : s.stc.state ≠ .unset) : Move .restart s s.restarted

/-! ### Runs -/

/-- A run of moves whose tags lie in `K`. -/
inductive Run (K : List Tag) (s : State) : State → Prop where
  | refl : Run K s s
  | tail {u v : State} {k : Tag} (run : Run K s u) (hk : k ∈ K) (move : Move k u v) : Run K s v

section
variable {K L : List Tag} {s u v : State}

theorem Move.run {k : Tag} (h : Move k s u) (hk : k ∈ K := by decide) : Run K s u := .tail .refl hk h

theorem Run.trans (h : Run K s u) (g : Run K u v) : Run K s v := by
  induction g with
  | refl => exact h
  | tail _ hk move ih => exact ih.tail hk move

theorem Run.mono (h : Run K s u) (hKL : K ⊆ L := by decide) : Run L s u := by
  induction h with
  | refl => exact .refl
  | tail _ hk move ih => exact ih.tail (hKL hk) move

/-- A property that every move of the run keeps is kept by the run. -/
theorem Run.keeps {P : State → Prop} (h : Run K s u)
    (hMove : ∀ k ∈ K, ∀ x y, Move k x y → P x → P y) (hs : P s) : P u := by
  induction h with
  | refl => exact hs
  | tail _ hk move ih => exact hMove _ hk _ _ move ih

/-- A reading that no move of the run changes stands at its end. -/
theorem Run.frame {α : Type} (f : State → α) (h : Run K s u)
    (hMove : ∀ k ∈ K, ∀ x y, Move k x y → f y = f x) : f u = f s :=
  h.keeps (P := fun x => f x = f s) (fun k hk x y move hx => (hMove k hk x y move).trans hx) rfl

theorem Run.ite {c : Prop} [Decidable c] {a b : State} (ha : c → Run K s a) (hb : ¬ c → Run K s b) :
    Run K s (if c then a else b) := by
  split
  · exact ha ‹_›
  · exact hb ‹_›

/-- Effects in any order run where each of them does. -/
theorem Run.inAnyOrder {effects : List (State → State)} (hChoice : Tag.choice ∈ K)
    (he : ∀ f ∈ effects, ∀ x, Run K x (f x)) : Run K s (inAnyOrder effects s) :=
  inAnyOrder_keeps (P := Run K s) effects (fun _ h => h.tail hChoice .choice)
    (fun f hf x h => h.trans (he f hf x)) s .refl

end

/-! ### One block changed -/

section
variable {K : List Tag} {s : State}

theorem setStc_run (hK : .stc ∈ K) (x : Stc) (h : RunsOk s → RunsOk (s.setStc x))
    (hState : x.state = s.stc.state := by rfl) (hStraps : x.straps = s.stc.straps := by rfl)
    (hError : x.strapError = s.stc.strapError := by rfl) (hSetup : x.setup = s.stc.setup := by rfl) :
    Run K s (s.setStc x) := by
  have hMove := (Move.stc x h).run hK
  rwa [← hState, ← hStraps, ← hError, ← hSetup] at hMove

theorem setFic_run (hK : .fic ∈ K) (x : Fic) (hOrder : SetupOk s → OrderOk s → OrderOk (s.setFic x))
    (hArmed : s.fic.deferral.isSome = true → s.fic.armed = none → x.armed = none)
    (hDeferral : x.deferral = s.fic.deferral := by rfl)
    (hSeq : x.seqCounter = s.fic.seqCounter := by rfl) : Run K s (s.setFic x) := by
  have hMove := (Move.fic x hOrder hArmed).run hK
  rwa [← hDeferral, ← hSeq] at hMove

/-- An arming is a move of the FIC where no deferral waits. -/
theorem setFic_arm_run (x : Fic) (hOrder : SetupOk s → OrderOk s → OrderOk (s.setFic x)) (hK : .fic ∈ K)
    (hArm : .arm ∈ K ∨ s.fic.deferral = none) (hDeferral : x.deferral = s.fic.deferral := by rfl)
    (hSeq : x.seqCounter = s.fic.seqCounter := by rfl) : Run K s (s.setFic x) := by
  obtain hArm | hNone := hArm
  · have hMove := (Move.arm x hOrder).run hArm
    rwa [← hDeferral, ← hSeq] at hMove
  · exact setFic_run hK x hOrder (fun h => by rw [hNone] at h; cases h) hDeferral hSeq

theorem setPst_run (hK : .pst ∈ K) (x : Pst) (hTrain : x.train = s.pst.train := by rfl)
    (hWindow : x.window = s.pst.window := by rfl) : Run K s (s.setPst x) := by
  have hMove := (Move.pst (s := s) x).run hK
  rwa [← hTrain, ← hWindow] at hMove

theorem setVcm_run (hK : .vcm ∈ K) (x : Vcm) (h : ValveOk s → ValveOk (s.setVcm x)) :
    Run K s (s.setVcm x) := (Move.vcm x h).run hK

theorem setOrh_run (hK : .orh ∈ K) (x : Orh) (h : OrderOk s → OrderOk (s.setOrh x))
    (hCurrent : x.current = s.orh.current := by rfl) : Run K s (s.setOrh x) := by
  have hMove := (Move.orh (s := s) x (by rwa [← hCurrent])).run hK
  rwa [← hCurrent] at hMove

end

/-! ### What runs leave alone -/

section
variable {K : List Tag} {s u : State}

theorem Run.clock (h : Run K s u) : u.clock = s.clock :=
  h.frame (fun x => x.clock) fun _ _ _ _ m => by cases m <;> first | rfl | exact State.setLine_clock ..

theorem Run.pending (h : Run K s u) : u.pending = s.pending :=
  h.frame (fun x => x.pending) fun _ _ _ _ m => by cases m <;> first | rfl | exact State.setLine_pending ..

theorem Run.feeds (h : Run K s u) : u.feeds = s.feeds :=
  h.frame (fun x => x.feeds) fun _ _ _ _ m => by cases m <;> first | rfl | exact State.setLine_feeds ..

theorem Run.straps (h : Run K s u) : u.stc.straps = s.stc.straps :=
  h.frame (fun x => x.stc.straps) fun _ _ _ _ m => by cases m <;> first | rfl | exact congrArg Stc.straps (State.setLine_stc ..)

theorem Run.strapError (h : Run K s u) : u.stc.strapError = s.stc.strapError :=
  h.frame (fun x => x.stc.strapError) fun _ _ _ _ m => by cases m <;> first | rfl | exact congrArg Stc.strapError (State.setLine_stc ..)

theorem Run.setup (h : Run K s u)
    (hK : ∀ k ∈ K, k ∉ [Tag.setup] := by decide) :
    u.stc.setup = s.stc.setup :=
  h.frame (fun x => x.stc.setup) fun k hk _ _ m => by
    have hOut := hK k hk
    cases m <;> first | rfl | exact congrArg Stc.setup (State.setLine_stc ..) | simp at hOut

theorem Run.stc (h : Run K s u)
    (hK : ∀ k ∈ K, k ∉ [Tag.stc, Tag.state, Tag.leave, Tag.setup, Tag.restart] := by decide) :
    u.stc = s.stc :=
  h.frame (fun x => x.stc) fun k hk _ _ m => by
    have hOut := hK k hk
    cases m <;> first | rfl | exact State.setLine_stc .. | simp at hOut

theorem Run.pst (h : Run K s u)
    (hK : ∀ k ∈ K, k ∉ [Tag.state, Tag.leave, Tag.pst, Tag.window, Tag.train, Tag.loose, Tag.survey, Tag.block, Tag.setup, Tag.restart] := by decide) :
    u.pst = s.pst :=
  h.frame (fun x => x.pst) fun k hk _ _ m => by
    have hOut := hK k hk
    cases m <;> first | rfl | exact State.setLine_pst .. | simp at hOut

theorem Run.cmu (h : Run K s u)
    (hK : ∀ k ∈ K, k ∉ [Tag.survey, Tag.progress, Tag.restart] := by decide) :
    u.cmu = s.cmu :=
  h.frame (fun x => x.cmu) fun k hk _ _ m => by
    have hOut := hK k hk
    cases m <;> first | rfl | exact State.setLine_cmu .. | simp at hOut

theorem Run.blockAsserted (h : Run K s u)
    (hK : ∀ k ∈ K, k ∉ [Tag.block, Tag.release] := by decide) :
    u.blockAsserted = s.blockAsserted :=
  h.frame (fun x => x.blockAsserted) fun k hk _ _ m => by
    have hOut := hK k hk
    cases m <;> first | rfl | exact State.setLine_blockAsserted .. | simp at hOut

theorem Run.firing (h : Run K s u)
    (hK : ∀ k ∈ K, k ∉ [Tag.pulse] := by decide) :
    u.firing = s.firing :=
  h.frame (fun x => x.firing) fun k hk _ _ m => by
    have hOut := hK k hk
    cases m <;> first | rfl | exact State.setLine_firing .. | simp at hOut

theorem Run.filter (h : Run K s u)
    (hK : ∀ k ∈ K, k ∉ [Tag.filter] := by decide) :
    u.filter = s.filter :=
  h.frame (fun x => x.filter) fun k hk _ _ m => by
    have hOut := hK k hk
    cases m <;> first | rfl | exact State.setLine_filter .. | simp at hOut

theorem Run.prl (h : Run K s u)
    (hK : ∀ k ∈ K, k ∉ [Tag.prl, Tag.setup, Tag.restart] := by decide) :
    u.prl = s.prl :=
  h.frame (fun x => x.prl) fun k hk _ _ m => by
    have hOut := hK k hk
    cases m <;> first | rfl | exact State.setLine_prl .. | simp at hOut

theorem Run.vcm (h : Run K s u)
    (hK : ∀ k ∈ K, k ∉ [Tag.vcm, Tag.levels, Tag.setup, Tag.restart] := by decide) :
    u.vcm = s.vcm :=
  h.frame (fun x => x.vcm) fun k hk _ _ m => by
    have hOut := hK k hk
    cases m <;> first | rfl | exact State.setLine_vcm .. | simp at hOut

theorem Run.lvt (h : Run K s u)
    (hK : ∀ k ∈ K, k ∉ [Tag.levels, Tag.touch, Tag.setup] := by decide) :
    u.lvt = s.lvt :=
  h.frame (fun x => x.lvt) fun k hk _ _ m => by
    have hOut := hK k hk
    cases m <;> first | rfl | exact State.setLine_lvt .. | simp at hOut

theorem Run.orh (h : Run K s u)
    (hK : ∀ k ∈ K, k ∉ [Tag.orh, Tag.order, Tag.setup, Tag.restart] := by decide) :
    u.orh = s.orh :=
  h.frame (fun x => x.orh) fun k hk _ _ m => by
    have hOut := hK k hk
    cases m <;> first | rfl | exact State.setLine_orh .. | simp at hOut

theorem Run.pmn (h : Run K s u)
    (hK : ∀ k ∈ K, k ∉ [Tag.pmn, Tag.levels, Tag.setup, Tag.restart] := by decide) :
    u.pmn = s.pmn :=
  h.frame (fun x => x.pmn) fun k hk _ _ m => by
    have hOut := hK k hk
    cases m <;> first | rfl | exact State.setLine_pmn .. | simp at hOut

theorem Run.deferral (h : Run K s u)
    (hK : ∀ k ∈ K, k ∉ [Tag.defer, Tag.undefer, Tag.setup, Tag.restart] := by decide) :
    u.fic.deferral = s.fic.deferral :=
  h.frame (fun x => x.fic.deferral) fun k hk _ _ m => by
    have hOut := hK k hk
    cases m <;> first | rfl | exact congrArg Fic.deferral (State.setLine_fic ..) | simp at hOut

theorem Run.advanceCount (h : Run K s u)
    (hK : ∀ k ∈ K, k ∉ [Tag.fic, Tag.arm, Tag.order, Tag.setup, Tag.restart] := by decide) :
    u.fic.advanceCount = s.fic.advanceCount :=
  h.frame (fun x => x.fic.advanceCount) fun k hk _ _ m => by
    have hOut := hK k hk
    cases m <;> first | rfl | exact congrArg Fic.advanceCount (State.setLine_fic ..) | simp at hOut

theorem Run.now (h : Run K s u) : u.now = s.now := congrArg (BitVec.ofNat 32) h.clock

theorem Run.position (h : Run K s u) : u.position = s.position := by
  unfold State.position; rw [h.straps]

theorem Run.group (h : Run K s u) : u.group = s.group := by
  unfold State.group; rw [h.straps]

theorem Run.cfg (h : Run K s u) (hK : ∀ k ∈ K, k ∉ [Tag.setup] := by decide) : u.cfg = s.cfg := by
  unfold State.cfg; rw [h.setup hK]

/-- A run that does not leave RUNNING or BYPASSING finds the station there at its end. -/
theorem Run.stays (h : Run K s u) (hFiring : s.stc.state = .running ∨ s.stc.state = .bypassing)
    (hK : ∀ k ∈ K, k ∉ [Tag.leave] := by decide) : u.stc.state = s.stc.state := by
  refine h.keeps (P := fun x => x.stc.state = s.stc.state) (fun k hk x y m hx => ?_) rfl
  have hOut := hK k hk
  rw [← hx] at hFiring
  cases m with
  | line => exact (congrArg Stc.state (State.setLine_stc ..)).trans hx
  | state _ _ _ hNeither => exact absurd hFiring (not_or.2 hNeither)
  | leave => simp at hOut
  | setup _ hUnset => rw [hUnset] at hFiring; simp at hFiring
  | _ => exact hx

end
end Sys2Proof.Machine
end

