-- ==== Sys2Proof/Proofs/Lines.lean ====
section
/-! PROOFS. Every operation on a line of the group line keeps the line in order (R23 to R25, R34 to R36, R38):
its queue, its score, its counts, and what a LIT line is without. -/

namespace Sys2Proof.Machine

/-! ### Counts -/

theorem count16_le (n : Nat) : count16 n ≤ 65535 := Nat.min_le_left ..

theorem count16By_le (n k : Nat) : count16By n k ≤ 65535 := Nat.min_le_left ..

theorem count8_le (n : Nat) : count8 n ≤ 255 := Nat.min_le_left ..

/-! ### The queue (R23, R25) -/

theorem withoutOldHeads_length_le (clock : Nat) (queue : List TxCopy) :
    (withoutOldHeads clock queue).length ≤ queue.length := by
  obtain ⟨gone, h, -⟩ := withoutOldHeads_spec clock queue
  have := congrArg List.length h
  rw [List.length_append] at this
  omega

theorem withoutOldestResult_length {queue kept : List TxCopy}
    (h : withoutOldestResult queue = some kept) : kept.length + 1 = queue.length := by
  induction queue generalizing kept with
  | nil => cases h
  | cons c rest ih =>
    unfold withoutOldestResult at h
    split at h
    · cases h; rfl
    · obtain ⟨tail, hTail, rfl⟩ := Option.map_eq_some_iff.1 h
      rw [List.length_cons, List.length_cons, ih hTail]

section
variable {l : LineState}

theorem LineState.Ok.judgeHead (h : l.Ok) (clock : Nat) : (l.judgeHead clock).Ok := by
  obtain ⟨hQueue, hScore, hLit, hLag, hSent, -, hRest⟩ := h
  have hShort := withoutOldHeads_length_le clock l.queue
  refine ⟨Nat.le_trans hShort hQueue, hScore, fun hl => ⟨?_, (hLit hl).2⟩, hLag, hSent,
    count16By_le .., hRest⟩
  show withoutOldHeads clock l.queue = []
  rw [(hLit hl).1]
  rfl

theorem LineState.Ok.drop (h : l.Ok) : { l with dropCount := count16 l.dropCount }.Ok := by
  obtain ⟨hQueue, hScore, hLit, hLag, hSent, -, hRest⟩ := h
  exact ⟨hQueue, hScore, hLit, hLag, hSent, count16_le _, hRest⟩

theorem LineState.Ok.place (h : l.Ok) (clock : Nat) (c : TxCopy) : (l.place clock c).Ok := by
  unfold LineState.place
  split
  · exact h.drop
  · rename_i hDark
    split
    · rename_i hRoom
      obtain ⟨-, hScore, -, hRest⟩ := h
      exact ⟨by simp; omega, hScore, fun hl => absurd hl hDark, hRest⟩
    · split
      · exact h.drop
      · split
        · exact h.drop
        · rename_i kept hKept
          refine LineState.Ok.judgeHead ?_ clock
          obtain ⟨hQueue, hScore, -, hLag, hSent, -, hRest⟩ := h
          have := withoutOldestResult_length hKept
          exact ⟨by simp; omega, hScore, fun hl => absurd hl hDark, hLag, hSent, count16_le _, hRest⟩

@[simp] theorem LineState.judgeHead_echo (clock : Nat) : (l.judgeHead clock).echo = l.echo := rfl

@[simp] theorem LineState.place_echo (clock : Nat) (c : TxCopy) : (l.place clock c).echo = l.echo := by
  unfold LineState.place
  split
  · rfl
  · split
    · rfl
    · split
      · rfl
      · split <;> rfl

/-! ### Copies that the line hears (R26 to R30) -/

theorem LineState.Ok.goodCopy (h : l.Ok) (clock : Nat) : (l.goodCopy clock).Ok := by
  obtain ⟨hQueue, hScore, hLit, hRest⟩ := h
  exact ⟨hQueue, Nat.le_trans (Nat.sub_le ..) hScore, fun hl => ⟨(hLit hl).1, if_pos hl⟩, hRest⟩

theorem LineState.Ok.badCopy (h : l.Ok) (clock : Nat) : (l.badCopy clock).Ok := by
  obtain ⟨hQueue, -, hLit, hLag, hSent, hDrop, hAccepted, -, hRest⟩ := h
  exact ⟨hQueue, Nat.min_le_left .., hLit, hLag, hSent, hDrop, hAccepted, count16_le _, hRest⟩

theorem LineState.Ok.takeForeign (h : l.Ok) : l.takeForeign.Ok := by
  obtain ⟨hQueue, hScore, hLit, hLag, hSent, hDrop, hAccepted, hBad, -, hRest⟩ := h
  exact ⟨hQueue, hScore, hLit, hLag, hSent, hDrop, hAccepted, hBad, count16_le _, hRest⟩

theorem LineState.Ok.takeEcho (h : l.Ok) : l.takeEcho.Ok := by
  obtain ⟨hQueue, hScore, hLit, hLag, hSent, hDrop, hAccepted, hBad, hForeign, hDup, -, hMiss⟩ := h
  exact ⟨hQueue, hScore, hLit, hLag, hSent, hDrop, hAccepted, hBad, hForeign, hDup, count16_le _, hMiss⟩

theorem LineState.Ok.takeDuplicate (h : l.Ok) : l.takeDuplicate.Ok := by
  obtain ⟨hQueue, hScore, hLit, hLag, hSent, hDrop, hAccepted, hBad, hForeign, -, hRest⟩ := h
  exact ⟨hQueue, hScore, hLit, hLag, hSent, hDrop, hAccepted, hBad, hForeign, count16_le _, hRest⟩

theorem LineState.Ok.takeAccepted (h : l.Ok) : l.takeAccepted.Ok := by
  obtain ⟨hQueue, hScore, hLit, hLag, hSent, hDrop, -, hRest⟩ := h
  exact ⟨hQueue, hScore, hLit, hLag, hSent, hDrop, count16_le _, hRest⟩

/-! ### Sending (R24, R25, R29) -/

theorem LineState.Ok.missEcho (h : l.Ok) : l.missEcho.Ok := by
  obtain ⟨hQueue, -, hLit, hLag, hSent, hDrop, hAccepted, hBad, hForeign, hDup, hEcho, -⟩ := h
  exact ⟨hQueue, Nat.min_le_left .., hLit, hLag, hSent, hDrop, hAccepted, hBad, hForeign, hDup, hEcho,
    count16_le _⟩

/-- A copy that starts is young enough, and the line is not LIT (R24, R25). -/
theorem LineState.Ok.startHead {c : TxCopy} {rest : List TxCopy} (h : l.Ok) (clock : Nat)
    (hQueue : l.queue = c :: rest) (hDark : l.lit = false) (hYoung : c.tooOld clock = false) :
    (l.startHead clock c rest).Ok := by
  have hMissed : (if l.echo.isSome then l.missEcho else l).Ok := by
    split
    · exact h.missEcho
    · exact h
  have hStill : (if l.echo.isSome then l.missEcho else l).lit = false := by
    split <;> exact hDark
  refine LineState.Ok.judgeHead ?_ clock
  obtain ⟨-, hScore, -, -, -, hRest⟩ := hMissed
  obtain ⟨hLength, -⟩ := h
  rw [hQueue, List.length_cons] at hLength
  refine ⟨Nat.le_of_succ_le hLength, hScore, fun hl => absurd (hStill.symm.trans hl) (by decide),
    fun x hx hLag => ?_, count16_le _, hRest⟩
  cases hx
  simp only [TxCopy.tooOld, Bool.and_eq_false_iff, decide_eq_false_iff_not] at hYoung
  obtain hNone | hAge := hYoung
  · exact absurd (hLag.symm.trans hNone) (by decide)
  · exact Nat.le_of_lt_succ (Nat.lt_of_not_le hAge)

theorem LineState.Ok.startTransmission (h : l.Ok) (clock gap dark : Nat) :
    (l.startTransmission clock gap dark).Ok := by
  unfold LineState.startTransmission
  split
  · exact h
  · rename_i c rest hQueue
    split
    · exact h
    · rename_i hFree
      simp only [Bool.or_eq_true, not_or, Bool.not_eq_true] at hFree
      obtain ⟨⟨-, hDark⟩, -⟩ := hFree
      split
      · exact h.judgeHead clock
      · exact h.startHead clock hQueue hDark (Bool.eq_false_iff.2 ‹_›)

theorem LineState.startTransmission_echo (clock gap dark : Nat) (h : l.echo = none) :
    (l.startTransmission clock gap dark).echo = none := by
  unfold LineState.startTransmission
  split
  · exact h
  · split
    · exact h
    · split
      · exact h
      · show (if l.echo.isSome then l.missEcho else l).echo = none
        split
        · rfl
        · exact h

theorem LineState.Ok.completeTransmission (h : l.Ok) (clock : Nat) (strapError : Bool) :
    (l.completeTransmission clock strapError).Ok := by
  unfold LineState.completeTransmission
  split
  · exact h
  · split
    · obtain ⟨hQueue, hScore, hLit, -, hRest⟩ := h
      exact ⟨hQueue, hScore, hLit, fun x hx => absurd hx (by simp), hRest⟩
    · exact h

theorem LineState.completeTransmission_echo (clock : Nat) (h : l.echo = none) :
    (l.completeTransmission clock true).echo = none := by
  unfold LineState.completeTransmission
  split
  · exact h
  · split
    · rfl
    · exact h

theorem LineState.Ok.echoTimeout (h : l.Ok) (clock : Nat) : (l.echoTimeout clock).Ok := by
  unfold LineState.echoTimeout
  split
  · exact h
  · split
    · exact h.missEcho
    · exact h

theorem LineState.echoTimeout_echo (clock : Nat) (h : l.echo = none) :
    (l.echoTimeout clock).echo = none := by
  unfold LineState.echoTimeout
  rw [h]
  exact h

/-! ### LIT and DEAD (R35, R36) -/

theorem LineState.Ok.enterLit (h : l.Ok) (clock : Nat) (carrier : CarrierView) :
    (l.enterLit clock carrier).Ok := by
  unfold LineState.enterLit
  split
  · exact h
  · obtain ⟨-, hScore, -, hLag, hSent, -, hRest⟩ := h
    exact ⟨Nat.zero_le _, hScore, fun _ => ⟨rfl, rfl⟩, hLag, hSent, count16By_le .., hRest⟩

theorem LineState.enterLit_echo (clock : Nat) (carrier : CarrierView) :
    (l.enterLit clock carrier).echo = l.echo := by
  unfold LineState.enterLit
  split <;> rfl

theorem LineState.Ok.endLit (h : l.Ok) (clock : Nat) : (l.endLit clock).Ok := by
  unfold LineState.endLit
  split
  · obtain ⟨hQueue, hScore, -, hRest⟩ := h
    exact ⟨hQueue, hScore, fun hl => (Bool.false_ne_true hl).elim, hRest⟩
  · exact h

theorem LineState.endLit_echo (clock : Nat) : (l.endLit clock).echo = l.echo := by
  unfold LineState.endLit
  split <;> rfl

theorem LineState.Ok.silenceExpiry (h : l.Ok) (clock tEst : Nat) : (l.silenceExpiry clock tEst).Ok := by
  unfold LineState.silenceExpiry
  split
  · obtain ⟨hQueue, hScore, hLit, hRest⟩ := h
    exact ⟨hQueue, hScore, fun hl => ⟨(hLit hl).1, rfl⟩, hRest⟩
  · exact h

theorem LineState.silenceExpiry_echo (clock tEst : Nat) :
    (l.silenceExpiry clock tEst).echo = l.echo := by
  unfold LineState.silenceExpiry
  split <;> rfl

end
end Sys2Proof.Machine
end

