-- ==== Sys2Proof/Proofs/StationRuns.lean ====
section
/-! PROOFS. The transitions of Station Control as runs of moves, the frames that a command produces, and what the
transitions do not read: the forward roster and the advance count. -/

namespace Sys2Proof.Machine

/-! ### Frames and lines -/

section
variable {s : State}

/-- An operation that keeps the line in order and its absent echo absent is a move. -/
theorem changeLine_run {l : Line} {f : LineState → LineState} (hOk : ∀ x : LineState, x.Ok → (f x).Ok)
    (hEcho : ∀ x : LineState, s.stc.strapError = true → x.echo = none → (f x).echo = none) :
    Run [.line] s (changeLine l f s) :=
  (Move.line l _ (hOk _) (hEcho _)).run

theorem produce_run (body : TxBody) : Run [.seq, .line] s (produce body s) := by
  have hPlace (x : State) (l : Line) (c : TxCopy) :
      Run [.seq, .line] x (changeLine l (LineState.place x.clock c) x) :=
    (changeLine_run (fun _ h => h.place ..) fun _ _ h => (LineState.place_echo ..).trans h).mono
  exact (((Move.seq (s := s)).run).trans (hPlace _ .a _)).trans (hPlace _ .b _)

theorem produceResult_run (tag code : Byte) (completion : Completion) (detail : Detail)
    (data : List Byte) : Run [.seq, .line] s (produceResult tag code completion detail data s) :=
  produce_run _

/-! ### The end of a survey -/

theorem abortSurvey_run : Run [.survey, .seq, .line] s (abortSurvey s) := by
  unfold abortSurvey
  split
  · exact .refl
  · exact ((Move.survey (s := s)).run).trans (produceResult_run ..).mono

end

/-! ### Entering a state -/

/-- Entering a state is the move to it, after a survey that an exit from SYNCED aborts. -/
theorem enterState_eq (new : StationState) (s : State) :
    enterState new s = (if s.stc.state = .synced then abortSurvey s else s).moved new := by
  simp only [enterState]
  split
  · simp only [abortSurvey]
    cases h : s.cmu.executing <;> simp [h] <;> rfl
  · rfl

/-- The tags of a transition that does not leave RUNNING or BYPASSING. -/
def Tag.station : List Tag := [.stc, .state, .survey, .seq, .line]

section
variable {K : List Tag} {s : State}

theorem enterState_run {new : StationState} (hK : Tag.station ⊆ K) (hOld : s.stc.state ≠ .unset)
    (hNew : new ≠ .unset)
    (hFiring : .leave ∈ K ∨ (s.stc.state ≠ .running ∧ s.stc.state ≠ .bypassing)) :
    Run K s (enterState new s) := by
  rw [enterState_eq]
  split
  · rename_i hSynced
    refine ((abortSurvey_run (s := s)).mono (List.Subset.trans (by decide) hK)).trans ?_
    rw [← abortSurvey_stc s] at hSynced hOld
    exact (Move.state new hOld hNew (by rw [hSynced]; decide) fun _ => abortSurvey_executing s).run
      (hK (by decide))
  · rename_i hSynced
    by_cases hRun : s.stc.state ≠ .running ∧ s.stc.state ≠ .bypassing
    · exact (Move.state new hOld hNew hRun fun h => absurd h hSynced).run (hK (by decide))
    · exact (Move.leave new hNew (Decidable.or_iff_not_not_and_not.2 hRun)).run (hFiring.resolve_right hRun)

theorem enterTripped_run (hK : Tag.station ⊆ K) (hOld : s.stc.state ≠ .unset)
    (hFiring : .leave ∈ K ∨ (s.stc.state ≠ .running ∧ s.stc.state ≠ .bypassing)) :
    Run K s (enterTripped s) := by
  refine (enterState_run (new := .tripped) hK hOld (by decide) hFiring).trans
    (setStc_run (hK (by decide)) _ fun h => ?_)
  obtain ⟨hSync, hBad, hGood, hClash, hLoss, -, hLatch⟩ := h
  exact ⟨hSync, hBad, hGood, hClash, hLoss, count16_le _, hLatch⟩

theorem enterListening_run (hK : Tag.station ⊆ K) (hOld : s.stc.state ≠ .unset)
    (hFiring : .leave ∈ K ∨ (s.stc.state ≠ .running ∧ s.stc.state ≠ .bypassing)) :
    Run K s (enterListening s) := by
  simp only [enterListening]
  have hEnter := (enterState_run (new := .listening) hK hOld (by decide) hFiring).trans
    (setStc_run (hK (by decide)) { (enterState .listening s).stc with
        syncCount := 0, badRun := 0, goodRun := 0, syncLost := false } fun h => by
      obtain ⟨-, -, -, hClash, hLoss, hTrip, -⟩ := h
      exact ⟨Nat.zero_le _, Nat.zero_le _, Nat.zero_le _, hClash, hLoss, hTrip, fun _ => rfl⟩)
  split
  · refine hEnter.trans (enterTripped_run hK ?_ (.inr ?_))
    · simp [enterState_stc]
    · simp [enterState_stc]
  · exact hEnter

/-- R10 is evaluated in SYNCED alone. -/
theorem evaluateDeblock_run (hK : Tag.station ⊆ K) : Run K s (evaluateDeblock s) := by
  unfold evaluateDeblock
  split
  · rename_i h
    have hEnter (new : StationState) (hNew : new ≠ .unset) : Run K s (enterState new s) :=
      enterState_run hK (by rw [h.1]; decide) hNew (.inr (by rw [h.1]; decide))
    split
    · exact hEnter _ (by decide)
    · exact .ite (fun _ => hEnter _ (by decide)) fun _ => .refl
    · exact .refl
  · exact .refl

theorem startDarkTimer_run (hK : Tag.station ⊆ K) : Run K s (startDarkTimer s) := by
  unfold startDarkTimer
  exact .ite (fun _ => setStc_run (hK (by decide)) _ fun h => h) fun _ => .refl

theorem startDarkTimer_state (s : State) : (startDarkTimer s).stc.state = s.stc.state := by
  unfold startDarkTimer; split <;> rfl

theorem enterSynced_run (hK : Tag.station ⊆ K) (hOld : s.stc.state ≠ .unset)
    (hFiring : .leave ∈ K ∨ (s.stc.state ≠ .running ∧ s.stc.state ≠ .bypassing)) :
    Run K s (enterSynced s) := by
  simp only [enterSynced]
  have hEnter := (enterState_run (new := .synced) hK hOld (by decide) hFiring).trans
    (setStc_run (hK (by decide)) { (enterState .synced s).stc with
        syncCount := 0, badRun := 0, goodRun := 0 } fun h => by
      obtain ⟨-, -, -, hClash, hLoss, hTrip, -⟩ := h
      exact ⟨Nat.zero_le _, Nat.zero_le _, Nat.zero_le _, hClash, hLoss, hTrip, fun _ => rfl⟩)
  split
  · exact hEnter.trans (enterListening_run hK (by simp [enterState_stc]) (.inr (by simp [enterState_stc])))
  · split
    · exact hEnter.trans (enterTripped_run hK (by simp [enterState_stc]) (.inr (by simp [enterState_stc])))
    · exact (hEnter.trans (startDarkTimer_run hK)).trans (evaluateDeblock_run hK)

theorem leaveFiring_run (hK : Tag.station ⊆ K) (hLeave : .leave ∈ K) (hOld : s.stc.state ≠ .unset) :
    Run K s (leaveFiring s) := by
  unfold leaveFiring
  exact .ite (fun _ => enterTripped_run hK hOld (.inl hLeave)) fun _ =>
    enterSynced_run hK hOld (.inl hLeave)

/-! ### Station Control at an event -/

theorem stcAdopt_run (hK : Tag.station ⊆ K) (hLeave : .leave ∈ K) : Run K s (stcAdopt s) := by
  unfold stcAdopt
  split
  · exact evaluateDeblock_run hK
  · rename_i hState
    have hOld : s.stc.state ≠ .unset := by rw [hState]; decide
    split
    · exact .refl
    · exact .ite (fun _ => enterState_run hK hOld (by decide) (.inl hLeave)) fun _ =>
        leaveFiring_run hK hLeave hOld
    · exact leaveFiring_run hK hLeave hOld
  · rename_i hState
    have hOld : s.stc.state ≠ .unset := by rw [hState]; decide
    split
    · exact .ite (fun _ => enterTripped_run hK hOld (.inl hLeave)) fun _ =>
        enterState_run hK hOld (by decide) (.inl hLeave)
    · exact .ite (fun _ => .refl) fun _ => leaveFiring_run hK hLeave hOld
    · exact leaveFiring_run hK hLeave hOld
  · exact .refl

theorem stcBlockAsserted_run (hK : Tag.station ⊆ K) (hLeave : .leave ∈ K) :
    Run K s (stcBlockAsserted s) := by
  unfold stcBlockAsserted
  exact .ite (fun h => leaveFiring_run hK hLeave (by obtain h | h := h <;> rw [h] <;> decide)) fun _ =>
    .refl

theorem stcConsumedChanged_run (hK : Tag.station ⊆ K) (old : Nat) :
    Run K s (stcConsumedChanged old s) := by
  unfold stcConsumedChanged
  refine .ite (fun h => ?_) fun _ => evaluateDeblock_run hK
  simp only [Bool.and_eq_true, Bool.or_eq_true, decide_eq_true_eq] at h
  obtain ⟨-, h | h⟩ := h <;>
    exact enterTripped_run hK (by rw [h]; decide) (.inr (by rw [h]; decide))

/-- Entering a state reads no sync count. -/
theorem enterState_syncCount (new : StationState) (n : Nat) (s : State) :
    enterState new (s.setStc { s.stc with syncCount := n })
      = (enterState new s).setStc { (enterState new s).stc with syncCount := n } := by
  have hAbort : abortSurvey (s.setStc { s.stc with syncCount := n })
      = (abortSurvey s).setStc { (abortSurvey s).stc with syncCount := n } := by
    simp only [abortSurvey, State.setStc_cmu]
    split <;> rfl
  rw [enterState_eq, enterState_eq new s, hAbort]
  split
  next h => rw [if_pos (show s.stc.state = .synced from h)]; rfl
  next h => rw [if_neg (show ¬ s.stc.state = .synced from h)]; rfl

/-- Entry into LISTENING sets the sync count to 0, whatever it was. -/
theorem enterListening_syncCount (n : Nat) (s : State) :
    enterListening (s.setStc { s.stc with syncCount := n }) = enterListening s := by
  simp only [enterListening, enterState_syncCount]
  rfl

/-- Entry into SYNCED sets the sync count to 0, whatever it was. -/
theorem enterSynced_syncCount (n : Nat) (s : State) :
    enterSynced (s.setStc { s.stc with syncCount := n }) = enterSynced s := by
  simp only [enterSynced, enterState_syncCount]
  rfl

theorem stcClash_run (hK : Tag.station ⊆ K) : Run K s (stcClash s) := by
  simp only [stcClash]
  have hCount : Run K s (s.setStc { s.stc with clashCount := count16 s.stc.clashCount }) :=
    setStc_run (hK (by decide)) _ fun h => by
      obtain ⟨hSync, hBad, hGood, -, hRest⟩ := h
      exact ⟨hSync, hBad, hGood, count16_le _, hRest⟩
  have hLatch : Run K s (s.setStc { s.stc with
      clashCount := count16 s.stc.clashCount, clashLatch := true, syncCount := 0 }) := 
    setStc_run (hK (by decide)) _ fun h => by
      obtain ⟨-, hBad, hGood, -, hLoss, hTrip, -⟩ := h
      exact ⟨Nat.zero_le _, hBad, hGood, count16_le _, hLoss, hTrip, fun _ => rfl⟩
  have hSeen : Run K s (s.setStc { s.stc with
      clashCount := count16 s.stc.clashCount, clashSeen := true }) := 
    setStc_run (hK (by decide)) _ fun h => by
      obtain ⟨hSync, hBad, hGood, -, hRest⟩ := h
      exact ⟨hSync, hBad, hGood, count16_le _, hRest⟩
  split
  · exact hLatch
  · rename_i hState
    rw [← enterListening_syncCount 0]
    exact hLatch.trans (enterListening_run hK (by simpa using hState ▸ (by decide))
      (.inr (by simpa using hState ▸ (by decide))))
  · exact hSeen
  · exact hSeen
  · exact hCount

theorem stcValveDark_run (hK : Tag.station ⊆ K) : Run K s (stcValveDark s) := by
  simp only [stcValveDark]
  have hReset : Run K s (s.setStc { s.stc with syncCount := 0 }) :=
    setStc_run (hK (by decide)) _ fun h => by
      obtain ⟨-, hBad, hGood, hClash, hLoss, hTrip, -⟩ := h
      exact ⟨Nat.zero_le _, hBad, hGood, hClash, hLoss, hTrip, fun _ => rfl⟩
  exact .ite (fun _ => hReset.trans (startDarkTimer_run hK)) fun _ => hReset

theorem leaveDark_run (hK : Tag.station ⊆ K) (old : ValveState) : Run K s (leaveDark old s) := by
  unfold leaveDark
  exact .ite (fun _ => setStc_run (hK (by decide)) _ fun h => h)
    fun _ => .refl

end
end Sys2Proof.Machine
end

