-- ==== Sys2Proof/Proofs/Exits.lean ====
section
/-! PROOFS. The transitions of Station Control as equations of the whole state, by the state they leave: from
SYNCED a survey in progress is aborted, from RUNNING and BYPASSING the trains stop, and from the other states
nothing but STC's records changes. -/

namespace Sys2Proof.Machine

section
variable {s : State}

/-! ### Abortion and STC's records -/

/-- A survey is aborted with STC's records changed before it or after it. -/
theorem aborted_setStc (x : Stc) (hStraps : x.straps = s.stc.straps) :
    State.aborted (s.setStc x) = s.aborted.setStc x := by
  simp only [← abortSurvey_eq, abortSurvey]
  rw [show (s.setStc x).cmu = s.cmu from rfl]
  split
  · rfl
  · have hCopy (body : TxBody) :
        producedCopy body (endSurvey (s.setStc x)) = producedCopy body (endSurvey s) := by
      unfold producedCopy State.position
      rw [show (endSurvey (s.setStc x)).stc = x from rfl, hStraps]
      rfl
    simp only [produceResult, produce_eq, hCopy]
    rfl

@[simp] theorem aborted_stc (s : State) : s.aborted.stc = s.stc := by
  rw [← abortSurvey_eq, abortSurvey_stc]

theorem aborted_idle (h : s.cmu.executing = none) : s.aborted = s := by
  rw [← abortSurvey_eq, abortSurvey_idle h]

theorem aborted_executing (s : State) : s.aborted.cmu.executing = none := by
  rw [← abortSurvey_eq, abortSurvey_executing]

theorem aborted_offStation (s : State) : s.aborted.offStation = s.offStation := by
  rw [← abortSurvey_eq, abortSurvey_offStation]

/-! ### Entering a state -/

theorem trainAfter_quiet {old : StationState} (hRunning : old ≠ .running) (hBypassing : old ≠ .bypassing)
    (new : StationState) (train : Train) : trainAfter old new train = train := by
  cases train with
  | stopped => rfl
  | refire _ => exact if_neg fun h => hRunning h.1
  | bypass _ => exact if_neg fun h => hBypassing h.1

/-- STC's records in a state just entered. -/
def Stc.entered (new : StationState) (x : Stc) : Stc := { x with state := new, darkTimer := none }

/-- STC's records in TRIPPED just entered. -/
def Stc.tripped (x : Stc) : Stc :=
  { x with state := .tripped, darkTimer := none, tripCount := count16 x.tripCount }

/-- STC's records at an entry into LISTENING, and on into TRIPPED with the consumed count above R. -/
def Stc.listening (above : Bool) (x : Stc) : Stc :=
  { x with
    state := if above then .tripped else .listening
    syncCount := 0, badRun := 0, goodRun := 0, syncLost := false, darkTimer := none
    tripCount := if above then count16 x.tripCount else x.tripCount }

/-- From SYNCED a survey in progress is aborted (R171). -/
theorem enterState_synced (h : s.stc.state = .synced) (new : StationState) :
    enterState new s = State.aborted (s.setStc (s.stc.entered new)) := by
  have hTrain : trainAfter s.stc.state new s.pst.train = s.pst.train :=
    trainAfter_quiet (h ▸ nofun) (h ▸ nofun) new _
  rw [← abortSurvey_eq]
  refine (if_pos h).trans (congrArg abortSurvey ?_)
  exact congrArg (fun t => (s.setStc (s.stc.entered new)).setPst { s.pst with train := t }) hTrain

/-- From UNSET, LISTENING and TRIPPED nothing but STC's records changes. -/
theorem enterState_quiet (hSynced : s.stc.state ≠ .synced) (hRunning : s.stc.state ≠ .running)
    (hBypassing : s.stc.state ≠ .bypassing) (new : StationState) :
    enterState new s = s.setStc (s.stc.entered new) := by
  have hTrain : trainAfter s.stc.state new s.pst.train = s.pst.train :=
    trainAfter_quiet hRunning hBypassing new _
  refine (if_neg hSynced).trans ?_
  exact congrArg (fun t => (s.setStc (s.stc.entered new)).setPst { s.pst with train := t }) hTrain

/-- From RUNNING and BYPASSING the train is judged (R120, R121). -/
theorem enterState_moved (hSynced : s.stc.state ≠ .synced) (new : StationState) :
    enterState new s = s.moved new := by rw [enterState_eq, if_neg hSynced]

theorem enterTripped_synced (h : s.stc.state = .synced) :
    enterTripped s = State.aborted (s.setStc s.stc.tripped) := by
  unfold enterTripped
  simp only [enterState_synced h, aborted_stc]
  exact (aborted_setStc (s := s.setStc (s.stc.entered .tripped)) s.stc.tripped rfl).symm

theorem enterTripped_quiet (hSynced : s.stc.state ≠ .synced) (hRunning : s.stc.state ≠ .running)
    (hBypassing : s.stc.state ≠ .bypassing) : enterTripped s = s.setStc s.stc.tripped := by
  unfold enterTripped
  simp only [enterState_quiet hSynced hRunning hBypassing]
  rfl

/-- An entry into LISTENING goes on to TRIPPED with the consumed count above R (R15). -/
theorem enterListening_of_enterState {u : State} (h : enterState .listening s = u)
    (hState : u.stc = s.stc.entered .listening) (hOver : u.lvt = s.lvt) :
    enterListening s = u.setStc (s.stc.listening s.overConsumed) := by
  have hAbove (x : Stc) (hx : x.setup = s.stc.setup) : (u.setStc x).overConsumed = s.overConsumed := by
    unfold State.overConsumed State.cfg
    rw [show (u.setStc x).lvt = u.lvt from rfl, hOver, State.setStc_stc, hx]
  unfold enterListening
  simp only [h]
  rw [hAbove _ (by rw [hState]; rfl)]
  cases hCase : s.overConsumed with
  | false =>
    rw [hState]
    rfl
  | true =>
    rw [if_pos rfl, enterTripped_quiet, hState] <;> simp [hState, Stc.entered]
    rfl

theorem enterListening_synced (h : s.stc.state = .synced) :
    enterListening s = State.aborted (s.setStc (s.stc.listening s.overConsumed)) := by
  have hOff := aborted_offStation (s.setStc (s.stc.entered .listening))
  simp only [State.offStation, Prod.mk.injEq] at hOff
  rw [enterListening_of_enterState (enterState_synced h .listening) (aborted_stc _)
    hOff.2.2.2.2.2.2.2.2.1]
  exact (aborted_setStc (s := s.setStc (s.stc.entered .listening)) (s.stc.listening s.overConsumed) rfl).symm

theorem enterListening_quiet (hSynced : s.stc.state ≠ .synced) (hRunning : s.stc.state ≠ .running)
    (hBypassing : s.stc.state ≠ .bypassing) :
    enterListening s = s.setStc (s.stc.listening s.overConsumed) :=
  enterListening_of_enterState (u := s.setStc (s.stc.entered .listening))
    (enterState_quiet hSynced hRunning hBypassing .listening) rfl rfl

/-! ### A clash notification (R14) -/

/-- STC's records with one clash more. -/
def Stc.clashed (x : Stc) : Stc := { x with clashCount := count16 x.clashCount }

/-- A clash by the station state (R14). -/
theorem stcClash_eq (s : State) : stcClash s =
    match s.stc.state with
    | .listening => s.setStc { s.stc.clashed with clashLatch := true, syncCount := 0 }
    | .synced => enterListening (s.setStc { s.stc.clashed with clashLatch := true })
    | .running => s.setStc { s.stc.clashed with clashSeen := true }
    | .bypassing => s.setStc { s.stc.clashed with clashSeen := true }
    | _ => s.setStc s.stc.clashed := rfl

theorem stcClash_listening (h : s.stc.state = .listening) :
    stcClash s = s.setStc { s.stc.clashed with clashLatch := true, syncCount := 0 } := by
  rw [stcClash_eq, h]

theorem stcClash_synced (h : s.stc.state = .synced) :
    stcClash s = State.aborted (s.setStc
      ({ s.stc.clashed with clashLatch := true }.listening s.overConsumed)) := by
  have hSynced : (s.setStc { s.stc.clashed with clashLatch := true }).stc.state = .synced := h
  rw [stcClash_eq, h]
  exact enterListening_synced hSynced

theorem stcClash_firing (h : s.stc.state = .running ∨ s.stc.state = .bypassing) :
    stcClash s = s.setStc { s.stc.clashed with clashSeen := true } := by
  obtain h | h := h <;> rw [stcClash_eq, h]

theorem stcClash_still (h : s.stc.state = .unset ∨ s.stc.state = .tripped) :
    stcClash s = s.setStc s.stc.clashed := by
  obtain h | h := h <;> rw [stcClash_eq, h]

end
end Sys2Proof.Machine
end

