-- ==== Sys2Proof/Proofs/Unread.lean ====
section
/-! PROOFS. What Station Control does not read: an edit of the VCM that keeps the valve state, and one of the FIC
that keeps the sequence counter. A transition gives the same with the edit made before it or after it, so the
forward roster may be emptied before the level table tells STC of its outcomes, and the advance count be set to 0
before STC follows an adopted order. -/

namespace Sys2Proof.Machine

/-- The VCM edited by `f`, and the FIC by `g`. -/
def State.edit (f : Vcm → Vcm) (g : Fic → Fic) (s : State) : State :=
  (s.setVcm (f s.vcm)).setFic (g s.fic)

/-- Station Control reads nothing of what the edits change. -/
structure Unread (f : Vcm → Vcm) (g : Fic → Fic) : Prop where
  valve : ∀ v, (f v).valve = v.valve
  seq : ∀ x, (g x).seqCounter = x.seqCounter
  setSeq : ∀ x n, g { x with seqCounter := n } = { g x with seqCounter := n }

section
variable {f : Vcm → Vcm} {g : Fic → Fic} (h : Unread f g) (s : State)

theorem edit_stc : (s.edit f g).stc = s.stc := rfl

theorem edit_orh : (s.edit f g).orh = s.orh := rfl

theorem edit_inPair : (s.edit f g).inPair = s.inPair := rfl

theorem edit_overConsumed : (s.edit f g).overConsumed = s.overConsumed := rfl

theorem setStc_edit (x : Stc) : (s.edit f g).setStc x = (s.setStc x).edit f g := rfl

include h

theorem produce_edit (body : TxBody) : produce body (s.edit f g) = (produce body s).edit f g := by
  have hCopy : producedCopy body (s.edit f g) = producedCopy body s := by
    unfold producedCopy
    congr 1
    exact h.seq s.fic
  have hNext : ({ g s.fic with seqCounter := (g s.fic).seqCounter + 1 } : Fic)
      = g { s.fic with seqCounter := s.fic.seqCounter + 1 } := by
    rw [h.seq]
    exact (h.setSeq ..).symm
  simp only [produce_eq, hCopy]
  unfold State.edit State.setFic State.setVcm
  simp only [hNext]

theorem abortSurvey_edit : abortSurvey (s.edit f g) = (abortSurvey s).edit f g := by
  unfold abortSurvey
  rw [show (s.edit f g).cmu = s.cmu from rfl]
  split
  · rfl
  · exact produce_edit h (endSurvey s) _

omit h in
theorem ite_edit {c : Prop} [Decidable c] {a b a' b' : State} (ha : a' = a.edit f g)
    (hb : b' = b.edit f g) : (if c then a' else b') = (if c then a else b).edit f g := by
  split
  · exact ha
  · exact hb

theorem enterState_edit (new : StationState) :
    enterState new (s.edit f g) = (enterState new s).edit f g := by
  have hAbort : (if s.stc.state = .synced then abortSurvey (s.edit f g) else s.edit f g)
      = (if s.stc.state = .synced then abortSurvey s else s).edit f g :=
    ite_edit (abortSurvey_edit h s) rfl
  rw [enterState_eq, enterState_eq]
  exact congrArg (State.moved new) hAbort

theorem enterTripped_edit : enterTripped (s.edit f g) = (enterTripped s).edit f g := by
  simp only [enterTripped, enterState_edit h]
  rfl

theorem enterListening_edit : enterListening (s.edit f g) = (enterListening s).edit f g := by
  simp only [enterListening, enterState_edit h, edit_stc, setStc_edit]
  exact ite_edit (enterTripped_edit h _) rfl

theorem evaluateDeblock_edit : evaluateDeblock (s.edit f g) = (evaluateDeblock s).edit f g := by
  simp only [evaluateDeblock]
  refine ite_edit ?_ rfl
  rw [edit_orh, edit_inPair]
  cases s.orh.current.blockState
  · rfl
  · exact enterState_edit h s _
  · exact ite_edit (enterState_edit h s _) rfl

theorem startDarkTimer_edit : startDarkTimer (s.edit f g) = (startDarkTimer s).edit f g := by
  unfold startDarkTimer
  rw [show (s.edit f g).vcm.valve = s.vcm.valve from h.valve s.vcm]
  exact ite_edit rfl rfl

theorem enterSynced_edit : enterSynced (s.edit f g) = (enterSynced s).edit f g := by
  simp only [enterSynced, enterState_edit h, edit_stc, setStc_edit]
  refine ite_edit (enterListening_edit h _) (ite_edit (enterTripped_edit h _) ?_)
  exact (congrArg evaluateDeblock (startDarkTimer_edit h _)).trans (evaluateDeblock_edit h _)

theorem leaveFiring_edit : leaveFiring (s.edit f g) = (leaveFiring s).edit f g :=
  ite_edit (enterTripped_edit h s) (enterSynced_edit h s)

theorem stcAdopt_edit : stcAdopt (s.edit f g) = (stcAdopt s).edit f g := by
  unfold stcAdopt
  rw [edit_stc, edit_orh, edit_inPair, edit_overConsumed]
  cases s.stc.state <;> simp only []
  · exact evaluateDeblock_edit h s
  · cases s.orh.current.blockState <;> simp only []
    · exact leaveFiring_edit h s
    · exact ite_edit (enterState_edit h s _) (leaveFiring_edit h s)
  · cases s.orh.current.blockState <;> simp only []
    · exact leaveFiring_edit h s
    · exact ite_edit (enterTripped_edit h s) (enterState_edit h s _)
    · exact ite_edit rfl (leaveFiring_edit h s)

theorem stcConsumedChanged_edit (old : Nat) :
    stcConsumedChanged old (s.edit f g) = (stcConsumedChanged old s).edit f g :=
  ite_edit (enterTripped_edit h s) (evaluateDeblock_edit h s)

end

/-! ### The two edits -/

/-- The VCM with its forward roster emptied. -/
def Vcm.withoutRoster (v : Vcm) : Vcm := { v with roster := [] }

theorem unread_withoutRoster : Unread Vcm.withoutRoster id := ⟨fun _ => rfl, fun _ => rfl, fun _ _ => rfl⟩

/-- The roster of a forward interval is emptied before its outcomes are applied or after it. -/
theorem setLevels_clearRoster (levels : List LevelRecord) (s : State) :
    setLevels levels (clearRoster s) = clearRoster (setLevels levels s) := by
  have hSet : levelsSet levels (clearRoster s) = clearRoster (levelsSet levels s) := rfl
  rw [setLevels_eq, setLevels_eq, hSet]
  show _ = State.edit Vcm.withoutRoster id _
  exact ite_edit rfl (stcConsumedChanged_edit unread_withoutRoster (levelsSet levels s) _)

/-- An order that becomes current sets the advance count before STC follows it or after it. -/
theorem stcAdopt_advance (mode : Mode) (s : State) :
    (stcAdopt s).setFic { (stcAdopt s).fic with
        advanceCount := advanceUnder mode (stcAdopt s).fic.advanceCount }
      = stcAdopt (s.setFic { s.fic with advanceCount := advanceUnder mode s.fic.advanceCount }) :=
  (stcAdopt_edit (f := id) (g := fun x => { x with advanceCount := advanceUnder mode x.advanceCount })
    ⟨fun _ => rfl, fun _ => rfl, fun _ _ => rfl⟩ s).symm

theorem stcAdopt_orh (s : State) : (stcAdopt s).orh = s.orh := by
  have h := stcAdopt_offStation s
  simp only [State.offStation, Prod.mk.injEq] at h
  exact h.2.2.2.2.2.2.2.2.2.2.1

/-- An adoption in three parts: the order becomes current, STC follows it, and the armed mark is recomputed; the
order loss is then judged. -/
theorem adopt_eq {s : State} {o : Order} (h : s.orh.pending = some o) :
    adopt s = forceBlock (recomputeArmed (stcAdopt (s.ordered o))) := by
  have hFic : ficAdopt (stcAdopt (s.setOrh
      { s.orh with current := o, pending := none, pendingForced := false }))
        = recomputeArmed (stcAdopt (s.ordered o)) := by
    refine Eq.trans ?_ (congrArg recomputeArmed (stcAdopt_advance o.mode (s.setOrh
      { s.orh with current := o, pending := none, pendingForced := false })))
    simp only [ficAdopt, stcAdopt_orh, State.setOrh_orh]
    cases o.mode <;> rfl
  simp only [adopt, h, hFic]

end Sys2Proof.Machine
end

