-- ==== Sys2Proof/Proofs/Records.lean ====
section
/-! PROOFS. Level records and alarm lines keep their order (R80 to R86, R91, R92, R153, R154), and the changes of
the level table, the monitor and the Command Unit are runs of moves. -/

namespace Sys2Proof.Machine

/-! ### Level records -/

section
variable {r : LevelRecord}

theorem LevelRecord.Ok.silent (h : r.Ok) (hs : r.state = .silent) : r.fwdMiss = 3 ∧ r.ackMiss ≤ 3 := by
  have := h.2; rw [hs] at this; exact this

theorem LevelRecord.Ok.nofire (h : r.Ok) (hs : r.state = .nofire) : r.ackMiss = 3 ∧ r.fwdMiss ≤ 2 := by
  have := h.2; rw [hs] at this; exact this

/-- A level that is not latched has missed at most two of either outcome. -/
theorem LevelRecord.Ok.unlatched (h : r.Ok) (hSilent : r.state ≠ .silent) (hNofire : r.state ≠ .nofire) :
    r.fwdMiss ≤ 2 ∧ r.ackMiss ≤ 2 := by
  obtain ⟨-, h⟩ := h
  cases hs : r.state <;> rw [hs] at h <;> simp_all

/-- A record decided anew is in order once its counts are within their bounds for its latch. -/
theorem LevelRecord.restate_ok (hPrf : r.prfCount ≤ 255)
    (hSilent : r.state = .silent → r.fwdMiss = 3 ∧ r.ackMiss ≤ 3)
    (hNofire : r.state = .nofire → r.ackMiss = 3 ∧ r.fwdMiss ≤ 2)
    (hOther : r.state ≠ .silent → r.state ≠ .nofire → r.fwdMiss ≤ 2 ∧ r.ackMiss ≤ 2) :
    r.restate.Ok := by
  unfold LevelRecord.restate LevelRecord.lost
  split
  · rename_i hLost
    simp only [Bool.or_eq_true, decide_eq_true_eq] at hLost
    obtain hs | hs := hLost
    · exact ⟨hPrf, by rw [hs]; exact hSilent hs⟩
    · exact ⟨hPrf, by rw [hs]; exact hNofire hs⟩
  · rename_i hLost
    simp only [Bool.or_eq_true, decide_eq_true_eq, not_or] at hLost
    obtain ⟨hFwd, hAck⟩ := hOther hLost.1 hLost.2
    split
    · exact ⟨hPrf, ‹_›⟩
    · exact ⟨hPrf, hFwd, hAck, by show r.fwdMiss ≠ 0 ∨ r.ackMiss ≠ 0; omega⟩

theorem LevelRecord.Ok.takeFwd (h : r.Ok) (present : Bool) : (r.takeFwd present).Ok := by
  unfold LevelRecord.takeFwd
  split
  · exact h
  · rename_i hSilent
    have hAck : r.state = .nofire → r.ackMiss = 3 ∧ r.fwdMiss ≤ 2 := h.nofire
    have hOther := h.unlatched hSilent
    split
    · exact restate_ok h.1 (fun hs => absurd hs hSilent) (fun hs => ⟨(hAck hs).1, Nat.zero_le _⟩)
        fun _ hn => ⟨Nat.zero_le _, (hOther hn).2⟩
    · split
      · refine ⟨h.1, rfl, ?_⟩
        show r.ackMiss ≤ 3
        by_cases hs : r.state = .nofire
        · exact Nat.le_of_eq (hAck hs).1
        · exact Nat.le_succ_of_le (hOther hs).2
      · refine restate_ok h.1 (fun hs => absurd hs hSilent) (fun hs => ⟨(hAck hs).1, ?_⟩)
          fun _ hn => ⟨?_, (hOther hn).2⟩ <;> (show r.fwdMiss + 1 ≤ 2; omega)

theorem LevelRecord.Ok.latchNofire (h : r.Ok) (hSilent : r.state ≠ .silent)
    (hNofire : r.state ≠ .nofire) : r.latchNofire.Ok :=
  ⟨h.1, rfl, (h.unlatched hSilent hNofire).1⟩

theorem LevelRecord.Ok.restateAck {n : Nat} (h : r.Ok) (hSilent : r.state ≠ .silent)
    (hNofire : r.state ≠ .nofire) (hn : n ≤ 2) : { r with ackMiss := n }.restate.Ok :=
  restate_ok h.1 (fun hs => absurd hs hSilent) (fun hs => absurd hs hNofire)
    fun _ _ => ⟨(h.unlatched hSilent hNofire).1, hn⟩

theorem LevelRecord.Ok.takeAck (h : r.Ok) (present : Bool) : (r.takeAck present).Ok := by
  unfold LevelRecord.takeAck
  split
  · exact h
  · split <;> exact h
  · rename_i hSilent hNofire
    split
    · exact h.restateAck hSilent hNofire (Nat.zero_le _)
    · split
      · exact h.latchNofire hSilent hNofire
      · exact h.restateAck hSilent hNofire (by omega)

theorem LevelRecord.Ok.takeSurvey (h : r.Ok) (result : SurveyResult) : (r.takeSurvey result).Ok := by
  have hResult : { r with lastSurvey := some result }.Ok := h
  obtain ⟨state, fwdMiss, ackMiss, prfCount, seen, lastSurvey⟩ := r
  cases state with
  | silent =>
    cases result with
    | ok => exact h
    | noAck => exact ⟨h.1, h.2.1, Nat.le_refl 3⟩
    | cross => exact ⟨h.1, h.2.1, Nat.le_refl 3⟩
  | nofire => cases result <;> exact h
  | normal =>
    cases result with
    | ok => exact hResult.restateAck nofun nofun (Nat.zero_le _)
    | noAck => exact hResult.latchNofire nofun nofun
    | cross => exact hResult.latchNofire nofun nofun
  | suspect =>
    cases result with
    | ok => exact hResult.restateAck nofun nofun (Nat.zero_le _)
    | noAck => exact hResult.latchNofire nofun nofun
    | cross => exact hResult.latchNofire nofun nofun

theorem LevelRecord.Ok.signOfLife (h : r.Ok) : r.signOfLife.Ok := by
  rw [signOfLife_eq]; exact h

theorem LevelRecord.signOfLife_state (r : LevelRecord) : r.signOfLife.state = r.state := by
  rw [signOfLife_eq]

theorem LevelRecord.Ok.takePrf (h : r.Ok) : r.takePrf.Ok :=
  LevelRecord.Ok.signOfLife ⟨count8_le _, h.2⟩

theorem LevelRecord.takePrf_state (r : LevelRecord) : r.takePrf.state = r.state :=
  signOfLife_state _

theorem LevelRecord.Ok.clear (h : r.Ok) : r.clear.Ok := ⟨h.1, rfl, rfl⟩

end

/-! ### Alarm lines -/

/-- An alarm line that takes a condition stays consistent (R153, R154). -/
theorem AlarmLine.Ok.hand {toAssert toRelease : TimeSetting} {x : AlarmLine} (h : x.Ok toAssert toRelease)
    (clock : Nat) (condition : Bool) :
    (x.hand clock toAssert toRelease condition).Ok toAssert toRelease := by
  obtain ⟨held, logic, timer, override⟩ := x
  unfold AlarmLine.hand
  split
  · exact h
  · rename_i hChange
    split
    · rename_i hTrue
      subst hTrue
      have hHeld : held = false := Bool.eq_false_iff.2 hChange
      subst hHeld
      cases timer with
      | idle =>
        cases (show logic = false from h)
        simp only [AlarmLine.rise]
        split
        · rfl
        · exact ⟨rfl, rfl, ‹_›⟩
      | asserting _ => cases h.1
      | releasing _ => cases h.2.1; rfl
    · rename_i hFalse
      cases Bool.eq_false_iff.2 hFalse
      have hHeld : held = true := by simpa using hChange
      subst hHeld
      cases timer with
      | idle =>
        cases (show logic = true from h)
        simp only [AlarmLine.fall]
        split
        · rfl
        · exact ⟨rfl, rfl, ‹_›⟩
      | asserting _ => cases h.2.1; rfl
      | releasing _ => cases h.1

theorem AlarmLine.Ok.assertExpiry {toAssert toRelease : TimeSetting} {x : AlarmLine}
    (h : x.Ok toAssert toRelease) (clock : Nat) : (x.assertExpiry clock).Ok toAssert toRelease := by
  unfold AlarmLine.assertExpiry
  split
  · rename_i hTimer
    split
    · unfold AlarmLine.Ok at h
      rw [hTimer] at h
      exact h.1.symm
    · exact h
  · exact h

theorem AlarmLine.Ok.releaseExpiry {toAssert toRelease : TimeSetting} {x : AlarmLine}
    (h : x.Ok toAssert toRelease) (clock : Nat) : (x.releaseExpiry clock).Ok toAssert toRelease := by
  unfold AlarmLine.releaseExpiry
  split
  · rename_i hTimer
    split
    · unfold AlarmLine.Ok at h
      rw [hTimer] at h
      exact h.1.symm
    · exact h
  · exact h

theorem AlarmLine.assertExpiry_condition (clock : Nat) (x : AlarmLine) :
    (x.assertExpiry clock).condition = x.condition := by
  unfold AlarmLine.assertExpiry
  split
  · split <;> rfl
  · rfl

theorem AlarmLine.releaseExpiry_condition (clock : Nat) (x : AlarmLine) :
    (x.releaseExpiry clock).condition = x.condition := by
  unfold AlarmLine.releaseExpiry
  split
  · split <;> rfl
  · rfl

section
variable {s : State}

/-- The monitor of a station in order, changed: every line stays consistent, and each condition is that of its
source. -/
theorem AlarmsOk.setPmn (h : AlarmsOk s) {x : Pmn}
    (hLines : ∀ n, (s.pmn.line n).Ok (s.cfg.assertDelay n) (s.cfg.releaseDelay n) →
      (x.line n).Ok (s.cfg.assertDelay n) (s.cfg.releaseDelay n))
    (hTrip : x.tripRequest.condition = s.pmn.tripRequest.condition)
    (hRed : x.redundancyLow.condition = s.pmn.redundancyLow.condition)
    (hFailure : s.pmn.commutationFailure.condition = s.pmn.cfHold →
      x.commutationFailure.condition = x.cfHold)
    (hRing : ∀ c, (s.pmn.ring.length = c.window
        ∧ (s.pmn.prfRate.condition = true ↔ c.prfLimit ≤ s.pmn.ring.sum)) → s.stc.setup = some c →
      x.ring.length = c.window ∧ (x.prfRate.condition = true ↔ c.prfLimit ≤ x.ring.sum)) :
    AlarmsOk (s.setPmn x) := by
  obtain ⟨hLine, hTrip', hRed', hFailure', hRing'⟩ := h
  exact ⟨fun n => hLines n (hLine n), hTrip.trans hTrip', hRed.trans hRed', hFailure hFailure',
    fun c hc => hRing c (hRing' c hc) hc⟩

/-- A line whose record alone changes, its condition kept. -/
theorem AlarmsOk.changeAlarm (h : AlarmsOk s) (name : AlarmName) {f : AlarmLine → AlarmLine}
    (hOk : ∀ a r x, AlarmLine.Ok a r x → (f x).Ok a r) (hCondition : ∀ x, (f x).condition = x.condition) :
    AlarmsOk (changeAlarm name f s) := by
  refine h.setPmn (fun n hn => ?_) ?_ ?_ (fun hc => ?_) (fun c hc _ => ?_)
  · rw [Pmn.setAlarm_line]
    split
    · subst_vars; exact hOk _ _ _ hn
    · exact hn
  · cases name <;> first | exact hCondition _ | rfl
  · cases name <;> first | exact hCondition _ | rfl
  · cases name <;> first | exact (hCondition _).trans hc | exact hc
  · cases name <;> first | exact hc | exact ⟨hc.1, (Eq.to_iff (congrArg (· = true) (hCondition _))).trans hc.2⟩

theorem AlarmsOk.mapAlarms (h : AlarmsOk s) {f : AlarmName → AlarmLine → AlarmLine}
    (hOk : ∀ n a r x, AlarmLine.Ok a r x → (f n x).Ok a r)
    (hCondition : ∀ n x, (f n x).condition = x.condition) :
    AlarmsOk (s.setPmn (s.pmn.mapAlarms f)) := by
  refine h.setPmn (fun n hn => ?_) (hCondition _ _) (hCondition _ _) (fun hc => (hCondition _ _).trans hc)
    fun c hc _ => ⟨hc.1, (Eq.to_iff (congrArg (· = true) (hCondition _ _))).trans hc.2⟩
  cases n <;> exact hOk _ _ _ _ hn

/-- PRF RATE judged on a changed ring of W counts (R147). -/
theorem AlarmsOk.judgePrfRate {x : Pmn} (h : AlarmsOk s)
    (hLine : ∀ n, x.line n = s.pmn.line n) (hHold : x.cfHold = s.pmn.cfHold)
    (hRing : ∀ c, s.stc.setup = some c → s.pmn.ring.length = c.window → x.ring.length = c.window) :
    AlarmsOk (judgePrfRate (s.setPmn x)) := by
  refine h.setPmn (x := x.setAlarm .prfRate _) (fun n hn => ?_)
    (congrArg AlarmLine.condition (hLine .tripRequest))
    (congrArg AlarmLine.condition (hLine .redundancyLow)) (fun hc => ?_) (fun c hc hSetup => ?_)
  · rw [Pmn.setAlarm_line]
    split
    · subst_vars
      rw [show (s.setPmn x).pmn.line .prfRate = s.pmn.line .prfRate from hLine _]
      exact hn.hand ..
    · rw [hLine]; exact hn
  · exact ((congrArg AlarmLine.condition (hLine .commutationFailure)).trans hc).trans hHold.symm
  · refine ⟨hRing c hSetup hc.1, ?_⟩
    have hCfg : s.cfg = c := by unfold State.cfg; rw [hSetup]; rfl
    show (AlarmLine.hand _ _ _ _ _).condition = true ↔ _
    rw [AlarmLine.hand_condition]
    simp only [decide_eq_true_eq]
    show (s.cfg.prfLimit ≤ x.ring.sum) ↔ _
    rw [hCfg]
    rfl

/-- The commutation failure hold handed to its line (R150). -/
theorem AlarmsOk.handFailure (h : AlarmsOk s) (hold : Bool) :
    AlarmsOk (handCondition .commutationFailure hold (s.setPmn { s.pmn with cfHold := hold })) := by
  refine h.setPmn (x := Pmn.setAlarm _ .commutationFailure _) (fun n hn => ?_) rfl rfl (fun _ => ?_)
    fun c hc _ => hc
  · rw [Pmn.setAlarm_line]
    split
    · subst_vars; exact hn.hand ..
    · exact hn
  · exact AlarmLine.hand_condition ..

end

/-! ### The monitor as moves -/

section
variable {K : List Tag} {s : State}

/-- The count of the cycle enters the ring of W counts, which is not empty (R147). -/
theorem closePrfCycle_run (hK : .pmn ∈ K) : Run K s (closePrfCycle s) := by
  refine (Move.pmn (s := s) _ fun hSetup h => h.judgePrfRate (x := { s.pmn with
    ring := pushRing s.pmn.ring s.pmn.cyclePrf.length, cyclePrf := []
    peakHold := max s.pmn.peakHold (pushRing s.pmn.ring s.pmn.cyclePrf.length).sum })
    (fun n => by cases n <;> rfl) rfl fun c hc hRing => ?_).run hK
  obtain ⟨-, hRange, -⟩ := hSetup
  have hWindow : 0 < c.window := by
    obtain ⟨-, -, -, -, -, -, -, -, -, -, -, -, -, -, -, -, -, -, -, -, -, -, -, -, hIn, -⟩ := hRange c hc
    simp only [List.mem_cons, List.not_mem_nil, or_false] at hIn
    omega
  simp only [pushRing, List.length_append, List.length_drop, List.length_singleton]
  omega

theorem pmnFailure_run (hK : .pmn ∈ K) : Run K s (pmnFailure s) :=
  (Move.pmn (s := s) _ fun _ h => h.handFailure true).run hK

/-- A change of the monitor that touches no line, no ring and no hold of the failure. -/
theorem setPmn_run (hK : .pmn ∈ K) (x : Pmn) (hLine : ∀ n, x.line n = s.pmn.line n)
    (hRing : x.ring = s.pmn.ring) (hHold : x.cfHold = s.pmn.cfHold) : Run K s (s.setPmn x) := by
  refine (Move.pmn (s := s) x fun _ h => h.setPmn (fun n hn => by rwa [hLine n])
    (congrArg AlarmLine.condition (hLine .tripRequest))
    (congrArg AlarmLine.condition (hLine .redundancyLow)) (fun hc => ?_) fun c hc _ => ?_).run hK
  · rw [hHold, ← hc]; exact congrArg AlarmLine.condition (hLine .commutationFailure)
  · rw [hRing]
    exact ⟨hc.1, (Eq.to_iff (congrArg (·.condition = true) (hLine .prfRate))).trans hc.2⟩

theorem pmnPrf_run (hK : .pmn ∈ K) (n : Nat) : Run K s (pmnPrf n s) :=
  setPmn_run hK _ (fun n => by cases n <;> rfl) rfl rfl

theorem pmnGamma_run (hK : .pmn ∈ K) (gamma : Nat) : Run K s (pmnGamma gamma s) :=
  setPmn_run hK _ (fun n => by cases n <;> rfl) rfl rfl

theorem reportCycle_run (hPmn : .pmn ∈ K) (hVcm : .vcm ∈ K) : Run K s (reportCycle s) :=
  ((Move.pmn (s := s) _ fun _ h => h.handFailure (s.pmn.cfHold && s.vcm.failureInCycle)).run hPmn).trans
    ((Move.vcm (s := handCondition .commutationFailure (s.pmn.cfHold && s.vcm.failureInCycle)
      (s.setPmn { s.pmn with cfHold := s.pmn.cfHold && s.vcm.failureInCycle }))
      { s.vcm with failureInCycle := false } fun h => h).run hVcm)

/-! ### The level table as moves -/

theorem setLevels_run (hK : Tag.station ⊆ K) (hLevels : .levels ∈ K) (levels : List LevelRecord)
    (hOk : (∀ r ∈ s.lvt.levels, r.Ok) → ∀ r ∈ levels, r.Ok)
    (hLength : levels.length = s.lvt.levels.length) : Run K s (setLevels levels s) := by
  have hSet : Run K s (levelsSet levels s) := (Move.levels levels hOk hLength).run hLevels
  rw [setLevels_eq]
  exact .ite (fun _ => hSet) fun _ => hSet.trans (stcConsumedChanged_run hK _)

/-- Records that are each changed in order are in order. -/
theorem mapFrom_ok {f : Nat → LevelRecord → LevelRecord} {levels : List LevelRecord}
    (hf : ∀ n r, r.Ok → (f n r).Ok) (h : ∀ r ∈ levels, r.Ok) : ∀ r ∈ mapFrom f 1 levels, r.Ok := by
  intro r hr
  obtain ⟨n, x, hx, rfl⟩ := mem_mapFrom hr
  exact hf n x (h x hx)

theorem mapLevels_run (hK : Tag.station ⊆ K) (hLevels : .levels ∈ K)
    {f : Nat → LevelRecord → LevelRecord} (hf : ∀ n r, r.Ok → (f n r).Ok) :
    Run K s (setLevels (mapFrom f 1 s.lvt.levels) s) :=
  setLevels_run hK hLevels _ (mapFrom_ok hf) (mapFrom_length ..)

theorem takeFwdOutcomes_run (hK : Tag.station ⊆ K) (hLevels : .levels ∈ K) (roster : List Nat) :
    Run K s (takeFwdOutcomes roster s) :=
  mapLevels_run hK hLevels fun _ _ h => h.takeFwd _

theorem takeAckOutcomes_run (hK : Tag.station ⊆ K) (hLevels : .levels ∈ K) (targets acked : List Nat) :
    Run K s (takeAckOutcomes targets acked s) :=
  mapLevels_run hK hLevels fun _ _ h => by
    split
    · exact h.takeAck _
    · exact h

theorem takeSurveyResult_run (hK : Tag.station ⊆ K) (hLevels : .levels ∈ K) (n : Nat)
    (result : SurveyResult) : Run K s (takeSurveyResult n result s) :=
  mapLevels_run hK hLevels fun _ _ h => by
    split
    · exact h.takeSurvey _
    · exact h

theorem clearLevel_run (hK : Tag.station ⊆ K) (hLevels : .levels ∈ K) (n : Nat) :
    Run K s (clearLevel n s) :=
  mapLevels_run hK hLevels fun _ _ h => by
    split
    · exact h.clear
    · exact h

theorem clearAllLevels_run (hK : Tag.station ⊆ K) (hLevels : .levels ∈ K) :
    Run K s (clearAllLevels s) :=
  setLevels_run hK hLevels _ (fun h r hr => by
    obtain ⟨x, hx, rfl⟩ := List.mem_map.1 hr
    exact (h x hx).clear) (List.length_map ..)

/-! ### The survey's progress as moves (R169, R170) -/

theorem SurveyRecord.take_last (result : SurveyResult) (v : SurveyRecord) :
    (v.take result).last = v.last := by cases result <;> rfl

/-- A result taken with a level left is counted, and listed up to the sixteenth failure. -/
theorem SurveyOk.take {v : SurveyRecord} (h : SurveyOk s) (hv : s.cmu.executing = some v)
    (result : SurveyResult) (hNext : ¬ v.last < (v.take result).next) :
    SurveyOk (s.setCmu { executing := some (v.take result) }) := by
  obtain ⟨hState, hFirst, -, hCount, hLength, hFailures, hMarks⟩ := h v hv
  have hFailed : ∀ n ∈ (if v.failures.length < 16 then v.failures ++ [v.next] else v.failures),
      v.first ≤ n ∧ n < v.next + 1 := by
    intro n hn
    have hOld (hn : n ∈ v.failures) : v.first ≤ n ∧ n < v.next + 1 := by
      obtain ⟨hGe, hLt⟩ := hFailures n hn
      exact ⟨hGe, Nat.lt_succ_of_lt hLt⟩
    split at hn
    · obtain hn | hn := List.mem_append.1 hn
      · exact hOld hn
      · rw [List.mem_singleton.1 hn]
        exact ⟨hFirst, Nat.lt_succ_self _⟩
    · exact hOld hn
  have hListed : (if v.failures.length < 16 then v.failures ++ [v.next] else v.failures).length
      = min 16 (v.countFailed + 1) := by
    split
    · rw [List.length_append, List.length_singleton]; omega
    · omega
  have hOne : v.countOk + (v.countFailed + 1) + v.first = v.next + 1 := by omega
  intro w hw
  cases hw
  cases result with
  | ok =>
    refine ⟨hState, Nat.le_succ_of_le hFirst, Nat.le_of_not_lt hNext, ?_, hLength, fun n hn => ?_, hMarks⟩
    · show v.countOk + 1 + v.countFailed + v.first = v.next + 1
      omega
    · obtain ⟨hGe, hLt⟩ := hFailures n hn
      exact ⟨hGe, Nat.lt_succ_of_lt hLt⟩
  | noAck => exact ⟨hState, Nat.le_succ_of_le hFirst, Nat.le_of_not_lt hNext, hOne, hListed, hFailed, hMarks⟩
  | cross => exact ⟨hState, Nat.le_succ_of_le hFirst, Nat.le_of_not_lt hNext, hOne, hListed, hFailed, hMarks⟩

/-- A survey ends with a RESULT. -/
theorem endSurvey_run (hK : Tag.station ⊆ K) (tag code : Byte) (completion : Completion) (detail : Detail)
    (data : List Byte) : Run K s (produceResult tag code completion detail data (endSurvey s)) :=
  (((Move.survey (s := s)).run (K := [.survey, .seq, .line])).trans (produceResult_run ..).mono).mono
    (List.Subset.trans (by decide) hK)

theorem cmuSurveyResult_run (hK : Tag.station ⊆ K) (hProgress : .progress ∈ K) (result : SurveyResult) :
    Run K s (cmuSurveyResult result s) := by
  unfold cmuSurveyResult
  split
  · exact .refl
  · rename_i v hv
    exact .ite (fun _ => endSurvey_run hK ..) fun hNext =>
      (Move.progress _ fun h => h.take hv result (SurveyRecord.take_last result v ▸ hNext)).run hProgress

theorem countSurveyMark_run (hK : Tag.station ⊆ K) (hProgress : .progress ∈ K) :
    Run K s (countSurveyMark s) := by
  unfold countSurveyMark
  split
  · exact .refl
  · rename_i v hv
    refine .ite (fun _ => endSurvey_run hK ..) fun hLimit => (Move.progress _ fun h => ?_).run hProgress
    intro w hw
    cases hw
    obtain ⟨hState, hFirst, hLast, hCount, hLength, hFailures, -⟩ := h v hv
    refine ⟨hState, hFirst, hLast, hCount, hLength, hFailures, ?_⟩
    have hMarks : ¬ v.last - v.first + 1 + 8 < count8 v.marks := hLimit
    show count8 v.marks ≤ v.last - v.first + 9
    omega

end
end Sys2Proof.Machine
end

