-- ==== Sys2Proof/Proofs/Runs.lean ====
section
/-! PROOFS. Windows, pulses, marks, orders and the entries of the valve as runs of moves. -/

namespace Sys2Proof.Machine

/-- The tags of a window that closes: its findings may move the station. -/
def Tag.closing : List Tag := [.window, .levels, .progress, .choice] ++ Tag.station

/-- The tags of a pulse on the fibres with what it does to the valve. -/
def Tag.pulsing : List Tag := [.pulse, .vcm, .pst, .fic] ++ Tag.closing

/-- The tags of a mark that is taken. -/
def Tag.marking : List Tag :=
  [.orh, .order, .prl, .pst, .pmn, .vcm, .progress, .choice, .fic, .leave] ++ Tag.station

section
variable {K : List Tag} {s : State}

/-! ### Windows (R123 to R125) -/

theorem setWindow_run (hK : .window ∈ K) (w : Option AckWindow) :
    Run K s (s.setPst { s.pst with window := w }) := (Move.window w).run hK

theorem deliverSurveyResult_run (hK : Tag.closing ⊆ K) (n : Nat) (result : SurveyResult) :
    Run K s (deliverSurveyResult n result s) := by
  have hStation : Tag.station ⊆ K := List.Subset.trans (by decide) hK
  refine Run.inAnyOrder (hK (by decide)) fun f hf x => ?_
  simp only [List.mem_cons, List.not_mem_nil, or_false] at hf
  obtain rfl | rfl := hf
  · exact takeSurveyResult_run hStation (hK (by decide)) n result
  · exact cmuSurveyResult_run hStation (hK (by decide)) result

theorem closeWindow_run (hK : Tag.closing ⊆ K) : Run K s (closeWindow s) := by
  unfold closeWindow
  split
  · exact .refl
  · rename_i w _
    refine (setWindow_run (hK (by decide)) none).trans ?_
    split
    · exact deliverSurveyResult_run hK _ _
    · exact takeAckOutcomes_run (List.Subset.trans (by decide) hK) (hK (by decide)) _ _

theorem openWindow_run (hK : Tag.closing ⊆ K) (kind : WindowKind) (targets : List Nat) :
    Run K s (openWindow kind targets s) :=
  (closeWindow_run hK).trans (setWindow_run (hK (by decide)) _)

theorem pstAck_run (hWindow : .window ∈ K) (hPst : .pst ∈ K) (hTouch : .touch ∈ K) (n : Nat) :
    Run K s (pstAck n s) := by
  have hStray : Run K s (if s.silent n then s
      else s.setPst { s.pst with strayAck := count16 s.pst.strayAck }) :=
    .ite (fun _ => .refl) fun _ => setPst_run hPst _
  simp only [pstAck]
  refine Run.trans ?_ ((Move.touch LevelRecord.signOfLife n (fun _ h => h.signOfLife)
    LevelRecord.signOfLife_state).run hTouch)
  split
  · exact hStray
  · split
    · exact setWindow_run hWindow _
    · exact .ite (fun _ => setWindow_run hWindow _) fun _ => hStray

/-! ### Commutation failure (R72, R114) -/

/-- A change of the FIC that touches neither the armed record nor the advance count. -/
theorem setFic_free_run (hK : .fic ∈ K) (x : Fic) (hArmed : x.armed = s.fic.armed := by rfl)
    (hAdvance : x.advanceCount = s.fic.advanceCount := by rfl)
    (hDeferral : x.deferral = s.fic.deferral := by rfl)
    (hSeq : x.seqCounter = s.fic.seqCounter := by rfl) : Run K s (s.setFic x) :=
  setFic_run hK x (fun _ ⟨hAge, hForced, hLimit, hMode⟩ => ⟨hAge, hForced, hAdvance.symm ▸ hLimit,
    fun h => hAdvance.trans (hMode h)⟩) (fun _ h => hArmed.trans h) hDeferral hSeq

/-- A failure advance is N_cf, in its range, and INVERTER is then current. -/
theorem ficFailure_run (hK : .fic ∈ K) : Run K s (ficFailure s) := by
  unfold ficFailure
  split
  · rename_i hMode
    refine setFic_run hK _ (fun hSetup h => ?_) fun _ h => h
    obtain ⟨hAge, hForced, -, -⟩ := h
    refine ⟨hAge, hForced, ?_, fun h => absurd (hMode.symm.trans h) (by decide)⟩
    show s.cfg.ncf ≤ 15
    unfold State.cfg
    cases hc : s.stc.setup with
    | none => decide
    | some c =>
      obtain ⟨-, hRange, -⟩ := hSetup
      obtain ⟨-, -, -, -, -, -, -, -, -, -, -, -, -, -, -, -, -, -, -, -, hNcf, -⟩ := hRange c hc
      exact hNcf
  · exact .refl

/-- The tags of a commutation failure. -/
def Tag.failing : List Tag := [.vcm, .seq, .line, .fic, .pmn]

theorem declareFailure_run (hK : Tag.failing ⊆ K) (kind : EventKind) :
    Run K s (declareFailure kind s) := by
  have hCount : Run K s (s.setVcm (countFailure kind s.vcm)) :=
    (Move.vcm _ fun h => by cases kind <;> exact h).run (hK (by decide))
  exact ((hCount.trans ((produce_run _).mono (List.Subset.trans (by decide) hK))).trans
    (ficFailure_run (hK (by decide)))).trans (pmnFailure_run (hK (by decide)))

theorem noExtinction_run (hK : Tag.failing ⊆ K) : Run K s (noExtinction s) := by
  have hSpent : Run K s (s.setVcm { s.vcm with spent := true }) :=
    setVcm_run (hK (by decide)) { s.vcm with spent := true } fun h => h
  exact .ite (fun _ => hSpent) fun _ => hSpent.trans (declareFailure_run hK _)

/-! ### Entries that a pulse causes (R67, R68) -/

/-- The VCM at an entry into CONDUCTING, its roster emptied (R62, R67). -/
def Vcm.conducting (now : Instant) (clock : Nat) (v : Vcm) : Vcm :=
  { v.enter .conducting with
    f := some now, inactivity := some clock, noExtinction := some clock, spent := false, roster := [] }

/-- The forward interval that a change of the valve ends: its test is dropped, and STC told of an exit from
DARK. -/
def leftForward (v : Vcm) (s : State) : State := dropSurveyTest (leaveDark s.vcm.valve (s.setVcm v))

theorem clearRoster_leftForward (v : Vcm) (s : State) :
    clearRoster (leftForward v s) = leftForward v.withoutRoster s := by
  unfold leftForward leaveDark
  split <;> rfl

theorem leftForward_vcm (v : Vcm) (s : State) : (leftForward v s).vcm = v := by
  unfold leftForward leaveDark
  split <;> rfl

theorem leftForward_lvt (v : Vcm) (s : State) : (leftForward v s).lvt = s.lvt := by
  unfold leftForward leaveDark
  split <;> rfl

/-- The outcomes of a forward interval, with the roster emptied before them. -/
theorem evaluateForward_eq (s : State) :
    evaluateForward s = takeFwdOutcomes s.vcm.roster (clearRoster s) :=
  (setLevels_clearRoster ..).symm

/-- An entry into CONDUCTING: the VCM, the FWD outcomes of a long interval, the cause and the gather. -/
theorem enterConducting_eq (cause : Cause) (s : State) :
    enterConducting cause s =
      let t := leftForward (s.vcm.conducting s.now s.clock) s
      let t := if s.vcm.valve = .forward ∧ s.intervalLong then takeFwdOutcomes s.vcm.roster t else t
      endGather (t.setFic { t.fic with cause := some cause }) := by
  have hLeft (v : Vcm) : (if s.vcm.valve = .forward ∧ s.intervalLong
        then evaluateForward (leftForward v s) else clearRoster (leftForward v s))
      = if s.vcm.valve = .forward ∧ s.intervalLong
        then takeFwdOutcomes v.roster (leftForward v.withoutRoster s) else leftForward v.withoutRoster s := by
    rw [evaluateForward_eq, clearRoster_leftForward, leftForward_vcm]
  exact congrArg (fun t : State => endGather (t.setFic { t.fic with cause := some cause })) (hLeft _)

theorem leftForward_run (hStation : Tag.station ⊆ K) (hVcm : .vcm ∈ K) (hPst : .pst ∈ K) (v : Vcm)
    (h : ValveOk s → ValveOk (s.setVcm v)) : Run K s (leftForward v s) :=
  (((Move.vcm v h).run hVcm).trans (leaveDark_run hStation _)).trans (setPst_run hPst _)

theorem enterConducting_run (hK : Tag.pulsing ⊆ K) (cause : Cause) :
    Run K s (enterConducting cause s) := by
  have hStation : Tag.station ⊆ K := List.Subset.trans (by decide) hK
  have hLeft : Run K s (leftForward (s.vcm.conducting s.now s.clock) s) :=
    leftForward_run hStation (hK (by decide)) (hK (by decide)) _ fun ⟨_, _, _, _, _, _, hMu⟩ =>
      ⟨nofun, nofun, fun _ => ⟨rfl, rfl⟩, nofun, fun _ => rfl, fun _ => rfl, hMu⟩
  rw [enterConducting_eq]
  refine Run.trans ?_ (setPst_run (hK (by decide)) _)
  refine Run.trans ?_ (setFic_free_run (hK (by decide)) _)
  exact .ite (fun _ => hLeft.trans (takeFwdOutcomes_run hStation (hK (by decide)) _)) fun _ => hLeft

theorem valvePulse_run (hK : Tag.pulsing ⊆ K) : Run K s (valvePulse s) := by
  unfold valvePulse
  split
  · rename_i hDark
    refine (Move.vcm _ fun h => ?_).run (hK (by decide))
    obtain ⟨hValve, hForward, hConducting, hRecovering, hRoster, -, hMu⟩ := h
    exact ⟨hValve, hForward, hConducting, hRecovering, hRoster, fun hn => absurd hDark hn, hMu⟩
  · exact enterConducting_run hK _
  · exact .refl

theorem valveProtective_run (hK : Tag.pulsing ⊆ K) : Run K s (valveProtective s) := by
  unfold valveProtective
  split
  · exact .refl
  · exact .refl
  · exact enterConducting_run hK _

/-! ### Pulses (R118 to R121, R128) -/

theorem emitToAll_run (hK : .pulse ∈ K) (kind : PulseKind) : Run K s (emitToAll kind s) :=
  (Move.pulse ..).run hK

/-- A pulse to all fibres, the valve and the new window, before any train. -/
theorem pulseWindow_run (hK : Tag.pulsing ⊆ K) (pulse : PulseKind) (kind : WindowKind)
    (targets : List Nat) : Run K s (openWindow kind targets (valvePulse (emitToAll pulse s))) :=
  ((emitToAll_run (hK (by decide)) pulse).trans (valvePulse_run hK)).trans
    (openWindow_run (List.Subset.trans (by decide) hK) kind targets)

/-- A train that starts in a state that permits its pulses. -/
theorem setTrain_run (hTrain : .train ∈ K) (x : Train)
    (h : .loose ∈ K ∨ TrainOk (s.setPst { s.pst with train := x })) :
    Run K s (s.setPst { s.pst with train := x }) :=
  h.elim (fun hLoose => (Move.loose x).run hLoose) fun hOk => (Move.train x hOk).run hTrain

theorem refireTrain_ok (c : Setup) (clock : Nat) (hState : s.stc.state = .running)
    (hBlock : s.blockAsserted = false) :
    TrainOk (s.setPst { s.pst with train := refireTrain c clock }) := by
  unfold refireTrain
  split
  · trivial
  · exact ⟨hState, hBlock⟩

theorem mainPulse_run (hK : Tag.pulsing ⊆ K) (hTrain : .train ∈ K) (fired : Fired)
    (h : fired ≠ .forced → .loose ∈ K ∨ (s.stc.state = .running ∧ s.blockAsserted = false)) :
    Run K s (mainPulse fired s) := by
  have hPulse := pulseWindow_run (s := s) (List.Subset.refl Tag.pulsing) .main .main s.heardLevels
  refine .ite (fun _ => hPulse.mono hK) fun hFired => (hPulse.mono hK).trans (setTrain_run hTrain _ ?_)
  refine (h hFired).imp_right fun ⟨hState, hBlock⟩ => refireTrain_ok _ _ ?_ ?_
  · exact (hPulse.stays (.inl hState)).trans hState
  · exact hPulse.blockAsserted.trans hBlock

theorem bypassFiring_run (hK : Tag.pulsing ⊆ K) (hTrain : .train ∈ K)
    (hState : s.stc.state = .bypassing) (hBlock : s.blockAsserted = false) :
    Run K s (bypassFiring s) := by
  have hPulse : Run Tag.pulsing s (valvePulse (emitToAll .bypass s)) :=
    (emitToAll_run (by decide) _).trans (valvePulse_run (List.Subset.refl _))
  exact (hPulse.mono hK).trans (setTrain_run hTrain _
    (.inr ⟨(hPulse.stays (.inr hState)).trans hState, hPulse.blockAsserted.trans hBlock⟩))

theorem refirePulse_run (hK : Tag.pulsing ⊆ K) (hTrain : .train ∈ K)
    (hState : s.stc.state = .running) (hBlock : s.blockAsserted = false) :
    Run K s (refirePulse s) := by
  have hPulse : Run Tag.pulsing s (valvePulse (emitToAll .refire s)) :=
    (emitToAll_run (by decide) _).trans (valvePulse_run (List.Subset.refl _))
  exact (hPulse.mono hK).trans (setTrain_run hTrain _
    (.inr ⟨(hPulse.stays (.inl hState)).trans hState, hPulse.blockAsserted.trans hBlock⟩))

theorem protectiveFiring_run (hK : Tag.pulsing ⊆ K) : Run K s (protectiveFiring s) := by
  have hPst : .pst ∈ K := hK (by decide)
  refine Run.trans ?_ (setPst_run hPst _)
  refine Run.trans ?_ (openWindow_run (List.Subset.trans (by decide) hK) _ _)
  refine Run.trans ?_ (setPst_run hPst _)
  refine Run.trans ?_ ((produce_run _).mono (List.Subset.trans (by decide) hK))
  exact ((setPst_run hPst _).trans (emitToAll_run (hK (by decide)) _)).trans (valveProtective_run hK)

theorem testPulse_run (hK : Tag.pulsing ⊆ K) : Run K s (testPulse s) := by
  unfold testPulse
  split
  · exact .refl
  · exact (((Move.pulse ..).run (hK (by decide))).trans (setPst_run (hK (by decide)) _)).trans
      (openWindow_run (List.Subset.trans (by decide) hK) _ _)

/-! ### The Peer Roll (R42 to R46, R50 to R52) -/

/-- The roll with one entry for each position, its missed counters in their bounds. -/
theorem setPrl_run (hK : .prl ∈ K) (x : Prl) (hRoll : RollOk s → RollOk (s.setPrl x))
    (hArrival : ∀ a ∈ x.lastArrival, a ∈ s.prl.lastArrival
      ∨ (1 ≤ a.position ∧ a.position ≤ s.group) ∨ a.position = s.position) : Run K s (s.setPrl x) :=
  (Move.prl x hRoll hArrival).run hK

/-- Entries that are each changed within the bounds of their missed counter. -/
theorem mapRoll_ok {f : Nat → RollEntry → RollEntry}
    (hf : ∀ n x, x.missed ≤ 255 → (f n x).missed ≤ 255) (h : RollOk s) :
    RollOk (s.setPrl { s.prl with roll := mapFrom f 1 s.prl.roll }) := by
  obtain ⟨hLength, hMissed, hRest⟩ := h
  refine ⟨(mapFrom_length ..).trans hLength, fun x hx => ?_, hRest⟩
  obtain ⟨n, y, hy, rfl⟩ := mem_mapFrom hx
  exact hf n y (hMissed y hy)

theorem mapRoll_run (hK : .prl ∈ K) {f : Nat → RollEntry → RollEntry}
    (hf : ∀ n x, x.missed ≤ 255 → (f n x).missed ≤ 255) :
    Run K s (s.setPrl { s.prl with roll := mapFrom f 1 s.prl.roll }) :=
  setPrl_run hK _ (mapRoll_ok hf) fun _ ha => .inl ha

theorem changeEntry_run (hK : .prl ∈ K) {f : RollEntry → RollEntry}
    (hf : ∀ x, x.missed ≤ 255 → (f x).missed ≤ 255) (position : Nat) :
    Run K s (changeEntry f position s) :=
  mapRoll_run hK fun _ _ hx => by
    split
    · exact hf _ hx
    · exact hx

theorem countMissed_run (hK : .prl ∈ K) : Run K s (countMissed s) :=
  mapRoll_run hK fun _ x hx => by
    split
    · exact hx
    · unfold RollEntry.missMark
      split
      · exact count8_le _
      · split
        · exact hx
        · exact count8_le _

theorem countRefused_run (hK : .prl ∈ K) :
    Run K s (s.setPrl { s.prl with marksRefused := count16 s.prl.marksRefused }) :=
  setPrl_run hK _ (fun ⟨hLength, hMissed, hRun, _, hOut⟩ => ⟨hLength, hMissed, hRun, count16_le _, hOut⟩)
    fun _ ha => .inl ha

theorem judgeSample_run (hK : .prl ∈ K) (sample : Nat) : Run K s (judgeSample sample s) := by
  refine .ite (fun _ => setPrl_run hK _ (fun h => h) fun _ ha => .inl ha) fun _ => setPrl_run hK _ ?_
    fun _ ha => .inl ha
  rintro ⟨hLength, hMissed, hRun, hRefused, -⟩
  exact ⟨hLength, hMissed, hRun, hRefused, count16_le _⟩

theorem offerMark_run (hK : .prl ∈ K) (position : Nat) (t : Instant)
    (h : (1 ≤ position ∧ position ≤ s.group) ∨ position = s.position) :
    Run K s (offerMark position t s) := by
  have hRecord (x : State) (hGroup : x.group = s.group) (hPosition : x.position = s.position) :
      Run K x (x.setPrl { x.prl with lastArrival := some { position := position, instant := t } }) :=
    setPrl_run hK _ (fun h => h) fun a ha => by
      cases ha
      rw [hGroup, hPosition]
      exact .inr h
  unfold offerMark
  split
  · exact hRecord s rfl rfl
  · rename_i old _
    refine .ite (fun _ => ?_) fun _ => .refl
    have hJudged : Run [.prl] s (if 1 ≤ distance s.group old.position position
          ∧ distance s.group old.position position ≤ 3 then
        judgeSample (s.group * (instantDiff t old.instant).toNat / distance s.group old.position position) s
      else s) :=
      .ite (fun _ => judgeSample_run (by decide) _) fun _ => .refl
    exact (hJudged.mono (List.cons_subset.2 ⟨hK, List.nil_subset _⟩)).trans
      (hRecord _ hJudged.group hJudged.position)

theorem offerOwnMark_run (hK : .prl ∈ K) (placing : Placing) : Run K s (offerOwnMark placing s) := by
  refine (offerMark_run hK s.position s.now (.inr rfl)).trans (setPrl_run hK _ ?_ fun _ ha => .inl ha)
  rintro ⟨hLength, hMissed, hRun, hRest⟩
  refine ⟨hLength, hMissed, ?_, hRest⟩
  show runAfter placing _ ≤ 3
  cases placing with
  | localVoltage => exact Nat.min_le_left ..
  | group => exact Nat.zero_le _
  | flywheel => exact Nat.zero_le _

theorem reportInterval_run (hK : .prl ∈ K) (interval : Option Nat) :
    Run K s (reportInterval interval s) := by
  unfold reportInterval
  split
  · exact .refl
  · exact .ite (fun _ => judgeSample_run hK _) fun _ => .refl

/-! ### Armed marks (R100 to R104) -/

theorem countLate_run (hK : .fic ∈ K) (late : Bool) : Run K s (countLate late s) :=
  .ite (fun _ => setFic_free_run hK _) fun _ => .refl

/-- An order condition that the FIC's other records keep, the advance count kept. -/
theorem OrderOk.setFic {x : Fic} (h : OrderOk s) (hAdvance : x.advanceCount = s.fic.advanceCount) :
    OrderOk (s.setFic x) := by
  obtain ⟨hAge, hForced, hLimit, hMode⟩ := h
  exact ⟨hAge, hForced, hAdvance.symm ▸ hLimit, fun hm => hAdvance.trans (hMode hm)⟩

/-- A reference arms its mark only where no deferral waits beside an empty record (R101). -/
theorem handReference_run (hK : .fic ∈ K) (d : Nat) (ref : RollReport) :
    Run K s (handReference d ref s) := by
  refine .ite (fun hReplaces => ?_) fun _ => countLate_run hK _
  refine (countLate_run hK _).trans (setFic_run hK _ (fun _ h => h.setFic rfl) fun hDeferral hArmed => ?_)
  simp only [replacesArmed, hArmed] at hReplaces
  rw [Option.isNone_iff_eq_none] at hReplaces
  rw [hReplaces] at hDeferral
  cases hDeferral

theorem handEntry_run (hK : .fic ∈ K) (sender : Nat) : Run K s (handEntry sender s) := by
  refine .ite (fun _ => ?_) fun _ => .refl
  split
  · exact .refl
  · exact handReference_run hK _ _

theorem ficForward_run (hK : .fic ∈ K) (fromDark : Bool) (vf : Instant) :
    Run K s (ficForward fromDark vf s) := by
  refine .ite (fun hArms => ?_) fun _ => .refl
  refine setFic_run hK _ (fun _ h => h.setFic rfl) fun hDeferral hArmed => ?_
  simp only [armsLocal, hArmed, Option.isNone_iff_eq_none] at hArms
  rw [hArms] at hDeferral
  cases hDeferral

theorem recomputeArmed_run (hK : .fic ∈ K) : Run K s (recomputeArmed s) := by
  have hSet (x : State) (late : Bool) (mark : ArmedMark) (hx : ∃ a, x.fic.armed = some a) :
      Run K x ((countLate late x).setFic { (countLate late x).fic with armed := some mark }) := by
    obtain ⟨a, ha⟩ := hx
    refine (countLate_run hK late).trans (setFic_run hK _ (fun _ h => h.setFic rfl) fun _ hNone => ?_)
    cases late <;> exact absurd (ha.symm.trans hNone) nofun
  unfold recomputeArmed
  split
  · exact .refl
  · rename_i a ha
    simp only []
    split
    · exact hSet s _ _ ⟨a, ha⟩
    · split
      · exact .refl
      · exact hSet s false _ ⟨a, ha⟩
    · split
      · exact .refl
      · exact hSet s false _ ⟨a, ha⟩

theorem armFlywheel_run (hK : .fic ∈ K) (hArm : .arm ∈ K ∨ s.fic.deferral = none) (alphaT : Int) :
    Run K s (armFlywheel alphaT s) := setFic_arm_run _ (fun _ h => h.setFic rfl) hK hArm

theorem decrementAdvance_run (hK : .fic ∈ K) : Run K s (decrementAdvance s) :=
  setFic_run hK _ (fun _ ⟨hAge, hForced, hLimit, hMode⟩ => ⟨hAge, hForced,
    Nat.le_trans (Nat.sub_le ..) hLimit, fun hm => (congrArg (· - 1) (hMode hm) : _ = 0 - 1)⟩) fun _ h => h

theorem disarm_run (hK : .fic ∈ K) : Run K s (disarm s) :=
  setFic_run hK _ (fun _ h => h.setFic rfl) fun _ _ => rfl

/-! ### Orders (R135, R138 to R142) -/

theorem orhOrder_run (hK : .orh ∈ K) (o : OrderFields) : Run K s (orhOrder o s) := by
  unfold orhOrder
  split
  · exact setOrh_run hK _ fun h => h
  · refine setOrh_run hK _ fun h => ?_
    obtain ⟨-, -, hRest⟩ := h
    exact ⟨Nat.zero_le _, nofun, hRest⟩

theorem forceBlock_run (hK : .orh ∈ K) : Run K s (forceBlock s) := by
  refine .ite (fun h => setOrh_run hK _ fun hOrder => ?_) fun _ => .refl
  simp only [Bool.and_eq_true, decide_eq_true_eq] at h
  obtain ⟨⟨-, hDeblock⟩, -⟩ := h
  obtain ⟨hAge, -, hRest⟩ := hOrder
  exact ⟨hAge, fun _ => ⟨rfl, hDeblock⟩, hRest⟩

theorem refreshStale_run (hK : .orh ∈ K) : Run K s (refreshStale s) := setOrh_run hK _ fun h => h

/-- The tags of an adoption. -/
def Tag.adopting : List Tag := [.order, .fic, .orh, .leave] ++ Tag.station

theorem adopt_run (hK : Tag.adopting ⊆ K) : Run K s (adopt s) := by
  cases h : s.orh.pending with
  | none => rw [show adopt s = s by simp only [adopt, h]]; exact .refl
  | some o =>
    rw [adopt_eq h]
    refine ((((Move.order o h).run (hK (by decide))).trans
      (stcAdopt_run (List.Subset.trans (by decide) hK) (hK (by decide)))).trans ?_).trans
      (forceBlock_run (hK (by decide)))
    exact recomputeArmed_run (hK (by decide))

/-! ### Taking a mark (R6 to R8, R111, R112) -/

theorem judgeListening_run (hK : Tag.station ⊆ K) (placing : Placing) (refHeard : Bool)
    (hState : s.stc.state = .listening) : Run K s (judgeListening placing refHeard s) := by
  simp only [judgeListening]
  refine .ite (fun _ => ?_) fun hFew => setStc_run (hK (by decide)) _ fun h => ?_
  · rw [enterSynced_syncCount]
    exact enterSynced_run hK (by rw [hState]; decide) (.inr (by rw [hState]; decide))
  · obtain ⟨-, hBad, hGood, hClash, hLoss, hTrip, -⟩ := h
    refine ⟨Nat.le_of_lt_succ (Nat.lt_of_not_le hFew), hBad, hGood, hClash, hLoss, hTrip, fun hLatch => ?_⟩
    exact if_pos (.inl hLatch)

theorem runsAfter_le (placing : Placing) {bad good : Nat} (hBad : bad ≤ 3) :
    (runsAfter placing bad good).1 ≤ 3 ∧ (runsAfter placing bad good).2 ≤ 8 := by
  unfold runsAfter
  split
  · split
    · exact ⟨Nat.min_le_left .., Nat.zero_le _⟩
    · split
      · exact ⟨Nat.zero_le _, Nat.zero_le _⟩
      · exact ⟨Nat.zero_le _, Nat.min_le_left ..⟩
  · exact ⟨hBad, Nat.zero_le _⟩

theorem loseLattice_run (hK : Tag.station ⊆ K) : Run K s (loseLattice s) := by
  unfold loseLattice
  have hCount : ∀ lost, RunsOk s → RunsOk (s.setStc { s.stc with
      syncLost := lost, syncLossCount := count16 s.stc.syncLossCount }) := by
    rintro - ⟨hSync, hBad, hGood, hClash, -, hRest⟩
    exact ⟨hSync, hBad, hGood, hClash, count16_le _, hRest⟩
  split
  · rename_i hState
    refine (setStc_run (hK (by decide)) _ (hCount s.stc.syncLost)).trans (enterListening_run hK ?_ (.inr ?_))
    · exact hState.symm ▸ (by decide)
    · exact hState.symm ▸ (by decide)
  · exact .ite (fun _ => .refl) fun _ => setStc_run (hK (by decide)) _ (hCount true)

theorem judgeRuns_run (hK : Tag.station ⊆ K) (placing : Placing) : Run K s (judgeRuns placing s) := by
  have hRuns : Run K s (s.setStc { s.stc with
      badRun := (runsAfter placing s.stc.badRun s.stc.goodRun).1
      goodRun := (runsAfter placing s.stc.badRun s.stc.goodRun).2 }) :=
    setStc_run (hK (by decide)) _ fun h => by
      obtain ⟨hSync, hBad, -, hRest⟩ := h
      obtain ⟨hBad, hGood⟩ := runsAfter_le placing (good := s.stc.goodRun) hBad
      exact ⟨hSync, hBad, hGood, hRest⟩
  simp only [judgeRuns]
  refine .ite (fun _ => hRuns.trans (loseLattice_run hK)) fun _ => .ite (fun _ => ?_) fun _ => hRuns
  exact hRuns.trans (setStc_run (hK (by decide)) _ fun h => h)

theorem judgeMark_run (hK : Tag.station ⊆ K) (placing : Placing) (refHeard : Bool) :
    Run K s (judgeMark placing refHeard s) := by
  unfold judgeMark
  split
  · exact judgeListening_run hK placing refHeard ‹_›
  · exact judgeRuns_run hK placing
  · exact judgeRuns_run hK placing
  · exact judgeRuns_run hK placing
  · exact .refl

theorem clearSeenFlags_run (hStc : .stc ∈ K) (hPst : .pst ∈ K) : Run K s (clearSeenFlags s) :=
  (setStc_run hStc { s.stc with clashSeen := false } fun h => h).trans
    (setPst_run hPst { s.pst with pvfSeen := false })

theorem reportMark_run (hK : Tag.marking ⊆ K) (fired : Fired) (placing : Placing) (wasForward : Bool) :
    Run K s (reportMark fired placing wasForward s) := by
  obtain ⟨report, -, h⟩ := reportMark_eq fired placing wasForward s
  rw [h]
  have hStale : Run K s (staleMark s) := setOrh_run (hK (by decide)) _ fun h => h
  have hOwn : Run K s (writeOwnEntry report s.fic.seqCounter (countMissed (staleMark s))) :=
    (hStale.trans (countMissed_run (hK (by decide)))).trans
      (changeEntry_run (hK (by decide)) (fun _ _ => Nat.zero_le _) _)
  have hSent := hOwn.trans ((produce_run (.mark report)).mono (List.Subset.trans (by decide) hK))
  exact hSent.trans (clearSeenFlags_run (hK (by decide)) (hK (by decide)))

theorem markHandouts_run (hK : Tag.marking ⊆ K) (placing : Placing) (refHeard : Bool) :
    Run K s (markHandouts placing refHeard s) := by
  have hStation : Tag.station ⊆ K := List.Subset.trans (by decide) hK
  exact markHandouts_keeps (P := Run K s) placing refHeard
    (fun _ h => h.tail (hK (by decide)) .choice)
    (fun _ h => h.trans (judgeMark_run hStation placing refHeard))
    (fun _ h => h.trans (adopt_run (List.Subset.trans (by decide) hK)))
    (fun _ h => h.trans (countSurveyMark_run hStation (hK (by decide))))
    (fun _ h => h.trans (offerOwnMark_run (hK (by decide)) placing)) s .refl

/-- A mark up to its last effect, the arming of the FLYWHEEL mark. -/
def markHanded (fired : Fired) (mark : ArmedMark) (wasForward : Bool) (s : State) : State :=
  decrementAdvance (markHandouts mark.placing s.referenceHeard
    (reportCycle (closePrfCycle (reportMark fired mark.placing wasForward s))))

theorem takeMark_eq (fired : Fired) (mark : ArmedMark) (wasForward : Bool) (s : State) :
    takeMark fired mark wasForward s = armFlywheel mark.alphaT (markHanded fired mark wasForward s) := rfl

theorem markHanded_run (fired : Fired) (mark : ArmedMark) (wasForward : Bool) :
    Run Tag.marking s (markHanded fired mark wasForward s) := by
  have hReported := reportMark_run (s := s) (List.Subset.refl Tag.marking) fired mark.placing wasForward
  exact (((hReported.trans (closePrfCycle_run (by decide))).trans
    (reportCycle_run (by decide) (by decide))).trans
    (markHandouts_run (List.Subset.refl _) _ _)).trans (decrementAdvance_run (by decide))

theorem takeMark_run (hK : Tag.marking ⊆ K) (hArm : .arm ∈ K ∨ s.fic.deferral = none) (fired : Fired)
    (mark : ArmedMark) (wasForward : Bool) : Run K s (takeMark fired mark wasForward s) := by
  have hTaken := markHanded_run (s := s) fired mark wasForward
  exact (hTaken.mono hK).trans (armFlywheel_run (hK (by decide))
    (hArm.imp_right fun h => hTaken.deferral.trans h) _)

end
end Sys2Proof.Machine
end

