-- ==== Sys2Proof/Proofs/Entries.lean ====
section
/-! PROOFS. The entries of the valve, the deferral and the decision of a mark as runs of moves. -/

namespace Sys2Proof.Machine

/-- The tags of a firing with its mark. -/
def Tag.firing : List Tag := [.train, .undefer] ++ Tag.pulsing ++ Tag.marking

section
variable {K : List Tag} {s : State}

/-! ### Where firing is permitted (R105, R109) -/

theorem bypassFires_iff :
    s.bypassFires = true ↔ s.stc.state = .bypassing ∧ s.inPair = true ∧ s.blockAsserted = false := by
  unfold State.bypassFires
  simp [and_assoc]

/-- Where firing is permitted and no bypass firing applies, the station is RUNNING with the block line
released. -/
theorem running_of_permitted (hBypass : s.bypassFires = false) (hPermitted : s.firingPermitted = true) :
    s.stc.state = .running ∧ s.blockAsserted = false := by
  simp only [State.firingPermitted, Bool.and_eq_true, Bool.or_eq_true, Bool.not_eq_true',
    decide_eq_true_eq] at hPermitted
  obtain ⟨hBlock, hRunning | ⟨hState, hPair⟩⟩ := hPermitted
  · exact ⟨hRunning, hBlock⟩
  · rw [bypassFires_iff.2 ⟨hState, hPair, hBlock⟩] at hBypass
    cases hBypass

/-! ### Deferrals (R108) -/

/-- A main pulse leaves a deferral as it stands. -/
theorem mainPulse_deferral (fired : Fired) : (mainPulse fired s).fic.deferral = s.fic.deferral :=
  (mainPulse_run (K := .train :: .loose :: Tag.pulsing) (by decide) (by decide) fired
    fun _ => .inl (by decide)).deferral

theorem clearDeferral_run (hK : .undefer ∈ K) : Run K s (clearDeferral s) := Move.undefer.run hK

/-- A firing without a waiting deferral, and its mark. -/
theorem firedMark_run (hK : Tag.firing ⊆ K) {u : State} (hPulse : Run (.train :: Tag.pulsing) s u)
    (hArm : .arm ∈ K ∨ s.fic.deferral = none) (fired : Fired) (mark : ArmedMark) (wasForward : Bool) :
    Run K s (takeMark fired mark wasForward u) :=
  (hPulse.mono (List.Subset.trans (by decide) hK)).trans (takeMark_run (List.Subset.trans (by decide) hK)
    (hArm.imp_right fun h => hPulse.deferral.trans h) fired mark wasForward)

theorem unfiredMark_run (hK : Tag.firing ⊆ K) (hArm : .arm ∈ K ∨ s.fic.deferral = none) (fired : Fired)
    (mark : ArmedMark) (wasForward : Bool) : Run K s (takeMark fired mark wasForward s) :=
  firedMark_run hK .refl hArm fired mark wasForward

theorem forcedFiring_run (hK : Tag.firing ⊆ K) (mark : ArmedMark) : Run K s (forcedFiring mark s) := by
  have hCount : Run (.train :: Tag.pulsing) (clearDeferral s) ((clearDeferral s).setFic
      { (clearDeferral s).fic with forcedCount := count16 (clearDeferral s).fic.forcedCount }) :=
    setFic_free_run (by decide) _
  exact (clearDeferral_run (hK (by decide))).trans (firedMark_run hK
    (hCount.trans (mainPulse_run (by decide) (by decide) .forced fun h => absurd rfl h)) (.inr rfl) _ _ _)

theorem judgeLimit_run (hK : Tag.firing ⊆ K) : Run K s (judgeLimit s) := by
  unfold judgeLimit
  split
  · exact .refl
  · exact .ite (fun _ => forcedFiring_run hK _) fun _ => .refl

theorem bypassMark_run (hK : Tag.firing ⊆ K) (hFires : s.bypassFires = true)
    (hArm : .arm ∈ K ∨ s.fic.deferral = none) (mark : ArmedMark) (wasForward : Bool) :
    Run K s (takeMark .bypass mark wasForward (bypassFiring s)) := by
  obtain ⟨hState, -, hBlock⟩ := bypassFires_iff.1 hFires
  exact firedMark_run hK (bypassFiring_run (by decide) (by decide) hState hBlock) hArm _ _ _

theorem settleDeferral_run (hK : Tag.firing ⊆ K) : Run K s (settleDeferral s) := by
  unfold settleDeferral
  have hClear : Run K s (clearDeferral s) := clearDeferral_run (hK (by decide))
  split
  · exact .refl
  · refine .ite (fun hFires => hClear.trans ?_) fun _ => .ite (fun _ => hClear.trans ?_) fun _ => .refl
    · exact bypassMark_run (s := clearDeferral s) hK hFires (.inr rfl) _ _
    · exact unfiredMark_run (s := clearDeferral s) hK (.inr rfl) _ _ _

theorem settleProtective_run (hK : Tag.firing ⊆ K) : Run K s (settleProtective s) := by
  unfold settleProtective
  split
  · exact .refl
  · exact (clearDeferral_run (hK (by decide))).trans
      (unfiredMark_run (s := clearDeferral s) hK (.inr rfl) _ _ _)

/-! ### Entries of the valve (R63, R64, R66, R69) -/

theorem measureGamma_run (hK : Tag.failing ⊆ K) : Run K s (measureGamma s) := by
  unfold measureGamma
  split
  · exact .refl
  · rename_i e _
    have hGamma : Run K s (pmnGamma (min 36000 (s.cdeg (s.now - e).toNat)) (s.setVcm { s.vcm with
        gamma := some { angle := min 36000 (s.cdeg (s.now - e).toNat), instant := s.now } })) :=
      (setVcm_run (hK (by decide)) { s.vcm with
        gamma := some { angle := min 36000 (s.cdeg (s.now - e).toNat), instant := s.now } }
        fun h => h).trans (pmnGamma_run (hK (by decide)) _)
    exact .ite (fun _ => hGamma.trans (declareFailure_run hK _)) fun _ => hGamma

theorem scheduleTest_run (hK : .pst ∈ K) : Run K s (scheduleTest s) := by
  unfold scheduleTest
  split
  · exact .refl
  · exact setPst_run hK _

/-- The VCM at an entry into FORWARD (R64). -/
def Vcm.forward (now : Instant) (v : Vcm) : Vcm :=
  { v.enter .forward with
    roster := v.fwdSet, vf := some now, fwdInterval := forwardInterval now v.vf }

/-- An entry into FORWARD up to its adoption point: V_f, gamma from RECOVERING, the interval, the LOCAL mark and
the test of a survey. -/
def forwardStarted (s : State) : State :=
  let old := s.vcm.valve
  let s := leaveDark old (s.setVcm (s.vcm.forward s.now))
  let s := if old = .recovering then measureGamma s else s
  let s := reportInterval s.vcm.fwdInterval s
  scheduleTest (ficForward (decide (old = .dark)) s.now s)

theorem enterForward_eq (s : State) : enterForward s = settleDeferral (adopt (forwardStarted s)) := rfl

/-- The tags of an entry into FORWARD before its adoption. -/
def Tag.forwarding : List Tag := [.vcm, .prl, .fic, .pst, .pmn] ++ Tag.station

theorem forwardStarted_run (hK : Tag.forwarding ⊆ K) : Run K s (forwardStarted s) := by
  have hValve : Run K s (s.setVcm (s.vcm.forward s.now)) :=
    setVcm_run (hK (by decide)) _ fun ⟨_, _, _, _, _, _, hMu⟩ =>
      ⟨nofun, fun _ => rfl, nofun, nofun, fun h => absurd rfl h, fun _ => rfl, hMu⟩
  have hLeft : Run K s (leaveDark s.vcm.valve (s.setVcm (s.vcm.forward s.now))) :=
    hValve.trans (leaveDark_run (List.Subset.trans (by decide) hK) _)
  have hGamma : Run K s (if s.vcm.valve = .recovering
      then measureGamma (leaveDark s.vcm.valve (s.setVcm (s.vcm.forward s.now)))
      else leaveDark s.vcm.valve (s.setVcm (s.vcm.forward s.now))) :=
    .ite (fun _ => hLeft.trans (measureGamma_run (List.Subset.trans (by decide) hK))) fun _ => hLeft
  exact ((hGamma.trans (reportInterval_run (hK (by decide)) _)).trans (ficForward_run (hK (by decide)) ..)).trans
    (scheduleTest_run (hK (by decide)))

theorem enterForward_run (hK : Tag.firing ⊆ K) : Run K s (enterForward s) :=
  ((forwardStarted_run (List.Subset.trans (by decide) hK)).trans
    (adopt_run (List.Subset.trans (by decide) hK))).trans (settleDeferral_run hK)

/-- An entry into REVERSE up to the limit of a deferral: the outcomes of a forward interval. -/
def reverseStarted (s : State) : State :=
  if s.vcm.valve = .forward then
    takeFwdOutcomes s.vcm.roster (leftForward (s.vcm.enter .reverse).withoutRoster s)
  else leaveDark s.vcm.valve (s.setVcm (s.vcm.enter .reverse))

/-- From FORWARD the limit of a deferral is judged after the outcomes (log entry 30). -/
theorem enterReverse_eq (s : State) : enterReverse s =
    if s.vcm.valve = .forward then judgeLimit (reverseStarted s) else reverseStarted s := by
  unfold reverseStarted
  by_cases h : s.vcm.valve = .forward
  · rw [if_pos h, if_pos h, ← clearRoster_leftForward]
    have hOutcomes := evaluateForward_eq (leftForward (s.vcm.enter .reverse) s)
    rw [leftForward_vcm] at hOutcomes
    exact (if_pos h).trans (congrArg judgeLimit hOutcomes)
  · rw [if_neg h, if_neg h]
    exact if_neg h

theorem reverseStarted_run (hStation : Tag.station ⊆ K) (hVcm : .vcm ∈ K) (hPst : .pst ∈ K)
    (hLevels : .levels ∈ K) : Run K s (reverseStarted s) := by
  refine .ite (fun _ => ?_) fun hValve => ?_
  · refine (leftForward_run hStation hVcm hPst _ ?_).trans (takeFwdOutcomes_run hStation hLevels _)
    rintro ⟨-, -, -, -, -, -, hMu⟩
    exact ⟨nofun, nofun, nofun, nofun, fun _ => rfl, fun _ => rfl, hMu⟩
  · refine (setVcm_run hVcm _ ?_).trans (leaveDark_run hStation _)
    rintro ⟨-, -, -, -, hRoster, -, hMu⟩
    exact ⟨nofun, nofun, nofun, nofun, fun _ => hRoster hValve, fun _ => rfl, hMu⟩

theorem enterReverse_run (hK : Tag.firing ⊆ K) : Run K s (enterReverse s) := by
  have hStarted : Run K s (reverseStarted s) := reverseStarted_run (List.Subset.trans (by decide) hK)
    (hK (by decide)) (hK (by decide)) (hK (by decide))
  rw [enterReverse_eq]
  exact .ite (fun _ => hStarted.trans (judgeLimit_run hK)) fun _ => hStarted

theorem measureMu_run (hK : .vcm ∈ K) : Run K s (measureMu s) := by
  unfold measureMu
  split
  · exact .refl
  · refine setVcm_run hK _ ?_
    rintro ⟨hDark, hForward, hConducting, hRecovering, hRoster, hPulse, -⟩
    refine ⟨hDark, hForward, hConducting, hRecovering, hRoster, hPulse, ?_⟩
    show (if _ then 0 else min 6000 _) ≤ 6000
    split
    · exact Nat.zero_le _
    · exact Nat.min_le_left ..

/-- The REFIRE train ends, and a BYPASS train stays as it is (R120, R121). -/
theorem stopRefire_run (hK : .train ∈ K) :
    Run K s (s.setPst { s.pst with train := s.pst.train.atRecovery }) := by
  cases h : s.pst.train with
  | stopped => exact (Move.train (s := s) .stopped trivial).run hK
  | refire expiry => exact (Move.train (s := s) .stopped trivial).run hK
  | bypass expiry =>
    rw [show s.setPst { s.pst with train := (Train.bypass expiry).atRecovery } = s by
      show s.setPst { s.pst with train := Train.bypass expiry } = s
      rw [← h]
      rfl]
    exact .refl

theorem enterRecovering_run (hVcm : .vcm ∈ K) (hTrain : .train ∈ K) (hValve : s.vcm.valve ≠ .forward) :
    Run K s (enterRecovering s) := by
  have hEnter : Run K s (s.setVcm { s.vcm.enter .recovering with e := some s.now, noExtinction := none }) := by
    refine setVcm_run hVcm _ ?_
    rintro ⟨-, -, -, -, hRoster, -, hMu⟩
    exact ⟨nofun, nofun, nofun, fun _ => ⟨rfl, rfl⟩, fun _ => hRoster hValve, fun _ => rfl, hMu⟩
  exact (hEnter.trans (measureMu_run hVcm)).trans (stopRefire_run hTrain)

/-- An entry into DARK up to the limit of a deferral. -/
def darkStarted (s : State) : State :=
  stcValveDark (dropSurveyTest (s.setVcm { s.vcm.enter .dark with
    roster := [], vf := none, fwdInterval := none, inactivity := none, noExtinction := none }))

theorem enterDark_eq (s : State) : enterDark s = judgeLimit (darkStarted s) := rfl

theorem darkStarted_run (hStation : Tag.station ⊆ K) (hVcm : .vcm ∈ K) (hPst : .pst ∈ K) :
    Run K s (darkStarted s) := by
  refine ((setVcm_run hVcm _ ?_).trans (setPst_run hPst _)).trans (stcValveDark_run hStation)
  rintro ⟨-, -, -, -, -, -, hMu⟩
  exact ⟨fun _ => ⟨rfl, rfl, rfl⟩, nofun, nofun, nofun, fun _ => rfl, fun h => absurd rfl h, hMu⟩

theorem enterDark_run (hK : Tag.firing ⊆ K) : Run K s (enterDark s) :=
  (darkStarted_run (List.Subset.trans (by decide) hK) (hK (by decide)) (hK (by decide))).trans (judgeLimit_run hK)

/-! ### Sets and quorums (R60 to R62) -/

theorem testForward_run (hK : Tag.firing ⊆ K) : Run K s (testForward s) := by
  refine .ite (fun _ => .refl) fun _ => ?_
  split
  · exact enterForward_run hK
  · exact enterForward_run hK
  · exact enterForward_run hK
  · exact .refl

theorem testReverse_run (hK : Tag.firing ⊆ K) : Run K s (testReverse s) := by
  refine .ite (fun _ => .refl) fun _ => ?_
  split
  · exact .ite (fun _ => setVcm_run (hK (by decide)) _ fun h => h) fun _ => enterReverse_run hK
  · exact enterReverse_run hK
  · rename_i hValve
    exact enterRecovering_run (hK (by decide)) (hK (by decide)) (hValve.symm ▸ nofun)
  · exact .refl

/-- The VCM with a FWD joined (R60 to R63). -/
def Vcm.withForward (n clock : Nat) (v : Vcm) : Vcm :=
  { v with
    fwdSet := insertLevel n v.fwdSet
    roster := if v.valve = .forward then insertLevel n v.roster else v.roster
    inactivity := some clock }

theorem setForward_run (hK : .vcm ∈ K) (n : Nat) : Run K s (s.setVcm (s.vcm.withForward n s.clock)) := by
  refine setVcm_run hK _ ?_
  rintro ⟨hDark, hForward, hConducting, hRecovering, hRoster, hRest⟩
  refine ⟨hDark, hForward, hConducting, hRecovering, fun h => ?_, hRest⟩
  exact (if_neg h).trans (hRoster h)

theorem joinForward_run (hK : Tag.firing ⊆ K) (n : Nat) : Run K s (joinForward n s) :=
  (setForward_run (hK (by decide)) n).trans (testForward_run hK)

theorem joinReverse_run (hK : Tag.firing ⊆ K) (n : Nat) : Run K s (joinReverse n s) :=
  (setVcm_run (hK (by decide)) { s.vcm with
    revSet := insertLevel n s.vcm.revSet, inactivity := some s.clock } fun h => h).trans
    (testReverse_run hK)

theorem pstPrf_run (hK : Tag.firing ⊆ K) (n : Nat) : Run K s (pstPrf n s) := by
  refine .ite (fun _ => .refl) fun _ => ?_
  have hGather : Run K s (s.setPst { s.pst with gather := some (gatherWith n s) }) :=
    setPst_run (hK (by decide)) _
  exact .ite (fun _ => (hGather.trans (protectiveFiring_run (List.Subset.trans (by decide) hK))).trans
    (settleProtective_run hK)) fun _ => hGather

/-! ### The decision of a mark (R105 to R109) -/

/-- A decided mark is deferred, in RUNNING with the block line released, or taken. -/
theorem decideMark_cases (hK : Tag.firing ⊆ K) (hArm : .arm ∈ K ∨ s.fic.deferral = none)
    (mark : ArmedMark) :
    (decideMark mark s = s.setFic { s.fic with deferral := some mark }
        ∧ s.stc.state = .running ∧ s.blockAsserted = false)
      ∨ Run K s (decideMark mark s) := by
  unfold decideMark
  split
  · rename_i hFires
    exact .inr (bypassMark_run hK hFires hArm _ _)
  · rename_i hFires
    split
    · exact .inr (unfiredMark_run hK hArm _ _ _)
    · split
      · exact .inr (unfiredMark_run hK hArm _ _ _)
      · rename_i hPermitted
        obtain ⟨hState, hBlock⟩ := running_of_permitted (Bool.eq_false_iff.2 hFires) (by simpa using hPermitted)
        have hMain (wasForward : Bool) : Run K s (takeMark .main mark wasForward (mainPulse .main s)) :=
          firedMark_run hK (mainPulse_run (by decide) (by decide) .main fun _ => .inr ⟨hState, hBlock⟩) hArm ..
        split
        · unfold markForward
          split
          · exact .inr (unfiredMark_run hK hArm _ _ _)
          · split
            · exact .inl ⟨rfl, hState, hBlock⟩
            · exact .inr (.ite (fun _ => unfiredMark_run hK hArm _ _ _) fun _ => hMain _)
        · exact .inr (hMain _)
        · exact .inl ⟨rfl, hState, hBlock⟩

theorem decideMark_run (hK : Tag.firing ⊆ K) (hArm : .arm ∈ K ∨ s.fic.deferral = none) (hDefer : .defer ∈ K)
    (hArmed : s.fic.armed = none) (mark : ArmedMark) : Run K s (decideMark mark s) := by
  obtain ⟨hDeferred, hState, hBlock⟩ | hRun := decideMark_cases hK hArm mark
  · rw [hDeferred]
    exact (Move.defer mark hArmed hState hBlock).run hDefer
  · exact hRun

theorem markNow_run (hK : Tag.firing ⊆ K) (hArm : .arm ∈ K ∨ s.fic.deferral = none) (hDefer : .defer ∈ K) :
    Run K s (markNow s) := by
  unfold markNow
  split
  · exact .refl
  · exact (disarm_run (hK (by decide))).trans (decideMark_run (s := disarm s) hK hArm hDefer rfl _)

theorem endStopNow_run (hK : Tag.firing ⊆ K) (hArm : .arm ∈ K ∨ s.fic.deferral = none)
    (hState : s.stc.state = .running) (hBlock : s.blockAsserted = false) : Run K s (endStopNow s) := by
  unfold endStopNow
  split
  · exact .refl
  · have hCount : Run [.fic] s ((disarm s).setFic { (disarm s).fic with
        endStopCount := count16 (disarm s).fic.endStopCount }) :=
      (disarm_run (by decide)).trans (setFic_free_run (by decide) _)
    exact firedMark_run hK (hCount.mono.trans (mainPulse_run (by decide) (by decide) .endStop fun _ =>
      .inr ⟨hState, hBlock⟩)) hArm _ _ _

/-- At lo of a deferral a pulse is sent; the train that it starts is one of RUNNING where the deferral waited in
RUNNING. -/
theorem deferralLoNow_run (hK : Tag.firing ⊆ K)
    (hLoose : .loose ∈ K ∨ (s.stc.state = .running ∧ s.blockAsserted = false)) :
    Run K s (deferralLoNow s) := by
  unfold deferralLoNow
  split
  · exact .refl
  · have hPulse : Run K (clearDeferral s) (mainPulse .deferred (clearDeferral s)) :=
      mainPulse_run (List.Subset.trans (by decide) hK) (hK (by decide)) .deferred fun _ => hLoose
    refine (clearDeferral_run (hK (by decide))).trans (hPulse.trans ?_)
    refine takeMark_run (List.Subset.trans (by decide) hK) (.inr ?_) _ _ _
    exact mainPulse_deferral ..

end
end Sys2Proof.Machine
end

