-- ==== Sys2Proof/Proofs/SetupFields.lean ====
section
/-! PROOFS. The fields of a SETUP: the checks of R4 against the ranges of section 1.3, and what an adopted SETUP
leaves. -/

namespace Sys2Proof.Machine

/-! ### The first field out of range (R4) -/

/-- The first failed check of a list with consecutive indices. -/
theorem firstFailed_iff {P : Nat → Prop} {checks : List (Nat × Bool)} {start n : Nat}
    (hIndex : checks.map Prod.fst = List.range' start n)
    (hCheck : ∀ check ∈ checks, check.2 = true ↔ P check.1) (index : Nat) :
    (checks.find? (fun c => !c.2)).map Prod.fst = some index ↔
      start ≤ index ∧ index < start + n ∧ ¬ P index ∧ ∀ k, start ≤ k → k < index → P k := by
  induction checks generalizing start n with
  | nil =>
    cases n with
    | zero =>
      refine ⟨nofun, ?_⟩
      rintro ⟨hLo, hHi, -⟩
      omega
    | succ n => cases hIndex
  | cons check rest ih =>
    obtain ⟨i, ok⟩ := check
    cases n with
    | zero => cases hIndex
    | succ n =>
      rw [List.map_cons, List.range'_succ] at hIndex
      obtain ⟨rfl, hRest⟩ := List.cons.inj hIndex
      have hHead : ok = true ↔ P i := hCheck (i, ok) List.mem_cons_self
      have ih := ih hRest fun c hc => hCheck c (List.mem_cons_of_mem _ hc)
      cases ok with
      | false =>
        have hFails : ¬ P i := fun h => Bool.false_ne_true (hHead.2 h)
        rw [List.find?_cons_of_pos (by rfl)]
        refine ⟨fun h => ?_, fun ⟨hLo, _, _, hBelow⟩ => ?_⟩
        · cases h
          exact ⟨Nat.le_refl _, by omega, hFails, fun k h1 h2 => absurd h1 (by omega)⟩
        · obtain rfl | hLt := Nat.eq_or_lt_of_le hLo
          · rfl
          · exact absurd (hBelow i (Nat.le_refl _) hLt) hFails
      | true =>
        have hHolds : P i := hHead.1 rfl
        rw [List.find?_cons_of_neg (by simp), ih]
        refine ⟨fun ⟨hLo, hHi, hFails, hBelow⟩ => ⟨by omega, by omega, hFails, fun k h1 h2 => ?_⟩,
          fun ⟨hLo, hHi, hFails, hBelow⟩ => ⟨?_, by omega, hFails, fun k h1 h2 => hBelow k (by omega) h2⟩⟩
        · obtain rfl | hLt := Nat.eq_or_lt_of_le h1
          · exact hHolds
          · exact hBelow k hLt h2
        · obtain rfl | hLt := Nat.eq_or_lt_of_le hLo
          · exact absurd hHolds hFails
          · exact hLt

/-- No check fails where every index is in order. -/
theorem noneFailed_iff {P : Nat → Prop} {checks : List (Nat × Bool)} {start n : Nat}
    (hIndex : checks.map Prod.fst = List.range' start n)
    (hCheck : ∀ check ∈ checks, check.2 = true ↔ P check.1) :
    (checks.find? (fun c => !c.2)).map Prod.fst = none ↔ ∀ k, start ≤ k → k < start + n → P k := by
  simp only [Option.map_eq_none_iff, List.find?_eq_none, Bool.not_eq_true', Bool.not_eq_false]
  refine ⟨fun h k hLo hHi => ?_, fun h c hc => ?_⟩
  · have hMem : k ∈ checks.map Prod.fst := by
      rw [hIndex, List.mem_range'_1]
      exact ⟨hLo, hHi⟩
    obtain ⟨c, hc, rfl⟩ := List.mem_map.1 hMem
    exact (hCheck c hc).1 (h c hc)
  · have hMem : c.1 ∈ List.range' start n := hIndex ▸ List.mem_map_of_mem hc
    rw [List.mem_range'_1] at hMem
    exact (hCheck c hc).2 (h c.1 hMem.1 hMem.2)

/-- The checks of R4 are those of section 1.3, field by field. -/
theorem setupChecks_iff (f : SetupFields) :
    ∀ check ∈ setupChecks f, check.2 = true ↔ fieldInRange f check.1 := by
  have hByte (b : BitVec 8) : b.toNat ≤ 255 := Nat.le_of_lt_succ b.isLt
  simp only [setupChecks, List.forall_mem_cons, List.not_mem_nil, false_imp_iff, implies_true, and_true,
    fieldInRange, within_iff, settingOk_iff, Bool.and_eq_true, decide_eq_true_eq, Nat.zero_le, true_and,
    hByte, List.contains_iff_mem]

theorem firstBadField_none_iff (f : SetupFields) :
    firstBadField f = none ↔ ∀ k, 1 ≤ k → k ≤ 27 → fieldInRange f k :=
  (noneFailed_iff (start := 1) (n := 27) rfl (setupChecks_iff f)).trans
    ⟨fun h k h1 h2 => h k h1 (by omega), fun h k h1 h2 => h k h1 (by omega)⟩

theorem firstBadField_some_iff (f : SetupFields) (index : Nat) :
    firstBadField f = some index ↔ 1 ≤ index ∧ index ≤ 27 ∧ ¬ fieldInRange f index
      ∧ ∀ k, 1 ≤ k → k < index → fieldInRange f k :=
  (firstFailed_iff (start := 1) (n := 27) rfl (setupChecks_iff f) index).trans
    (and_congr_right fun _ => and_congr_left fun _ => Nat.lt_succ_iff)

/-- The record of a SETUP without a field out of range is in range. -/
theorem setupOf_inRange {f : SetupFields} (h : firstBadField f = none) : (setupOf f).InRange := by
  have hField := (firstBadField_none_iff f).1 h
  have hAt (k : Nat) (hLo : 1 ≤ k := by decide) (hHi : k ≤ 27 := by decide) := hField k hLo hHi
  exact ⟨(hAt 1).1, (hAt 1).2, (hAt 2).1, (hAt 2).2, (hAt 3).1, (hAt 3).2, (hAt 4).1, (hAt 4).2,
    (hAt 5).1, (hAt 5).2, (hAt 6).1, (hAt 6).2, (hAt 7).1, (hAt 7).2, (hAt 8).1, (hAt 8).2,
    (hAt 9).1, (hAt 9).2, hAt 10, (hAt 11).1, (hAt 11).2, hAt 12, hAt 13,
    Nat.le_of_lt_succ f.linkLatency.isLt, hAt 18, hAt 19, Nat.le_of_lt_succ f.prfLimit.isLt⟩

/-! ### Adoption (R5) -/

/-- The copy of a frame does not depend on the SETUP record. -/
theorem produce_setSetup (body : TxBody) (c : Option Setup) (s : State) :
    produce body (s.setStc { s.stc with setup := c })
      = (produce body s).setStc { (produce body s).stc with setup := c } := by
  simp only [produce_eq]
  rfl

/-- A table that has just been formed holds no SILENT level and no consumed one. -/
theorem consumedIn_fresh (n : Nat) : consumedIn (List.replicate n LevelRecord.fresh) = 0 :=
  List.countP_eq_zero.2 fun r hr => by rw [List.eq_of_mem_replicate hr]; decide

theorem silentIn_fresh (n : Nat) : silentIn (List.replicate n LevelRecord.fresh) = 0 :=
  List.countP_eq_zero.2 fun r hr => by rw [List.eq_of_mem_replicate hr]; decide

theorem Lvt.formed_consumed (c : Setup) : (Lvt.formed c).consumed = 0 := consumedIn_fresh c.levels

/-- The blocks have started with the record `c`, and the consumed count of 0 is not above R: LISTENING is not left
for TRIPPED. -/
theorem enterListening_startBlocks (c : Setup) {s : State} (hUnset : s.stc.state = .unset) :
    enterListening (startBlocks c (s.setStc { s.stc with setup := some c })) = s.configured c := by
  have hEnter : enterState .listening (startBlocks c (s.setStc { s.stc with setup := some c }))
      = (startBlocks c (s.setStc { s.stc with setup := some c })).moved .listening := by
    rw [enterState_eq]
    refine congrArg (State.moved .listening) (if_neg ?_)
    exact hUnset ▸ nofun
  simp only [enterListening, hEnter]
  refine (if_neg fun hOver => ?_).trans rfl
  have hAbove : c.redundancy < (Lvt.formed c).consumed := of_decide_eq_true hOver
  rw [Lvt.formed_consumed] at hAbove
  exact absurd hAbove (Nat.not_lt_zero _)

/-- A SETUP adopted: its RESULT, and then the blocks and the station as they start. -/
theorem adoptSetup_eq (head : CmdHead) (c : Setup) {s : State} (hUnset : s.stc.state = .unset) :
    adoptSetup head c s = (doneWith head codeSetup [] s).configured c := by
  have hState : (doneWith head codeSetup [] s).stc = s.stc := by
    simp only [doneWith, produceResult, produce_eq]
  have hDone : doneWith head codeSetup [] (s.setStc { s.stc with setup := some c })
      = (doneWith head codeSetup [] s).setStc { (doneWith head codeSetup [] s).stc with
          setup := some c } :=
    produce_setSetup (.result { tag := head.tag, code := codeSetup, completion := .done, detail := .none, data := [] })
      (some c) s
  rw [← hState] at hUnset
  unfold adoptSetup
  simp only [hDone]
  exact enterListening_startBlocks c hUnset

end Sys2Proof.Machine
end

