-- ==== Sys2Proof/Proofs/Copies.lean ====
section
/-! PROOFS. What the Group Line Interface makes of a good copy, by the first of the checks of section 2.3 that it
fails: foreign, echo, duplicate, clash. -/

namespace Sys2Proof.Machine

section
variable {s : State} {rx : RxCopy} {fromPole : Bool}

/-! ### The checks in their order (R26 to R31) -/

/-- The copy is the echo that its line waits for, as the record stood before the copy was heard. -/
def State.echoes (s : State) (rx : RxCopy) : Bool :=
  s.fromOwn rx.sender && (s.line rx.line).echo.any
    (fun p => decide (p.seq = rx.seq) && decide (s.clock - p.completed ≤ 200))

theorem isEcho_heard (s : State) (rx : RxCopy) : (s.heardOn rx.line).isEcho rx = s.echoes rx := by
  unfold State.isEcho State.echoes State.heardOn
  rw [State.setLine_line_self, setLine_fromOwn, State.setLine_clock]
  show (match (s.line rx.line).echo with
    | none => false
    | some p => _) = _
  cases (s.line rx.line).echo with
  | none => simp
  | some p => simp [Bool.and_assoc]

/-- The judgement of a copy, with what it has done to its line and to the filter. -/
theorem judgeCopy_eq (rx : RxCopy) (fromPole : Bool) (s : State) : judgeCopy rx fromPole s =
    if foreignCopy s.group fromPole rx.sender then
      .dropped (changeLine rx.line LineState.takeForeign (s.heardOn rx.line))
    else if s.echoes rx then .dropped (changeLine rx.line LineState.takeEcho (s.heardOn rx.line))
    else if filterHolds s.clock (filterKey rx.sender rx.seq) s.filter then
      .dropped (changeLine rx.line LineState.takeDuplicate (s.heardOn rx.line))
    else if s.fromOwn rx.sender then
      .clash ((s.heardOn rx.line).setFilter
        (filterWrite (filterKey rx.sender rx.seq) s.clock s.filter))
    else .accepted (s.received rx) := by
  have hHeard : changeLine rx.line (LineState.goodCopy s.clock) s = s.heardOn rx.line := rfl
  simp only [judgeCopy, hHeard, isEcho_heard]
  simp only [State.heardOn, State.setLine_group, State.setLine_clock, State.setLine_filter,
    setFilter_fromOwn, setLine_fromOwn]
  refine ite_of_iff Iff.rfl rfl (ite_of_iff Iff.rfl rfl (ite_of_iff Iff.rfl rfl (ite_of_iff Iff.rfl rfl ?_)))
  refine congrArg Judged.accepted ?_
  cases hLine : rx.line <;> simp [State.received, hLine, changeLine, State.heardOn, filterKey] <;> rfl

/-! ### Each outcome -/

theorem receiveCopy_foreign (h : foreignCopy s.group fromPole rx.sender = true) (dispatch : State → State) :
    receiveCopy rx fromPole dispatch s
      = changeLine rx.line LineState.takeForeign (s.heardOn rx.line) := by
  simp only [receiveCopy, judgeCopy_eq, if_pos h]

theorem receiveCopy_echo (hForeign : foreignCopy s.group fromPole rx.sender = false)
    (h : s.echoes rx = true) (dispatch : State → State) :
    receiveCopy rx fromPole dispatch s = changeLine rx.line LineState.takeEcho (s.heardOn rx.line) := by
  simp only [receiveCopy, judgeCopy_eq, hForeign, Bool.false_eq_true, if_false, if_pos h]

theorem receiveCopy_duplicate (hForeign : foreignCopy s.group fromPole rx.sender = false)
    (hEcho : s.echoes rx = false)
    (h : filterHolds s.clock (filterKey rx.sender rx.seq) s.filter = true) (dispatch : State → State) :
    receiveCopy rx fromPole dispatch s
      = changeLine rx.line LineState.takeDuplicate (s.heardOn rx.line) := by
  simp only [receiveCopy, judgeCopy_eq, hForeign, hEcho, Bool.false_eq_true, if_false, if_pos h]

theorem receiveCopy_clash (hForeign : foreignCopy s.group fromPole rx.sender = false)
    (hEcho : s.echoes rx = false)
    (hKnown : filterHolds s.clock (filterKey rx.sender rx.seq) s.filter = false)
    (h : s.fromOwn rx.sender = true) (dispatch : State → State) :
    receiveCopy rx fromPole dispatch s = stcClash ((s.heardOn rx.line).setFilter
      (filterWrite (filterKey rx.sender rx.seq) s.clock s.filter)) := by
  simp only [receiveCopy, judgeCopy_eq, hForeign, hEcho, hKnown, Bool.false_eq_true, if_false, if_pos h]

theorem foreignCopy_iff (group : Nat) (fromPole : Bool) (sender : Byte) :
    foreignCopy group fromPole sender = true ↔ (fromPole = true ∧ sender.toNat ≠ 0)
      ∨ (fromPole = false ∧ (sender.toNat = 0 ∨ group < sender.toNat)) := by
  have hZero : sender = 0#8 ↔ sender.toNat = 0 := BitVec.toNat_eq
  cases fromPole <;> simp [foreignCopy, hZero]

end
end Sys2Proof.Machine
end

