-- ==== Sys2Proof/Proofs/CommandRuns.lean ====
section
/-! PROOFS. Every command but a power-on reset and a loss of supply is a run of moves from the instant at which it
is taken. In UNSET the run leaves the held blocks alone. -/

namespace Sys2Proof.Machine

/-- The tags of a command in UNSET (R2), but for an adopted SETUP and an asserted block line. -/
def Tag.held : List Tag := [.line, .filter, .stc, .seq, .release]

/-- The tags of most commands outside UNSET: they send no pulse. -/
def Tag.mute : List Tag :=
  [.touch, .prl, .orh, .order, .pmn, .train, .vcm, .pst, .fic] ++ Tag.held ++ Tag.closing

/-- The tags of the moves that leave the conditions of a waiting deferral as they stand. -/
def Tag.calm : List Tag := .pulse :: Tag.mute

/-- The tags of a command outside UNSET, but for a new deferral and a train outside its state. -/
def Tag.every : List Tag := [.arm, .block, .restart] ++ Tag.calm ++ Tag.firing

/-- The commands that may assert the block line, take a mark, end a deferral or leave RUNNING. -/
def unsettles : Instr → Bool
  | .blockLineAsserted .. => true
  | .restart .. => true
  | .fwdIndication .. => true
  | .revIndication .. => true
  | .prfIndication .. => true
  | .inactivityExpiry .. => true
  | .markEvent .. => true
  | .endStop .. => true
  | .deferralLoReached .. => true
  | .deferralLimit .. => true
  | .darkTimerExpiry .. => true
  | _ => false

/-- The commands of a train and of a survey, which may send a pulse and leave such conditions as they stand. -/
def pulses : Instr → Bool
  | .refireExpiry .. => true
  | .bypassTrainExpiry .. => true
  | .surveyTestPulse .. => true
  | _ => false

section
variable {K : List Tag} {s : State}

/-! ### Copies (R26 to R32) -/

theorem stcClash_unset_run (hState : s.stc.state = .unset) (hK : .stc ∈ K) : Run K s (stcClash s) := by
  rw [stcClash_still (.inl hState)]
  refine setStc_run hK _ fun h => ?_
  obtain ⟨hSync, hBad, hGood, -, hRest⟩ := h
  exact ⟨hSync, hBad, hGood, count16_le _, hRest⟩

theorem onLine_run (hK : .line ∈ K) {l : Line} {f : LineState → LineState}
    (hOk : ∀ x : LineState, x.Ok → (f x).Ok)
    (hEcho : ∀ x : LineState, s.stc.strapError = true → x.echo = none → (f x).echo = none) :
    Run K s (changeLine l f s) := (changeLine_run hOk hEcho).mono (by simp [hK])

theorem heardOn_run (hK : .line ∈ K) (l : Line) : Run K s (s.heardOn l) :=
  (Move.line l _ (fun h => h.goodCopy s.clock) fun _ h => h).run hK

/-- A reception changes the line and the filter; then the copy goes no further, or a clash is notified, or a copy
that is not foreign is dispatched. -/
theorem receiveCopy_outcome (rx : RxCopy) (fromPole : Bool) (dispatch : State → State) :
    ∃ x, Run [.line, .filter] s x
      ∧ (receiveCopy rx fromPole dispatch s = x ∨ receiveCopy rx fromPole dispatch s = stcClash x
        ∨ (receiveCopy rx fromPole dispatch s = dispatch x
          ∧ foreignCopy s.group fromPole rx.sender = false)) := by
  have hHeard : Run [.line, .filter] s (s.heardOn rx.line) := heardOn_run (by decide) _
  have hCount {f : LineState → LineState} (hOk : ∀ y : LineState, y.Ok → (f y).Ok)
      (hEcho : ∀ y : LineState, y.echo = none → (f y).echo = none) :
      Run [.line, .filter] s (changeLine rx.line f (s.heardOn rx.line)) :=
    hHeard.trans ((changeLine_run hOk fun y _ => hEcho y).mono)
  have hWritten {x : State} (hx : Run [.line, .filter] s x) (hFilter : x.filter = s.filter) (key : Nat) :
      Run [.line, .filter] s (x.setFilter (filterWrite key s.clock s.filter)) :=
    hx.trans ((Move.filter _ fun h => filterWrite_sorted _ _ (hFilter ▸ h)).run)
  cases hForeign : foreignCopy s.group fromPole rx.sender with
  | true => exact ⟨_, hCount (fun _ h => h.takeForeign) fun _ h => h, .inl (receiveCopy_foreign hForeign _)⟩
  | false =>
    cases hEcho : s.echoes rx with
    | true => exact ⟨_, hCount (fun _ h => h.takeEcho) fun _ _ => rfl, .inl (receiveCopy_echo hForeign hEcho _)⟩
    | false =>
      cases hKnown : filterHolds s.clock (filterKey rx.sender rx.seq) s.filter with
      | true =>
        exact ⟨_, hCount (fun _ h => h.takeDuplicate) fun _ h => h,
          .inl (receiveCopy_duplicate hForeign hEcho hKnown _)⟩
      | false =>
        cases hOwn : s.fromOwn rx.sender with
        | true =>
          exact ⟨_, hWritten hHeard (State.setLine_filter ..) _,
            .inr (.inl (receiveCopy_clash hForeign hEcho hKnown hOwn _))⟩
        | false =>
          have hAccepts : s.accepts rx fromPole = true := by
            simp [State.accepts, hForeign, hOwn, hKnown]
          have hLine : Run [.line, .filter] s ((s.heardOn rx.line).setLine rx.line
              ((s.line rx.line).heard s.clock).takeAccepted) := by
            have hMove := hCount (f := LineState.takeAccepted) (fun _ h => h.takeAccepted) fun _ h => h
            rwa [changeLine, show (s.heardOn rx.line).line rx.line = _ from State.setLine_line_self ..] at hMove
          exact ⟨s.received rx, hWritten hLine (by simp [State.heardOn]) _,
            .inr (.inr ⟨receiveCopy_accepted hAccepts _, rfl⟩)⟩

theorem receiveCopy_run {rx : RxCopy} {fromPole : Bool} {dispatch : State → State} (hLine : .line ∈ K)
    (hFilter : .filter ∈ K) (hClash : ∀ x, Run [.line, .filter] s x → Run K x (stcClash x))
    (hDispatch : foreignCopy s.group fromPole rx.sender = false →
      ∀ x, Run [.line, .filter] s x → Run K x (dispatch x)) :
    Run K s (receiveCopy rx fromPole dispatch s) := by
  have hBoth : [Tag.line, .filter] ⊆ K := by simp [hLine, hFilter]
  obtain ⟨x, hx, h | h | ⟨h, hForeign⟩⟩ := receiveCopy_outcome (s := s) rx fromPole dispatch <;> rw [h]
  · exact hx.mono hBoth
  · exact (hx.mono hBoth).trans (hClash x hx)
  · exact (hx.mono hBoth).trans (hDispatch hForeign x hx)

/-! ### Commands (R159) -/

theorem doneWith_run (hSeq : .seq ∈ K) (hLine : .line ∈ K) (head : CmdHead) (code : Byte)
    (data : List Byte) : Run K s (doneWith head code data s) :=
  (produceResult_run ..).mono (by simp [hSeq, hLine])

theorem refuseWith_run (hSeq : .seq ∈ K) (hLine : .line ∈ K) (head : CmdHead) (code : Byte)
    (detail : Detail) (data : List Byte) : Run K s (refuseWith head code detail data s) :=
  (produceResult_run ..).mono (by simp [hSeq, hLine])

/-- A command answers a refusal, or is carried out where every check passes. -/
theorem judgeCommand_run {head : CmdHead} {code : Byte} {permitted argument : State → Bool}
    {carry : State → State} (hSeq : .seq ∈ K) (hLine : .line ∈ K)
    (hCarry : s.stc.strapError = false → (s.cmu.executing = none ∨ code = codeRestart) →
      permitted s = true → argument s = true → Run K s (carry s)) :
    Run K s (judgeCommand head code permitted argument carry s) := by
  have hRefuse (detail : Detail) : Run K s (refuseWith head code detail [] s) :=
    refuseWith_run hSeq hLine ..
  refine .ite (fun _ => hRefuse _) fun hStrap => .ite (fun _ => hRefuse _) fun hBusy =>
    .ite (fun _ => hRefuse _) fun hPermitted => .ite (fun _ => hRefuse _) fun hArgument =>
    hCarry (Bool.eq_false_iff.2 hStrap) ?_ (by simpa using hPermitted) (by simpa using hArgument)
  rw [Classical.not_and_iff_not_or_not, Option.not_isSome_iff_eq_none] at hBusy
  exact hBusy.imp_right Classical.not_not.1

theorem receiveCommand_run {rx : RxCopy} {head : CmdHead} {take : State → State} (hLine : .line ∈ K)
    (hFilter : .filter ∈ K) (hClash : ∀ x, Run [.line, .filter] s x → Run K x (stcClash x))
    (hTake : ∀ x, Run [.line, .filter] s x → Run K x (take x)) :
    Run K s (receiveCommand rx head take s) :=
  receiveCopy_run hLine hFilter hClash fun _ x hx => .ite (fun _ => hTake x hx) fun _ => .refl

/-- A SETUP is refused, or adopted in UNSET from where no command executes. -/
theorem takeSetup_run (hSeq : .seq ∈ K) (hLine : .line ∈ K) (hSetup : .setup ∈ K) (head : CmdHead)
    (f : SetupFields) (hUnset : s.stc.state = .unset) (hStrap : s.stc.strapError = false)
    (hIdle : s.cmu.executing = none) : Run K s (takeSetup head f s) := by
  unfold takeSetup
  split
  · exact refuseWith_run hSeq hLine ..
  · rename_i hRange
    have hDone : Run [.seq, .line] s (doneWith head codeSetup [] s) := doneWith_run (by decide) (by decide) ..
    rw [adoptSetup_eq _ _ hUnset]
    exact (hDone.mono (by simp [hSeq, hLine])).trans ((Move.setup _ (hDone.stc ▸ hUnset)
      (hDone.stc ▸ hStrap) (hDone.cmu ▸ hIdle) (setupOf_inRange hRange)).run hSetup)

/-- A survey taken starts with its range and no results. -/
theorem takeSurvey_run (hK : .progress ∈ K) (head : CmdHead) {first last : Nat}
    (hState : s.stc.state = .synced) (hRange : surveyRangeOk s.cfg.levels first last = true) :
    Run K s (s.setCmu { executing := some (SurveyRecord.start head first last) }) := by
  refine (Move.progress _ fun _ v hv => ?_).run hK
  simp only [surveyRangeOk, Bool.and_eq_true, decide_eq_true_eq] at hRange
  obtain ⟨⟨-, hOrder⟩, -⟩ := hRange
  cases hv
  exact ⟨hState, Nat.le_refl _, hOrder, by simp [SurveyRecord.start], rfl, nofun, Nat.zero_le _⟩

theorem restarted_state (s : State) : s.restarted.stc.state = s.stc.state := rfl

theorem softReset_run (hRestart : .restart ∈ K) (hStation : Tag.station ⊆ K) (hLeave : .leave ∈ K)
    (hSet : s.stc.state ≠ .unset) : Run K s (softReset s) :=
  ((Move.restart hSet).run hRestart).trans (enterListening_run hStation (restarted_state s ▸ hSet) (.inl hLeave))

/-- A clearing is permitted in LISTENING, SYNCED and TRIPPED. -/
theorem permitClear_iff : permitClear s = true ↔
    s.stc.state = .listening ∨ s.stc.state = .synced ∨ s.stc.state = .tripped := by
  simp [permitClear, or_assoc]

theorem permitSet_iff : permitSet s = true ↔ s.stc.state ≠ .unset := decide_eq_true_iff

/-! ### Frames that the blocks take (R32) -/

theorem dispatchMark_run (hPrl : .prl ∈ K) (hFic : .fic ∈ K) (rx : RxCopy) (m : MarkFields)
    (hSender : 1 ≤ rx.sender.toNat ∧ rx.sender.toNat ≤ s.group) : Run K s (dispatchMark rx m s) := by
  simp only [dispatchMark]
  split
  · exact .refl
  · split
    · exact (changeEntry_run hPrl (fun _ _ => Nat.zero_le _) _).trans (countRefused_run hPrl)
    · rename_i x _ report _
      have hWrite : Run [.prl] s (writePeerEntry rx.sender.toNat (peerMarkInstant s.cfg rx.arrival m.lag)
          rx.seq report s) := changeEntry_run (by decide) (fun _ _ => Nat.zero_le _) _
      exact ((hWrite.mono (by simp [hPrl])).trans (offerMark_run hPrl _ _ (.inl (hWrite.group ▸ hSender)))).trans
        (handEntry_run hFic _)

theorem prlEvent_run (hPrl : .prl ∈ K) (sender : Nat) (kind : Option EventKind) :
    Run K s (prlEvent sender kind s) := by
  cases kind with
  | none => exact countRefused_run hPrl
  | some k => exact changeEntry_run (f := fun x => { x with lastEvent := some k }) hPrl (fun _ h => h) _

theorem dispatchEvent_run (hPrl : .prl ∈ K) (hFic : .fic ∈ K) (rx : RxCopy) (e : EventFields) :
    Run K s (dispatchEvent rx e s) := by
  simp only [dispatchEvent]
  have hEvent : Run K s (prlEvent rx.sender.toNat (eventOfCodes e.kind e.subkind) s) := prlEvent_run hPrl _ _
  split
  · exact hEvent.trans (ficFailure_run hFic)
  · exact hEvent.trans (ficFailure_run hFic)
  · exact hEvent

/-! ### The block line (R122, R178) -/

theorem stcBlockAsserted_unset (h : s.stc.state = .unset) : stcBlockAsserted s = s :=
  if_neg (by rw [h]; decide)

theorem assertBlock_run (hK : Tag.every ⊆ K) : Run K s (assertBlock s) := by
  have hStation : Tag.station ⊆ K := List.Subset.trans (by decide) hK
  have hBlock : Run K s (stopTrains (s.setBlock true)) := (Move.block).run (hK (by decide))
  refine .ite (fun _ => hBlock.trans (stcBlockAsserted_run hStation (hK (by decide)))) fun _ => ?_
  refine hBlock.trans (Run.inAnyOrder (hK (by decide)) fun f hf x => ?_)
  simp only [List.mem_cons, List.not_mem_nil, or_false] at hf
  obtain rfl | rfl := hf
  · exact stcBlockAsserted_run hStation (hK (by decide))
  · exact settleDeferral_run (List.Subset.trans (by decide) hK)

theorem releaseBlock_run (hRelease : .release ∈ K) (hSet : s.stc.state ≠ .unset → Tag.station ⊆ K) :
    Run K s (evaluateDeblock (s.setBlock false)) := by
  have hMove : Run K s (s.setBlock false) := Move.release.run hRelease
  by_cases hUnset : s.stc.state = .unset
  · rw [evaluateDeblock_of_ne (s := s.setBlock false) (by
      show s.stc.state ≠ .synced
      rw [hUnset]
      decide)]
    exact hMove
  · exact hMove.trans (evaluateDeblock_run (hSet hUnset))

end

/-! ### Commands as runs -/

theorem endStopDue_running {s : State} (h : endStopDue s = true) :
    s.stc.state = .running ∧ s.blockAsserted = false := by
  unfold endStopDue at h
  split at h
  · simp only [Bool.and_eq_true, decide_eq_true_eq, State.firingPermitted, Bool.not_eq_true'] at h
    obtain ⟨⟨⟨⟨hRunning, hBlock, -⟩, -⟩, -⟩, -⟩ := h
    exact ⟨hRunning, hBlock⟩
  · cases h

theorem refireDue_running {s : State} (h : refireDue s = true) : s.stc.state = .running ∧ s.blockAsserted = false := by
  unfold refireDue at h
  split at h
  · simp only [Bool.and_eq_true, decide_eq_true_eq, Bool.not_eq_true'] at h
    obtain ⟨⟨-, hRunning⟩, hBlock⟩ := h
    exact ⟨hRunning, hBlock⟩
  · cases h

theorem bypassTrainDue_fires {s : State} (h : bypassTrainDue s = true) : s.bypassFires = true := by
  unfold bypassTrainDue at h
  split at h
  · exact ((Bool.and_eq_true _ _).mp h).2
  · cases h

theorem surveyTestDue_synced {s : State} (h : surveyTestDue s = true) : s.stc.state = .synced := by
  unfold surveyTestDue at h
  split at h
  · simp only [Bool.and_eq_true, decide_eq_true_eq] at h
    obtain ⟨⟨-, hSynced⟩, -⟩ := h
    exact hSynced
  · cases h

section
variable {K : List Tag} {s u : State} {t : Instant}

theorem act_run {effect : State → State} (e : act t s effect = .next u)
    (h : Run K (s.advance t) (effect (s.advance t))) : Run K (s.advance t) u :=
  act_keeps .refl (fun _ => h) e

theorem unlessHeld_run {effect : State → State} (h : s.stc.state ≠ .unset → Run K s (effect s)) :
    Run K s (s.unlessHeld effect) := by
  by_cases hUnset : s.stc.state = .unset
  · rw [unlessHeld_of_unset hUnset]
    exact .refl
  · rw [unlessHeld_of_ne hUnset]
    exact h hUnset

theorem dueEvent_run {due : State → Bool} {effect : State → State}
    (e : dueEvent t s due effect = .next u)
    (h : s.stc.state ≠ .unset → due (s.advance t) = true → Run K (s.advance t) (effect (s.advance t))) :
    Run K (s.advance t) u :=
  act_run e (unlessHeld_run fun hSet => .ite (fun hDue => h hSet hDue) fun _ => .refl)

theorem indication_run {n : Nat} {effect : State → State} (e : indication t n s effect = .next u)
    (h : s.stc.state ≠ .unset → Run K (s.advance t) (effect (s.advance t))) : Run K (s.advance t) u :=
  act_run e (unlessHeld_run fun hSet => .ite (fun _ => h hSet) fun _ => .refl)

variable (hHeld : Tag.held ⊆ K) (hSet : s.stc.state ≠ .unset → Tag.mute ⊆ K)
include hHeld hSet

theorem clash_run (x : State) (hx : x.stc.state = s.stc.state) : Run K x (stcClash x) := by
  by_cases hUnset : s.stc.state = .unset
  · exact stcClash_unset_run (hx.trans hUnset) (hHeld (by decide))
  · exact stcClash_run (List.Subset.trans (by decide) (hSet hUnset))

theorem copy_run {rx : RxCopy} {fromPole : Bool} {dispatch : State → State}
    (e : act t s (receiveCopy rx fromPole dispatch) = .next u)
    (hDispatch : foreignCopy s.group fromPole rx.sender = false → ∀ x,
      Run [.line, .filter] (s.advance t) x → Run K x (dispatch x)) : Run K (s.advance t) u :=
  act_run e (receiveCopy_run (hHeld (by decide)) (hHeld (by decide))
    (fun x hx => clash_run hHeld hSet x (congrArg Stc.state hx.stc)) hDispatch)

/-- A command that is carried out outside UNSET, or changes no held block. -/
theorem command_run {rx : RxCopy} {head : CmdHead} {code : Byte} {permitted argument : State → Bool}
    {carry : State → State}
    (e : act t s (receiveCommand rx head (judgeCommand head code permitted argument carry)) = .next u)
    (hCarry : ∀ x, Run [.line, .filter] (s.advance t) x → x.stc.strapError = false →
      (x.cmu.executing = none ∨ code = codeRestart) → permitted x = true → argument x = true →
      Run K x (carry x)) :
    Run K (s.advance t) u :=
  act_run e (receiveCommand_run (hHeld (by decide)) (hHeld (by decide))
    (fun x hx => clash_run hHeld hSet x (congrArg Stc.state hx.stc)) fun x hx =>
    judgeCommand_run (hHeld (by decide)) (hHeld (by decide)) (hCarry x hx))

theorem heldCopy_run {rx : RxCopy} {fromPole : Bool} {dispatch : State → State}
    (e : act t s (receiveCopy rx fromPole fun x => x.unlessHeld dispatch) = .next u)
    (hDispatch : Tag.mute ⊆ K → foreignCopy s.group fromPole rx.sender = false → ∀ x,
      x.group = s.group → Run K x (dispatch x)) :
    Run K (s.advance t) u :=
  copy_run hHeld hSet e fun hForeign x hx => unlessHeld_run fun hx' =>
    hDispatch (hSet (congrArg Stc.state hx.stc ▸ hx')) hForeign x hx.group

/-- Every command but a power-on reset and a loss of supply is a run from its instant. In UNSET with no deferral
waiting it changes no held block but by an adopted SETUP; a train that starts outside its state needs a deferral outside RUNNING. -/
theorem exec_run {c : Instr} (hPower : isPower c = false)
    (hPulse : pulses c = true → s.stc.state ≠ .unset → Tag.calm ⊆ K)
    (hBlock : unsettles c = true → .block ∈ K)
    (hEvery : unsettles c = true → s.stc.state ≠ .unset ∨ s.fic.deferral ≠ none → Tag.every ⊆ K)
    (hSetup : .setup ∈ K ∨ ∀ t rx head fields, c ≠ .setup t rx head fields)
    (hDefer : s.stc.state ≠ .unset → .defer ∈ K ∨ ∀ t, c ≠ .markEvent t)
    (hLoose : s.stc.state ≠ .unset → .loose ∈ K ∨ DeferralOk s)
    (h : exec c s = .next u) : Run K (s.advance (instantOf c)) u := by
  have hAll {L : List Tag} (hState : s.stc.state ≠ .unset) (hL : L ⊆ Tag.mute := by decide) : L ⊆ K :=
    List.Subset.trans hL (hSet hState)
  have hIn {k : Tag} (hState : s.stc.state ≠ .unset) (hk : k ∈ Tag.mute := by decide) : k ∈ K :=
    hSet hState hk
  have hFar {L : List Tag} (hC : unsettles c = true) (hState : s.stc.state ≠ .unset)
      (hL : L ⊆ Tag.every := by decide) : L ⊆ K := List.Subset.trans hL (hEvery hC (.inl hState))
  have hFarIn {k : Tag} (hC : unsettles c = true) (hState : s.stc.state ≠ .unset)
      (hk : k ∈ Tag.every := by decide) : k ∈ K := hEvery hC (.inl hState) hk
  have hPulsing (hC : pulses c = true) (hState : s.stc.state ≠ .unset) : Tag.pulsing ⊆ K :=
    List.Subset.trans (by decide) (hPulse hC hState)
  have hSeq : Tag.seq ∈ K := hHeld (by decide)
  have hLine : Tag.line ∈ K := hHeld (by decide)
  have hPermit {x : State} {t : Instant} (hx : Run [.line, .filter] (s.advance t) x)
      (hp : permitSet x = true) : s.stc.state ≠ .unset := by
    have hState := permitSet_iff.1 hp
    rwa [hx.stc] at hState
  cases c with
  | powerOnReset => cases hPower
  | supplyLoss => cases hPower
  | blockLineAsserted t held =>
    refine act_run h (.ite (fun _ => ?_) fun _ => .refl)
    by_cases hHas : s.stc.state = .unset ∧ s.fic.deferral = none
    · obtain ⟨hUnset, hNone⟩ := hHas
      have hBlock : Run K (s.advance t) (stopTrains ((s.advance t).setBlock true)) :=
        (Move.block).run (hBlock rfl)
      have hSame : assertBlock (s.advance t) = stopTrains ((s.advance t).setBlock true) :=
        (if_pos (by
          show s.fic.deferral.isNone = true
          rw [hNone]
          rfl)).trans (stcBlockAsserted_unset hUnset)
      rw [hSame]
      exact hBlock
    · exact assertBlock_run (hEvery rfl (by
        rwa [← Classical.not_and_iff_not_or_not]))
  | blockLineReleased t held =>
    refine act_run h ?_
    exact .ite (fun _ => releaseBlock_run (hHeld (by decide)) fun hState => hAll hState) fun _ => .refl
  | setup t rx head fields =>
    refine command_run hHeld hSet h (fun x hx hStrap hBusy hPermitted _ => ?_)
    exact takeSetup_run hSeq hLine (hSetup.resolve_right fun hNot => hNot t rx head fields rfl) _ _ (of_decide_eq_true hPermitted) hStrap
      (hBusy.resolve_right (by decide))
  | survey t rx head first last =>
    refine command_run hHeld hSet h (fun x hx _ _ hPermitted hRange => ?_)
    simp only [permitSurvey, Bool.and_eq_true, decide_eq_true_eq] at hPermitted
    refine takeSurvey_run (hIn ?_) head hPermitted.1 hRange
    have hState : s.stc.state = .synced := (congrArg Stc.state hx.stc).symm.trans hPermitted.1
    rw [hState]
    decide
  | readLevels t rx head first count =>
    exact command_run hHeld hSet h (fun _ _ _ _ _ _ => doneWith_run hSeq hLine ..)
  | readRoll t rx head => exact command_run hHeld hSet h (fun _ _ _ _ _ _ => doneWith_run hSeq hLine ..)
  | readHolds t rx head => exact command_run hHeld hSet h (fun _ _ _ _ _ _ => doneWith_run hSeq hLine ..)
  | clearLevelOne t rx head n =>
    refine command_run hHeld hSet h (fun x hx _ _ hPermitted _ => ?_)
    have hState : s.stc.state ≠ .unset := by
      have hIn := permitClear_iff.1 hPermitted
      rw [hx.stc] at hIn
      obtain hIn | hIn | hIn := hIn <;> exact fun hUnset => by cases hIn.symm.trans hUnset
    exact (clearLevel_run (hAll hState) (hIn hState) _).trans (doneWith_run hSeq hLine ..)
  | clearLevelAll t rx head =>
    refine command_run hHeld hSet h (fun x hx _ _ hPermitted _ => ?_)
    have hState : s.stc.state ≠ .unset := by
      have hIn := permitClear_iff.1 hPermitted
      rw [hx.stc] at hIn
      obtain hIn | hIn | hIn := hIn <;> exact fun hUnset => by cases hIn.symm.trans hUnset
    exact (clearAllLevels_run (hAll hState) (hIn hState)).trans (doneWith_run hSeq hLine ..)
  | clearHolds t rx head =>
    refine command_run hHeld hSet h (fun x hx _ _ hPermitted _ => ?_)
    refine Run.trans ?_ (doneWith_run hSeq hLine ..)
    exact setPmn_run (hIn (hPermit hx hPermitted)) _ (fun n => by cases n <;> rfl) rfl rfl
  | forceOutputs t rx head lines =>
    refine command_run hHeld hSet h (fun x hx _ _ hPermitted _ => ?_)
    refine Run.trans (Move.run ?_ (hIn (hPermit hx hPermitted) : Tag.pmn ∈ K)) (doneWith_run hSeq hLine ..)
    exact Move.pmn _ fun _ hAlarms => hAlarms.mapAlarms (fun n _ _ y hy => by
      unfold AlarmLine.force; split <;> exact hy) fun n y => by unfold AlarmLine.force; split <;> rfl
  | releaseOutputs t rx head lines =>
    refine command_run hHeld hSet h (fun x hx _ _ hPermitted _ => ?_)
    refine Run.trans (Move.run ?_ (hIn (hPermit hx hPermitted) : Tag.pmn ∈ K)) (doneWith_run hSeq hLine ..)
    exact Move.pmn _ fun _ hAlarms => hAlarms.mapAlarms (fun n _ _ y hy => by
      unfold AlarmLine.release; split <;> exact hy) fun n y => by unfold AlarmLine.release; split <;> rfl
  | restart t rx head =>
    refine command_run hHeld hSet h (fun x hx _ _ hPermitted _ => ?_)
    have hDone : Run [.seq, .line] x (doneWith head codeRestart [] x) := doneWith_run (by decide) (by decide) ..
    refine (hDone.mono (by simp [hSeq, hLine])).trans (softReset_run (hFarIn rfl (hPermit hx hPermitted))
      (hAll (hPermit hx hPermitted)) (hFarIn rfl (hPermit hx hPermitted)) ?_)
    rw [hDone.stc]
    exact permitSet_iff.1 hPermitted
  | unknownCommand t rx head code =>
    refine act_run (effect := fun x => if knownCode code then x else receiveCommand rx head
      (fun y => refuseWith head code (if y.stc.strapError then .strap else .unknown) [] y) x) h (.ite (fun _ => .refl) fun _ => receiveCommand_run hLine (hHeld (by decide))
      (fun x hx => clash_run hHeld hSet x (congrArg Stc.state hx.stc)) fun x _ =>
      refuseWith_run hSeq hLine ..)
  | markFrame t rx m =>
    refine heldCopy_run hHeld hSet h (fun hK hForeign x hGroup => ?_)
    refine dispatchMark_run (hK (by decide)) (hK (by decide)) rx m ?_
    have hNative := mt (foreignCopy_iff s.group false rx.sender).2 (Bool.eq_false_iff.1 hForeign)
    simp only [Bool.false_eq_true, false_and, true_and, false_or, not_or, Nat.not_lt] at hNative
    exact hGroup ▸ ⟨Nat.one_le_iff_ne_zero.2 hNative.1, hNative.2⟩
  | eventFrame t rx e =>
    exact heldCopy_run hHeld hSet h (fun hK _ x _ => dispatchEvent_run (hK (by decide)) (hK (by decide)) rx e)
  | orderFrame t rx o => exact heldCopy_run hHeld hSet h (fun hK _ x _ => orhOrder_run (hK (by decide)) o)
  | resultFrame t rx => exact copy_run hHeld hSet h (fun _ _ _ => .refl)
  | commandOtherTarget t rx head =>
    refine act_run (effect := fun x => if x.addressed head then x else receiveCopy rx true (fun y => y) x) h ?_
    exact .ite (fun _ => .refl) fun _ => receiveCopy_run hLine (hHeld (by decide))
      (fun x hx => clash_run hHeld hSet x (congrArg Stc.state hx.stc)) fun _ _ _ => .refl
  | badCopy t line bytes cutShort =>
    refine act_run h ?_
    exact .ite (fun _ => (changeLine_run (fun _ hx => hx.badCopy _) fun _ _ hx => hx).mono
      (by simp [hLine])) fun _ => .refl
  | transmissionStart t line dark =>
    refine act_run h ?_
    exact onLine_run hLine (fun _ hx => hx.startTransmission ..)
      (fun _ _ hx => LineState.startTransmission_echo _ _ _ hx)
  | transmissionComplete t line =>
    refine act_run h ?_
    exact onLine_run hLine (fun _ hx => hx.completeTransmission ..)
      (fun _ hStrap hx => by
        show (LineState.completeTransmission _ s.stc.strapError _).echo = none
        rw [show s.stc.strapError = true from hStrap]
        exact LineState.completeTransmission_echo _ hx)
  | lagLimitRemoval t line =>
    refine act_run h ?_
    exact onLine_run hLine (fun _ hx => hx.judgeHead _) (fun _ _ hx => hx)
  | echoMiss t line =>
    refine act_run h ?_
    exact onLine_run hLine (fun _ hx => hx.echoTimeout _) (fun _ _ hx => LineState.echoTimeout_echo _ hx)
  | filterEntryExpiry t sender seq =>
    refine act_run (effect := fun x => x.setFilter (filterExpire x.clock (filterKey sender seq) x.filter)) h ?_
    exact (Move.filter _ fun hx => hx.filter _).run (hHeld (by decide))
  | litEntry t line carrier =>
    refine act_run h ?_
    exact onLine_run hLine (fun _ hx => hx.enterLit ..)
      (fun _ _ hx => (LineState.enterLit_echo ..).trans hx)
  | litEnd t line =>
    refine act_run h ?_
    exact onLine_run hLine (fun _ hx => hx.endLit _) (fun _ _ hx => (LineState.endLit_echo ..).trans hx)
  | silenceTimerExpiry t line =>
    refine act_run h ?_
    exact onLine_run hLine (fun _ hx => hx.silenceExpiry ..)
      (fun _ _ hx => (LineState.silenceExpiry_echo ..).trans hx)
  | fwdIndication t level =>
    refine indication_run h fun hState => ?_
    exact (.ite (fun _ => (Move.touch _ _ (fun _ hx => hx.signOfLife)
      LevelRecord.signOfLife_state).run (hIn hState)) fun _ => joinForward_run (hFar rfl hState) _)
  | revIndication t level =>
    refine indication_run h fun hState => ?_
    exact (.ite (fun _ => (Move.touch _ _ (fun _ hx => hx.signOfLife)
      LevelRecord.signOfLife_state).run (hIn hState)) fun _ => joinReverse_run (hFar rfl hState) _)
  | prfIndication t level =>
    refine indication_run h fun hState => ?_
    exact ((((Move.touch _ _ (fun _ hx => hx.takePrf)
      LevelRecord.takePrf_state).run (hIn hState)).trans (pmnPrf_run (hIn hState) _)).trans
      (pstPrf_run (hFar rfl hState) _))
  | ackIndication t level =>
    refine indication_run h fun hState => ?_
    exact (pstAck_run (hIn hState) (hIn hState) (hIn hState) _)
  | inactivityExpiry t => exact dueEvent_run h (fun hState _ => enterDark_run (hFar rfl hState))
  | noExtinctionExpiry t => exact dueEvent_run h (fun hState _ => noExtinction_run (hAll hState))
  | markEvent t =>
    exact dueEvent_run h (fun hState _ => markNow_run (hFar rfl hState) (.inl (hFarIn rfl hState))
      ((hDefer hState).resolve_right fun hNot => hNot t rfl))
  | endStop t =>
    refine dueEvent_run h (fun hState hDue => ?_)
    obtain ⟨hRunning, hReleased⟩ := endStopDue_running hDue
    exact endStopNow_run (hFar rfl hState) (.inl (hFarIn rfl hState)) hRunning hReleased
  | deferralLoReached t =>
    refine dueEvent_run h (fun hState hDue => deferralLoNow_run (hFar rfl hState) ((hLoose hState).imp_right fun hOk => ?_))
    unfold deferralLoDue at hDue
    split at hDue
    · rename_i hSome _
      exact (hOk (Option.isSome_of_eq_some hSome)).2
    · cases hDue
  | deferralLimit t =>
    refine act_run (effect := fun x => x.unlessHeld judgeLimit) h ?_
    exact unlessHeld_run fun hState => judgeLimit_run (hFar rfl hState)
  | refireExpiry t =>
    refine dueEvent_run h (fun hState hDue => ?_)
    obtain ⟨hRunning, hBlock⟩ := refireDue_running hDue
    exact refirePulse_run (hPulsing rfl hState) (hIn hState) hRunning hBlock
  | bypassTrainExpiry t =>
    refine dueEvent_run h (fun hState hDue => ?_)
    obtain ⟨hBypassing, -, hBlock⟩ := bypassFires_iff.1 (bypassTrainDue_fires hDue)
    exact bypassFiring_run (hPulsing rfl hState) (hIn hState) hBypassing hBlock
  | ackWindowExpiry t => exact dueEvent_run h (fun hState _ => closeWindow_run (hAll hState))
  | prfGatherExpiry t => exact dueEvent_run h (fun hState _ => setPst_run (hIn hState) _)
  | surveyTestPulse t => exact dueEvent_run h (fun hState _ => testPulse_run (hPulsing rfl hState))
  | darkTimerExpiry t =>
    refine dueEvent_run h (fun hState _ => enterListening_run (hAll hState) hState (.inl (hFarIn rfl hState)))
  | orderStale t =>
    refine act_run (effect := fun x => x.unlessHeld refreshStale) h ?_
    exact unlessHeld_run fun hState => refreshStale_run (hIn hState)
  | forcedBlock t =>
    refine act_run (effect := fun x => x.unlessHeld forceBlock) h ?_
    exact unlessHeld_run fun hState => forceBlock_run (hIn hState)
  | alarmAssertExpiry t line =>
    refine act_run (effect := fun x => x.unlessHeld (changeAlarm line (AlarmLine.assertExpiry x.clock))) h ?_
    exact unlessHeld_run fun hState => (Move.pmn _ fun _ hAlarms => hAlarms.changeAlarm _
      (fun _ _ _ hx => hx.assertExpiry _) (AlarmLine.assertExpiry_condition _)).run (hIn hState)
  | alarmReleaseExpiry t line =>
    refine act_run (effect := fun x => x.unlessHeld (changeAlarm line (AlarmLine.releaseExpiry x.clock))) h ?_
    exact unlessHeld_run fun hState => (Move.pmn _ fun _ hAlarms => hAlarms.changeAlarm _
      (fun _ _ _ hx => hx.releaseExpiry _) (AlarmLine.releaseExpiry_condition _)).run (hIn hState)

end
end Sys2Proof.Machine
end

