-- ==== Sys2Proof/Proofs/Invariants.lean ====
section
/-! PROOFS. Every move keeps every invariant, and so does every step. -/

namespace Sys2Proof.Machine

/-! ### The invariants of single blocks, move by move -/

section
variable {s u : State} {k : Tag}

theorem Move.linesOk (m : Move k s u) (h : LinesOk s) : LinesOk u := by
  obtain ⟨hA, hB, hEcho⟩ := h
  cases m with
  | line l x hOk hNone =>
    cases l with
    | a => exact ⟨hOk hA, hB, fun hStrap => ⟨hNone hStrap (hEcho hStrap).1, (hEcho hStrap).2⟩⟩
    | b => exact ⟨hA, hOk hB, fun hStrap => ⟨(hEcho hStrap).1, hNone hStrap (hEcho hStrap).2⟩⟩
  | _ => exact ⟨hA, hB, hEcho⟩

theorem Move.filterOk (m : Move k s u) (h : FilterOk s) : FilterOk u := by
  cases m with
  | line l x => cases l <;> exact h
  | filter x hx => exact hx h
  | _ => exact h

theorem Move.setupOk (m : Move k s u) (h : SetupOk s) : SetupOk u := by
  have hEntered {new : StationState} (hOld : s.stc.state ≠ .unset) (hNew : new ≠ .unset) :
      SetupOk (s.moved new) := by
    obtain ⟨hNone, hRange, hStrap, hCheck⟩ := h
    exact ⟨⟨fun hs => absurd (hNone.1 hs) hOld, fun hs => absurd hs hNew⟩, hRange,
      fun he => absurd (hStrap he) hOld, hCheck⟩
  cases m with
  | line l x => cases l <;> exact h
  | state new hOld hNew => exact hEntered hOld hNew
  | leave new hNew hFiring => exact hEntered (by obtain hs | hs := hFiring <;> rw [hs] <;> decide) hNew
  | setup c _ hStrap _ hRange =>
    obtain ⟨-, -, -, hCheck⟩ := h
    refine ⟨⟨nofun, nofun⟩, fun d hd => ?_, fun he => absurd (hStrap.symm.trans he) nofun, hCheck⟩
    cases hd
    exact hRange
  | _ => exact h

theorem Move.runsOk (m : Move k s u) (h : RunsOk s) : RunsOk u := by
  cases m with
  | line l x => cases l <;> exact h
  | stc x hx => exact hx h
  | setup =>
    obtain ⟨-, -, -, hClash, hLoss, hTrip, -⟩ := h
    exact ⟨Nat.zero_le _, Nat.zero_le _, Nat.zero_le _, hClash, hLoss, hTrip, fun _ => rfl⟩
  | restart =>
    obtain ⟨-, -, -, hClash, hLoss, hTrip, -⟩ := h
    exact ⟨Nat.zero_le _, Nat.zero_le _, Nat.zero_le _, hClash, hLoss, hTrip, fun _ => rfl⟩
  | _ => exact h

/-- A roll of EMPTY entries, one for each position. -/
theorem emptyRoll_ok (n : Nat) :
    (List.replicate n RollEntry.empty).length = n
      ∧ ∀ x ∈ List.replicate n RollEntry.empty, x.missed ≤ 255 :=
  ⟨List.length_replicate, fun x hx => by rw [List.eq_of_mem_replicate hx]; decide⟩

theorem Move.rollOk (m : Move k s u) (h : RollOk s) : RollOk u := by
  cases m with
  | line l x => cases l <;> exact h
  | prl x hRoll => exact hRoll h
  | setup =>
    obtain ⟨hLength, hMissed⟩ := emptyRoll_ok (groupCount s.stc.straps.groupSize)
    exact ⟨hLength, hMissed, Nat.zero_le _, Nat.zero_le _, Nat.zero_le _⟩
  | restart =>
    obtain ⟨-, -, -, hRefused, hOutliers⟩ := h
    obtain ⟨hLength, hMissed⟩ := emptyRoll_ok (groupCount s.stc.straps.groupSize)
    exact ⟨hLength, hMissed, Nat.zero_le _, hRefused, hOutliers⟩
  | _ => exact h

/-- A record that names the own position needs that one to be a position of the group. -/
theorem Move.arrivalOk (m : Move k s u) (hOwn : k = .prl → 1 ≤ s.position ∧ s.position ≤ s.group)
    (h : ArrivalOk s) : ArrivalOk u := by
  cases m with
  | line l x => cases l <;> exact h
  | prl x _ hArrival =>
    intro a ha
    obtain hOld | hNew | hSelf := hArrival a ha
    · exact h a hOld
    · exact hNew
    · rw [hSelf]
      exact hOwn rfl
  | setup => exact nofun
  | restart => exact nofun
  | _ => exact h

/-! ### The level table and the alarm lines -/

theorem redundancyLowAt_iff (redundancy consumed : Nat) : redundancyLowAt redundancy consumed = true ↔
    (consumed = redundancy ∧ 0 < redundancy) ∨ (1 ≤ consumed ∧ redundancy = 0) := by
  unfold redundancyLowAt
  split
  · simp only [decide_eq_true_eq]; omega
  · simp only [decide_eq_true_eq]; omega

/-- A table that its records give, with L records in order. -/
theorem lvtOf_ok {c : Setup} {levels : List LevelRecord} (hSetup : s.stc.setup = some c)
    (hOk : ∀ r ∈ levels, r.Ok) (hLength : levels.length = c.levels) : LevelsOk (s.setLvt (lvtOf c levels)) := by
  refine ⟨hOk, ?_⟩
  show match s.stc.setup with | none => _ | some c => _
  rw [hSetup]
  exact ⟨hLength, rfl, rfl, rfl, rfl, decide_eq_true_iff, redundancyLowAt_iff _ _⟩

theorem cfg_of_setup {c : Setup} (h : s.stc.setup = some c) : s.cfg = c := by
  unfold State.cfg
  rw [h]
  rfl

/-- Records changed without an effect on `p` are as many as before. -/
theorem countP_mapFrom {α : Type} {p : α → Bool} {f : Nat → α → α} (h : ∀ i x, p (f i x) = p x)
    (items : List α) (start : Nat) : (mapFrom f start items).countP p = items.countP p := by
  induction items generalizing start with
  | nil => rfl
  | cons x rest ih => rw [mapFrom, List.countP_cons, List.countP_cons, ih, h]

theorem Move.levelsOk (m : Move k s u) (h : LevelsOk s) : LevelsOk u := by
  cases m with
  | line l x => cases l <;> exact h
  | levels levels hOk hLength =>
    obtain ⟨hRecords, hTable⟩ := h
    cases hSetup : s.stc.setup with
    | none =>
      rw [hSetup] at hTable
      obtain rfl : levels = [] := List.length_eq_zero_iff.1 (by rw [hLength, hTable.1]; rfl)
      refine ⟨nofun, ?_⟩
      show match s.stc.setup with | none => _ | some c => _
      rw [hSetup]
      exact ⟨rfl, rfl⟩
    | some c =>
      rw [hSetup] at hTable
      have hNew := lvtOf_ok hSetup (hOk hRecords) (hLength.trans hTable.1)
      rw [← cfg_of_setup hSetup] at hNew
      exact hNew
  | touch f n hOk hState =>
    obtain ⟨hRecords, hTable⟩ := h
    have hCount (p : LevelState → Bool) : (changeAt f s.lvt.levels n).countP (fun r => p r.state)
        = s.lvt.levels.countP (fun r => p r.state) :=
      countP_mapFrom (p := fun r : LevelRecord => p r.state) (fun i r => by
        show p (if i = n then f r else r).state = p r.state
        split
        · rw [hState]
        · rfl) _ _
    refine ⟨fun r hr => ?_, ?_⟩
    · obtain ⟨i, x, hx, rfl⟩ := mem_mapFrom hr
      split
      · exact hOk x (hRecords x hx)
      · exact hRecords x hx
    · show match s.stc.setup with | none => _ | some c => _
      cases hSetup : s.stc.setup with
      | none =>
        rw [hSetup] at hTable
        exact ⟨by rw [show (touchLevel f n s).lvt.levels = changeAt f s.lvt.levels n from rfl, hTable.1]; rfl,
          hTable.2⟩
      | some c =>
        rw [hSetup] at hTable
        obtain ⟨hLength, hSilent, hConsumed, hRest⟩ := hTable
        exact ⟨(changeAt_length ..).trans hLength,
          hSilent.trans (hCount fun x => decide (x = .silent)).symm,
          hConsumed.trans (hCount fun x => decide (x = .silent) || decide (x = .nofire)).symm, hRest⟩
  | setup c =>
    have hFresh : ∀ r ∈ List.replicate c.levels LevelRecord.fresh, r.Ok := fun r hr => by
      rw [List.eq_of_mem_replicate hr]
      exact ⟨Nat.zero_le _, rfl, rfl⟩
    exact lvtOf_ok (s := s.setStc { s.stc with setup := some c }) rfl hFresh List.length_replicate
  | _ => exact h

/-- The two conditions that the level table hands on are those of the new table. -/
theorem AlarmsOk.levelsSet {levels : List LevelRecord} (h : AlarmsOk s) : AlarmsOk (levelsSet levels s) := by
  obtain ⟨hLine, -, -, hFailure, hRing⟩ := h
  refine ⟨fun n => ?_, AlarmLine.hand_condition .., AlarmLine.hand_condition .., hFailure, hRing⟩
  cases n with
  | tripRequest => exact (hLine .tripRequest).hand ..
  | redundancyLow => exact (hLine .redundancyLow).hand ..
  | commutationFailure => exact hLine .commutationFailure
  | prfRate => exact hLine .prfRate

theorem formed_conditions (c : Setup) :
    (Lvt.formed c).tripCondition = false ∧ (Lvt.formed c).redundancyLow = false := by
  have hNone : consumedIn (List.replicate c.levels LevelRecord.fresh) = 0 := consumedIn_fresh _
  refine ⟨?_, ?_⟩
  · show decide (c.redundancy < consumedIn _) = false
    rw [hNone]
    exact decide_eq_false (Nat.not_lt_zero _)
  · rw [Bool.eq_false_iff]
    show ¬ redundancyLowAt c.redundancy (consumedIn _) = true
    rw [hNone, redundancyLowAt_iff]
    omega

theorem AlarmsOk.configured {c : Setup} (hRange : c.InRange) : AlarmsOk (s.configured c) := by
  obtain ⟨hTrip, hLow⟩ := formed_conditions c
  refine ⟨fun n => by cases n <;> rfl, hTrip.symm, hLow.symm, rfl, fun d hd => ?_⟩
  cases hd
  have hSum : (List.replicate c.window 0).sum = 0 := by simp
  have hLimit : 1 ≤ c.prfLimit := by
    obtain ⟨-, -, -, -, -, -, -, -, -, -, -, -, -, -, -, -, -, -, -, -, -, -, -, -, -, hLimit, -⟩ := hRange
    exact hLimit
  refine ⟨List.length_replicate, ⟨nofun, fun h => ?_⟩⟩
  have hBelow : c.prfLimit ≤ (List.replicate c.window 0).sum := h
  rw [hSum] at hBelow
  exact absurd hBelow (Nat.not_le.2 hLimit)

/-- A RESTART clears the overrides and the ring, and has PRF RATE judged again. -/
theorem AlarmsOk.restarted (h : AlarmsOk s) : AlarmsOk s.restarted := by
  have hCleared : AlarmsOk (s.setPmn (s.pmn.mapAlarms fun _ x => { x with override := .none })) :=
    h.mapAlarms (fun _ _ _ _ hx => hx) fun _ _ => rfl
  exact hCleared.judgePrfRate (x := s.pmn.restart) (fun n => by cases n <;> rfl) rfl fun c _ hRing =>
    (List.length_map _).trans hRing

theorem Move.alarmsOk (m : Move k s u) (hSetup : SetupOk s) (h : AlarmsOk s) : AlarmsOk u := by
  cases m with
  | line l x => cases l <;> exact h
  | levels levels hOk hLength => exact h.levelsSet
  | pmn x hx => exact hx hSetup h
  | setup c _ _ _ hRange => exact .configured hRange
  | restart => exact h.restarted
  | _ => exact h

/-! ### The valve, the orders and the survey -/

theorem Move.valveOk (m : Move k s u) (h : ValveOk s) : ValveOk u := by
  cases m with
  | line l x => cases l <;> exact h
  | vcm x hx => exact hx h
  | setup => exact ⟨fun _ => ⟨rfl, rfl, rfl⟩, nofun, nofun, nofun, fun _ => rfl, fun _ => rfl,
    (by decide : 2000 ≤ 6000)⟩
  | restart => exact ⟨fun _ => ⟨rfl, rfl, rfl⟩, nofun, nofun, nofun, fun _ => rfl, fun _ => rfl,
    (by decide : 2000 ≤ 6000)⟩
  | _ => exact h

theorem advanceUnder_ok {mode : Mode} {count : Nat} (h : count ≤ 15) :
    advanceUnder mode count ≤ 15 ∧ (mode = .rectifier → advanceUnder mode count = 0) := by
  cases mode with
  | rectifier => exact ⟨Nat.zero_le _, fun _ => rfl⟩
  | inverter => exact ⟨h, nofun⟩

theorem Move.orderOk (m : Move k s u) (hSetup : SetupOk s) (h : OrderOk s) : OrderOk u := by
  cases m with
  | line l x => cases l <;> exact h
  | fic x hOrder => exact hOrder hSetup h
  | arm x hOrder => exact hOrder hSetup h
  | orh x hx => exact hx h
  | order o =>
    obtain ⟨hAge, -, hLimit, -⟩ := h
    obtain ⟨hNew, hMode⟩ := advanceUnder_ok (mode := o.mode) hLimit
    exact ⟨hAge, nofun, hNew, hMode⟩
  | setup => exact ⟨Nat.zero_le _, nofun, Nat.zero_le _, fun _ => rfl⟩
  | restart =>
    obtain ⟨hAge, -⟩ := h
    exact ⟨hAge, nofun, Nat.zero_le _, fun _ => rfl⟩
  | _ => exact h

theorem Move.surveyOk (m : Move k s u) (h : SurveyOk s) : SurveyOk u := by
  have hIdle (h : s.stc.state ≠ .synced) (hOk : SurveyOk s) : s.cmu.executing = none := by
    cases hv : s.cmu.executing with
    | none => rfl
    | some v => exact absurd (hOk v hv).1 h
  have hNone {x : State} (hx : x.cmu.executing = none) : SurveyOk x := fun v hv => by
    rw [hx] at hv
    cases hv
  cases m with
  | line l x => cases l <;> exact h
  | state new hOld hNew hFiring hSynced =>
    by_cases hState : s.stc.state = .synced
    · exact hNone (hSynced hState)
    · exact hNone (hIdle hState h)
  | leave new hNew hFiring =>
    exact hNone (hIdle (by obtain hs | hs := hFiring <;> rw [hs] <;> decide) h)
  | survey => exact hNone rfl
  | progress x hx => exact hx h
  | setup c hState _ hExecuting => exact hNone hExecuting
  | restart => exact hNone rfl
  | _ => exact h

/-! ### Trains (R119 to R122) -/

theorem trainOk_iff : TrainOk s ↔
    (∀ expiry, s.pst.train = .refire expiry → s.stc.state = .running ∧ s.blockAsserted = false)
      ∧ ∀ expiry, s.pst.train = .bypass expiry → s.stc.state = .bypassing ∧ s.blockAsserted = false := by
  unfold TrainOk
  cases s.pst.train <;> simp

/-- A train that goes on after a change of state is one of the new state. -/
theorem moved_trainOk (h : TrainOk s) (new : StationState) : TrainOk (s.moved new) := by
  obtain ⟨hRefire, hBypass⟩ := trainOk_iff.1 h
  refine trainOk_iff.2 ⟨fun expiry hTrain => ?_, fun expiry hTrain => ?_⟩
  · have hAfter : trainAfter s.stc.state new s.pst.train = .refire expiry := hTrain
    cases hOld : s.pst.train with
    | stopped => rw [hOld] at hAfter; cases hAfter
    | bypass e => rw [hOld, trainAfter] at hAfter; split at hAfter <;> cases hAfter
    | refire e =>
      obtain ⟨hState, hBlock⟩ := hRefire e hOld
      rw [hOld, trainAfter] at hAfter
      split at hAfter
      · cases hAfter
      · rename_i hStays
        exact ⟨Classical.not_not.1 fun hNew => hStays ⟨hState, hNew⟩, hBlock⟩
  · have hAfter : trainAfter s.stc.state new s.pst.train = .bypass expiry := hTrain
    cases hOld : s.pst.train with
    | stopped => rw [hOld] at hAfter; cases hAfter
    | refire e => rw [hOld, trainAfter] at hAfter; split at hAfter <;> cases hAfter
    | bypass e =>
      obtain ⟨hState, hBlock⟩ := hBypass e hOld
      rw [hOld, trainAfter] at hAfter
      split at hAfter
      · cases hAfter
      · rename_i hStays
        exact ⟨Classical.not_not.1 fun hNew => hStays ⟨hState, hNew⟩, hBlock⟩

theorem Move.trainOk (m : Move k s u) (hStrict : k ≠ .loose) (h : TrainOk s) : TrainOk u := by
  cases m with
  | line l x => cases l <;> exact h
  | state new => exact moved_trainOk h new
  | leave new => exact moved_trainOk h new
  | train x hx => exact hx
  | loose => exact absurd rfl hStrict
  | block => exact True.intro
  | release =>
    obtain ⟨hRefire, hBypass⟩ := trainOk_iff.1 h
    exact trainOk_iff.2 ⟨fun e he => ⟨(hRefire e he).1, rfl⟩, fun e he => ⟨(hBypass e he).1, rfl⟩⟩
  | setup => exact True.intro
  | restart => exact True.intro
  | _ => exact h

/-! ### Deferrals (R95, R105, R108) -/

/-- No move but a deferral makes one wait. -/
theorem Move.noDeferral (m : Move k s u) (hk : k ≠ .defer) (h : s.fic.deferral = none) :
    u.fic.deferral = none := by
  cases m with
  | line l x => cases l <;> exact h
  | defer => exact absurd rfl hk
  | undefer => rfl
  | setup => rfl
  | restart => rfl
  | _ => exact h

/-- The tags of moves that may end the conditions of a waiting deferral. -/
def Tag.unsettling : List Tag := [.arm, .defer, .leave, .block]

theorem Move.deferralOk (m : Move k s u) (hk : k ∉ Tag.unsettling) (h : DeferralOk s) : DeferralOk u := by
  cases m with
  | line l x => cases l <;> exact h
  | state new hOld hNew hFiring =>
    exact fun hSome => absurd (h hSome).2.1 hFiring.1
  | leave => exact absurd (by decide) hk
  | fic x _ hArmed =>
    intro hSome
    obtain ⟨hNone, hState⟩ := h hSome
    exact ⟨hArmed hSome hNone, hState⟩
  | arm => exact absurd (by decide) hk
  | defer => exact absurd (by decide) hk
  | undefer => exact nofun
  | block => exact absurd (by decide) hk
  | release => exact fun hSome => ⟨(h hSome).1, (h hSome).2.1, rfl⟩
  | setup => exact nofun
  | restart => exact nofun
  | _ => exact h

end

/-! ### Runs -/

section
variable {s u : State} {K : List Tag}

theorem Run.noDeferral (h : Run K s u) (hs : s.fic.deferral = none) (hK : ∀ k ∈ K, k ≠ .defer := by decide) :
    u.fic.deferral = none :=
  h.keeps (P := fun x => x.fic.deferral = none) (fun k hk _ _ m => m.noDeferral (hK k hk)) hs

theorem deferralOk_of_none (h : s.fic.deferral = none) : DeferralOk s := fun hSome => by
  rw [h] at hSome
  cases hSome

theorem Run.deferralOk (h : Run K s u) (hs : DeferralOk s)
    (hK : ∀ k ∈ K, k ∉ Tag.unsettling := by decide) : DeferralOk u :=
  h.keeps (fun k hk _ _ m => m.deferralOk (hK k hk)) hs

end
end Sys2Proof.Machine
end

