-- ==== Sys2Proof/Proofs/Steps.lean ====
section
/-! PROOFS. What every step keeps: the invariants of the line, the station, the level table, the alarm lines, the
valve, the orders and the survey. -/

namespace Sys2Proof.Machine

/-! ### Properties that every command keeps -/

/-- A property that time, the feeds and the queue do not touch, and that a power-on reset establishes. -/
structure Lasting (P : State → Prop) : Prop where
  time : ∀ s t, P s → P (s.advance t)
  feeds : ∀ s f, P s → P (s.setFeeds f)
  queue : ∀ s q, P s → P (s.setPending q)
  powerOn : ∀ p feeds clock choices pending, P (State.powerOn p feeds clock choices pending)

section
variable {P : State → Prop} {s u : State} {c : Instr}

theorem Lasting.power (hP : Lasting P) (hPower : isPower c = true) (h : exec c s = .next u) (hs : P s) : P u := by
  cases c with
  | powerOnReset t wires =>
    cases h
    exact hP.powerOn ..
  | supplyLoss t inputs =>
    have hLoss : execSupplyLoss t inputs s = .next u := h
    unfold execSupplyLoss at hLoss
    split at hLoss <;> cases hLoss
    · exact hP.powerOn ..
    · exact hP.feeds _ _ (hP.time _ _ hs)
  | _ => cases hPower

/-- A step keeps what every command keeps. -/
theorem Lasting.step (hP : Lasting P)
    (hExec : ∀ c x, isPower c = false → exec c x = .next u → P x → P u) (h : step s = .next u) (hs : P s) :
    P u := by
  unfold Machine.step at h
  split at h
  · cases h
    exact hs
  · rename_i c rest _
    cases hPower : isPower c with
    | true => exact hP.power hPower h (hP.queue _ _ hs)
    | false => exact hExec c _ hPower h (hP.queue _ _ hs)

/-- Every tag of a run. -/
def Tag.all : List Tag := [.loose, .defer, .setup] ++ Tag.every

theorem exec_run_all (hPower : isPower c = false) (h : exec c s = .next u) :
    Run Tag.all (s.advance (instantOf c)) u :=
  exec_run (by decide) (fun _ => by decide) hPower (fun _ _ => by decide) (fun _ => by decide) (fun _ _ => by decide) (.inl (by decide))
    (fun _ => .inl (by decide)) (fun _ => .inl (by decide)) h

/-- A property that every move keeps is kept by every step. -/
theorem Lasting.step_of_moves (hP : Lasting P) (hMove : ∀ k x y, Move k x y → P x → P y)
    (h : Machine.step s = .next u) (hs : P s) : P u :=
  hP.step (fun _ _ hPower hExec hx =>
    (exec_run_all hPower hExec).keeps (fun k _ y z => hMove k y z) (hP.time _ _ hx)) h hs

end

/-! ### The invariants last -/

theorem lasting_linesOk : Lasting LinesOk where
  time _ _ h := h
  feeds _ _ h := h
  queue _ _ h := h
  powerOn _ _ _ _ _ := by
    have hLine (clock : Nat) : (LineState.powerOn clock).Ok := by simp [LineState.Ok, LineState.powerOn]
    exact ⟨hLine _, hLine _, fun _ => ⟨rfl, rfl⟩⟩

theorem lasting_filterOk : Lasting FilterOk where
  time _ _ h := h
  feeds _ _ h := h
  queue _ _ h := h
  powerOn _ _ _ _ _ := List.Pairwise.nil

theorem lasting_setupOk : Lasting SetupOk where
  time _ _ h := h
  feeds _ _ h := h
  queue _ _ h := h
  powerOn _ _ _ _ _ := ⟨⟨fun _ => rfl, fun _ => rfl⟩, fun _ hc => (by cases hc), fun _ => rfl, rfl⟩

theorem lasting_runsOk : Lasting RunsOk where
  time _ _ h := h
  feeds _ _ h := h
  queue _ _ h := h
  powerOn _ _ _ _ _ := by simp [RunsOk, State.powerOn, Stc.powerOn]

theorem lasting_rollOk : Lasting RollOk where
  time _ _ h := h
  feeds _ _ h := h
  queue _ _ h := h
  powerOn p _ _ _ _ := by
    obtain ⟨hLength, hMissed⟩ := emptyRoll_ok (groupCount p.groupSize)
    refine ⟨hLength, hMissed, ?_⟩
    simp [State.powerOn, Prl.powerOn]

theorem lasting_arrivalOk : Lasting ArrivalOk where
  time _ _ h := h
  feeds _ _ h := h
  queue _ _ h := h
  powerOn _ _ _ _ _ := nofun

theorem lasting_levelsOk : Lasting LevelsOk where
  time _ _ h := h
  feeds _ _ h := h
  queue _ _ h := h
  powerOn _ _ _ _ _ := ⟨nofun, rfl, rfl⟩

theorem lasting_alarmsOk : Lasting AlarmsOk where
  time _ _ h := h
  feeds _ _ h := h
  queue _ _ h := h
  powerOn _ _ _ _ _ := ⟨fun n => by cases n <;> rfl, rfl, rfl, rfl, fun _ hc => (by cases hc)⟩

theorem lasting_valveOk : Lasting ValveOk where
  time _ _ h := h
  feeds _ _ h := h
  queue _ _ h := h
  powerOn _ _ _ _ _ := ⟨fun _ => ⟨rfl, rfl, rfl⟩, nofun, nofun, nofun, fun _ => rfl, fun _ => rfl,
    (by decide : 2000 ≤ 6000)⟩

theorem lasting_deferralOk : Lasting DeferralOk where
  time _ _ h := h
  feeds _ _ h := h
  queue _ _ h := h
  powerOn _ _ _ _ _ := nofun

theorem lasting_trainOk : Lasting TrainOk where
  time _ _ h := h
  feeds _ _ h := h
  queue _ _ h := h
  powerOn _ _ _ _ _ := True.intro

theorem ageAfter_le (held : Bool) {age : Nat} (h : age ≤ 16777215) (elapsed : Nat) :
    ageAfter held age elapsed ≤ 16777215 := by
  unfold ageAfter
  split
  · exact h
  · exact Nat.min_le_left ..

theorem lasting_orderOk : Lasting OrderOk where
  time _ _ h := by
    obtain ⟨hAge, hRest⟩ := h
    exact ⟨ageAfter_le _ hAge _, hRest⟩
  feeds _ _ h := h
  queue _ _ h := h
  powerOn _ _ _ _ _ := ⟨Nat.zero_le _, nofun, Nat.zero_le _, fun _ => rfl⟩

theorem lasting_surveyOk : Lasting SurveyOk where
  time _ _ h := h
  feeds _ _ h := h
  queue _ _ h := h
  powerOn _ _ _ _ _ := nofun

theorem Lasting.and {P Q : State → Prop} (hP : Lasting P) (hQ : Lasting Q) : Lasting fun s => P s ∧ Q s where
  time s t h := ⟨hP.time s t h.1, hQ.time s t h.2⟩
  feeds s f h := ⟨hP.feeds s f h.1, hQ.feeds s f h.2⟩
  queue s q h := ⟨hP.queue s q h.1, hQ.queue s q h.2⟩
  powerOn _ _ _ _ _ := ⟨hP.powerOn .., hQ.powerOn ..⟩

/-! ### Two effects in any order -/

/-- Two effects in any order: one before the other, with at most the count of a free choice beside. -/
theorem inAnyOrder_pair (f g : State → State) (s : State) :
    (inAnyOrder [f, g] s = g (f s) ∨ inAnyOrder [f, g] s = (g (f s)).countChoice)
      ∨ (inAnyOrder [f, g] s = f (g s) ∨ inAnyOrder [f, g] s = (f (g s)).countChoice) := by
  obtain ⟨o, ho, h⟩ := inAnyOrder_cases [f, g] s
  obtain rfl | rfl := perm_two ho
  · exact .inl h
  · exact .inr h

/-! ### Deferrals -/

section
variable {s u : State} {c : Instr} {K : List Tag}

/-- While a deferral waits, no mark is armed. -/
def Unarmed (s : State) : Prop := s.fic.deferral.isSome = true → s.fic.armed = none

theorem Move.unarmed {k : Tag} (m : Move k s u) (hArm : k ≠ .arm) (hDefer : k ≠ .defer) (h : Unarmed s) :
    Unarmed u := by
  cases m with
  | line l x => cases l <;> exact h
  | fic x _ hArmed => exact fun hSome => hArmed hSome (h hSome)
  | arm => exact absurd rfl hArm
  | defer => exact absurd rfl hDefer
  | undefer => exact nofun
  | setup => exact nofun
  | restart => exact nofun
  | _ => exact h

theorem Run.unarmed (h : Run K s u) (hs : Unarmed s) (hK : ∀ k ∈ K, k ≠ .arm ∧ k ≠ .defer := by decide) :
    Unarmed u :=
  h.keeps (P := Unarmed) (fun k hk _ _ m => m.unarmed (hK k hk).1 (hK k hk).2) hs

theorem DeferralOk.unarmed (h : DeferralOk s) : Unarmed s := fun hSome => (h hSome).1

/-- A deferral that goes on waiting after a change of state or of the block line waits where firing is
permitted. -/
theorem settleDeferral_ok (h : Unarmed s) : DeferralOk (settleDeferral s) := by
  unfold settleDeferral
  have hClear : (clearDeferral s).fic.deferral = none := rfl
  split
  · exact deferralOk_of_none ‹_›
  · rename_i mark hMark
    split
    · rename_i hFires
      exact deferralOk_of_none ((bypassMark_run (s := clearDeferral s) (List.Subset.refl _) hFires (.inr rfl)
        mark s.isForward).noDeferral hClear)
    · rename_i hFires
      split
      · exact deferralOk_of_none ((unfiredMark_run (s := clearDeferral s) (List.Subset.refl _) (.inr rfl)
          .no mark s.isForward).noDeferral hClear)
      · rename_i hPermitted
        exact fun hSome => ⟨h hSome, running_of_permitted (Bool.eq_false_iff.2 hFires) (by simpa using hPermitted)⟩

/-- The limit of a deferral leaves it as it stands, or ends it. -/
theorem judgeLimit_ok (h : DeferralOk s) : DeferralOk (judgeLimit s) := by
  unfold judgeLimit
  split
  · exact h
  · split
    · refine deferralOk_of_none ?_
      have hClear : (clearDeferral s).fic.deferral = none := rfl
      exact (forcedFiring_run (s := clearDeferral s) (List.Subset.refl _) _).noDeferral hClear
    · exact h

theorem settleProtective_ok : DeferralOk (settleProtective s) := by
  unfold settleProtective
  have hClear : (clearDeferral s).fic.deferral = none := rfl
  split
  · exact deferralOk_of_none ‹_›
  · exact deferralOk_of_none ((unfiredMark_run (s := clearDeferral s) (List.Subset.refl _) (.inr rfl)
      .protective _ false).noDeferral hClear)

theorem adopt_unarmed (h : Unarmed s) : Unarmed (adopt s) :=
  (adopt_run (List.Subset.refl _)).unarmed h

theorem enterForward_ok (h : Unarmed s) : DeferralOk (enterForward s) := by
  rw [enterForward_eq]
  exact settleDeferral_ok (adopt_unarmed ((forwardStarted_run (List.Subset.refl _)).unarmed h))

theorem reverseStarted_calm : Run Tag.calm s (reverseStarted s) :=
  reverseStarted_run (by decide) (by decide) (by decide) (by decide)

theorem enterReverse_ok (h : DeferralOk s) : DeferralOk (enterReverse s) := by
  have hStarted : DeferralOk (reverseStarted s) := reverseStarted_calm.deferralOk h
  rw [enterReverse_eq]
  split
  · exact judgeLimit_ok hStarted
  · exact hStarted

theorem enterDark_ok (h : DeferralOk s) : DeferralOk (enterDark s) := by
  have hRun : Run Tag.calm s (darkStarted s) := darkStarted_run (by decide) (by decide) (by decide)
  rw [enterDark_eq]
  exact judgeLimit_ok (hRun.deferralOk h)

theorem joinForward_ok (h : DeferralOk s) (n : Nat) : DeferralOk (joinForward n s) := by
  have hSet : DeferralOk (s.setVcm (s.vcm.withForward n s.clock)) := h
  show DeferralOk (testForward (s.setVcm (s.vcm.withForward n s.clock)))
  unfold testForward
  split
  · exact hSet
  · split
    · exact enterForward_ok hSet.unarmed
    · exact enterForward_ok hSet.unarmed
    · exact enterForward_ok hSet.unarmed
    · exact hSet

theorem joinReverse_ok (h : DeferralOk s) (n : Nat) : DeferralOk (joinReverse n s) := by
  have hSet : DeferralOk (s.setVcm { s.vcm with
    revSet := insertLevel n s.vcm.revSet, inactivity := some s.clock }) := h
  unfold joinReverse testReverse
  split
  · exact hSet
  · split
    · split
      · exact hSet
      · exact enterReverse_ok hSet
    · exact enterReverse_ok hSet
    · rename_i hValve
      exact (enterRecovering_run (K := Tag.calm) (by decide) (by decide) (hValve.symm ▸ nofun)).deferralOk hSet
    · exact hSet

theorem pstPrf_ok (h : DeferralOk s) (n : Nat) : DeferralOk (pstPrf n s) := by
  unfold pstPrf
  split
  · exact h
  · show DeferralOk (if _ then settleProtective _ else _)
    split
    · exact settleProtective_ok
    · exact h

/-- With the block line asserted a deferral ends, whether STC or the deferral comes first. -/
theorem assertBlock_ok : DeferralOk (assertBlock s) := by
  have hStc (x : State) (hx : x.blockAsserted = true) :
      (stcBlockAsserted x).blockAsserted = true
        ∧ (x.fic.deferral = none → (stcBlockAsserted x).fic.deferral = none) := by
    have hRun : Run (.leave :: Tag.station) x (stcBlockAsserted x) := stcBlockAsserted_run (by decide) (by decide)
    exact ⟨hRun.blockAsserted.trans hx, fun h => hRun.noDeferral h⟩
  have hSettle (x : State) (hx : x.blockAsserted = true) :
      (settleDeferral x).blockAsserted = true ∧ (settleDeferral x).fic.deferral = none := by
    have hRun : Run Tag.firing x (settleDeferral x) := settleDeferral_run (List.Subset.refl _)
    refine ⟨hRun.blockAsserted.trans hx, ?_⟩
    unfold settleDeferral
    have hClear : (clearDeferral x).fic.deferral = none := rfl
    split
    · assumption
    · rename_i mark _
      rw [if_neg (by simp [State.bypassFires, hx]), if_pos (by simp [State.firingPermitted, hx])]
      exact (unfiredMark_run (s := clearDeferral x) (List.Subset.refl _) (.inr rfl) .no mark x.isForward).noDeferral
        hClear
  have hBlocked : (stopTrains (s.setBlock true)).blockAsserted = true := rfl
  generalize hx : stopTrains (s.setBlock true) = x at hBlocked
  refine deferralOk_of_none ?_
  show (if (stopTrains (s.setBlock true)).fic.deferral.isNone then _ else _ : State).fic.deferral = none
  rw [hx]
  split
  · rename_i hNone
    exact (hStc x hBlocked).2 (Option.isNone_iff_eq_none.1 hNone)
  · obtain hFirst | hFirst := inAnyOrder_pair stcBlockAsserted settleDeferral x
    · have hEnd := (hSettle _ (hStc x hBlocked).1).2
      obtain h | h := hFirst <;> rw [h]
      · exact hEnd
      · exact hEnd
    · obtain ⟨hBlock, hNone⟩ := hSettle x hBlocked
      have hEnd := (hStc _ hBlock).2 hNone
      obtain h | h := hFirst <;> rw [h]
      · exact hEnd
      · exact hEnd

theorem deferral_of_armed {mark : ArmedMark} (h : DeferralOk s) (hArmed : s.fic.armed = some mark) :
    s.fic.deferral = none := by
  cases hSome : s.fic.deferral with
  | none => rfl
  | some d => cases hArmed.symm.trans (h (by rw [hSome]; rfl)).1

/-- A mark event defers the mark in RUNNING with the block line released and nothing armed, or leaves no
deferral; a mark that waits has nothing armed. -/
theorem markNow_ok (h : DeferralOk s) : DeferralOk (markNow s) := by
  unfold markNow
  split
  · exact h
  · rename_i mark hMark
    have hNone := deferral_of_armed h hMark
    obtain ⟨hDeferred, hState, hBlock⟩ | hRun :=
      decideMark_cases (s := disarm s) (List.Subset.refl Tag.firing) (.inr hNone) mark
    · rw [hDeferred]
      exact fun _ => ⟨rfl, hState, hBlock⟩
    · exact deferralOk_of_none (hRun.noDeferral hNone)

theorem bypassFiring_calm (h : s.bypassFires = true) : Run Tag.calm s (bypassFiring s) := by
  obtain ⟨hState, -, hBlock⟩ := bypassFires_iff.1 h
  exact bypassFiring_run (by decide) (by decide) hState hBlock

theorem dueEvent_keeps {P : State → Prop} {t : Instant} {due : State → Bool} {effect : State → State}
    (h : dueEvent t s due effect = .next u) (hs : P (s.advance t))
    (he : ∀ x, due x = true → P x → P (effect x)) : P u := by
  refine act_keeps hs (fun hx => unlessHeld_keeps (fun hx => ?_) hx) h
  split
  · exact he _ ‹_› hx
  · exact hx

theorem indication_keeps {P : State → Prop} {t : Instant} {n : Nat} {effect : State → State}
    (h : indication t n s effect = .next u) (hs : P (s.advance t)) (he : ∀ x, P x → P (effect x)) : P u := by
  refine act_keeps hs (fun hx => unlessHeld_keeps (fun hx => ?_) hx) h
  split
  · exact he _ hx
  · exact hx

theorem enterListening_deferral (s : State) : (enterListening s).fic.deferral = s.fic.deferral := by
  have h := enterListening_offStation s
  simp only [State.offStation, Prod.mk.injEq, Fic.mk.injEq] at h
  exact h.2.2.2.2.2.2.2.2.2.1.2.2.1

theorem restart_ok {t : Instant} {rx : RxCopy} {head : CmdHead} (h : exec (.restart t rx head) s = .next u)
    (hs : DeferralOk s) : DeferralOk u := by
  refine act_keeps (P := DeferralOk) hs (fun hx => ?_) h
  obtain ⟨x, hRun, hEnd | hEnd | ⟨hEnd, -⟩⟩ := receiveCopy_outcome (s := s.advance t) rx true
    fun x => if x.addressed head then judgeCommand head codeRestart permitSet noArgument
      (fun x => softReset (doneWith head codeRestart [] x)) x else x
  all_goals
    have hx : DeferralOk x := hRun.deferralOk hx
    show DeferralOk (receiveCopy rx true _ _)
    rw [hEnd]
  · exact hx
  · exact (stcClash_run (List.Subset.refl _)).deferralOk hx
  · split
    · obtain hCarried | ⟨detail, hRefused⟩ := judgeCommand_cases head codeRestart permitSet noArgument
        (fun x => softReset (doneWith head codeRestart [] x)) x
      · rw [hCarried]
        exact deferralOk_of_none (enterListening_deferral _)
      · rw [hRefused]
        exact (refuseWith_run (K := Tag.calm) (by decide) (by decide) ..).deferralOk hx
    · exact hx

/-- At lo a deferral ends. -/
theorem deferralLoNow_ok (h : DeferralOk s) : DeferralOk (deferralLoNow s) := by
  unfold deferralLoNow
  split
  · exact h
  · rename_i mark _
    have hPulse : (mainPulse .deferred (clearDeferral s)).fic.deferral = none := mainPulse_deferral ..
    exact deferralOk_of_none ((takeMark_run (List.Subset.refl _) (.inr hPulse) .deferred mark true).noDeferral hPulse)

/-- An end-stop comes from an armed mark, beside which no deferral waits. -/
theorem endStopNow_ok (h : DeferralOk s) (hState : s.stc.state = .running) (hBlock : s.blockAsserted = false) :
    DeferralOk (endStopNow s) := by
  cases hArmed : s.fic.armed with
  | none =>
    rw [show endStopNow s = s by unfold endStopNow; rw [hArmed]]
    exact h
  | some mark =>
    have hNone := deferral_of_armed h hArmed
    exact deferralOk_of_none ((endStopNow_run (List.Subset.refl _) (.inr hNone) hState hBlock).noDeferral hNone)

/-- What a command that may unsettle a deferral leaves of it. -/
theorem unsettling_ok (hUnsettles : unsettles c = true) (h : exec c s = .next u)
    (hs : DeferralOk s) : DeferralOk u := by
  have hTouch (f : LevelRecord → LevelRecord) (n : Nat) (x : State) (hx : DeferralOk x) :
      DeferralOk (touchLevel f n x) := hx
  cases c with
  | blockLineAsserted t held =>
    refine act_keeps (P := DeferralOk) hs (fun hx => ?_) h
    split
    · exact assertBlock_ok
    · exact hx
  | restart t rx head => exact restart_ok h hs
  | fwdIndication t level =>
    refine indication_keeps (P := DeferralOk) h hs fun x hx => ?_
    split
    · exact hTouch _ _ _ hx
    · exact joinForward_ok hx level
  | revIndication t level =>
    refine indication_keeps (P := DeferralOk) h hs fun x hx => ?_
    split
    · exact hTouch _ _ _ hx
    · exact joinReverse_ok hx level
  | prfIndication t level =>
    refine indication_keeps (P := DeferralOk) h hs fun x hx => ?_
    have hPrf : DeferralOk (pmnPrf level (touchLevel LevelRecord.takePrf level x)) := hx
    exact pstPrf_ok hPrf level
  | inactivityExpiry t => exact dueEvent_keeps (P := DeferralOk) h hs fun x _ hx => enterDark_ok hx
  | markEvent t => exact dueEvent_keeps (P := DeferralOk) h hs fun x _ hx => markNow_ok hx
  | endStop t =>
    refine dueEvent_keeps (P := DeferralOk) h hs fun x hDue hx => ?_
    obtain ⟨hState, hBlock⟩ := endStopDue_running hDue
    exact endStopNow_ok hx hState hBlock
  | deferralLoReached t =>
    exact dueEvent_keeps (P := DeferralOk) h hs fun x _ hx => deferralLoNow_ok hx
  | deferralLimit t =>
    have h : execDeferralLimit t s = .next u := h
    exact act_keeps (P := DeferralOk) hs (fun hx => unlessHeld_keeps (fun hx => judgeLimit_ok hx) hx) h
  | darkTimerExpiry t =>
    refine dueEvent_keeps (P := DeferralOk) h hs fun x hDue hx => ?_
    simp only [darkTimerDue, Bool.and_eq_true, decide_eq_true_eq] at hDue
    exact (enterListening_run (K := Tag.station) (by decide) (hDue.2 ▸ nofun)
      (.inr ⟨hDue.2 ▸ nofun, hDue.2 ▸ nofun⟩)).deferralOk hx
  | _ => cases hUnsettles

/-- Every command keeps the conditions of a waiting deferral. -/
theorem exec_deferralOk (hPower : isPower c = false) (h : exec c s = .next u) (hs : DeferralOk s) :
    DeferralOk u := by
  cases hUnsettles : unsettles c with
  | true => exact unsettling_ok hUnsettles h hs
  | false =>
    have hNever : unsettles c = true → False := fun hC => Bool.false_ne_true (hUnsettles.symm.trans hC)
    refine (exec_run (K := .setup :: Tag.calm) (by decide) (fun _ => by decide) hPower (fun _ _ => by decide)
      (fun hC => (hNever hC).elim) (fun hC => (hNever hC).elim) (.inl (by decide))
      (fun _ => .inr fun t ht => hNever (ht ▸ rfl)) (fun _ => .inr hs) h).deferralOk ?_
    exact lasting_deferralOk.time _ _ hs

end

/-! ### The invariants of every step -/

/-- The position of a station outside UNSET is one of its group: STRAP ERROR is clear there (R1, R2). -/
theorem SetupOk.position {s : State} (h : SetupOk s) (hState : s.stc.state ≠ .unset) :
    1 ≤ s.position ∧ s.position ≤ s.group := by
  obtain ⟨-, -, hStrap, hCheck⟩ := h
  have hClear : strapErrorOf s.stc.straps = false := by
    rw [← hCheck]
    exact Bool.eq_false_iff.2 fun hError => hState (hStrap hError)
  simp only [strapErrorOf, Bool.or_eq_false_iff, beq_eq_false_iff_ne, decide_eq_false_iff_not, Nat.not_lt] at hClear
  obtain ⟨⟨hZero, -⟩, hGroup⟩ := hClear
  exact ⟨Nat.one_le_iff_ne_zero.2 hZero, hGroup⟩

/-- Outside UNSET a station writes positions of its group alone, and in UNSET it writes none. -/
theorem exec_arrivalOk {s u : State} {c : Instr} (hPower : isPower c = false) (h : exec c s = .next u)
    (hSetup : SetupOk s) (hDeferral : DeferralOk s) (hs : ArrivalOk s) : ArrivalOk u := by
  by_cases hUnset : s.stc.state = .unset
  · have hNone : s.fic.deferral = none := by
      cases hSome : s.fic.deferral with
      | none => rfl
      | some d => cases hUnset.symm.trans (hDeferral (by rw [hSome]; rfl)).2.1
    have hRun := exec_run (K := [.block, .setup] ++ Tag.held) (by decide) (fun hState => absurd hUnset hState)
      hPower (fun _ hState => absurd hUnset hState) (fun _ => by decide) (fun _ hOr => absurd hOr (by simp [hUnset, hNone])) (.inl (by decide))
      (fun hState => absurd hUnset hState) (fun hState => absurd hUnset hState) h
    refine hRun.keeps (P := ArrivalOk) (fun k hk _ _ m => m.arrivalOk fun hPrl => ?_)
      (lasting_arrivalOk.time _ _ hs)
    subst hPrl
    exact absurd hk (by decide)
  · obtain ⟨hLow, hHigh⟩ := hSetup.position hUnset
    refine ((exec_run_all hPower h).keeps (P := fun x => (x.position = s.position ∧ x.group = s.group) ∧ ArrivalOk x)
      (fun k _ x y m ⟨⟨hPosition, hGroup⟩, hx⟩ => ?_) ⟨⟨rfl, rfl⟩, lasting_arrivalOk.time _ _ hs⟩).2
    have hRun : Run [k] x y := m.run (by simp)
    exact ⟨⟨hRun.position.trans hPosition, hRun.group.trans hGroup⟩, m.arrivalOk (fun _ => by
      rw [hPosition, hGroup]
      exact ⟨hLow, hHigh⟩) hx⟩

theorem Move.setup_alarms {s u : State} {k : Tag} (m : Move k s u) (h : SetupOk s ∧ AlarmsOk s) :
    SetupOk u ∧ AlarmsOk u := ⟨m.setupOk h.1, m.alarmsOk h.1 h.2⟩

theorem Move.setup_orders {s u : State} {k : Tag} (m : Move k s u) (h : SetupOk s ∧ OrderOk s) :
    SetupOk u ∧ OrderOk u := ⟨m.setupOk h.1, m.orderOk h.1 h.2⟩

/-- Settles O55: each move keeps each of the invariants. -/
theorem stepKeepsLineAndStation : Obligations.StepKeepsLineAndStation := by
  intro s u h
  refine ⟨lasting_linesOk.step_of_moves (fun _ _ _ m => m.linesOk) h,
    lasting_filterOk.step_of_moves (fun _ _ _ m => m.filterOk) h,
    lasting_setupOk.step_of_moves (fun _ _ _ m => m.setupOk) h,
    lasting_runsOk.step_of_moves (fun _ _ _ m => m.runsOk) h,
    lasting_rollOk.step_of_moves (fun _ _ _ m => m.rollOk) h, fun hSetup _ hDeferral hArrival => ?_⟩
  exact (((lasting_setupOk.and lasting_deferralOk).and lasting_arrivalOk).step
    (fun c x hPower hExec ⟨⟨hSetup, hDeferral⟩, hArrival⟩ =>
      ⟨⟨(exec_run_all hPower hExec).keeps (fun _ _ _ _ m => m.setupOk) (lasting_setupOk.time _ _ hSetup),
        exec_deferralOk hPower hExec hDeferral⟩, exec_arrivalOk hPower hExec hSetup hDeferral hArrival⟩)
    h ⟨⟨hSetup, hDeferral⟩, hArrival⟩).2

/-- Settles O56: the level table by its own moves, the alarm lines with the SETUP record that gives their
delays. -/
theorem stepKeepsLevelsAndAlarms : Obligations.StepKeepsLevelsAndAlarms := fun _ _ hSetup hLevels h =>
  ⟨lasting_levelsOk.step_of_moves (fun _ _ _ m => m.levelsOk) h hLevels, fun hAlarms =>
    ((lasting_setupOk.and lasting_alarmsOk).step_of_moves (fun _ _ _ m => m.setup_alarms) h
      ⟨hSetup, hAlarms⟩).2⟩

/-- Settles O57: a waiting deferral command by command, and the others move by move; a train runs in its state
where a deferral waits in RUNNING. -/
theorem stepKeepsFiring : Obligations.StepKeepsFiring := by
  intro s u h
  refine ⟨lasting_valveOk.step_of_moves (fun _ _ _ m => m.valveOk) h,
    lasting_deferralOk.step (fun _ _ => exec_deferralOk) h, fun hDeferral hTrain => ?_, fun hSetup hOrder => ?_,
    lasting_surveyOk.step_of_moves (fun _ _ _ m => m.surveyOk) h⟩
  · refine ((lasting_deferralOk.and lasting_trainOk).step (fun c x hPower hExec ⟨hx, hOk⟩ =>
      ⟨exec_deferralOk hPower hExec hx, ?_⟩) h ⟨hDeferral, hTrain⟩).2
    have hRun := exec_run (K := .defer :: .setup :: Tag.every) (by decide) (fun _ => by decide) hPower (fun _ _ => by decide)
      (fun _ => by decide) (fun _ _ => by decide) (.inl (by decide)) (fun _ => .inl (by decide))
      (fun _ => .inr hx) hExec
    exact hRun.keeps (fun k hk _ _ m => m.trainOk fun hLoose => by
      subst hLoose
      exact absurd hk (by decide)) (lasting_trainOk.time _ _ hOk)
  · exact ((lasting_setupOk.and lasting_orderOk).step_of_moves (fun _ _ _ m => m.setup_orders) h
      ⟨hSetup, hOrder⟩).2

/-- Settles O54: the power-on values meet the invariants, and T_est is one of the nominal periods. -/
theorem resetMeetsInvariants : Obligations.ResetMeetsInvariants :=
  ⟨⟨by decide, by decide⟩, lasting_linesOk.powerOn _ _ _ _ _, lasting_filterOk.powerOn _ _ _ _ _, lasting_setupOk.powerOn _ _ _ _ _,
    lasting_runsOk.powerOn _ _ _ _ _, lasting_rollOk.powerOn _ _ _ _ _, lasting_arrivalOk.powerOn _ _ _ _ _, lasting_levelsOk.powerOn _ _ _ _ _,
    lasting_valveOk.powerOn _ _ _ _ _, lasting_deferralOk.powerOn _ _ _ _ _, lasting_trainOk.powerOn _ _ _ _ _, lasting_orderOk.powerOn _ _ _ _ _,
    lasting_alarmsOk.powerOn _ _ _ _ _, lasting_surveyOk.powerOn _ _ _ _ _⟩

end Sys2Proof.Machine
end

