-- ==== Sys2Proof/Proofs/Completion.lean ====
section
/-! PROOFS. Every command completes, the straps and the SETUP record are held, and in UNSET the blocks that depend
on the SETUP record stand as they are. -/

namespace Sys2Proof.Machine

section
variable {s u : State} {c : Instr}

/-! ### Completion -/

theorem exec_next (hPower : isPower c = false) (s : State) : ∃ u, exec c s = .next u := by
  cases c <;> first | exact ⟨_, rfl⟩ | cases hPower

theorem advance_clock_bounds (s : State) (t : Instant) :
    s.clock ≤ (s.advance t).clock ∧ (s.advance t).clock < s.clock + 4294967296 :=
  ⟨Nat.le_add_right .., Nat.add_lt_add_left (State.ticksUntil_lt ..) _⟩

/-- Settles O2: outside the power commands the queue and the clock are those of the instant, since no move
changes them. -/
theorem everyCommandCompletes : Obligations.EveryCommandCompletes := by
  intro c s
  cases hPower : isPower c with
  | false =>
    obtain ⟨u, h⟩ := exec_next hPower s
    have hRun := exec_run_all hPower h
    refine ⟨u, h, hRun.pending, hRun.now.trans (State.advance_now ..), ?_⟩
    rw [hRun.clock]
    exact advance_clock_bounds ..
  | true =>
    cases c with
    | powerOnReset t wires => exact ⟨_, rfl, rfl, State.advance_now .., advance_clock_bounds ..⟩
    | supplyLoss t inputs =>
      show ∃ u, execSupplyLoss t inputs s = .next u ∧ _
      unfold execSupplyLoss
      split <;> exact ⟨_, rfl, rfl, State.advance_now .., advance_clock_bounds ..⟩
    | _ => cases hPower

/-! ### The SETUP record -/

theorem Move.setupHeld {k : Tag} (m : Move k s u) (h : s.stc.state ≠ .unset) :
    u.stc.setup = s.stc.setup ∧ u.stc.state ≠ .unset := by
  cases m with
  | line l x => cases l <;> exact ⟨rfl, h⟩
  | state new _ hNew => exact ⟨rfl, hNew⟩
  | leave new hNew => exact ⟨rfl, hNew⟩
  | setup c hState => exact absurd hState h
  | _ => exact ⟨rfl, h⟩

/-- Settles O4: no move samples the straps, and outside UNSET none changes the SETUP record or enters UNSET. -/
theorem strapsAndSetupHeld : Obligations.StrapsAndSetupHeld := by
  intro c s u hPower h
  have hRun := exec_run_all hPower h
  refine ⟨hRun.straps, hRun.strapError, fun hState => ?_⟩
  exact hRun.keeps (P := fun x => x.stc.setup = s.stc.setup ∧ x.stc.state ≠ .unset)
    (fun _ _ x y m ⟨hSetup, hx⟩ => ⟨(m.setupHeld hx).1.trans hSetup, (m.setupHeld hx).2⟩) ⟨rfl, hState⟩

/-! ### UNSET -/

/-- Nothing but an adopted SETUP leaves UNSET. -/
theorem Move.staysUnset {k : Tag} (m : Move k s u) (hk : k ≠ .setup) (h : s.stc.state = .unset) :
    u.stc.state = .unset := by
  cases m with
  | line l x => cases l <;> exact h
  | state new hOld => exact absurd h hOld
  | leave new _ hFiring => rw [h] at hFiring; simp at hFiring
  | setup => exact absurd rfl hk
  | _ => exact h

/-- A SETUP in UNSET is adopted, or touches the lines, the filter and STC's counts alone. -/
theorem exec_setup_cases {t : Instant} {rx : RxCopy} {head : CmdHead} {f : SetupFields}
    (hUnset : s.stc.state = .unset) (h : exec (.setup t rx head f) s = .next u) :
    Run Tag.held (s.advance t) u
      ∨ (s.stc.strapError = false ∧ firstBadField f = none ∧ u.stc.state = .listening
        ∧ u.stc.setup = some (setupOf f)) := by
  have hAct : act t s (receiveCommand rx head
    (judgeCommand head codeSetup permitUnset noArgument (takeSetup head f))) = .next u := h
  obtain ⟨v, hv, hEffect | hSame⟩ := act_next t s (receiveCommand rx head
    (judgeCommand head codeSetup permitUnset noArgument (takeSetup head f)))
  all_goals
    obtain rfl : v = u := by rw [hv] at hAct; cases hAct; rfl
  · obtain ⟨x, hx, hEnd | hEnd | ⟨hEnd, -⟩⟩ := receiveCopy_outcome (s := s.advance t) rx true
      fun x => if x.addressed head then judgeCommand head codeSetup permitUnset noArgument (takeSetup head f) x else x
    all_goals rw [show v = _ from hEffect.trans hEnd]
    · exact .inl hx.mono
    · exact .inl (hx.mono.trans (stcClash_unset_run (hx.stc ▸ hUnset) (by decide)))
    · have hRefuse (code : Byte) (detail : Detail) (data : List Byte) :
          Run Tag.held (s.advance t) (refuseWith head code detail data x) :=
        hx.mono.trans (refuseWith_run (by decide) (by decide) ..)
      split
      · unfold judgeCommand
        split
        · exact .inl (hRefuse ..)
        · rename_i hStrap
          split
          · exact .inl (hRefuse ..)
          · split
            · exact .inl (hRefuse ..)
            · split
              · exact .inl (hRefuse ..)
              · unfold takeSetup
                split
                · exact .inl (hRefuse ..)
                · refine .inr ⟨?_, ‹_›, ?_⟩
                  · rw [hx.stc] at hStrap
                    exact Bool.eq_false_iff.2 hStrap
                  · rw [adoptSetup_eq _ _ (hx.stc ▸ hUnset)]
                    exact ⟨rfl, rfl⟩
      · exact .inl hx.mono
  · rw [hSame]
    exact .inl .refl

/-- A command that leaves UNSET as it is changes no held block; the block line finds the trains stopped. -/
theorem unset_frame (h : Run (.block :: Tag.held) s u)
    (hTrain : s.pst.train = .stopped) :
    u.prl = s.prl ∧ u.vcm = s.vcm ∧ u.lvt = s.lvt ∧ u.pst = s.pst ∧ u.orh = s.orh ∧ u.pmn = s.pmn
      ∧ u.fic = { s.fic with seqCounter := u.fic.seqCounter } := by
  have hPst : u.pst = s.pst := by
    refine h.keeps (P := fun x => x.pst = s.pst) (fun k hk x y m hx => ?_) rfl
    cases m with
    | line l x => cases l <;> exact hx
    | block =>
      show { x.pst with train := Train.stopped } = s.pst
      rw [hx, ← hTrain]
    | _ => first | exact hx | exact absurd hk (by decide)
  have hFic : { u.fic with seqCounter := 0 } = { s.fic with seqCounter := 0 } :=
    h.frame (fun x => { x.fic with seqCounter := 0 }) fun k hk _ _ m => by
      cases m with
      | line l x => cases l <;> rfl
      | _ => first | rfl | exact absurd hk (by decide)
  refine ⟨h.prl, h.vcm, h.lvt, hPst, h.orh, h.pmn, ?_⟩
  exact congrArg (fun x : Fic => { x with seqCounter := u.fic.seqCounter }) hFic

/-- Settles O5: in UNSET the moves of every command but SETUP leave the station there, and with no deferral waiting
they touch no held block. -/
theorem unsetHoldsTheBlocks : Obligations.UnsetHoldsTheBlocks := by
  intro c s u hUnset h
  have hOrh (t : Instant) : (s.advance t).orh = s.orh := by
    rw [State.advance_orh]
    simp [ageAfter, State.heldBlocks, hUnset]
  have hFrame {t : Instant} (hRun : Run (.block :: Tag.held) (s.advance t) u) (hTrain : s.pst.train = .stopped) :
      u.prl = s.prl ∧ u.vcm = s.vcm ∧ u.lvt = s.lvt ∧ u.pst = s.pst ∧ u.orh = s.orh ∧ u.pmn = s.pmn
        ∧ u.fic = { s.fic with seqCounter := u.fic.seqCounter } ∧ u.firing = [] := by
    obtain ⟨hPrl, hVcm, hLvt, hPst, hOrhRun, hPmn, hFic⟩ := unset_frame hRun hTrain
    exact ⟨hPrl, hVcm, hLvt, hPst, hOrhRun.trans (hOrh t), hPmn, hFic, hRun.firing⟩
  by_cases hSetup : ∃ t rx head fields, c = .setup t rx head fields
  · obtain ⟨t, rx, head, fields, rfl⟩ := hSetup
    obtain hRun | ⟨hStrap, hRange, hState, hRecord⟩ := exec_setup_cases hUnset h
    · have hStays : u.stc.state = .unset :=
        hRun.keeps (P := fun x => x.stc.state = .unset) (fun k hk _ _ m => m.staysUnset fun hk' => by
          subst hk'
          exact absurd hk (by decide)) hUnset
      exact ⟨fun hLeft => absurd hStays hLeft, fun _ hTrain _ _ => hFrame hRun.mono hTrain⟩
    · exact ⟨fun _ => ⟨t, rx, head, fields, rfl, hRange, hStrap, hRecord, hState⟩,
        fun _ _ _ hUnset' => by cases hUnset'.symm.trans hState⟩
  · simp only [not_exists] at hSetup
    refine ⟨fun hLeft => ?_, fun hPower hTrain hNone _ => ?_⟩
    · exfalso
      cases hPower : isPower c with
      | true =>
        refine hLeft ?_
        cases c with
        | powerOnReset t wires => cases h; rfl
        | supplyLoss t inputs =>
          have hLoss : execSupplyLoss t inputs s = .next u := h
          unfold execSupplyLoss at hLoss
          split at hLoss <;> cases hLoss
          · rfl
          · exact hUnset
        | _ => cases hPower
      | false =>
        refine hLeft ((exec_run (K := [.loose, .defer] ++ Tag.every) (by decide) (fun _ => by decide) hPower
          (fun _ _ => by decide) (fun _ => by decide) (fun _ _ => by decide) (.inr hSetup) (fun _ => .inl (by decide)) (fun _ => .inl (by decide)) h).keeps
          (P := fun x => x.stc.state = .unset) (fun k hk _ _ m => m.staysUnset fun hk' => ?_) hUnset)
        subst hk'
        exact absurd hk (by decide)
    · refine hFrame (exec_run (K := .block :: Tag.held) (by decide) (fun hState => absurd hUnset hState) hPower
        (fun _ hState => absurd hUnset hState) (fun _ => by decide) (fun _ hOr => ?_) (.inr hSetup) (fun hState => absurd hUnset hState)
        (fun hState => absurd hUnset hState) h) hTrain
      exact absurd hOr (by simp [hUnset, hNone])

end
end Sys2Proof.Machine
end

