-- ==== Sys2Proof/Proofs/LineEvents.lean ====
section
/-! PROOFS. The group line's own events: what the queue, the transmission, the LIT measurement and the line's timers
do, and what copies do that are accepted or stop at the line. -/

namespace Sys2Proof.Machine

section
variable {s : State} {t : Instant} {line : Line}

/-- An event of one line, on a station with supply. -/
theorem act_changeLine (h : s.supplied = true) (f : State → LineState → LineState) :
    act t s (fun x => changeLine line (f x) x)
      = .next ((s.advance t).setLine line (f (s.advance t) (s.line line))) := by
  rw [act_supplied h, changeLine, State.advance_line]

/-- An event of one line that leaves the line as it is. -/
theorem act_changeLine_same (h : s.supplied = true) {f : State → LineState → LineState}
    (hSame : f (s.advance t) (s.line line) = s.line line) :
    act t s (fun x => changeLine line (f x) x) = .next (s.advance t) := by
  have hLine := setLine_line_same (s.advance t) line
  rw [State.advance_line] at hLine
  rw [act_changeLine h, hSame, hLine]

/-! ### Transmit queues (R23, R25) -/

theorem tooOld_iff (clock : Nat) (c : TxCopy) :
    c.tooOld clock = true ↔ c.hasLag = true ∧ 4096 ≤ c.age clock := by
  simp [TxCopy.tooOld]

theorem young_iff (clock : Nat) (c : TxCopy) :
    c.tooOld clock = false ↔ c.hasLag = false ∨ c.age clock < 4096 := by
  unfold TxCopy.tooOld
  rw [Bool.and_eq_false_iff, decide_eq_false_iff_not, Nat.not_le]

theorem withoutOldestResult_none {queue : List TxCopy} (h : ∀ x ∈ queue, x.hasLag = true) :
    withoutOldestResult queue = none := by
  induction queue with
  | nil => rfl
  | cons x rest ih =>
    have hHead : x.isResult = false := by simp [TxCopy.isResult, h x List.mem_cons_self]
    rw [withoutOldestResult, hHead, ih fun y hy => h y (List.mem_cons_of_mem _ hy)]
    rfl

/-- The oldest RESULT leaves the queue; the copies before and behind it keep their order. -/
theorem withoutOldestResult_some {before behind : List TxCopy} {r : TxCopy}
    (hBefore : ∀ x ∈ before, x.hasLag = true) (hResult : r.hasLag = false) :
    withoutOldestResult (before ++ r :: behind) = some (before ++ behind) := by
  induction before with
  | nil => simp [withoutOldestResult, TxCopy.isResult, hResult]
  | cons x rest ih =>
    have hHead : x.isResult = false := by simp [TxCopy.isResult, hBefore x List.mem_cons_self]
    rw [List.cons_append, withoutOldestResult, hHead, ih fun y hy => hBefore y (List.mem_cons_of_mem _ hy)]
    rfl

/-- The head judged under the lag limit, in the words of R25. -/
theorem LineState.judgeHead_gone (clock : Nat) (l : LineState) :
    ∃ gone kept, l.queue = gone ++ kept ∧ (∀ x ∈ gone, x.hasLag = true ∧ 4096 ≤ x.age clock)
      ∧ (∀ x ∈ kept.head?, x.hasLag = false ∨ x.age clock < 4096)
      ∧ l.judgeHead clock = { l with queue := kept, dropCount := min 65535 (l.dropCount + gone.length) } := by
  obtain ⟨gone, kept, hQueue, hGone, hKept, hJudged⟩ := l.judgeHead_spec clock
  exact ⟨gone, kept, hQueue, fun x hx => (tooOld_iff ..).1 (hGone x hx), fun x hx => (young_iff ..).1 (hKept x hx),
    hJudged⟩

/-- Settles O15, by the four rows of R23. -/
theorem enqueueRule : Obligations.EnqueueRule := by
  intro clock c l
  refine ⟨fun hLit => if_pos hLit, fun hLit hRoom => ?_, fun hLit hFull hNone => ?_,
    fun before behind r hLit hFull hLag hQueue hResult hBefore => ?_⟩
  · exact (if_neg (by simp [hLit])).trans (if_pos hRoom)
  · refine ((if_neg (by simp [hLit])).trans (if_neg (Nat.not_lt.2 hFull))).trans ?_
    obtain hResult | hQueue := hNone
    · exact if_pos (by simp [TxCopy.isResult, hResult])
    · rw [withoutOldestResult_none hQueue]
      split <;> rfl
  · have hPlaced : l.place clock c = LineState.judgeHead clock
        { l with queue := before ++ behind ++ [c], dropCount := count16 l.dropCount } := by
      refine (if_neg (by simp [hLit])).trans ((if_neg (Nat.not_lt.2 hFull)).trans ((if_neg ?_).trans ?_))
      · simp [TxCopy.isResult, hLag]
      · rw [hQueue, withoutOldestResult_some hBefore hResult]
    obtain ⟨gone, kept, hSplit, hGone, hKept, hJudged⟩ := LineState.judgeHead_gone clock
      { l with queue := before ++ behind ++ [c], dropCount := count16 l.dropCount }
    refine ⟨gone, kept, hSplit, hGone, hKept, hPlaced.trans (hJudged.trans ?_)⟩
    have hCount : min 65535 (count16 l.dropCount + gone.length) = min 65535 (l.dropCount + 1 + gone.length) := by
      unfold count16
      omega
    rw [hCount]

/-- Settles O19: the head is judged on the line as it stands. -/
theorem lagLimitRemoves : Obligations.LagLimitRemoves := by
  intro t line s hSupplied
  obtain ⟨gone, kept, hQueue, hGone, hKept, hJudged⟩ :=
    LineState.judgeHead_gone (s.advance t).clock (s.line line)
  refine ⟨gone, kept, hQueue, hGone, hKept, ?_⟩
  rw [← hJudged]
  exact act_changeLine hSupplied fun x => LineState.judgeHead x.clock

/-! ### Transmission (R19, R24, R28) -/

/-- A copy goes out when none is in transmission and the line is free for the gap, unless it has grown too old. -/
theorem LineState.startTransmission_free {clock gap dark : Nat} {c : TxCopy} {rest : List TxCopy} {l : LineState}
    (hQueue : l.queue = c :: rest) (hSending : l.sending = none) (hLit : l.lit = false)
    (hDark : gap ≤ l.darkFor clock dark) :
    l.startTransmission clock gap dark
      = if c.tooOld clock then l.judgeHead clock else l.startHead clock c rest := by
  unfold LineState.startTransmission
  rw [hQueue]
  exact if_neg (by simp [hSending, hLit, Nat.not_lt.2 hDark])

theorem LineState.startTransmission_not {clock gap dark : Nat} {l : LineState}
    (h : l.queue = [] ∨ l.sending.isSome = true ∨ l.lit = true ∨ l.darkFor clock dark < gap) :
    l.startTransmission clock gap dark = l := by
  unfold LineState.startTransmission
  split
  · rfl
  · rename_i hQueue
    refine if_pos ?_
    obtain h | h | h | h := h
    · cases hQueue.symm.trans h
    · simp [h]
    · simp [h]
    · simp [h]

/-- The line as its head goes out, before the new head is judged: the lag is stamped, and an echo still pending is
missed. -/
def LineState.sent (clock : Nat) (c : TxCopy) (rest : List TxCopy) (l : LineState) : LineState :=
  { l with
    queue := rest
    sending := some { copy := c, start := clock, bytes := withCheck (c.frameBytes (c.age clock)) }
    litFrom := clock
    sentCount := min 65535 (l.sentCount + 1)
    echo := none
    echoMissCount := if l.echo.isSome then min 65535 (l.echoMissCount + 1) else l.echoMissCount
    errorScore := if l.echo.isSome then min 64 (l.errorScore + 4) else l.errorScore }

theorem LineState.startHead_eq (clock : Nat) (c : TxCopy) (rest : List TxCopy) (l : LineState) :
    l.startHead clock c rest = (l.sent clock c rest).judgeHead clock := by
  obtain ⟨_, _, echo⟩ := l
  cases echo <;> rfl

/-- Settles O17: the copy at the head is sent, or removed as too old, or the line is not free for it. -/
theorem transmissionStarts : Obligations.TransmissionStarts := by
  intro t line dark s hSupplied
  have hExec : exec (.transmissionStart t line dark) s = .next ((s.advance t).setLine line
      ((s.line line).startTransmission (s.advance t).clock (10 + 3 * s.position) dark)) :=
    act_changeLine hSupplied fun x => LineState.startTransmission x.clock x.gap dark
  refine ⟨fun c rest hQueue hSending hLit hGap hEnded => ?_, fun hNot => ?_⟩
  · have hFree : 10 + 3 * s.position ≤ (s.line line).darkFor (s.advance t).clock dark :=
      (LineState.le_darkFor ..).2 ⟨hGap, fun ended he => Nat.le_sub_of_add_le' (hEnded ended he)⟩
    rw [LineState.startTransmission_free hQueue hSending hLit hFree] at hExec
    refine ⟨fun hYoung => ?_, fun hOld => ?_⟩
    · rw [(young_iff ..).2 hYoung] at hExec
      obtain ⟨gone, kept, hSplit, hGone, hKept, hStarted⟩ :=
        LineState.judgeHead_gone (s.advance t).clock ((s.line line).sent (s.advance t).clock c rest)
      refine ⟨gone, kept, hSplit, hGone, hKept, hExec.trans ?_⟩
      rw [if_neg Bool.false_ne_true, LineState.startHead_eq, hStarted]
      rfl
    · rw [(tooOld_iff ..).2 hOld] at hExec
      exact hExec.trans (act_changeLine hSupplied fun x => LineState.judgeHead x.clock).symm
  · refine act_changeLine_same hSupplied (f := fun x => LineState.startTransmission x.clock x.gap dark)
      (LineState.startTransmission_not ?_)
    refine hNot.imp_right (Or.imp_right (Or.imp_right fun h => ?_))
    rw [← Nat.not_le, LineState.le_darkFor, Classical.not_and_iff_not_or_not]
    obtain h | ⟨ended, hEnded, hEarly⟩ := h
    · exact .inl (Nat.not_le.2 h)
    · refine .inr fun hAll => ?_
      have hGap := hAll ended hEnded
      show False
      have hPosition : (s.advance t).gap = 10 + 3 * s.position := rfl
      omega

/-- Settles O18: the completion is judged by the length that the copy's bytes have on the line. -/
theorem transmissionCompletes : Obligations.TransmissionCompletes := by
  intro t line s hSupplied
  have hExec : exec (.transmissionComplete t line) s = .next ((s.advance t).setLine line
      ((s.line line).completeTransmission (s.advance t).clock s.stc.strapError)) :=
    act_changeLine hSupplied fun x => LineState.completeTransmission x.clock x.stc.strapError
  have hSame (h : (s.line line).completeTransmission (s.advance t).clock s.stc.strapError = s.line line) :
      exec (.transmissionComplete t line) s = .next (s.advance t) :=
    act_changeLine_same hSupplied (f := fun x => LineState.completeTransmission x.clock x.stc.strapError) h
  refine ⟨fun x hSending => ⟨fun hLong => ?_, fun hShort => hSame ?_⟩, fun hNone => hSame ?_, fun frame => ⟨rfl, ?_⟩⟩
  · have hFinished : x.finished (s.advance t).clock = true := (Sending.finished_iff ..).2 hLong
    rw [hExec]
    unfold LineState.completeTransmission
    rw [hSending]
    exact congrArg (fun l => Host.Outcome.next ((s.advance t).setLine line l)) (if_pos hFinished)
  · unfold LineState.completeTransmission
    rw [hSending]
    exact if_neg fun hFinished => Nat.not_le.2 hShort ((Sending.finished_iff ..).1 hFinished)
  · unfold LineState.completeTransmission
    rw [hNone]
  · rw [lineTenths, onLine_length]
    simp [withCheck, bytes16]

/-! ### Free carrier (R35, R36) -/

/-- Settles O20: carrier that has been free for more than 100 ticks makes a line LIT, and its drop ends LIT. -/
theorem litEntersAndEnds : Obligations.LitEntersAndEnds := by
  intro t line carrier s hSupplied
  have hEnter : exec (.litEntry t line carrier) s = .next ((s.advance t).setLine line
      ((s.line line).enterLit (s.advance t).clock carrier)) :=
    act_changeLine hSupplied fun x => LineState.enterLit x.clock carrier
  have hEnd : exec (.litEnd t line) s = .next ((s.advance t).setLine line
      ((s.line line).endLit (s.advance t).clock)) :=
    act_changeLine hSupplied fun x => LineState.endLit x.clock
  refine ⟨fun hLit hSending hReception hTicks hFrom => ?_, fun hNot => ?_, fun hLit => ?_, fun hLit => ?_⟩
  · have hFree : 100 < (s.line line).litMeasure (s.advance t).clock carrier :=
      (LineState.lt_litMeasure ..).2 ⟨hSending, hReception, hTicks, hFrom⟩
    rw [hEnter]
    exact congrArg (fun l => Host.Outcome.next ((s.advance t).setLine line l))
      (if_neg (by
        rw [hLit, Bool.false_or, decide_eq_true_eq]
        exact Nat.not_le.2 hFree))
  · refine act_changeLine_same hSupplied (f := fun x => LineState.enterLit x.clock carrier) (if_pos ?_)
    rw [Bool.or_eq_true, decide_eq_true_eq]
    obtain hLit | hNot := hNot
    · exact .inl hLit
    · refine .inr (Nat.not_lt.1 fun hFree => ?_)
      obtain ⟨hSending, hReception, hTicks, hFrom⟩ := (LineState.lt_litMeasure ..).1 hFree
      simp only [hSending, hReception, Option.isSome_none, Bool.false_eq_true, false_or] at hNot
      omega
  · rw [hEnd]
    exact congrArg (fun l => Host.Outcome.next ((s.advance t).setLine line l)) (if_pos hLit)
  · exact act_changeLine_same hSupplied (f := fun x => LineState.endLit x.clock) (if_neg (by simp [hLit]))

/-! ### The line's timers and the filter table (R29, R30, R36) -/

theorem mem_filterExpire (clock key : Nat) (table : List FilterEntry) (x : FilterEntry) :
    x ∈ filterExpire clock key table ↔ x ∈ table ∧ ¬ (x.key = key ∧ 64000 < clock - x.written) := by
  simp only [filterExpire, List.mem_filter, Bool.not_eq_true', Bool.and_eq_false_iff, decide_eq_false_iff_not,
    Classical.not_and_iff_not_or_not]

/-- Settles O21: each record is judged against its limit. -/
theorem lineTimersExpire : Obligations.LineTimersExpire := by
  intro t line sender seq s hSupplied
  refine ⟨fun start hSilence hLong => ?_, fun hShort => ?_, fun p hEcho hLong => ?_, fun hShort => ?_,
    filterExpire (s.advance t).clock (filterKey sender seq) s.filter, ?_, fun x => mem_filterExpire ..⟩
  · refine (act_changeLine hSupplied fun x => LineState.silenceExpiry x.clock x.prl.tEst).trans ?_
    refine congrArg (fun l => Host.Outcome.next ((s.advance t).setLine line l)) (if_pos ?_)
    rw [hSilence]
    exact decide_eq_true hLong
  · refine act_changeLine_same hSupplied (f := fun x => LineState.silenceExpiry x.clock x.prl.tEst) (if_neg ?_)
    cases hSilence : (s.line line).silence with
    | none => exact Bool.false_ne_true
    | some start => exact fun h => Nat.not_le.2 (of_decide_eq_true h) (hShort start hSilence)
  · refine (act_changeLine hSupplied fun x => LineState.echoTimeout x.clock).trans ?_
    unfold LineState.echoTimeout
    rw [hEcho]
    exact congrArg (fun l => Host.Outcome.next ((s.advance t).setLine line l)) (if_pos hLong)
  · refine act_changeLine_same hSupplied (f := fun x => LineState.echoTimeout x.clock) ?_
    unfold LineState.echoTimeout
    split
    · rfl
    · rename_i p hEcho
      exact if_neg (Nat.not_lt.2 (hShort p hEcho))
  · exact act_supplied hSupplied t fun x =>
      x.setFilter (filterExpire x.clock (filterKey sender seq) x.filter)

/-! ### Copies (R26 to R33) -/

/-- Settles O13: the dispatch of either copy is nothing. -/
theorem countedNotHandedOn : Obligations.CountedNotHandedOn := by
  intro t rx head s hSupplied
  refine ⟨fun hAccepts => ?_, fun hAccepts hAll hOwn => ?_⟩
  · refine (act_supplied hSupplied t _).trans ?_
    rw [receiveCopy_accepted hAccepts]
    rfl
  · have hOther : (s.advance t).addressed head = false := by
      simp only [State.addressed, Bool.or_eq_false_iff, decide_eq_false_iff_not]
      exact ⟨hAll, hOwn⟩
    refine (act_supplied hSupplied t
      fun x => if x.addressed head then x else receiveCopy rx true (fun y => y) x).trans ?_
    rw [hOther, if_neg Bool.false_ne_true, receiveCopy_accepted hAccepts]
    rfl

/-- Settles O14: a bad copy touches its line alone. -/
theorem badCopyCounts : Obligations.BadCopyCounts := by
  intro t line bytes cutShort s hSupplied hBad
  refine (act_supplied hSupplied t _).trans ?_
  rw [if_pos hBad, changeLine, State.advance_line]
  rfl

/-- Settles O16: the copy is the one that carries the body, the sequence counter and the own position. -/
theorem frameProduced : Obligations.FrameProduced := by
  intro body s
  refine ⟨producedCopy body s, rfl, rfl, ?_, ?_, produce_eq body s⟩
  · show (BitVec.ofNat 8 s.stc.straps.position.toNat).toNat = s.stc.straps.position.toNat
    have hPosition := s.stc.straps.position.isLt
    rw [BitVec.toNat_ofNat]
    omega
  · cases body <;> rfl

theorem filterHolds_write (now key other written : Nat) (table : List FilterEntry) :
    filterHolds now other (filterWrite key written table)
      = if other = key then decide (now - written ≤ 64000) else filterHolds now other table := by
  unfold filterHolds
  rw [filterLookup_write]
  by_cases h : other = key
  · rw [if_pos h, if_pos h]
  · rw [if_neg h, if_neg h]

/-- Settles O10: the filter entry that the copy writes answers for its sender and sequence, and no other does. -/
theorem acceptedCopy : Obligations.AcceptedCopy := by
  intro rx fromPole s hAccepts
  have hFilter : (s.received rx).filter = filterWrite (filterKey rx.sender rx.seq) s.clock s.filter := rfl
  refine ⟨receiveCopy_accepted hAccepts, fun later _ => ?_, fun sender seq now hOther => ?_⟩
  · rw [hFilter, filterHolds_write, if_pos rfl]
  · rw [hFilter, filterHolds_write, if_neg]
    intro hKey
    obtain ⟨hSender, hSeq⟩ := filterKey_inj hKey
    exact hOther (by rw [hSender, hSeq])

/-- Settles O11, by the first check that a copy fails. -/
theorem droppedCopies : Obligations.DroppedCopies := by
  intro rx fromPole dispatch s
  have hHeard (f : LineState → LineState) : changeLine rx.line f (s.heardOn rx.line)
      = s.setLine rx.line (f ((s.line rx.line).heard s.clock)) := by
    rw [changeLine, State.heardOn, State.setLine_line_self, State.setLine_setLine]
  refine ⟨foreignCopy_iff .., fun hForeign => ?_, fun hForeign hEcho => ?_, fun hForeign hEcho hKnown => ?_,
    fun hForeign hEcho hKnown hOwn => receiveCopy_clash hForeign hEcho hKnown hOwn dispatch⟩
  · rw [receiveCopy_foreign hForeign, hHeard]
    rfl
  · rw [receiveCopy_echo hForeign hEcho, hHeard]
    rfl
  · rw [receiveCopy_duplicate hForeign hEcho hKnown, hHeard]
    rfl

end
end Sys2Proof.Machine
end

