-- ==== Sys2Proof/Proofs/Power.lean ====
section
/-! PROOFS. The step, passing time, the power-on values, and the loss of supply. -/

namespace Sys2Proof.Machine

/-! ### The step and time -/

/-- Settles O1, by the two cases of the queue. -/
theorem stepTakesTheFront : Obligations.StepTakesTheFront := by
  refine ⟨fun c rest s h => ?_, fun s h => ?_⟩
  · rw [step, h]
  · rw [step, h]

/-- Settles O3: the elapsed ticks are those until the instant is read. -/
theorem timePasses : Obligations.TimePasses := by
  intro s t
  have hAge : ageAfter s.heldBlocks s.orh.age (s.ticksUntil t)
      = if s.stc.state = .unset then s.orh.age else min 16777215 (s.orh.age + s.ticksUntil t) :=
    ite_of_iff decide_eq_true_iff rfl rfl
  refine ⟨s.ticksUntil t, s.ticksUntil_lt t, s.advance_now t, ?_⟩
  rw [← hAge]
  rfl

/-! ### Power-on values (R1) -/

/-- The position check in the words of R1. -/
theorem strapErrorOf_sampleStraps (w : StrapWires) : strapErrorOf (sampleStraps w)
    = decide (w.position.toNat = 0 ∨ 12 < w.position.toNat ∨ (w.sizeClosed = false ∧ 6 < w.position.toNat)) := by
  rw [Bool.eq_iff_iff, decide_eq_true_iff]
  cases h : w.sizeClosed with
  | false =>
    simp [strapErrorOf, sampleStraps, h, groupCount]
    omega
  | true => simp [strapErrorOf, sampleStraps, h, groupCount]

theorem stc_powerOn_sampleStraps (w : StrapWires) : Stc.powerOn (sampleStraps w) =
    { state := .unset
      straps :=
        { position := w.position
          groupSize := if w.sizeClosed then .twelve else .six
          frequency := if w.frequencyClosed then .hz60 else .hz50 }
      strapError := decide (w.position.toNat = 0 ∨ 12 < w.position.toNat
        ∨ (w.sizeClosed = false ∧ 6 < w.position.toNat))
      setup := none, syncCount := 0, badRun := 0, goodRun := 0, syncLost := false
      clashLatch := false, clashSeen := false, darkTimer := none
      clashCount := 0, syncLossCount := 0, tripCount := 0 } := by
  rw [← strapErrorOf_sampleStraps]
  rfl

/-- Settles O6: a returning feed makes the same reset as POWER_ON_RESET, on the feeds that it finds. -/
theorem powerOnValues : Obligations.PowerOnValues := by
  intro t w feeds s
  refine ⟨powerOnAt t Feeds.both w s, rfl, fun hLost hReturned => ?_, stc_powerOn_sampleStraps w, rfl, rfl, rfl, rfl,
    ?_, ?_, rfl, rfl, rfl, rfl, rfl, rfl, rfl, rfl, rfl, rfl, rfl, rfl, rfl, rfl, rfl, rfl, rfl, rfl, rfl, rfl, rfl,
    fun n => by cases n <;> rfl, rfl, rfl, rfl, rfl, fun n => rfl, rfl⟩
  · refine if_pos ?_
    rw [hLost, Bool.not_false, Bool.and_true]
    exact Bool.or_eq_true _ _ ▸ hReturned
  · show List.replicate (groupCount (if w.sizeClosed then .twelve else .six)) _ = _
    cases w.sizeClosed <;> rfl
  · show nominalPeriod (if w.frequencyClosed then .hz60 else .hz50) = _
    cases w.frequencyClosed <;> rfl

/-! ### The loss of supply (R177, R178) -/

/-- Without supply every command but the two power commands only lets time pass. -/
theorem exec_unsupplied {c : Instr} {s : State} (hPower : isPower c = false) (h : s.supplied = false) :
    exec c s = .next (s.advance (instantOf c)) := by
  have hNot : ¬ s.supplied = true := Bool.eq_false_iff.1 h
  cases c <;> first | exact congrArg Host.Outcome.next (if_neg hNot) | cases hPower

theorem alarmOutput_setFeeds {s : State} {feeds : Feeds} (hSupplied : s.supplied = true)
    (hStays : feedsSustain feeds = true) (n : AlarmName) : (s.setFeeds feeds).alarmOutput n = s.alarmOutput n := by
  unfold State.alarmOutput
  rw [hSupplied, show (s.setFeeds feeds).supplied = true from hStays]
  rfl

/-- Settles O7: what becomes of the supply is judged by the feeds that stay. -/
theorem supplyLossAsserts : Obligations.SupplyLossAsserts := by
  intro t w s
  refine ⟨Bool.or_eq_true _ _ ▸ Iff.rfl, ⟨_, rfl, rfl, fun _ => rfl⟩, fun feeds hSupplied hStays => ?_,
    fun v c hLost hPower => ?_⟩
  · have hStays : feedsSustain feeds = true := Bool.or_eq_true _ _ ▸ hStays
    refine ⟨_, if_neg ?_, rfl, fun n => ?_⟩
    · simp [hSupplied]
    · exact alarmOutput_setFeeds (s := s.advance t) hSupplied hStays n
  · exact exec_unsupplied hPower hLost

end Sys2Proof.Machine
end

