-- ==== Sys2Proof/Proofs/Transitions.lean ====
section
/-! PROOFS. Where the station goes on an order, a released block line or a changed consumed count, as one equation:
the state it goes to, STC's records there, and the survey that an exit from SYNCED aborts. -/

namespace Sys2Proof.Machine

/-! ### Going to a state -/

/-- STC's records once the station has gone to a state: nothing where it is there, a trip counted at an entry into
TRIPPED. -/
def Stc.went (new : StationState) (x : Stc) : Stc :=
  { x with
    state := new
    darkTimer := if new = x.state then x.darkTimer else none
    tripCount := if new = .tripped ∧ x.state ≠ .tripped then count16 x.tripCount else x.tripCount }

/-- The station once it has gone to a state from outside RUNNING and BYPASSING: an exit from SYNCED aborts a
survey. -/
def State.wentTo (new : StationState) (s : State) : State :=
  if s.stc.state = .synced ∧ new ≠ .synced then State.aborted (s.setStc (s.stc.went new))
  else s.setStc (s.stc.went new)

section
variable {s : State}

theorem Stc.went_self (x : Stc) : x.went x.state = x := by
  have hTrip : ¬ (x.state = .tripped ∧ x.state ≠ .tripped) := fun h => h.2 h.1
  unfold Stc.went
  rw [if_pos rfl, if_neg hTrip]

theorem Stc.went_tripped {x : Stc} (h : x.state ≠ .tripped) : x.went .tripped = x.tripped := by
  unfold Stc.went Stc.tripped
  rw [if_neg h.symm, if_pos ⟨rfl, h⟩]

theorem Stc.went_entered {x : Stc} {new : StationState} (h : new ≠ x.state) (hTrip : new ≠ .tripped) :
    x.went new = x.entered new := by
  unfold Stc.went Stc.entered
  rw [if_neg h, if_neg fun hNew => hTrip hNew.1]

@[simp] theorem wentTo_stc (new : StationState) (s : State) : (s.wentTo new).stc = s.stc.went new := by
  unfold State.wentTo
  split
  · exact aborted_stc _
  · rfl

theorem wentTo_self (s : State) : s.wentTo s.stc.state = s := by
  refine (if_neg fun h => h.2 h.1).trans ?_
  rw [Stc.went_self]
  rfl

theorem wentTo_idle (h : s.cmu.executing = none) (new : StationState) :
    s.wentTo new = s.setStc (s.stc.went new) := by
  unfold State.wentTo
  rw [aborted_idle (s := s.setStc (s.stc.went new)) h, ite_self]

theorem wentTo_of_ne_synced (h : s.stc.state ≠ .synced) (new : StationState) :
    s.wentTo new = s.setStc (s.stc.went new) := if_neg fun hs => h hs.1

theorem wentTo_leaves (h : s.stc.state = .synced) {new : StationState} (hNew : new ≠ .synced) :
    s.wentTo new = State.aborted (s.setStc (s.stc.went new)) := if_pos ⟨h, hNew⟩

theorem wentTo_offStation (new : StationState) (s : State) : (s.wentTo new).offStation = s.offStation := by
  unfold State.wentTo
  split
  · exact aborted_offStation _
  · rfl

theorem enterTripped_wentTo (h : s.stc.state = .listening ∨ s.stc.state = .synced) :
    enterTripped s = s.wentTo .tripped := by
  obtain h | h := h
  · rw [enterTripped_quiet (h ▸ nofun) (h ▸ nofun) (h ▸ nofun), wentTo_of_ne_synced (h ▸ nofun),
      Stc.went_tripped (h ▸ nofun)]
  · rw [enterTripped_synced h, wentTo_leaves h (new := .tripped) nofun, Stc.went_tripped (h ▸ nofun)]

theorem enterState_wentTo (h : s.stc.state = .synced) {new : StationState} (hNew : new ≠ .synced)
    (hTrip : new ≠ .tripped) : enterState new s = s.wentTo new := by
  rw [enterState_synced h, wentTo_leaves h hNew, Stc.went_entered (h ▸ hNew) hTrip]

/-! ### The conditions of R10 -/

/-- The state in which R10 leaves the station. -/
def State.deblocked (s : State) : StationState :=
  if s.stc.state = .synced then s.fromSynced s.orh.current else s.stc.state

theorem overConsumed_iff : s.overConsumed = true ↔ s.cfg.redundancy < s.lvt.consumed := decide_eq_true_iff

/-- R10 takes the station where an order takes a SYNCED one. -/
theorem evaluateDeblock_wentTo (s : State) : evaluateDeblock s = s.wentTo s.deblocked := by
  unfold State.deblocked
  by_cases hSynced : s.stc.state = .synced
  · rw [if_pos hSynced]
    have hStay : s.wentTo .synced = s := hSynced ▸ wentTo_self s
    have hEnter (new : StationState) (hNew : new ≠ .synced) (hTrip : new ≠ .tripped) :=
      enterState_wentTo hSynced hNew hTrip
    unfold evaluateDeblock State.fromSynced
    by_cases hHeld : s.blockAsserted = true ∨ s.stc.clashLatch = true ∨ s.cfg.redundancy < s.lvt.consumed
    · rw [if_pos hHeld, hStay, if_neg]
      rintro ⟨-, hBlock, hLatch, hOver⟩
      rw [Bool.not_eq_true'] at hBlock hLatch hOver
      obtain h | h | h := hHeld
      · rw [hBlock] at h
        cases h
      · rw [hLatch] at h
        cases h
      · rw [overConsumed_iff.2 h] at hOver
        cases hOver
    · simp only [not_or, Bool.not_eq_true] at hHeld
      obtain ⟨hBlock, hLatch, hOver⟩ := hHeld
      have hOver' : s.overConsumed = false := decide_eq_false hOver
      have hFree : ¬ (s.blockAsserted = true ∨ s.stc.clashLatch = true ∨ s.cfg.redundancy < s.lvt.consumed) := by
        simp [hBlock, hLatch, hOver]
      refine (if_pos (by simp [hSynced, hBlock, hLatch, hOver'])).trans
        (Eq.trans ?_ (congrArg (fun new => s.wentTo new) (if_neg hFree)).symm)
      cases s.orh.current.blockState with
      | block => exact hStay.symm
      | deblock => exact hEnter .running nofun nofun
      | bypass =>
        show (if s.inPair then _ else _) = s.wentTo (if s.inPair then _ else _)
        split
        · exact hEnter .bypassing nofun nofun
        · exact hStay.symm
  · rw [if_neg hSynced, evaluateDeblock_of_ne hSynced, wentTo_self]

/-! ### A changed consumed count (R87) -/

/-- Records that change take the station where the new consumed count takes it. -/
theorem setLevels_wentTo (levels : List LevelRecord) (s : State) : setLevels levels s
    = (levelsSet levels s).wentTo (s.afterCountChange (consumedIn levels)) := by
  have hConsumed : (levelsSet levels s).lvt.consumed = consumedIn levels := rfl
  rw [setLevels_eq, hConsumed]
  unfold State.afterCountChange
  by_cases hSame : consumedIn levels = s.lvt.consumed
  · rw [if_pos hSame, if_pos hSame]
    exact (wentTo_self (levelsSet levels s)).symm
  · rw [if_neg hSame, if_neg hSame]
    have hBlocked : (levelsSet levels s).deblocked = if s.stc.state = .synced then
        { s with lvt := { s.lvt with consumed := consumedIn levels } }.fromSynced s.orh.current
        else s.stc.state := rfl
    unfold stcConsumedChanged
    rw [evaluateDeblock_wentTo, hBlocked]
    by_cases hIn : s.stc.state = .listening ∨ s.stc.state = .synced
    · rw [if_pos hIn]
      by_cases hRise : s.lvt.consumed < consumedIn levels ∧ s.cfg.redundancy < consumedIn levels
      · rw [if_pos hRise, if_pos]
        · exact enterTripped_wentTo (s := levelsSet levels s) hIn
        · rw [Bool.and_eq_true, Bool.and_eq_true, Bool.or_eq_true]
          exact ⟨⟨decide_eq_true hRise.1, decide_eq_true hRise.2⟩, hIn.imp decide_eq_true decide_eq_true⟩
      · rw [if_neg hRise, if_neg]
        · by_cases hSynced : s.stc.state = .synced
          · rw [if_pos hSynced, if_pos hSynced]
          · rw [if_neg hSynced, if_neg hSynced, hIn.resolve_right hSynced]
        · intro h
          rw [Bool.and_eq_true, Bool.and_eq_true] at h
          exact hRise ⟨of_decide_eq_true h.1.1, of_decide_eq_true h.1.2⟩
    · rw [if_neg hIn, if_neg, if_neg fun h => hIn (.inr h)]
      intro h
      rw [Bool.and_eq_true, Bool.or_eq_true] at h
      exact hIn (h.2.imp of_decide_eq_true of_decide_eq_true)

theorem setLevels_stc (levels : List LevelRecord) (s : State) :
    (setLevels levels s).stc = s.stc.went (s.afterCountChange (consumedIn levels)) := by
  rw [setLevels_wentTo, wentTo_stc]
  rfl

/-! ### Entry into SYNCED (R7, R8) -/

/-- STC's records at an entry into SYNCED. -/
def Stc.synced (x : Stc) : Stc := { x.entered .synced with syncCount := 0, badRun := 0, goodRun := 0 }

/-- From LISTENING an entry into SYNCED changes STC's records, and goes on. -/
theorem enterSynced_quiet (h : s.stc.state = .listening) : enterSynced s =
    if s.stc.syncLost then enterListening (s.setStc s.stc.synced)
    else if s.overConsumed then enterTripped (s.setStc s.stc.synced)
    else evaluateDeblock (startDarkTimer (s.setStc s.stc.synced)) := by
  have hEnter : enterState .synced s = s.setStc (s.stc.entered .synced) :=
    enterState_quiet (h ▸ nofun) (h ▸ nofun) (h ▸ nofun) _
  unfold enterSynced
  simp only [hEnter]
  rfl

theorem startDarkTimer_stc (s : State) :
    (startDarkTimer s).stc = { s.stc with darkTimer := (startDarkTimer s).stc.darkTimer } := by
  unfold startDarkTimer
  split <;> rfl

theorem startDarkTimer_deblocked (s : State) : (startDarkTimer s).deblocked = s.deblocked := by
  unfold startDarkTimer
  split <;> rfl

/-- From LISTENING with SYNC LOST clear an entry into SYNCED leaves the runs at 0, in TRIPPED or where R10 leads. -/
theorem enterSynced_listening (h : s.stc.state = .listening) (hLost : s.stc.syncLost = false) :
    (enterSynced s).stc.syncCount = 0 ∧ (enterSynced s).stc.badRun = 0 ∧ (enterSynced s).stc.goodRun = 0
      ∧ (enterSynced s).stc.state
        = if s.cfg.redundancy < s.lvt.consumed then .tripped else s.fromSynced s.orh.current := by
  rw [enterSynced_quiet h, hLost, if_neg Bool.false_ne_true]
  by_cases hOver : s.cfg.redundancy < s.lvt.consumed
  · rw [if_pos hOver, if_pos (overConsumed_iff.2 hOver), enterTripped_wentTo (.inr rfl), wentTo_stc]
    exact ⟨rfl, rfl, rfl, rfl⟩
  · rw [if_neg hOver, if_neg (mt overConsumed_iff.1 hOver), evaluateDeblock_wentTo, wentTo_stc,
      startDarkTimer_deblocked, startDarkTimer_stc]
    exact ⟨rfl, rfl, rfl, rfl⟩

end
end Sys2Proof.Machine
end

