-- ==== Sys2Proof/Proofs/StationEvents.lean ====
section
/-! PROOFS. What a clash, the block line's release, the station's own timers and a judged mark do. -/

namespace Sys2Proof.Machine

/-! ### Events of the held blocks, outside UNSET -/

section
variable {s : State} {t : Instant} {due : State → Bool} {effect : State → State}

theorem act_set (hSupplied : s.supplied = true) (hSet : s.stc.state ≠ .unset) (f : State → State → State) :
    act t s (fun x => x.unlessHeld (f x)) = .next (f (s.advance t) (s.advance t)) := by
  rw [act_supplied hSupplied]
  exact congrArg Host.Outcome.next (unlessHeld_of_ne (s := s.advance t) hSet _)

theorem dueEvent_due (hSupplied : s.supplied = true) (hSet : s.stc.state ≠ .unset)
    (h : due (s.advance t) = true) : dueEvent t s due effect = .next (effect (s.advance t)) :=
  (act_set hSupplied hSet fun _ x => if due x then effect x else x).trans
    (congrArg Host.Outcome.next (if_pos h))

theorem dueEvent_not (hSupplied : s.supplied = true) (hSet : s.stc.state ≠ .unset)
    (h : due (s.advance t) = false) : dueEvent t s due effect = .next (s.advance t) :=
  (act_set hSupplied hSet fun _ x => if due x then effect x else x).trans
    (congrArg Host.Outcome.next (if_neg (Bool.eq_false_iff.1 h)))

theorem expiredAfter_iff (clock limit : Nat) (timer : Option Nat) :
    expiredAfter clock limit timer = true ↔ ∃ start, timer = some start ∧ limit < clock - start := by
  cases timer <;> simp [expiredAfter]

/-! ### A clash (R14) -/

/-- STC's records at an entry into LISTENING, with R15 in its own words. -/
theorem Stc.listening_overConsumed (s : State) (x : Stc) : x.listening s.overConsumed =
    { x with
      state := if s.cfg.redundancy < s.lvt.consumed then .tripped else .listening
      syncCount := 0, badRun := 0, goodRun := 0, syncLost := false, darkTimer := none
      tripCount := if s.cfg.redundancy < s.lvt.consumed then count16 x.tripCount else x.tripCount } := by
  unfold Stc.listening
  simp only [overConsumed_iff]

/-- Settles O12, by the station state. -/
theorem clashActs : Obligations.ClashActs := by
  intro s _ counted above
  have hSynced (h : s.stc.state = .synced) := stcClash_synced h
  simp only [Stc.listening_overConsumed] at hSynced
  refine ⟨?_, stcClash_listening, hSynced, stcClash_firing, stcClash_still⟩
  cases h : s.stc.state with
  | unset => rw [stcClash_still (.inl h)]; rfl
  | listening => rw [stcClash_listening h]; rfl
  | synced => rw [hSynced h, aborted_stc]; rfl
  | running => rw [stcClash_firing (.inl h)]; rfl
  | bypassing => rw [stcClash_firing (.inr h)]; rfl
  | tripped => rw [stcClash_still (.inr h)]; rfl

/-! ### The block line released (R10) -/

theorem fromSynced_ne_tripped (s : State) (o : Order) : s.fromSynced o ≠ .tripped := by
  unfold State.fromSynced
  split
  · decide
  · split
    · decide
    · split <;> decide
    · decide

theorem deblocked_leaves (h : s.deblocked ≠ s.stc.state) :
    s.stc.state = .synced ∧ s.deblocked ≠ .tripped := by
  by_cases hSynced : s.stc.state = .synced
  · refine ⟨hSynced, ?_⟩
    unfold State.deblocked
    rw [if_pos hSynced]
    exact fromSynced_ne_tripped s s.orh.current
  · exact absurd (if_neg hSynced) h

/-- Settles O9: with the block line released R10 is evaluated. -/
theorem blockLineReleased : Obligations.BlockLineReleased := by
  intro t held s hSupplied
  refine ⟨fun hAsserted hHeld => ⟨State.wentTo (State.deblocked ((s.advance t).setBlock false))
    ((s.advance t).setBlock false), ?_, ?_, ?_, ?_, ?_, ?_⟩, fun hNot => ?_⟩
  · rw [← evaluateDeblock_wentTo]
    exact (act_supplied hSupplied t _).trans (congrArg Host.Outcome.next (if_pos ⟨hHeld, hAsserted⟩))
  · exact congrArg (fun x => x.2.2.1) (wentTo_offStation ..)
  · exact congrArg (fun x => x.2.2.2.1) (wentTo_offStation ..)
  · rw [wentTo_stc]
    show State.deblocked _ = _
    unfold State.deblocked State.fromSynced
    by_cases hSynced : s.stc.state = .synced
    · by_cases hFree : s.stc.clashLatch = false ∧ ¬ s.cfg.redundancy < s.lvt.consumed
      · obtain ⟨hLatch, hOver⟩ := hFree
        refine (if_pos hSynced).trans ((if_neg ?_).trans (if_pos ⟨hSynced, hLatch, hOver⟩).symm)
        rintro (h | h | h)
        · cases h
        · exact Bool.false_ne_true (hLatch.symm.trans h)
        · exact hOver h
      · refine (if_pos hSynced).trans ((if_pos ?_).trans (hSynced.symm.trans (if_neg ?_).symm))
        · rw [Classical.not_and_iff_not_or_not, Bool.not_eq_false, Classical.not_not] at hFree
          exact .inr hFree
        · exact fun h => hFree h.2
    · exact (if_neg hSynced).trans (if_neg fun h => hSynced h.1).symm
  · intro hSame
    rw [wentTo_stc] at hSame
    have hStay : ((s.advance t).setBlock false).deblocked = ((s.advance t).setBlock false).stc.state := hSame
    rw [hStay, wentTo_self]
    rfl
  · intro hLeft
    rw [wentTo_stc] at hLeft ⊢
    have hNew : ((s.advance t).setBlock false).deblocked ≠ ((s.advance t).setBlock false).stc.state := hLeft
    obtain ⟨hSynced, hTrip⟩ := deblocked_leaves hNew
    rw [wentTo_leaves hSynced (hSynced ▸ hNew), Stc.went_entered hNew hTrip]
    rfl
  · refine (act_supplied hSupplied t _).trans (congrArg Host.Outcome.next (if_neg ?_))
    rintro ⟨hHeld, hAsserted⟩
    obtain h | h := hNot
    · exact Bool.false_ne_true (h.symm.trans hAsserted)
    · omega

/-! ### The DARK timer and the order age (R9, R141, R142) -/

theorem forceBlock_eq (s : State) : forceBlock s =
    if 200000 < s.orh.age ∧ s.orh.current.blockState = .deblock ∧ s.orh.pendingForced = false then
      s.setOrh { s.orh with
        pending := some { s.orh.current with blockState := .block }, pendingForced := true
        losses := count16 s.orh.losses }
    else s := by
  unfold forceBlock
  simp only [Bool.and_eq_true, decide_eq_true_eq, Bool.not_eq_true', and_assoc]

/-- Settles O51: each event is judged against its limit. -/
theorem stationTimersExpire : Obligations.StationTimersExpire := by
  intro t s hSupplied hSet r above
  refine ⟨fun start hStart hLong hSynced => ?_, fun hShort => ?_, ?_, ?_⟩
  · refine (dueEvent_due hSupplied hSet ?_).trans ?_
    · exact Bool.and_eq_true_iff.2 ⟨(expiredAfter_iff ..).2 ⟨start, hStart, hLong⟩, decide_eq_true hSynced⟩
    · rw [enterListening_synced (s := s.advance t) hSynced, Stc.listening_overConsumed]
      rfl
  · refine dueEvent_not hSupplied hSet (Bool.eq_false_iff.2 fun hDue => ?_)
    obtain ⟨start, hStart, hLong⟩ := (expiredAfter_iff ..).1 (Bool.and_eq_true_iff.1 hDue).1
    exact Nat.not_le.2 hLong (hShort start hStart)
  · exact act_set hSupplied hSet fun _ => refreshStale
  · refine (act_set hSupplied hSet fun _ => forceBlock).trans ?_
    rw [forceBlock_eq]
    rfl

/-! ### A judged mark (R6 to R8, R13) -/

/-- The mark counts toward acquisition (R6). -/
def State.markCounts (s : State) (placing : Placing) (refHeard : Bool) : Prop :=
  s.stc.clashLatch = false ∧ s.vcm.valve ≠ .dark ∧ s.qualifies placing refHeard = true

theorem markCounts_iff (placing : Placing) (refHeard : Bool) : s.markCounts placing refHeard ↔
    ¬ (s.stc.clashLatch ∨ s.vcm.valve = .dark ∨ ¬ s.qualifies placing refHeard) := by
  unfold State.markCounts
  rw [not_or, not_or, Classical.not_not, Bool.not_eq_true]

theorem judgeListening_not {placing : Placing} {refHeard : Bool} (h : ¬ s.markCounts placing refHeard) :
    judgeListening placing refHeard s = s.setStc { s.stc with syncCount := 0 } := by
  rw [markCounts_iff, Classical.not_not] at h
  unfold judgeListening
  rw [if_pos h]
  exact if_neg (by decide)

theorem judgeListening_counts {placing : Placing} {refHeard : Bool} (h : s.markCounts placing refHeard) :
    judgeListening placing refHeard s =
      if 8 ≤ s.stc.syncCount + 1 then enterSynced (s.setStc { s.stc with syncCount := s.stc.syncCount + 1 })
      else s.setStc { s.stc with syncCount := s.stc.syncCount + 1 } := by
  rw [markCounts_iff] at h
  unfold judgeListening
  rw [if_neg h]

/-- STC's records with the runs after a mark (R8). -/
def Stc.withRuns (placing : Placing) (x : Stc) : Stc :=
  { x with
    badRun := (runsAfter placing x.badRun x.goodRun).1, goodRun := (runsAfter placing x.badRun x.goodRun).2 }

theorem judgeRuns_eq (placing : Placing) (s : State) : judgeRuns placing s =
    if placing.large ∧ (s.stc.withRuns placing).badRun = 3 then loseLattice (s.setStc (s.stc.withRuns placing))
    else if (s.stc.withRuns placing).goodRun = 8 then s.setStc { s.stc.withRuns placing with syncLost := false }
    else s.setStc (s.stc.withRuns placing) := rfl

theorem runsAfter_large {placing : Placing} (h : placing.large = true) (bad good : Nat) :
    runsAfter placing bad good = (min 3 (bad + 1), 0) := by
  cases placing with
  | group d reference alpha e => exact if_pos (of_decide_eq_true h)
  | flywheel => cases h
  | localVoltage => cases h

theorem judgeMark_runs {placing : Placing} {refHeard : Bool}
    (h : s.stc.state = .synced ∨ s.stc.state = .running ∨ s.stc.state = .bypassing) :
    judgeMark placing refHeard s = judgeRuns placing s := by
  unfold judgeMark
  obtain h | h | h := h <;> rw [h]

theorem judgeMark_listening {placing : Placing} {refHeard : Bool} (h : s.stc.state = .listening) :
    judgeMark placing refHeard s = judgeListening placing refHeard s := by
  unfold judgeMark
  rw [h]

theorem judgeMark_still {placing : Placing} {refHeard : Bool}
    (h : s.stc.state = .unset ∨ s.stc.state = .tripped) : judgeMark placing refHeard s = s := by
  unfold judgeMark
  obtain h | h := h <;> rw [h]

/-- The last forward interval agrees with T_est within a two-hundredth (R6 (b)). -/
theorem intervalAgrees_iff : s.intervalAgrees = true ↔ ∃ x, s.vcm.fwdInterval = some x
    ∧ x ≤ s.prl.tEst + s.prl.tEst / 200 ∧ s.prl.tEst ≤ x + s.prl.tEst / 200 := by
  unfold State.intervalAgrees
  cases s.vcm.fwdInterval with
  | none => simp
  | some x =>
    simp only [decide_eq_true_eq, Option.some.injEq, exists_eq_left']
    omega

/-- Settles O44: the mark's placing decides what it counts for, and the station state what it brings. -/
theorem markJudged : Obligations.MarkJudged := by
  intro placing refHeard s u qualifies counts runs large
  have hQualifies : s.qualifies placing refHeard = true ↔ qualifies := by
    cases placing with
    | group d reference alpha e =>
      show decide (e.natAbs ≤ 100) = true ↔ -100 ≤ e ∧ e ≤ 100
      rw [decide_eq_true_iff]
      omega
    | flywheel => exact ⟨nofun, False.elim⟩
    | localVoltage =>
      show (!refHeard && s.intervalAgrees) = true ↔ _
      rw [Bool.and_eq_true, Bool.not_eq_true', intervalAgrees_iff]
  have hCounts : s.markCounts placing refHeard ↔ counts := and_congr_right fun _ => and_congr_right fun _ => hQualifies
  have hRuns : runs = runsAfter placing s.stc.badRun s.stc.goodRun := by
    cases placing with
    | group d reference alpha e =>
      exact ite_of_iff (by omega) rfl (ite_of_iff (by omega) rfl rfl)
    | flywheel => rfl
    | localVoltage => rfl
  have hLarge : placing.large = true ↔ large := by
    cases placing with
    | group d reference alpha e =>
      show decide (1000 < e.natAbs) = true ↔ 1000 < e ∨ e < -1000
      rw [decide_eq_true_iff]
      omega
    | flywheel => exact ⟨nofun, False.elim⟩
    | localVoltage => exact ⟨nofun, False.elim⟩
  have hWith : s.stc.withRuns placing = { s.stc with badRun := runs.1, goodRun := runs.2 } := by
    rw [hRuns]
    rfl
  have hBad : (s.stc.withRuns placing).badRun = runs.1 := congrArg Stc.badRun hWith
  refine ⟨fun hState hNot => ?_, fun hState hYes hFew => ?_, fun hState hYes hSeven hClear => ?_,
    fun hState => ⟨fun hSmall => ?_, fun hBig hThree hFiring => ?_, fun hBig hThree hSynced => ?_⟩, judgeMark_still⟩
  · exact (judgeMark_listening hState).trans (judgeListening_not (mt hCounts.1 hNot))
  · refine (judgeMark_listening hState).trans ((judgeListening_counts (hCounts.2 hYes)).trans (if_neg ?_))
    omega
  · have hEntered : u = enterSynced (s.setStc { s.stc with syncCount := s.stc.syncCount + 1 }) :=
      (judgeMark_listening hState).trans ((judgeListening_counts (hCounts.2 hYes)).trans (if_pos (by omega)))
    rw [hEntered]
    exact enterSynced_listening (s := s.setStc { s.stc with syncCount := s.stc.syncCount + 1 }) hState hClear
  · refine (judgeMark_runs hState).trans ((judgeRuns_eq ..).trans ((if_neg ?_).trans ?_))
    · rw [hBad, hLarge]
      exact hSmall
    · rw [hWith]
      by_cases hEight : runs.2 = 8
      · rw [if_pos hEight, if_pos hEight]
        rfl
      · rw [if_neg hEight, if_neg hEight]
        rfl
  all_goals
    have hLost : u = loseLattice (s.setStc { s.stc with badRun := runs.1, goodRun := runs.2 }) := by
      refine (judgeMark_runs hState).trans ((judgeRuns_eq ..).trans ((if_pos ?_).trans ?_))
      · exact ⟨hLarge.2 hBig, hBad.trans hThree⟩
      · rw [hWith]
    have hZero : runs.2 = 0 := by rw [hRuns, runsAfter_large (hLarge.2 hBig)]
    rw [hLost, hThree, hZero]
  · refine (if_neg hFiring).trans ?_
    cases hSet : s.stc.syncLost with
    | false => exact if_neg (by simp [hSet])
    | true =>
      exact (if_pos hSet).trans
        (congrArg (fun lost => s.setStc { s.stc with badRun := 3, goodRun := 0, syncLost := lost }) hSet)
  · have hEntered : loseLattice (s.setStc { s.stc with badRun := 3, goodRun := 0 })
        = enterListening (s.setStc { s.stc with
            badRun := 3, goodRun := 0, syncLossCount := count16 s.stc.syncLossCount }) := if_pos hSynced
    rw [hEntered, enterListening_synced (s := s.setStc { s.stc with
      badRun := 3, goodRun := 0, syncLossCount := count16 s.stc.syncLossCount }) hSynced, aborted_stc,
      State.setStc_stc, Stc.listening_overConsumed]
    exact ⟨rfl, rfl, rfl, rfl, rfl, rfl, aborted_executing _, rfl⟩

end
end Sys2Proof.Machine
end

