-- ==== Sys2Proof/Proofs/LevelOutcomes.lean ====
section
/-! PROOFS. The outcomes of a level record, what a change of the records brings, and CLEAR LEVEL. -/

namespace Sys2Proof.Machine

/-! ### One record (R80 to R84, R92) -/

section
variable {x : LevelRecord}

/-- The state of a record that is not latched, by the other miss count where one is 0. -/
def loweredState (misses : Nat) : LevelState := if misses = 0 then .normal else .suspect

theorem lost_iff : x.lost = true ↔ x.state = .silent ∨ x.state = .nofire := by
  unfold LevelRecord.lost
  rw [Bool.or_eq_true, decide_eq_true_iff, decide_eq_true_iff]

theorem restate_latched (h : x.state = .silent ∨ x.state = .nofire) : x.restate = x := if_pos (lost_iff.2 h)

theorem restate_free (h : ¬ (x.state = .silent ∨ x.state = .nofire)) :
    x.restate = { x with state := if x.fwdMiss = 0 ∧ x.ackMiss = 0 then .normal else .suspect } :=
  if_neg (mt lost_iff.1 h)

theorem takeFwd_present (x : LevelRecord) : x.takeFwd true = if x.state = .silent then x
    else { x with
      fwdMiss := 0
      state := if x.state = .silent ∨ x.state = .nofire then x.state else loweredState x.ackMiss } := by
  unfold LevelRecord.takeFwd
  refine ite_of_iff Iff.rfl rfl ?_
  rw [if_pos rfl]
  by_cases hLatched : x.state = .silent ∨ x.state = .nofire
  · rw [restate_latched (x := { x with fwdMiss := 0 }) hLatched, if_pos hLatched]
  · rw [restate_free (x := { x with fwdMiss := 0 }) hLatched, if_neg hLatched]
    simp only [true_and, loweredState]

theorem LevelRecord.Ok.fwdMiss_le (h : x.Ok) (hSilent : x.state ≠ .silent) : x.fwdMiss ≤ 2 := by
  by_cases hNofire : x.state = .nofire
  · exact (h.nofire hNofire).2
  · exact (h.unlatched hSilent hNofire).1

theorem takeFwd_absent (h : x.Ok) : x.takeFwd false = if x.state = .silent then x
    else if x.fwdMiss = 2 then { x with fwdMiss := 3, state := .silent, seen := false }
    else { x with
      fwdMiss := x.fwdMiss + 1
      state := if x.state = .silent ∨ x.state = .nofire then x.state else .suspect } := by
  unfold LevelRecord.takeFwd
  by_cases hSilent : x.state = .silent
  · rw [if_pos hSilent, if_pos hSilent]
  · have hMiss := h.fwdMiss_le hSilent
    rw [if_neg hSilent, if_neg hSilent, if_neg Bool.false_ne_true]
    refine ite_of_iff (by omega) rfl ?_
    by_cases hLatched : x.state = .silent ∨ x.state = .nofire
    · rw [restate_latched (x := { x with fwdMiss := x.fwdMiss + 1 }) hLatched, if_pos hLatched]
    · rw [restate_free (x := { x with fwdMiss := x.fwdMiss + 1 }) hLatched, if_neg hLatched]
      rfl

/-- The ack miss count 0 of a level that is not latched. -/
theorem restate_ackPresent (h : ¬ (x.state = .silent ∨ x.state = .nofire)) :
    { x with ackMiss := 0 }.restate = { x with ackMiss := 0, state := loweredState x.fwdMiss } := by
  rw [restate_free (x := { x with ackMiss := 0 }) h]
  simp only [and_true, loweredState]

theorem takeAck_free (h : ¬ (x.state = .silent ∨ x.state = .nofire)) (present : Bool) : x.takeAck present =
    if present then { x with ackMiss := 0, state := loweredState x.fwdMiss }
    else if 2 ≤ x.ackMiss then { x with ackMiss := 3, state := .nofire, seen := false }
    else { x with ackMiss := x.ackMiss + 1, state := .suspect } := by
  rw [← restate_ackPresent h]
  have hMissed : { x with ackMiss := x.ackMiss + 1 }.restate
      = { x with ackMiss := x.ackMiss + 1, state := .suspect } := by
    rw [restate_free (x := { x with ackMiss := x.ackMiss + 1 }) h, if_neg fun hBoth => Nat.succ_ne_zero _ hBoth.2]
  rw [← hMissed]
  obtain ⟨state, fwdMiss, ackMiss, prfCount, seen, lastSurvey⟩ := x
  cases state with
  | silent => exact absurd (.inl rfl) h
  | nofire => exact absurd (.inr rfl) h
  | normal => rfl
  | suspect => rfl

theorem takeAck_absent (h : x.Ok) : x.takeAck false = if x.state = .silent ∨ x.state = .nofire then x
    else if x.ackMiss = 2 then { x with ackMiss := 3, state := .nofire, seen := false }
    else { x with ackMiss := x.ackMiss + 1, state := .suspect } := by
  by_cases hLatched : x.state = .silent ∨ x.state = .nofire
  · rw [if_pos hLatched]
    unfold LevelRecord.takeAck
    obtain hState | hState := hLatched <;> rw [hState]
    exact if_neg Bool.false_ne_true
  · have hMiss := (h.unlatched (fun hs => hLatched (.inl hs)) fun hn => hLatched (.inr hn)).2
    rw [takeAck_free hLatched, if_neg hLatched, if_neg Bool.false_ne_true]
    exact ite_of_iff (by omega) rfl rfl

end

/-! ### The table (R87 to R89) -/

theorem consumedIn_eq (levels : List LevelRecord) :
    consumedIn levels = levels.countP fun x => decide (x.state = .silent ∨ x.state = .nofire) :=
  congrArg (fun p => levels.countP p) (funext fun _ => (Bool.decide_or _ _).symm)

/-- Settles O53: the outcomes record by record, and then what the changed records bring. -/
theorem levelOutcomesApplied : Obligations.LevelOutcomesApplied := by
  refine ⟨fun x h => ⟨takeFwd_present x, takeFwd_absent h, ?_, takeAck_absent h, fun result => ?_,
      fun present result => ⟨h.takeFwd present, h.takeAck present, h.takeSurvey result, h.signOfLife, h.takePrf,
        h.clear⟩⟩, ?_⟩
  · cases hState : x.state with
    | silent => unfold LevelRecord.takeAck; rw [hState]
    | nofire => unfold LevelRecord.takeAck; rw [hState]; rfl
    | normal => exact takeAck_free (by rw [hState]; decide) true
    | suspect => exact takeAck_free (by rw [hState]; decide) true
  · obtain ⟨state, fwdMiss, ackMiss, prfCount, seen, lastSurvey⟩ := x
    cases state with
    | silent => cases result <;> rfl
    | nofire => cases result <;> rfl
    | normal =>
      cases result with
      | ok => exact restate_ackPresent (x := ⟨.normal, fwdMiss, ackMiss, prfCount, seen, some .ok⟩) (not_or.2 ⟨nofun, nofun⟩)
      | noAck => rfl
      | cross => rfl
    | suspect =>
      cases result with
      | ok => exact restate_ackPresent (x := ⟨.suspect, fwdMiss, ackMiss, prfCount, seen, some .ok⟩) (not_or.2 ⟨nofun, nofun⟩)
      | noAck => rfl
      | cross => rfl
  · intro levels s u silent consumed
    have hLvt : u.lvt = lvtOf s.cfg levels := setLevels_lvt levels s
    have hConsumed : consumed = consumedIn levels := (consumedIn_eq levels).symm
    obtain ⟨hTrip, hLow⟩ := setLevels_conditions levels s
    rw [hConsumed]
    refine ⟨congrArg Lvt.levels hLvt, congrArg Lvt.silentCount hLvt, congrArg Lvt.consumed hLvt,
      congrArg Lvt.qfEff hLvt, congrArg Lvt.qrEff hLvt, ?_, ?_, hTrip, hLow,
      congrArg Stc.state (setLevels_stc levels s), fun hIdle => ?_⟩
    · rw [hLvt]
      exact decide_eq_true_iff
    · rw [hLvt]
      exact redundancyLowAt_iff _ _
    · have hWent : u = (levelsSet levels s).setStc (s.stc.went (s.afterCountChange (consumedIn levels))) :=
        (setLevels_wentTo levels s).trans (wentTo_idle (s := levelsSet levels s) hIdle _)
      rw [hWent]
      rfl

end Sys2Proof.Machine
end

