-- ==== Sys2Proof/Proofs/AlarmDelays.lean ====
section
/-! PROOFS. The delay logic of an alarm line, at a change of its condition and at its expiries (R151, R153, R154). -/

namespace Sys2Proof.Machine

section
variable {s : State} {t : Instant} {clock : Nat} {toAssert toRelease : TimeSetting}

theorem hand_same (x : AlarmLine) : x.hand clock toAssert toRelease x.condition = x := if_pos rfl

/-- A condition that becomes true on a line in order: the assert delay runs, or the release delay stops. -/
theorem rise_of_ok {x : AlarmLine} (h : x.Ok toAssert toRelease) (hOld : x.condition = false) :
    x.rise clock toAssert =
      if x.timer = .idle then
        if toAssert.factor = 0 then { x with condition := true, logic := true }
        else { x with condition := true, timer := .asserting (timerExpiry toAssert clock) }
      else { x with condition := true, timer := .idle } := by
  obtain ⟨old, logic, timer, override⟩ := x
  obtain rfl : old = false := hOld
  cases timer with
  | idle =>
    obtain rfl : logic = false := h
    rfl
  | asserting expiry => exact absurd h.1 Bool.false_ne_true
  | releasing expiry =>
    obtain rfl : logic = true := h.2.1
    rfl

/-- A condition that becomes false on a line in order: the release delay runs, or the assert delay stops. -/
theorem fall_of_ok {x : AlarmLine} (h : x.Ok toAssert toRelease) (hOld : x.condition = true) :
    x.fall clock toRelease =
      if x.timer = .idle then
        if toRelease.factor = 0 then { x with condition := false, logic := false }
        else { x with condition := false, timer := .releasing (timerExpiry toRelease clock) }
      else { x with condition := false, timer := .idle } := by
  obtain ⟨old, logic, timer, override⟩ := x
  obtain rfl : old = true := hOld
  cases timer with
  | idle =>
    obtain rfl : logic = true := h
    rfl
  | asserting expiry =>
    obtain rfl : logic = false := h.2.1
    rfl
  | releasing expiry => exact absurd h.1.symm Bool.false_ne_true

theorem changeAlarm_eq (name : AlarmName) (f : AlarmLine → AlarmLine) (s : State) :
    changeAlarm name f s = s.setPmn (s.pmn.setAlarm name (f (s.pmn.line name))) := rfl

/-- A line put back as it stands. -/
theorem setAlarm_line_self (name : AlarmName) (p : Pmn) : p.setAlarm name (p.line name) = p := by
  cases name <;> rfl

/-- An expiry that finds the line as it is changes nothing. -/
theorem changeAlarm_still {name : AlarmName} {f : AlarmLine → AlarmLine}
    (h : f (s.pmn.line name) = s.pmn.line name) : changeAlarm name f s = s := by
  rw [changeAlarm_eq, h, setAlarm_line_self]
  rfl

/-- Settles O52, by the condition and the timer before. -/
theorem alarmDelaysRun : Obligations.AlarmDelaysRun := by
  refine ⟨fun clock toAssert toRelease condition x h => ?_, fun t name s hSupplied hSet => ?_⟩
  · cases hOld : x.condition with
    | false =>
      cases condition with
      | false => exact if_pos hOld
      | true =>
        have hRise : x.hand clock toAssert toRelease true = x.rise clock toAssert :=
          (if_neg (hOld ▸ Bool.false_ne_true)).trans (if_pos rfl)
        rw [hRise, rise_of_ok h hOld]
        cases x.timer <;> rfl
    | true =>
      cases condition with
      | true => exact if_pos hOld
      | false =>
        have hFall : x.hand clock toAssert toRelease false = x.fall clock toRelease :=
          (if_neg (hOld ▸ Bool.false_ne_true.symm)).trans (if_neg Bool.false_ne_true)
        rw [hFall, fall_of_ok h hOld]
        cases x.timer <;> rfl
  · intro r x
    have hAssert := act_set (t := t) hSupplied hSet fun u => changeAlarm name (AlarmLine.assertExpiry u.clock)
    have hRelease := act_set (t := t) hSupplied hSet fun u => changeAlarm name (AlarmLine.releaseExpiry u.clock)
    refine ⟨fun expiry hTimer => hAssert.trans (congrArg Host.Outcome.next ?_),
      fun expiry hTimer => hRelease.trans (congrArg Host.Outcome.next ?_), fun hTimer => ⟨?_, ?_⟩, fun y other => ?_⟩
    · have hExpiry : x.assertExpiry r.clock
          = if expiry ≤ r.clock then { x with logic := true, timer := .idle } else x := by
        unfold AlarmLine.assertExpiry
        rw [hTimer]
      by_cases hDue : expiry ≤ r.clock
      · rw [if_pos hDue] at hExpiry ⊢
        exact congrArg (fun y => r.setPmn (s.pmn.setAlarm name y)) hExpiry
      · rw [if_neg hDue] at hExpiry ⊢
        exact changeAlarm_still (s := r) hExpiry
    · have hExpiry : x.releaseExpiry r.clock
          = if expiry ≤ r.clock then { x with logic := false, timer := .idle } else x := by
        unfold AlarmLine.releaseExpiry
        rw [hTimer]
      by_cases hDue : expiry ≤ r.clock
      · rw [if_pos hDue] at hExpiry ⊢
        exact congrArg (fun y => r.setPmn (s.pmn.setAlarm name y)) hExpiry
      · rw [if_neg hDue] at hExpiry ⊢
        exact changeAlarm_still (s := r) hExpiry
    · refine hAssert.trans (congrArg Host.Outcome.next (changeAlarm_still (s := r) ?_))
      show x.assertExpiry r.clock = x
      unfold AlarmLine.assertExpiry
      rw [hTimer]
    · refine hRelease.trans (congrArg Host.Outcome.next (changeAlarm_still (s := r) ?_))
      show x.releaseExpiry r.clock = x
      unfold AlarmLine.releaseExpiry
      rw [hTimer]
    · rw [Pmn.setAlarm_line]

end
end Sys2Proof.Machine
end

