-- ==== Sys2Proof/Proofs/CarriedCommands.lean ====
section
/-! PROOFS. The COMMAND frames: the checks of R159, and what each command does that passes them. -/

namespace Sys2Proof.Machine

section
variable {s : State} {t : Instant} {rx : RxCopy} {head : CmdHead} {code : Byte} {permitted argument : State → Bool}
  {carry : State → State}

/-! ### The checks of R159 -/

/-- The check that refuses a command with a known code, by what permits it and what its arguments need. -/
def State.refusal (code : Byte) (permitted argument : State → Bool) (s : State) : Option Detail :=
  if s.stc.strapError then some .strap
  else if s.cmu.executing.isSome ∧ code ≠ codeRestart then some .busy
  else if permitted s = false then some .state
  else if argument s = false then some .argument
  else none

theorem judgeCommand_refused {detail : Detail} (h : s.refusal code permitted argument = some detail) :
    judgeCommand head code permitted argument carry s = refuseWith head code detail [] s := by
  unfold State.refusal at h
  unfold judgeCommand
  simp only [Bool.not_eq_true']
  split at h
  · cases h
    exact if_pos ‹_›
  · rw [if_neg ‹_›]
    split at h
    · cases h
      exact if_pos ‹_›
    · rw [if_neg ‹_›]
      split at h
      · cases h
        exact if_pos ‹_›
      · rw [if_neg ‹_›]
        split at h
        · cases h
          exact if_pos ‹_›
        · cases h

/-- A command that passes the checks is carried out. -/
theorem judgeCommand_carried (hStrap : s.stc.strapError = false)
    (hFree : s.cmu.executing = none ∨ code = codeRestart) (hPermitted : permitted s = true)
    (hArgument : argument s = true) : judgeCommand head code permitted argument carry s = carry s := by
  unfold judgeCommand
  rw [if_neg (Bool.eq_false_iff.1 hStrap), if_neg, hPermitted, hArgument]
  · rfl
  · rintro ⟨hBusy, hCode⟩
    obtain hIdle | hRestart := hFree
    · rw [hIdle] at hBusy
      cases hBusy
    · exact hCode hRestart

/-- A COMMAND that reaches the CMU and passes the checks is carried out in the state that the reception leaves. -/
theorem command_carried (hReaches : reachesCmu t rx head s = true) (hStrap : s.stc.strapError = false)
    (hFree : s.cmu.executing = none ∨ code = codeRestart) (hPermitted : permitted (s.at t rx) = true)
    (hArgument : argument (s.at t rx) = true) :
    act t s (receiveCommand rx head (judgeCommand head code permitted argument carry)) = .next (carry (s.at t rx)) := by
  rw [receiveCommand_reaches hReaches, judgeCommand_carried _ _ hPermitted hArgument]
  · rw [State.at_stc, hStrap]
  · rwa [State.at_cmu]

theorem command_refused {detail : Detail} (hReaches : reachesCmu t rx head s = true)
    (h : (s.at t rx).refusal code permitted argument = some detail) :
    act t s (receiveCommand rx head (judgeCommand head code permitted argument carry))
      = .next (refuseWith head code detail [] (s.at t rx)) := by
  rw [receiveCommand_reaches hReaches, judgeCommand_refused h]

/-- The refusals of the table of R159 are those of the columns and of the arguments. -/
theorem refusalOf_eq {c : Instr} (hLow : code.toNat ≠ 0) (hHigh : code.toNat ≤ 11)
    (hTaken : takenIn code.toNat s.stc.state s.vcm.valve = permitted s)
    (hArgument : argumentsOk s.cfg.levels c = argument s) :
    refusalOf c code s = s.refusal code permitted argument := by
  have hRestart : code.toNat ≠ 11 ↔ code ≠ codeRestart := not_congr (BitVec.toNat_inj (x := code) (y := codeRestart))
  unfold refusalOf State.refusal
  rw [if_neg (c := code.toNat = 0 ∨ _) (by omega), hTaken, hArgument]
  simp only [hRestart]

theorem permitClear_eq (s : State) :
    decide (s.stc.state = .listening ∨ s.stc.state = .synced ∨ s.stc.state = .tripped) = permitClear s := by
  rw [Bool.eq_iff_iff, permitClear_iff, decide_eq_true_iff]

theorem permitSurvey_eq (s : State) : decide (s.stc.state = .synced ∧ s.vcm.valve ≠ .dark) = permitSurvey s := by
  rw [permitSurvey, Bool.decide_and]

theorem surveyRangeOk_eq (levels first last : Nat) :
    decide (1 ≤ first ∧ first ≤ last ∧ last ≤ levels) = surveyRangeOk levels first last := by
  rw [surveyRangeOk, Bool.decide_and, Bool.decide_and, Bool.and_assoc]

theorem readRangeOk_eq (levels first count : Nat) :
    decide (1 ≤ first ∧ 1 ≤ count ∧ count ≤ 16 ∧ first + count ≤ levels + 1) = readRangeOk levels first count := by
  rw [Bool.eq_iff_iff, readRangeOk, Bool.and_eq_true, Bool.and_eq_true, within_iff]
  simp only [decide_eq_true_iff]
  omega

theorem within_eq (lo hi n : Nat) : decide (lo ≤ n ∧ n ≤ hi) = within lo hi n := by
  rw [Bool.eq_iff_iff, within_iff, decide_eq_true_iff]

theorem releaseArgOk_eq (lines : Byte) : decide (1 ≤ lines.toNat ∧ lines.toNat < 16) = releaseArgOk lines := by
  rw [releaseArgOk, ← within_eq]
  exact decide_eq_decide.2 (by omega)

theorem forceArgOk_iff (lines : Byte) :
    forceArgOk lines = true ↔ lines.toNat ≠ 0 ∧ ∀ n, forceField lines n ≠ 3 := by
  rw [forceArgOk, Bool.and_eq_true, decide_eq_true_iff, List.all_eq_true]
  simp only [decide_eq_true_iff]
  exact and_congr_right fun _ => ⟨fun h n => h n (by cases n <;> decide), fun h n _ => h n⟩

theorem forceArgOk_eq (lines : Byte) : decide (lines.toNat ≠ 0 ∧ lines.toNat % 4 ≠ 3 ∧ lines.toNat / 4 % 4 ≠ 3
    ∧ lines.toNat / 16 % 4 ≠ 3 ∧ lines.toNat / 64 ≠ 3) = forceArgOk lines := by
  rw [Bool.eq_iff_iff, forceArgOk_iff, decide_eq_true_iff]
  have hTop : lines.toNat / 64 % 4 = lines.toNat / 64 := Nat.mod_eq_of_lt (by have := lines.isLt; omega)
  refine and_congr_right fun _ => ⟨fun ⟨hTrip, hRed, hCf, hPrf⟩ n => ?_, fun h =>
    ⟨h .tripRequest, h .redundancyLow, h .commutationFailure, hTop ▸ h .prfRate⟩⟩
  cases n with
  | tripRequest => exact hTrip
  | redundancyLow => exact hRed
  | commutationFailure => exact hCf
  | prfRate => exact fun hThree => hPrf (hTop.symm.trans hThree)

theorem knownCode_iff (code : Byte) : knownCode code = true ↔ ¬ (code.toNat = 0 ∨ 11 < code.toNat) := by
  unfold knownCode
  rw [Bool.and_eq_true, decide_eq_true_iff, decide_eq_true_iff]
  omega

/-- An unknown code is refused, by the straps or as unknown. -/
theorem unknownCommand_refused (hReaches : reachesCmu t rx head s = true) (h : knownCode code = false) :
    exec (.unknownCommand t rx head code) s
      = .next (refuseWith head code (if s.stc.strapError then .strap else .unknown) [] (s.at t rx)) := by
  have hTake : (fun x => if knownCode code then x else receiveCommand rx head
      (fun u => refuseWith head code (if u.stc.strapError then .strap else .unknown) [] u) x)
      = receiveCommand rx head (fun u => refuseWith head code (if u.stc.strapError then .strap else .unknown) [] u) :=
    funext fun _ => if_neg (Bool.eq_false_iff.1 h)
  refine Eq.trans (congrArg (act t s) hTake) ?_
  rw [receiveCommand_reaches hReaches, State.at_stc]

/-- A command with a known code is refused as the table of R159 has it. -/
theorem command_refusedBy {c : Instr} {detail : Detail} (hReaches : reachesCmu t rx head s = true)
    (hRefusal : refusalOf c code (s.at t rx) = some detail) (hLow : code.toNat ≠ 0) (hHigh : code.toNat ≤ 11)
    (hTaken : takenIn code.toNat (s.at t rx).stc.state (s.at t rx).vcm.valve = permitted (s.at t rx))
    (hArgument : argumentsOk (s.at t rx).cfg.levels c = argument (s.at t rx)) :
    act t s (receiveCommand rx head (judgeCommand head code permitted argument carry))
      = .next (refuseWith head code detail [] (s.at t rx)) :=
  command_refused hReaches ((refusalOf_eq hLow hHigh hTaken hArgument).symm.trans hRefusal)

theorem refusalOf_unknown {c : Instr} (h : code.toNat = 0 ∨ 11 < code.toNat) :
    refusalOf c code s = some (if s.stc.strapError then .strap else .unknown) := by
  unfold refusalOf
  rw [if_pos h]
  exact (apply_ite some ..).symm

/-- Settles O26, command by command: the columns and arguments of R159. -/
theorem commandRefused : Obligations.CommandRefused := by
  refine ⟨fun c s rx head code detail hCommand hWf hReaches hRefusal => ?_,
    fun t rx head code s hReaches hStrap hCode => ?_⟩
  · cases c
    case survey =>
      cases hCommand
      refine command_refusedBy hReaches hRefusal (by decide) (by decide) ?_ ?_
      · exact permitSurvey_eq _
      · exact surveyRangeOk_eq ..
    case readLevels =>
      cases hCommand
      refine command_refusedBy hReaches hRefusal (by decide) (by decide) rfl ?_
      exact readRangeOk_eq ..
    case clearLevelOne =>
      cases hCommand
      refine command_refusedBy hReaches hRefusal (by decide) (by decide) ?_ ?_
      · exact permitClear_eq _
      · exact within_eq ..
    case clearLevelAll =>
      cases hCommand
      refine command_refusedBy hReaches hRefusal (by decide) (by decide) ?_ rfl
      exact permitClear_eq _
    case forceOutputs =>
      cases hCommand
      refine command_refusedBy hReaches hRefusal (by decide) (by decide) rfl ?_
      exact forceArgOk_eq _
    case releaseOutputs =>
      cases hCommand
      refine command_refusedBy hReaches hRefusal (by decide) (by decide) rfl ?_
      exact releaseArgOk_eq _
    case unknownCommand =>
      cases hCommand
      have hUnknown : knownCode code = false := by
        rw [wellFormed, Bool.and_eq_true, Bool.not_eq_true'] at hWf
        exact hWf.2
      have hCode : code.toNat = 0 ∨ 11 < code.toNat := by
        refine Classical.byContradiction fun h => ?_
        exact Bool.false_ne_true (hUnknown.symm.trans ((knownCode_iff code).2 h))
      rw [refusalOf_unknown hCode, State.at_stc] at hRefusal
      cases hRefusal
      exact unknownCommand_refused hReaches hUnknown
    case setup | readRoll | readHolds | clearHolds | restart =>
      cases hCommand
      exact command_refusedBy hReaches hRefusal (by decide) (by decide) rfl rfl
    all_goals cases hCommand
  · have hUnknown : knownCode code = false := Bool.eq_false_iff.2 (mt (knownCode_iff code).1 (Classical.not_not.2 hCode))
    rw [unknownCommand_refused hReaches hUnknown, hStrap]
    rfl

/-! ### SETUP and SURVEY (R4, R5, R168) -/

/-- A SETUP taken in UNSET is judged field by field. -/
theorem setup_taken (fields : SetupFields) (hReaches : reachesCmu t rx head s = true)
    (hStrap : s.stc.strapError = false) (hIdle : s.cmu.executing = none) (hUnset : s.stc.state = .unset) :
    exec (.setup t rx head fields) s = .next (takeSetup head fields (s.at t rx)) :=
  command_carried hReaches hStrap (.inl hIdle)
    (by rw [permitUnset, State.at_stc, hUnset]; rfl) rfl

/-- Settles O27: the first check that fails has the least index, and the refusal names it. -/
theorem setupRefusedWhole : Obligations.SetupRefusedWhole := by
  refine ⟨fun t rx head f s index hReaches hStrap hIdle hUnset hBad => ⟨?_, ?_, ?_⟩, fun f =>
    ⟨firstBadField_none_iff f, firstBadField_some_iff f⟩⟩
  · obtain ⟨⟨k, ok⟩, hFind, hIndex⟩ := Option.map_eq_some_iff.1 hBad
    obtain rfl : k = index := hIndex
    have hFails : ok = false := by simpa using List.find?_some hFind
    exact hFails ▸ List.mem_of_find?_eq_some hFind
  · obtain ⟨-, -, -, hBelow⟩ := (firstBadField_some_iff f index).1 hBad
    refine fun check hMem hLess => (setupChecks_iff f check hMem).2 (hBelow check.1 ?_ hLess)
    have hIndices : (setupChecks f).map Prod.fst = List.range' 1 27 := rfl
    have hMem : check.1 ∈ List.range' 1 27 := hIndices ▸ List.mem_map_of_mem hMem
    exact (List.mem_range'_1.1 hMem).1
  · refine (setup_taken f hReaches hStrap hIdle hUnset).trans (congrArg Host.Outcome.next ?_)
    unfold takeSetup
    rw [hBad]
    rfl

/-- The table as it is formed from a record in range: no level is SILENT and none consumed. -/
theorem Lvt.formed_inRange {c : Setup} (h : c.InRange) : Lvt.formed c =
    { levels := List.replicate c.levels LevelRecord.fresh, silentCount := 0, consumed := 0
      qfEff := min c.qf c.levels, qrEff := min c.qr c.levels, redundancyLow := false, tripCondition := false } := by
  obtain ⟨hLevels, -, -, -, hQf, -, hQr, -⟩ := h
  have hLow : redundancyLowAt c.redundancy 0 = false := by
    rw [Bool.eq_false_iff, ne_eq, redundancyLowAt_iff]
    omega
  have hTrip : decide (c.redundancy < 0) = false := decide_eq_false (Nat.not_lt_zero _)
  have hQuorum (q : Nat) (hq : 1 ≤ q) : effectiveQuorum q c.levels 0 = min q c.levels := by
    unfold effectiveQuorum
    omega
  unfold Lvt.formed lvtOf
  rw [silentIn_fresh, consumedIn_fresh, hLow, hTrip, hQuorum _ hQf, hQuorum _ hQr]

/-- Settles O28, by the table as it is formed. -/
theorem setupAdopted : Obligations.SetupAdopted := by
  intro t rx head f s hReaches hStrap hIdle hUnset hGood c p fresh
  have hRange := setupOf_inRange hGood
  refine ⟨hRange, (setup_taken f hReaches hStrap hIdle hUnset).trans (congrArg Host.Outcome.next ?_)⟩
  have hTaken : takeSetup head f (s.at t rx) = adoptSetup head c (s.at t rx) := by
    unfold takeSetup
    rw [hGood]
  rw [hTaken, adoptSetup_eq head c (by rw [State.at_stc, hUnset])]
  exact congrArg (fun table => { State.configured c (doneWith head codeSetup [] (s.at t rx)) with lvt := table })
    (Lvt.formed_inRange hRange)

/-- Settles O29. -/
theorem surveyTaken : Obligations.SurveyTaken := by
  intro t rx head first last s hReaches hStrap hIdle hSynced hValve hFirst hOrder hLast
  refine command_carried hReaches hStrap (.inl hIdle) ?_ ?_
  · rw [← permitSurvey_eq, State.at_stc, State.at_vcm]
    exact decide_eq_true ⟨hSynced, hValve⟩
  · rw [← surveyRangeOk_eq, State.at_cfg]
    exact decide_eq_true ⟨hFirst, hOrder, hLast⟩

/-! ### CLEAR LEVEL (R91) -/

/-- The consumed count is that of the records. -/
theorem LevelsOk.consumedIn (h : LevelsOk s) : consumedIn s.lvt.levels = s.lvt.consumed := by
  obtain ⟨-, hTable⟩ := h
  cases hSetup : s.stc.setup with
  | none =>
    rw [hSetup] at hTable
    rw [hTable.1, hTable.2]
    rfl
  | some c =>
    rw [hSetup] at hTable
    obtain ⟨-, -, hConsumed, -⟩ := hTable
    exact hConsumed.symm

/-- Records of which none becomes lost are as many lost ones at most. -/
theorem countP_mapFrom_le {α : Type} {p : α → Bool} {f : Nat → α → α} (h : ∀ i x, p (f i x) = true → p x = true)
    (items : List α) (start : Nat) : (mapFrom f start items).countP p ≤ items.countP p := by
  induction items generalizing start with
  | nil => exact Nat.le_refl _
  | cons x rest ih =>
    rw [mapFrom, List.countP_cons, List.countP_cons]
    refine Nat.add_le_add (ih _) ?_
    by_cases hNew : p (f start x) = true
    · exact Nat.le_of_eq ((if_pos hNew).trans (if_pos (h _ _ hNew)).symm)
    · rw [if_neg hNew]
      exact Nat.zero_le _

theorem consumedIn_clearOne (levels : List LevelRecord) (n : Nat) :
    consumedIn (changeAt LevelRecord.clear levels n) ≤ consumedIn levels := by
  refine countP_mapFrom_le (fun i x h => ?_) levels 1
  by_cases hNamed : i = n
  · rw [if_pos hNamed] at h
    cases h
  · rwa [if_neg hNamed] at h

theorem consumedIn_clearAll (levels : List LevelRecord) : consumedIn (levels.map LevelRecord.clear) = 0 := by
  refine List.countP_eq_zero.2 fun x hx => ?_
  obtain ⟨y, -, rfl⟩ := List.mem_map.1 hx
  exact Bool.false_ne_true

theorem silentIn_clearAll (levels : List LevelRecord) : silentIn (levels.map LevelRecord.clear) = 0 := by
  refine List.countP_eq_zero.2 fun x hx => ?_
  obtain ⟨y, -, rfl⟩ := List.mem_map.1 hx
  exact Bool.false_ne_true

/-- STC's records in a state that is not TRIPPED, or is the one before. -/
theorem Stc.went_untripped {x : Stc} {new : StationState} (h : new = x.state ∨ new ≠ .tripped) :
    x.went new = { x with state := new, darkTimer := if new = x.state then x.darkTimer else none } := by
  have hTrip : ¬ (new = .tripped ∧ x.state ≠ .tripped) := by
    rintro ⟨rfl, hOld⟩
    exact h.elim (fun hSame => hOld hSame.symm) fun hNew => hNew rfl
  unfold Stc.went
  rw [if_neg hTrip]

/-- Where a consumed count that does not rise leaves the station. -/
theorem afterCountChange_lowered {consumed : Nat} (h : consumed ≤ s.lvt.consumed) : s.afterCountChange consumed =
    if s.stc.state = .synced ∧ consumed ≠ s.lvt.consumed then
      { s with lvt := { s.lvt with consumed := consumed } }.fromSynced s.orh.current
    else s.stc.state := by
  unfold State.afterCountChange
  by_cases hSame : consumed = s.lvt.consumed
  · rw [if_pos hSame, if_neg fun hBoth => hBoth.2 hSame]
  · rw [if_neg hSame]
    by_cases hSynced : s.stc.state = .synced
    · rw [if_pos (c := _ ∨ _) (.inr hSynced), if_neg (c := _ < _ ∧ _) fun hRise => Nat.not_lt.2 h hRise.1, if_pos hSynced,
        if_pos (c := _ ∧ _ ≠ _) ⟨hSynced, hSame⟩]
    · rw [if_neg (c := _ ∧ _ ≠ _) fun hBoth => hSynced hBoth.1]
      by_cases hListening : s.stc.state = .listening
      · rw [if_pos (c := _ ∨ _) (.inl hListening), if_neg (c := _ < _ ∧ _) fun hRise => Nat.not_lt.2 h hRise.1,
          if_neg hSynced, hListening]
      · exact if_neg fun hIn => hIn.elim hListening hSynced

/-- Records changed without a new loss, with no survey in progress. -/
theorem setLevels_lowered {levels : List LevelRecord} (hIdle : s.cmu.executing = none)
    (h : consumedIn levels ≤ s.lvt.consumed) : setLevels levels s = (levelsSet levels s).setStc { s.stc with
      state := s.afterCountChange (consumedIn levels)
      darkTimer := if s.afterCountChange (consumedIn levels) = s.stc.state then s.stc.darkTimer else none } := by
  rw [setLevels_wentTo, wentTo_idle (s := levelsSet levels s) hIdle]
  refine congrArg (levelsSet levels s).setStc (Stc.went_untripped (x := s.stc) ?_)
  rw [afterCountChange_lowered h]
  split
  · exact .inr (fromSynced_ne_tripped _ _)
  · exact .inl rfl

/-- Settles O31: cleared records lose no level, so that the station is not tripped. -/
theorem levelsCleared : Obligations.LevelsCleared := by
  intro t rx head n s hReaches hStrap hIdle hState hLevels cleared clock follows
  have hPermit : permitClear (s.at t rx) = true := by
    rw [permitClear_iff, State.at_stc]
    exact hState
  have hFollows (levels : List LevelRecord) (hLow : consumedIn levels ≤ s.lvt.consumed) :
      follows (setLevels levels (s.at t rx)) := by
    have hClock : (s.at t rx).clock = clock := State.at_clock s t rx
    have hOrder : (s.at t rx).orh.current = s.orh.current := by rw [State.at_orh]; rfl
    have hStc := State.at_stc s t rx
    have hCfg := State.at_cfg s t rx
    have hVcm := State.at_vcm s t rx
    have hPmn := State.at_pmn s t rx
    have hLvt := State.at_lvt s t rx
    have hCmu := State.at_cmu s t rx
    simp only [follows]
    generalize s.at t rx = r at *
    rw [← hClock, ← hOrder, ← hStc, ← hCfg, ← hVcm, ← hPmn, ← hLvt]
    rw [← hLvt] at hLow
    have hSet := setLevels_lowered (hCmu.symm ▸ hIdle) hLow
    have hTable := setLevels_lvt levels r
    have hFrom : (setLevels levels r).fromSynced r.orh.current
        = { r with lvt := { r.lvt with consumed := consumedIn levels } }.fromSynced r.orh.current := by
      rw [hSet]
      rfl
    rw [hFrom, show (setLevels levels r).lvt.consumed = consumedIn levels from congrArg Lvt.consumed hTable,
      ← afterCountChange_lowered hLow]
    refine ⟨?_, ?_, ?_, ?_, ?_⟩
    · rw [hTable]
      rfl
    · rw [hTable]
      exact consumedIn_eq levels
    · rw [hTable]
      exact decide_eq_true_iff
    · rw [hSet]
      rfl
    · rw [hSet]
      rfl
  refine ⟨fun hLo hHi => ⟨clearLevel n.toNat (s.at t rx), ?_, fun k => ?_, ?_⟩,
    clearAllLevels (s.at t rx), ?_, ?_, ?_, ?_, ?_⟩
  · refine command_carried hReaches hStrap (.inl hIdle) hPermit ?_
    rw [State.at_cfg, within_iff]
    exact ⟨hLo, hHi⟩
  · unfold clearLevel
    rw [setLevels_lvt, State.at_lvt]
    exact itemAt_changeAt ..
  · unfold clearLevel
    rw [State.at_lvt]
    exact hFollows _ (Nat.le_trans (consumedIn_clearOne ..) (Nat.le_of_eq hLevels.consumedIn))
  · exact command_carried hReaches hStrap (.inl hIdle) hPermit rfl
  · unfold clearAllLevels
    rw [setLevels_lvt, State.at_lvt]
    rfl
  · unfold clearAllLevels
    rw [setLevels_lvt]
    exact consumedIn_clearAll _
  · unfold clearAllLevels
    rw [setLevels_lvt]
    exact silentIn_clearAll _
  · unfold clearAllLevels
    rw [State.at_lvt]
    exact hFollows _ (Nat.le_trans (Nat.le_of_eq (consumedIn_clearAll _)) (Nat.zero_le _))

/-! ### The overrides (R155, R156) and CLEAR HOLDS -/

/-- The station with every alarm line changed. -/
def State.withAlarms (f : AlarmName → AlarmLine → AlarmLine) (s : State) : State := s.setPmn (s.pmn.mapAlarms f)

theorem withAlarms_line (f : AlarmName → AlarmLine → AlarmLine) (n : AlarmName) (s : State) :
    (s.withAlarms f).pmn.line n = f n (s.pmn.line n) := by cases n <;> rfl

theorem withAlarms_eq (f : AlarmName → AlarmLine → AlarmLine) (s : State) : s.withAlarms f = { s with pmn := { s.pmn with
    tripRequest := (s.withAlarms f).pmn.tripRequest, redundancyLow := (s.withAlarms f).pmn.redundancyLow
    commutationFailure := (s.withAlarms f).pmn.commutationFailure, prfRate := (s.withAlarms f).pmn.prfRate } } := rfl

/-- Outside UNSET a line with supply shows its output. -/
theorem alarmOutput_set (hSupplied : s.supplied = true) (hSet : s.stc.state ≠ .unset) (n : AlarmName) :
    s.alarmOutput n = (s.pmn.line n).output := by
  have hHeld : s.heldBlocks = false := decide_eq_false hSet
  unfold State.alarmOutput
  rw [hSupplied, hHeld]
  rfl

theorem force_eq (lines : Byte) (n : AlarmName) (x : AlarmLine) : x.force (forcedOverride lines n) = { x with
    override := if forceField lines n = 1 then .forcedOn else if forceField lines n = 2 then .forcedOff
      else x.override } := by
  unfold forcedOverride
  split
  · rw [if_pos ‹_›]
    rfl
  · rw [if_neg (by omega), if_pos ‹_›]
    rfl
  · rename_i hOn hOff
    rw [if_neg hOn, if_neg hOff]
    rfl

theorem release_eq (named : Bool) (x : AlarmLine) :
    x.release named = { x with override := if named then .none else x.override } := by
  unfold AlarmLine.release
  split <;> rfl

theorem supplied_of_reachesCmu (h : reachesCmu t rx head s = true) : s.supplied = true := by
  unfold reachesCmu at h
  rw [Bool.and_eq_true, Bool.and_eq_true] at h
  exact h.1.1

/-- Settles O32: the data of a RESULT is read after the overrides have changed. -/
theorem monitorCommandsCarried : Obligations.MonitorCommandsCarried := by
  intro t rx head lines s hReaches hStrap hIdle hSet
  have hPermit : permitSet (s.at t rx) = true := by
    rw [permitSet_iff, State.at_stc]
    exact hSet
  have hSupplied := supplied_of_reachesCmu hReaches
  have hOutput (f : AlarmName → AlarmLine → AlarmLine) (n : AlarmName) :
      ((s.at t rx).withAlarms f).alarmOutput n = (f n (s.pmn.line n)).output := by
    refine (alarmOutput_set (s := (s.at t rx).withAlarms f) ?_ ?_ n).trans ?_
    · exact (State.at_supplied s t rx).trans hSupplied
    · show (s.at t rx).stc.state ≠ _
      rwa [State.at_stc]
    · rw [withAlarms_line, State.at_pmn]
  have hLine (f : AlarmName → AlarmLine → AlarmLine) (n : AlarmName) :
      ((s.at t rx).withAlarms f).pmn.line n = f n (s.pmn.line n) := by
    rw [withAlarms_line, State.at_pmn]
  have hFrame (f : AlarmName → AlarmLine → AlarmLine) := withAlarms_eq f (s.at t rx)
  simp only [State.at_pmn] at hFrame
  refine ⟨?_, fun hSome hField => ⟨(s.at t rx).withAlarms fun n x => x.force (forcedOverride lines n), ?_, hFrame _,
      fun n => ⟨?_, fun hOn => ?_, fun hOff => ?_, fun hNone => ?_⟩⟩, fun hLo hHi =>
    ⟨(s.at t rx).withAlarms fun n x => x.release (releaseNames lines n), ?_, hFrame _, fun n => ⟨?_, fun hNamed => ?_⟩⟩⟩
  · refine (command_carried hReaches hStrap (.inl hIdle) hPermit rfl).trans ?_
    rw [State.at_pmn]
    rfl
  · exact command_carried hReaches hStrap (.inl hIdle) hPermit ((forceArgOk_iff lines).2 ⟨hSome, hField⟩)
  · rw [hLine, force_eq]
  · rw [hOutput, force_eq, if_pos hOn]
    rfl
  · rw [hOutput, force_eq, if_neg (by omega), if_pos hOff]
    rfl
  · rw [hOutput, force_eq, if_neg (by omega), if_neg (by omega), alarmOutput_set hSupplied hSet]
  · exact command_carried hReaches hStrap (.inl hIdle) hPermit
      (by rw [← releaseArgOk_eq]; exact decide_eq_true ⟨hLo, hHi⟩)
  · rw [hLine, release_eq]
  · rw [hOutput, release_eq, if_pos hNamed]
    rfl

/-! ### RESTART (R16, R166) -/

/-- With no train and no survey an entry into LISTENING changes STC's records alone. -/
theorem enterListening_stopped (hIdle : s.cmu.executing = none) (hTrain : s.pst.train = .stopped) :
    enterListening s = s.setStc (s.stc.listening s.overConsumed) := by
  have hEnter : enterState .listening s = s.setStc (s.stc.entered .listening) := by
    rw [enterState_eq, abortSurvey_idle hIdle, ite_self]
    have hStays : trainAfter s.stc.state .listening s.pst.train = s.pst.train := by
      rw [hTrain]
      rfl
    exact congrArg (fun train => (s.setStc (s.stc.entered .listening)).setPst { s.pst with train := train }) hStays
  exact enterListening_of_enterState (u := s.setStc (s.stc.entered .listening)) hEnter rfl rfl

theorem softReset_eq (s : State) :
    softReset s = s.restarted.setStc (s.restarted.stc.listening s.restarted.overConsumed) :=
  enterListening_stopped (s := s.restarted) rfl rfl

/-- The condition of PRF RATE after RESTART: the ring is zeroed, so that a limit of 1 or more is not reached. -/
theorem restarted_prfRate (h : 1 ≤ s.cfg.prfLimit) :
    (s.restarted.pmn.line .prfRate).condition = false ∧ (s.restarted.pmn.line .prfRate).override = .none := by
  have hZero : s.pmn.restart.windowSum = 0 := by
    show ((s.pmn.ring.map fun _ => 0).sum) = 0
    rw [List.map_const', List.sum_replicate_nat, Nat.mul_zero]
  refine ⟨(handCondition_condition ..).trans (decide_eq_false ?_), ?_⟩
  · show ¬ s.cfg.prfLimit ≤ s.pmn.restart.windowSum
    omega
  · exact AlarmLine.hand_override ..

/-- Settles O33, by the blocks after RESTART and the entry into LISTENING. -/
theorem restartCarried : Obligations.RestartCarried := by
  intro t rx head s hReaches hStrap hSet hLimit r p
  have hPermit : permitSet r = true := by
    rw [permitSet_iff, State.at_stc]
    exact hSet
  refine ⟨softReset p, command_carried hReaches hStrap (.inr rfl) hPermit rfl, ?_⟩
  have hStc : p.stc = s.stc := State.at_stc s t rx
  have hPrl : p.prl = s.prl := State.at_prl s t rx
  have hVcm : p.vcm = s.vcm := State.at_vcm s t rx
  have hLvt : p.lvt = s.lvt := State.at_lvt s t rx
  have hPst : p.pst = s.pst := State.at_pst s t rx
  have hPmn : p.pmn = s.pmn := State.at_pmn s t rx
  have hOrh : p.orh = r.orh := rfl
  have hCfg : p.cfg = s.cfg := State.at_cfg s t rx
  have hFic (f : Fic → Nat) : f r.fic = f s.fic := congrArg f (State.at_fic s t rx)
  have hLate : p.fic.lateCount = s.fic.lateCount := hFic Fic.lateCount
  have hEndStop : p.fic.endStopCount = s.fic.endStopCount := hFic Fic.endStopCount
  have hForced : p.fic.forcedCount = s.fic.forcedCount := hFic Fic.forcedCount
  have hCounts (f : Orh → Nat) : f p.orh = f (s.advance t).orh := congrArg f (State.at_orh s t rx)
  have hAccepted : p.orh.accepted = s.orh.accepted := hCounts Orh.accepted
  have hRefused : p.orh.refused = s.orh.refused := hCounts Orh.refused
  have hLosses : p.orh.losses = s.orh.losses := hCounts Orh.losses
  clear_value p
  rw [softReset_eq, Stc.listening_overConsumed, ← hOrh, ← hStc, ← hPrl, ← hVcm, ← hLvt, ← hPst, ← hPmn, ← hLate, ← hEndStop, ← hForced,
    ← hAccepted, ← hRefused, ← hLosses, ← hCfg]
  rw [← hCfg] at hLimit
  obtain ⟨hPrf, hOverride⟩ := restarted_prfRate hLimit
  exact ⟨rfl, rfl, List.map_const' .., rfl, rfl, rfl, rfl, rfl, rfl, hPrf, hOverride⟩

end
end Sys2Proof.Machine
end

