-- ==== Sys2Proof/Proofs/ReadData.lean ====
section
/-! PROOFS. The data of READ LEVELS, READ ROLL and READ HOLDS, field by field (R163, R174). -/

namespace Sys2Proof.Machine

/-! ### Fields and their bytes -/

theorem bigEndian_one (n : Nat) : bigEndian 1 n = [byteOf n] := by
  rw [bigEndian, List.range_one, List.reverse_singleton, List.map_singleton, Nat.pow_zero, Nat.div_one, byteOf]

theorem laidOut_cons (x : Nat × Nat) (fields : List (Nat × Nat)) :
    laidOut (x :: fields) = bigEndian x.1 x.2 ++ laidOut fields := rfl

theorem laidOut_nil : laidOut [] = [] := rfl

theorem laidOut_flatMap {α : Type} (f : α → List (Nat × Nat)) (items : List α) :
    laidOut (items.flatMap f) = items.flatMap fun x => laidOut (f x) := List.flatMap_assoc

theorem byteOf_toNat (b : Byte) : byteOf b.toNat = b := by
  rw [byteOf, BitVec.ofNat_toNat, BitVec.setWidth_eq]

theorem angleBytes_eq (a : Option Nat) : angleBytes a = bigEndian 2 (a.getD 65535) := by
  cases a with
  | none => exact natBytes16_eq 65535
  | some a => exact natBytes16_eq a

/-- The low 16 bits of a reading in two bytes. -/
theorem bytes16_low (w : BitVec 32) : bytes16 (w.extractLsb' 0 16) = bigEndian 2 w.toNat := by
  have hLow : w.extractLsb' 0 16 = BitVec.ofNat 16 w.toNat := by
    apply BitVec.eq_of_toNat_eq
    rw [BitVec.extractLsb'_toNat, BitVec.toNat_ofNat, Nat.shiftRight_zero]
  rw [hLow]
  exact natBytes16_eq _

/-- A list built of pieces of one length. -/
theorem length_flatMap_const {α β : Type} {f : α → List β} {k : Nat} (h : ∀ x, (f x).length = k) (items : List α) :
    (items.flatMap f).length = k * items.length := by
  rw [List.length_flatMap, List.map_congr_left fun x _ => h x, List.map_const', List.sum_replicate_nat,
    Nat.mul_comm]

/-! ### Codes and their places in the lists of R172 -/

theorem LevelState.code_eq (x : LevelState) :
    x.code = [LevelState.normal, .suspect, .silent, .nofire].idxOf x := by cases x <;> rfl

theorem surveyCode_eq (x : Option SurveyResult) :
    surveyCode x = [none, some SurveyResult.ok, some .noAck, some .cross].idxOf x := by
  obtain _ | x := x
  · rfl
  · cases x <;> rfl

theorem lastEventCode_eq (x : Option EventKind) :
    lastEventCode x = [none, some EventKind.recoveryShort, some .noExtinction, some .protectiveFire].idxOf x := by
  obtain _ | x := x
  · rfl
  · cases x <;> rfl

theorem StationState.code_eq (x : StationState) :
    x.code = [StationState.unset, .listening, .synced, .running, .bypassing, .tripped].idxOf x := by cases x <;> rfl

theorem Fired.code_eq (x : Fired) :
    x.code = [Fired.no, .main, .deferred, .endStop, .bypass, .protective, .forced].idxOf x := by cases x <;> rfl

theorem Source.code_eq (x : Source) : x.code = [Source.group, .flywheel, .localVoltage].idxOf x := by cases x <;> rfl

theorem Health.code_eq (x : Health) : x.code = [Health.good, .degraded, .dead, .lit].idxOf x := by cases x <;> rfl

theorem Mode.code_eq (x : Mode) : x.code = [Mode.rectifier, .inverter].idxOf x + 1 := by cases x <;> rfl

theorem BlockState.code_eq (x : BlockState) : x.code = [BlockState.block, .deblock, .bypass].idxOf x + 1 := by
  cases x <;> rfl

theorem Override.code_eq (x : Override) : x.code = [Override.none, .forcedOn, .forcedOff].idxOf x := by cases x <;> rfl

/-- A flag at a place of a byte. -/
theorem flag_eq (b : Bool) (place : Nat) : (if b then 2 ^ place else 0) = 2 ^ place * bit b := by
  cases b
  · rfl
  · exact (Nat.mul_one _).symm

theorem LevelRecord.bytes_length (x : LevelRecord) : x.bytes.length = 3 := rfl

theorem RollEntry.bytes_length (x : RollEntry) : x.bytes.length = 19 := by
  unfold RollEntry.bytes RollReport.bytes
  cases x.held <;> simp only [angleBytes_eq, bytes32_eq, bytes16_low, List.length_append, bigEndian_length] <;> rfl

theorem LineState.bytes_length (x : LineState) : x.bytes.length = 18 := rfl

theorem orderBytes_length (x : Option Order) : (orderBytes x).length = 9 := by cases x <;> rfl

theorem angleBytes_length (a : Option Nat) : (angleBytes a).length = 2 := by
  rw [angleBytes_eq, bigEndian_length]

/-- The data of READ HOLDS, record by record. -/
theorem holdsData_eq (s : State) : s.holdsData =
    laidOut [(1, s.stc.state.code), (2, s.stc.clashCount), (2, s.stc.syncLossCount), (2, s.stc.tripCount)]
      ++ s.lineA.bytes ++ s.lineB.bytes
      ++ laidOut [(2, s.prl.tEst), (2, s.prl.marksRefused), (2, s.prl.outliers), (2, s.vcm.shortCount),
        (2, s.vcm.noExtCount), (2, s.fic.lateCount), (2, s.fic.endStopCount), (2, s.fic.forcedCount),
        (1, s.fic.advanceCount), (2, s.pst.pvfCount), (2, s.pst.strayAck)]
      ++ orderBytes (some s.orh.current) ++ orderBytes s.orh.pending
      ++ (laidOut [(3, s.orh.age), (2, s.orh.accepted), (2, s.orh.refused), (2, s.orh.losses), (2, s.pmn.peakHold)]
        ++ angleBytes s.pmn.gammaMin ++ laidOut [(2, s.pmn.ring.sum)]
        ++ alarmNames.map fun n => (s.pmn.line n).byte (s.alarmOutput n)) := by
  simp only [laidOut_cons, laidOut_nil, bigEndian_one]
  unfold State.holdsData
  simp only [natBytes16_eq, natBytes24_eq]
  simp only [List.append_assoc, List.append_nil]
  rfl

theorem holdsData_length (s : State) : s.holdsData.length = 101 := by
  simp only [holdsData_eq, List.length_append, laidOut_length, List.map_cons, List.map_nil, List.sum_cons, List.sum_nil,
    LineState.bytes_length, orderBytes_length, angleBytes_length, alarmNames, List.length_cons,
    List.length_nil, Nat.reduceAdd]

/-- Settles O30, block by block. -/
theorem readsAnswered : Obligations.ReadsAnswered := by
  intro t rx head first count s hReaches hStrap hIdle r flag angle station fired source health level event entry
    line order alarm
  have hFlag (b : Bool) (place : Nat) : flag b place = 2 ^ place * bit b := flag_eq b place
  have hAngle (a : Option Nat) : bigEndian (angle a).1 (angle a).2 = angleBytes a := (angleBytes_eq a).symm
  have hLevel (x : LevelRecord) : laidOut (level x) = x.bytes := by
    simp only [level, laidOut_cons, laidOut_nil, bigEndian_one, hFlag, ← LevelState.code_eq, ← surveyCode_eq]
    rfl
  have hEntry (x : RollEntry) : laidOut (entry x) = x.bytes := by
    simp only [entry, RollEntry.bytes]
    cases x.held with
    | none =>
      simp only [laidOut_cons, laidOut_nil, bigEndian_one, hAngle, event, ← lastEventCode_eq]
      rfl
    | some h =>
      simp only [laidOut_cons, laidOut_nil, bigEndian_one, hAngle, hFlag, event, RollReport.bytes, bytes32_eq,
        bytes16_low, byteOf_toNat, station, fired, source, health, ← lastEventCode_eq, ← StationState.code_eq,
        ← Fired.code_eq, ← Source.code_eq, ← Health.code_eq, Nat.pow_zero, Nat.one_mul, List.append_assoc, List.cons_append,
        List.nil_append, List.append_nil]
      rfl
  have hLine (x : LineState) : laidOut (line x) = x.bytes := by
    simp only [line, LineState.bytes, natBytes16_eq, laidOut_cons, laidOut_nil, bigEndian_one, Health.code_eq,
      List.append_assoc, List.append_nil]
    rfl
  have hOrder (x : Option Order) : laidOut (order x) = orderBytes x := by
    cases x with
    | none => rfl
    | some o =>
      simp only [order, orderBytes, natBytes16_eq, laidOut_cons, laidOut_nil, bigEndian_one, hFlag, Mode.code_eq,
        BlockState.code_eq, byteOf_toNat, List.cons_append, List.nil_append, List.append_nil]
      rfl
  have hAlarm (n : AlarmName) : bigEndian (alarm n).1 (alarm n).2 = [(r.pmn.line n).byte (r.alarmOutput n)] := by
    simp only [alarm, bigEndian_one, hFlag, AlarmLine.byte, Override.code_eq, Nat.pow_zero, Nat.one_mul]
    cases (r.pmn.line n).timer <;> rfl
  refine ⟨fun hSet hFirst hCount hMost hLast => ⟨r.levelsData first.toNat count.toNat, ?_, ?_, fun hLength => ?_⟩,
    ⟨r.rollData, ?_, ?_, fun hLength => ?_⟩, r.holdsData, ?_, ?_, ?_⟩
  · refine command_carried hReaches hStrap (.inl hIdle) ?_ ?_
    · rw [permitSet_iff, State.at_stc]
      exact hSet
    · rw [← readRangeOk_eq, State.at_cfg]
      exact decide_eq_true ⟨hFirst, hCount, hMost, hLast⟩
  · rw [laidOut_append, laidOut_flatMap, funext hLevel, State.levelsData, State.at_lvt]
    simp only [laidOut_cons, laidOut_nil, bigEndian_one]
    rfl
  · rw [State.levelsData, List.length_append, length_flatMap_const LevelRecord.bytes_length, State.at_lvt,
      List.length_take, List.length_drop, hLength, Nat.min_eq_left (by omega)]
    rfl
  · exact command_carried hReaches hStrap (.inl hIdle) rfl rfl
  · rw [laidOut_cons, laidOut_flatMap, funext hEntry, State.rollData, State.at_prl, State.at_now, bytes32_eq]
  · rw [State.rollData, List.length_append, length_flatMap_const RollEntry.bytes_length, State.at_prl, hLength,
      bytes32_eq, bigEndian_length]
  · exact command_carried hReaches hStrap (.inl hIdle) rfl rfl
  · rw [holdsData_eq]
    have hState : station r.stc.state = r.stc.state.code := (StationState.code_eq _).symm
    have hAlarms : laidOut [alarm .tripRequest, alarm .redundancyLow, alarm .commutationFailure, alarm .prfRate]
        = alarmNames.map fun n => (r.pmn.line n).byte (r.alarmOutput n) := by
      simp only [laidOut_cons, hAlarm, laidOut_nil]
      rfl
    rw [← hAlarms, ← hAngle, ← hOrder, ← hOrder, ← hLine, ← hLine, hState]
    simp only [laidOut_append, laidOut_cons, laidOut_nil, List.append_assoc, List.append_nil]
  · exact holdsData_length r

end Sys2Proof.Machine
end

