-- ==== Sys2Proof/Proofs/DispatchedFrames.lean ====
section
/-! PROOFS. MARK, EVENT and ORDER frames, from the copy accepted to the records it changes (R41 to R50, R134). -/

namespace Sys2Proof.Machine

section
variable {s : State} {t : Instant} {rx : RxCopy} {sender d : Nat}

/-! ### A copy that reaches a held block -/

/-- Outside UNSET an accepted copy is dispatched in the state that the reception leaves. -/
theorem frame_dispatched {fromPole : Bool} (hSupplied : s.supplied = true)
    (hAccepts : (s.advance t).accepts rx fromPole = true) (hSet : s.stc.state ≠ .unset) (dispatch : State → State) :
    act t s (receiveCopy rx fromPole fun x => x.unlessHeld dispatch) = .next (dispatch (s.at t rx)) := by
  rw [act_supplied hSupplied, receiveCopy_accepted hAccepts]
  refine congrArg Host.Outcome.next (unlessHeld_of_ne (s := s.at t rx) ?_ dispatch)
  rwa [State.at_stc]

theorem sender_of_accepts (h : s.accepts rx false = true) :
    1 ≤ rx.sender.toNat ∧ rx.sender.toNat ≤ s.group := by
  simp only [State.accepts, Bool.and_eq_true, Bool.not_eq_true'] at h
  obtain ⟨⟨hForeign, -⟩, -⟩ := h
  have hNot := mt (foreignCopy_iff s.group false rx.sender).2 (Bool.eq_false_iff.1 hForeign)
  simp only [Bool.false_eq_true, false_and, true_and, false_or, not_or, Nat.not_lt] at hNot
  omega

/-! ### ORDER (R134, R135) -/

theorem modeOfCode_eq_some {w : Byte} {mode : Mode} (h : w.toNat = mode.code) : modeOfCode w = some mode := by
  unfold modeOfCode
  rw [h]
  cases mode <;> rfl

theorem blockStateOfCode_eq_some {w : Byte} {state : BlockState} (h : w.toNat = state.code) :
    blockStateOfCode w = some state := by
  unfold blockStateOfCode
  rw [h]
  cases state <;> rfl

theorem modeOfCode_eq_none {w : Byte} (h1 : w ≠ 1) (h2 : w ≠ 2) : modeOfCode w = none := by
  unfold modeOfCode
  split
  · exact absurd (BitVec.eq_of_toNat_eq ‹_›) h1
  · exact absurd (BitVec.eq_of_toNat_eq ‹_›) h2
  · rfl

theorem blockStateOfCode_eq_none {w : Byte} (h1 : w ≠ 1) (h2 : w ≠ 2) (h3 : w ≠ 3) : blockStateOfCode w = none := by
  unfold blockStateOfCode
  split
  · exact absurd (BitVec.eq_of_toNat_eq ‹_›) h1
  · exact absurd (BitVec.eq_of_toNat_eq ‹_›) h2
  · exact absurd (BitVec.eq_of_toNat_eq ‹_›) h3
  · rfl

theorem orderOf_known {group : Nat} {o : OrderFields} {mode : Mode} {state : BlockState} (hMode : modeOfCode o.mode = some mode)
    (hState : blockStateOfCode o.blockState = some state) : orderOf group o =
      if state = .bypass ∧ ¬ (1 ≤ o.bypass.toNat ∧ o.bypass.toNat ≤ group) then none
      else some
        { seq := some o.orderSeq, mode := mode, blockState := state, bypass := some o.bypass
          alphaOrder := o.alphaOrder.toNat, gammaOrder := o.gammaOrder.toNat } := by
  unfold orderOf
  rw [hMode, hState]
  refine ite_of_iff ?_ rfl rfl
  rw [Bool.and_eq_true, decide_eq_true_iff, Bool.not_eq_true', ← Bool.not_eq_true, within_iff]

theorem orderOf_unknown {group : Nat} {o : OrderFields}
    (h : modeOfCode o.mode = none ∨ blockStateOfCode o.blockState = none) : orderOf group o = none := by
  unfold orderOf
  obtain h | h := h
  · rw [h]
  · rw [h]
    cases modeOfCode o.mode <;> rfl

theorem orhOrder_refused {o : OrderFields} (h : orderOf s.group o = none) :
    orhOrder o s = s.setOrh { s.orh with refused := count16 s.orh.refused } := by
  unfold orhOrder
  rw [h]

theorem orhOrder_taken {o : OrderFields} {order : Order} (h : orderOf s.group o = some order) :
    orhOrder o s = s.setOrh { s.orh with
      pending := some order, pendingForced := false, age := 0, stale := false
      accepted := count16 s.orh.accepted } := by
  unfold orhOrder
  rw [h]

/-- Settles O25, by the codes of the order. -/
theorem orderTaken : Obligations.OrderTaken := by
  intro t rx o s hSupplied hAccepts hSet r
  have hTaken := frame_dispatched (t := t) hSupplied hAccepts hSet (orhOrder o)
  refine ⟨fun mode state hMode hState hBypass => ?_, fun hBad => ?_⟩
  · refine hTaken.trans (congrArg Host.Outcome.next (orhOrder_taken (s := r) ?_))
    rw [orderOf_known (modeOfCode_eq_some hMode) (blockStateOfCode_eq_some hState), State.at_group, if_neg]
    exact fun hOut => hOut.2 (hBypass hOut.1)
  · refine hTaken.trans (congrArg Host.Outcome.next (orhOrder_refused (s := r) ?_))
    rw [State.at_group]
    obtain ⟨h1, h2⟩ | ⟨h1, h2, h3⟩ | ⟨hCode, hOut⟩ := hBad
    · exact orderOf_unknown (.inl (modeOfCode_eq_none h1 h2))
    · exact orderOf_unknown (.inr (blockStateOfCode_eq_none h1 h2 h3))
    · cases hMode : modeOfCode o.mode with
      | none => exact orderOf_unknown (.inl hMode)
      | some mode =>
        rw [orderOf_known hMode (blockStateOfCode_eq_some (state := .bypass) (hCode ▸ rfl)), if_pos]
        refine ⟨rfl, fun hIn => ?_⟩
        obtain hZero | hAbove := hOut
        · rw [hZero] at hIn
          exact absurd hIn.1 (by decide)
        · omega

/-! ### Entries of the roll -/

theorem entry_changeEntry (f : RollEntry → RollEntry) (position k : Nat) (s : State) :
    (changeEntry f position s).entry k = (s.entry k).map fun x => if k = position then f x else x :=
  itemAt_changeAt f s.prl.roll position k

theorem entry_changeEntry_same {f : RollEntry → RollEntry} {position : Nat} {x : RollEntry}
    (h : s.entry position = some x) : (changeEntry f position s).entry position = some (f x) := by
  rw [entry_changeEntry, h, Option.map_some, if_pos rfl]

theorem entry_changeEntry_other {f : RollEntry → RollEntry} {position k : Nat} (h : k ≠ position) :
    (changeEntry f position s).entry k = s.entry k := by
  rw [entry_changeEntry]
  simp only [h, if_false, Option.map_id']

@[simp] theorem at_entry (s : State) (t : Instant) (rx : RxCopy) (k : Nat) : (s.at t rx).entry k = s.entry k := by
  unfold State.entry
  rw [State.at_prl]

/-! ### EVENT (R44, R114) -/

theorem eventOfCodes_eq (kind subkind : Byte) : eventOfCodes kind subkind =
    if kind = 1 ∧ subkind = 1 then some .recoveryShort
    else if kind = 1 ∧ subkind = 2 then some .noExtinction
    else if kind = 2 ∧ subkind = 0 then some .protectiveFire
    else none := by
  have hCode (w : Byte) (n : Byte) : w = n ↔ w.toNat = n.toNat := BitVec.toNat_eq
  simp only [hCode]
  unfold eventOfCodes
  split
  · rw [if_pos ⟨‹_›, ‹_›⟩]
  · rename_i h1 h2
    rw [h1, h2]
    rfl
  · rename_i h1 h2
    rw [h1, h2]
    rfl
  · rename_i h1 h2 h3
    rw [if_neg fun h => h1 h.1 h.2, if_neg fun h => h2 h.1 h.2, if_neg fun h => h3 h.1 h.2]

theorem ficFailure_eq (s : State) : ficFailure s = s.setFic { s.fic with
    advanceCount := if s.orh.current.mode = .inverter then s.cfg.ncf else s.fic.advanceCount } := by
  unfold ficFailure
  split
  · rename_i h
    rw [if_pos h]
  · rename_i h
    rw [if_neg (h ▸ nofun)]
    rfl

/-- Settles O24, by the kind. -/
theorem eventWritten : Obligations.EventWritten := by
  intro t rx e s x hSupplied hAccepts hSet hEntry r kind
  have hTaken := frame_dispatched (t := t) hSupplied hAccepts hSet (dispatchEvent rx e)
  have hKind : eventOfCodes e.kind e.subkind = kind := eventOfCodes_eq ..
  have hEntry : r.entry rx.sender.toNat = some x := (at_entry ..).trans hEntry
  refine ⟨fun k hk => ?_, fun hNone => ?_⟩
  · let v := changeEntry (fun y => { y with lastEvent := some k }) rx.sender.toNat r
    have hSame (u : State) (hPrl : u.prl = v.prl) : u.entry rx.sender.toNat = some { x with lastEvent := some k }
        ∧ ∀ j, j ≠ rx.sender.toNat → u.entry j = s.entry j := by
      have hRoll (j : Nat) : u.entry j = v.entry j := by
        unfold State.entry
        rw [hPrl]
      refine ⟨(hRoll _).trans (entry_changeEntry_same hEntry), fun j hj => ?_⟩
      rw [hRoll, entry_changeEntry_other hj, at_entry]
    have hDispatch : dispatchEvent rx e r = if k = .protectiveFire then v else ficFailure v := by
      unfold dispatchEvent
      simp only [hKind, hk]
      cases k <;> rfl
    refine ⟨_, hTaken, ?_⟩
    rw [hDispatch]
    by_cases hFire : k = .protectiveFire
    · rw [if_pos hFire, if_neg fun h => h.1 hFire]
      exact ⟨(hSame v rfl).1, (hSame v rfl).2, rfl⟩
    · have hMode : v.orh.current.mode = s.orh.current.mode := congrArg (fun o => o.current.mode) (State.at_orh s t rx)
      have hCfg : v.cfg = s.cfg := State.at_cfg s t rx
      rw [if_neg hFire, ficFailure_eq, hMode, hCfg]
      refine ⟨(hSame _ rfl).1, (hSame _ rfl).2, ?_⟩
      simp only [ne_eq, hFire, not_false_eq_true, true_and]
      rfl
  · refine hTaken.trans (congrArg Host.Outcome.next ?_)
    unfold dispatchEvent
    simp only [hKind, hNone]
    rfl

/-! ### MARK refused (R42) -/

theorem angleTooLarge_iff (w : BitVec 16) : angleTooLarge w = true ↔ 36000 < w.toNat ∧ w.toNat ≠ 65535 := by
  unfold angleTooLarge
  rw [Bool.and_eq_true, decide_eq_true_iff, decide_eq_true_iff]

theorem valuesTooLarge_iff (m : MarkFields) : valuesTooLarge m = true ↔
    (36000 < m.alpha.toNat ∧ m.alpha.toNat ≠ 65535) ∨ (36000 < m.gamma.toNat ∧ m.gamma.toNat ≠ 65535)
      ∨ (36000 < m.mu.toNat ∧ m.mu.toNat ≠ 65535) ∨ 96 < m.consumed.toNat := by
  unfold valuesTooLarge
  simp only [Bool.or_eq_true, angleTooLarge_iff, decide_eq_true_iff, or_assoc]

/-- The mark instant lies later than the one held, where one is held and not aged. -/
theorem laterThanRecord_markAt_iff (mark : Instant) (x : RollEntry) : laterThanRecord mark x.markAt = true ↔
    x.held = none ∨ x.missed = 255 ∨ ∀ r ∈ x.held, later mark r.markInstant = true := by
  unfold RollEntry.markAt RollEntry.current
  by_cases hAged : x.missed = 255
  · simp [hAged, laterThanRecord]
  · cases hHeld : x.held <;> simp [hAged, laterThanRecord]

theorem admitted_eq_some {m : MarkFields} {mark : Instant} {x : RollEntry} {report : MarkReport}
    (hReport : reportOf m = some report) (hValues : ¬ valuesTooLarge m = true)
    (hLater : laterThanRecord mark x.markAt = true) : admitted m mark x = some report := by
  unfold admitted
  rw [hReport, hLater]
  exact if_neg (by rw [Bool.or_eq_true]; exact fun h => h.elim hValues nofun)

theorem admitted_eq_none {m : MarkFields} {mark : Instant} {x : RollEntry}
    (h : reportOf m = none ∨ valuesTooLarge m = true ∨ laterThanRecord mark x.markAt = false) :
    admitted m mark x = none := by
  unfold admitted
  cases hReport : reportOf m with
  | none => rfl
  | some report =>
    refine if_pos ?_
    rw [hReport] at h
    rw [Bool.or_eq_true, Bool.not_eq_true']
    exact h.resolve_left nofun

theorem reportOf_eq_none {m : MarkFields}
    (h : 6 < m.fired.toNat ∨ 2 < m.source.toNat ∨ m.station.toNat = 0 ∨ 5 < m.station.toNat) : reportOf m = none := by
  have hFired (h : 6 < m.fired.toNat) : firedOfCode m.fired = none := by
    unfold firedOfCode
    split <;> first | omega | rfl
  have hSource (h : 2 < m.source.toNat) : sourceOfCode m.source = none := by
    unfold sourceOfCode
    split <;> first | omega | rfl
  have hStation (h : m.station.toNat = 0 ∨ 5 < m.station.toNat) : stationOfCode m.station = none := by
    unfold stationOfCode
    split <;> first | omega | rfl
  unfold reportOf
  obtain h | h | h := h
  · rw [hFired h]
  · rw [hSource h]
    cases firedOfCode m.fired <;> rfl
  · rw [hStation h]
    cases firedOfCode m.fired <;> cases sourceOfCode m.source <;> rfl

theorem dispatchMark_refused {m : MarkFields} {x : RollEntry} (h : s.entry rx.sender.toNat = some x)
    (hRefused : admitted m (peerMarkInstant s.cfg rx.arrival m.lag) x = none) :
    dispatchMark rx m s = refuseMark rx.sender.toNat s := by
  simp only [dispatchMark, h, hRefused]

theorem dispatchMark_written {m : MarkFields} {x : RollEntry} {report : MarkReport}
    (h : s.entry rx.sender.toNat = some x)
    (hAdmitted : admitted m (peerMarkInstant s.cfg rx.arrival m.lag) x = some report) :
    dispatchMark rx m s = handEntry rx.sender.toNat (offerMark rx.sender.toNat
      (peerMarkInstant s.cfg rx.arrival m.lag)
      (writePeerEntry rx.sender.toNat (peerMarkInstant s.cfg rx.arrival m.lag) rx.seq report s)) := by
  simp only [dispatchMark, h, hAdmitted]

/-- Settles O23: a refused mark is one that is not admitted. -/
theorem markRefused : Obligations.MarkRefused := by
  intro t rx m s x hSupplied hAccepts hSet hEntry mark hBad r
  have hEntry : r.entry rx.sender.toNat = some x := (at_entry ..).trans hEntry
  have hMark : peerMarkInstant r.cfg rx.arrival m.lag = mark := by
    rw [State.at_cfg]
    rfl
  have hRefused : admitted m mark x = none := by
    refine admitted_eq_none ?_
    obtain h | h | h | h | h | h | h | h | ⟨hMissed, held, hHeld, hLate⟩ := hBad
    · exact .inl (reportOf_eq_none (.inl h))
    · exact .inl (reportOf_eq_none (.inr (.inl h)))
    · exact .inl (reportOf_eq_none (.inr (.inr (.inl h))))
    · exact .inl (reportOf_eq_none (.inr (.inr (.inr h))))
    · exact .inr (.inl ((valuesTooLarge_iff m).2 (.inl h)))
    · exact .inr (.inl ((valuesTooLarge_iff m).2 (.inr (.inl h))))
    · exact .inr (.inl ((valuesTooLarge_iff m).2 (.inr (.inr (.inl h)))))
    · exact .inr (.inl ((valuesTooLarge_iff m).2 (.inr (.inr (.inr h)))))
    · refine .inr (.inr (Bool.eq_false_iff.2 fun hLater => ?_))
      obtain h | h | h := (laterThanRecord_markAt_iff mark x).1 hLater
      · rw [hHeld] at h
        cases h
      · exact hMissed h
      · exact Bool.false_ne_true (hLate.symm.trans (h held hHeld))
  refine ⟨refuseMark rx.sender.toNat r, (frame_dispatched hSupplied hAccepts hSet (dispatchMark rx m)).trans
    (congrArg Host.Outcome.next (dispatchMark_refused hEntry (hMark.symm ▸ hRefused))), rfl, ?_, fun k hk => ?_⟩
  · exact entry_changeEntry_same hEntry
  · exact (entry_changeEntry_other (s := r) hk).trans (at_entry ..)

/-! ### Distances (Conventions) -/

/-- The distance from a position of the group is `d` where it is the one `d` places before. -/
theorem distance_eq_iff {group p k : Nat} (hGroup : group = 6 ∨ group = 12) (hp : 1 ≤ p ∧ p ≤ group)
    (hd : 1 ≤ d ∧ d ≤ 3) : distance group p k = d ↔ p = placesBefore group k d := by
  unfold distance placesBefore
  obtain rfl | rfl := hGroup <;> omega

theorem placesBefore_bounds {group k : Nat} (hGroup : group = 6 ∨ group = 12) :
    1 ≤ placesBefore group k d ∧ placesBefore group k d ≤ group := by
  unfold placesBefore
  obtain rfl | rfl := hGroup <;> omega

theorem group_cases (s : State) : s.group = 6 ∨ s.group = 12 := by
  unfold State.group groupCount
  cases s.stc.straps.groupSize
  · exact .inl rfl
  · exact .inr rfl

/-! ### The period estimate (R50, R51) -/

section
variable {position : Nat} {mark : Instant} {old : LastArrival}

theorem offerMark_first (h : s.prl.lastArrival = none) : offerMark position mark s
    = s.setPrl { s.prl with lastArrival := some { position := position, instant := mark } } := by
  unfold offerMark
  rw [h]

theorem offerMark_early (h : s.prl.lastArrival = some old) (hLater : later mark old.instant = false) :
    offerMark position mark s = s := by
  unfold offerMark
  simp only [h, hLater]
  rfl

theorem offerMark_later (h : s.prl.lastArrival = some old) (hLater : later mark old.instant = true) :
    (offerMark position mark s).prl =
      { (if 1 ≤ distance s.group old.position position ∧ distance s.group old.position position ≤ 3 then
          judgeSample (s.group * (instantDiff mark old.instant).toNat / distance s.group old.position position) s
        else s).prl with lastArrival := some { position := position, instant := mark } } := by
  unfold offerMark
  simp only [h, hLater]
  rfl

theorem judgeSample_frame (sample : Nat) (s : State) : judgeSample sample s = s.setPrl { s.prl with
    tEst := (judgeSample sample s).prl.tEst, outliers := (judgeSample sample s).prl.outliers } := by
  unfold judgeSample
  split <;> rfl

theorem offerMark_frame (position : Nat) (mark : Instant) (s : State) : offerMark position mark s = s.setPrl { s.prl with
    tEst := (offerMark position mark s).prl.tEst, lastArrival := (offerMark position mark s).prl.lastArrival
    outliers := (offerMark position mark s).prl.outliers } := by
  cases h : s.prl.lastArrival with
  | none => rw [offerMark_first h]; rfl
  | some old =>
    cases hLater : later mark old.instant with
    | false => rw [offerMark_early h hLater]; rfl
    | true =>
      unfold offerMark
      simp only [h, hLater, if_true]
      split
      · rw [judgeSample_frame]
        rfl
      · rfl

/-- A sample is judged by T_est and counted among the outliers; the state around the PRL does not matter. -/
theorem judgeSample_congr {u : State} (sample : Nat) (hPeriod : u.prl.tEst = s.prl.tEst)
    (hOutliers : u.prl.outliers = s.prl.outliers) :
    (judgeSample sample u).prl.tEst = (judgeSample sample s).prl.tEst
      ∧ (judgeSample sample u).prl.outliers = (judgeSample sample s).prl.outliers := by
  unfold judgeSample
  rw [hPeriod, hOutliers]
  split
  · exact ⟨rfl, hOutliers⟩
  · exact ⟨hPeriod, rfl⟩

end

/-! ### The hand-on as a reference (R48, R49) -/

/-- The candidate of a reference in one equation (R100, R101). -/
theorem handReference_eq (d : Nat) (ref : RollReport) (s : State) : handReference d ref s = s.setFic { s.fic with
    armed := if replacesArmed d s.fic.deferral s.fic.armed then some (s.groupMark d ref.markInstant ref.report.alpha)
      else s.fic.armed
    lateCount := if s.groupLate d ref.markInstant ref.report.alpha then count16 s.fic.lateCount
      else s.fic.lateCount } := by
  simp only [handReference, countLate]
  cases s.groupLate d ref.markInstant ref.report.alpha with
  | false =>
    simp only [Bool.false_eq_true, if_false]
    split <;> rfl
  | true =>
    simp only [if_true]
    show (if replacesArmed d s.fic.deferral s.fic.armed then _ else _) = _
    split <;> rfl

theorem handReference_frame (d : Nat) (ref : RollReport) (s : State) : handReference d ref s = s.setFic { s.fic with
    armed := (handReference d ref s).fic.armed, lateCount := (handReference d ref s).fic.lateCount } := by
  rw [handReference_eq]
  rfl

theorem usableAt_eq {x : RollEntry} (hEntry : s.entry (placesBefore s.group s.position d) = some x) {ref : RollReport}
    (hRef : x.current = some ref) : s.usableAt d =
      if s.sinceOwnMark ref.markInstant = true ∧ later ref.markInstant s.now = false then some ref else none := by
  unfold State.usableAt
  rw [hEntry]
  simp only [hRef]
  exact ite_of_iff (by rw [Bool.and_eq_true, Bool.not_eq_true']) rfl rfl

theorem handEntry_hands (hd : 1 ≤ d ∧ d ≤ 3) (hDistance : distance s.group sender s.position = d) {ref : RollReport}
    (hUsable : s.usableAt d = some ref) : handEntry sender s = handReference d ref s := by
  unfold handEntry
  simp only [hDistance, hUsable]
  exact if_pos hd

theorem handEntry_stays (h : ∀ d, 1 ≤ d → d ≤ 3 → distance s.group sender s.position = d → s.usableAt d = none) :
    handEntry sender s = s := by
  unfold handEntry
  by_cases hNear : 1 ≤ distance s.group sender s.position ∧ distance s.group sender s.position ≤ 3
  · simp only [h _ hNear.1 hNear.2 rfl, ite_self]
  · exact if_neg hNear

theorem handEntry_frame (sender : Nat) (s : State) : handEntry sender s = s.setFic { s.fic with
    armed := (handEntry sender s).fic.armed, lateCount := (handEntry sender s).fic.lateCount } := by
  have hStays (h : handEntry sender s = s) : handEntry sender s = s.setFic { s.fic with
      armed := (handEntry sender s).fic.armed, lateCount := (handEntry sender s).fic.lateCount } := by
    rw [h]
    rfl
  by_cases hNear : 1 ≤ distance s.group sender s.position ∧ distance s.group sender s.position ≤ 3
  · cases hUsable : s.usableAt (distance s.group sender s.position) with
    | none => exact hStays (handEntry_stays fun d _ _ hd => hd ▸ hUsable)
    | some ref =>
      rw [handEntry_hands hNear rfl hUsable]
      exact handReference_frame ..
  · exact hStays (handEntry_stays fun d h1 h3 hd => absurd (hd ▸ ⟨h1, h3⟩) hNear)

/-! ### MARK written (R43) -/

/-- The own report does not depend on another position's entry. -/
theorem ownReport_writePeerEntry {mark : Instant} {seq : Byte} {report : MarkReport} (h : s.position ≠ sender) :
    (writePeerEntry sender mark seq report s).ownReport = s.ownReport := by
  have hEntry : (writePeerEntry sender mark seq report s).entry s.position = s.entry s.position :=
    entry_changeEntry_other h
  unfold State.ownReport
  rw [show (writePeerEntry sender mark seq report s).position = s.position from rfl, hEntry]

/-- Settles O22: the entry is written, the mark offered, and the entry handed on where it is usable. -/
theorem markWritten : Obligations.MarkWritten := by
  intro t rx m s x report hSupplied hAccepts hSet hEntry hReport hAlpha hGamma hMu hConsumed sender mark written hLater r
    before usable
  have hEntry : r.entry sender = some x := (at_entry ..).trans hEntry
  have hSender : 1 ≤ sender ∧ sender ≤ s.group := sender_of_accepts (s := s.advance t) hAccepts
  have hMark : peerMarkInstant r.cfg rx.arrival m.lag = mark := by
    rw [State.at_cfg]
    rfl
  have hAdmitted : admitted m mark x = some report := by
    refine admitted_eq_some hReport (mt (valuesTooLarge_iff m).1 ?_) ((laterThanRecord_markAt_iff mark x).2 hLater)
    omega
  let w := writePeerEntry sender mark rx.seq report r
  let v := offerMark sender mark w
  let u := handEntry sender v
  have hExec : exec (.markFrame t rx m) s = .next u := by
    refine (frame_dispatched hSupplied hAccepts hSet (dispatchMark rx m)).trans (congrArg Host.Outcome.next ?_)
    have hDispatch := dispatchMark_written (s := r) hEntry (hMark.symm ▸ hAdmitted)
    rw [hMark] at hDispatch
    exact hDispatch
  have hNow : r.now = t := State.at_now s t rx
  have hPrl : r.prl = s.prl := State.at_prl s t rx
  have hGroup : r.group = s.group := State.at_group s t rx
  have hPosition : r.position = s.position := State.at_position s t rx
  have hV := offerMark_frame sender mark w
  have hU := handEntry_frame sender v
  have hUPrl : u.prl = v.prl := handEntry_prl sender v
  have hRoll : u.prl.roll = w.prl.roll := by
    rw [hUPrl]
    exact congrArg (fun y => y.prl.roll) hV
  have hEntries (k : Nat) : u.entry k = w.entry k := by
    unfold State.entry
    rw [hRoll]
  have hWritten : w.entry sender = some { held := some written, missed := 0, lastEvent := x.lastEvent } := by
    refine (entry_changeEntry_same hEntry).trans ?_
    rw [hNow]
  have hVr : v = { r with prl := u.prl } := by
    rw [hUPrl]
    exact hV.trans (congrArg (fun y => { r with prl := y }) (congrArg State.prl hV).symm)
  have hVGroup : v.group = s.group := (congrArg State.group hVr).trans hGroup
  have hVPosition : v.position = s.position := (congrArg State.position hVr).trans hPosition
  have hVFic : v.fic = s.fic := (congrArg State.fic hVr).trans (State.at_fic s t rx)
  have hLast : w.prl.lastArrival = s.prl.lastArrival :=
    show r.prl.lastArrival = _ from congrArg Prl.lastArrival hPrl
  have hPeriod : w.prl.tEst = s.prl.tEst := show r.prl.tEst = _ from congrArg Prl.tEst hPrl
  have hOutliers : w.prl.outliers = s.prl.outliers :=
    show r.prl.outliers = _ from congrArg Prl.outliers hPrl
  have hDistance (p k d : Nat) (hp : 1 ≤ p ∧ p ≤ s.group) (h1 : 1 ≤ d) (h3 : d ≤ 3) :
      distance s.group p k = d ↔ p = before k d := distance_eq_iff (group_cases s) hp ⟨h1, h3⟩
  have hUsable (d : Nat) (h1 : 1 ≤ d) (h3 : d ≤ 3) (hBefore : sender = before s.position d) :
      v.usableAt d = if v.sinceOwnMark mark = true ∧ later mark t = false then some written else none := by
    have hVEntry : v.entry (placesBefore v.group v.position d)
        = some { held := some written, missed := 0, lastEvent := x.lastEvent } := by
      rw [hVGroup, hVPosition, show placesBefore s.group s.position d = sender from hBefore.symm, ← hWritten, ← hEntries]
      unfold State.entry
      rw [hUPrl]
    rw [usableAt_eq hVEntry (ref := written) rfl, show v.now = t from (congrArg State.now hVr).trans hNow]
  have hSince (d : Nat) (h1 : 1 ≤ d) (h3 : d ≤ 3) (hBefore : sender = before s.position d) :
      v.sinceOwnMark mark = true ↔ ∀ own, s.ownReport = some own → later mark own.markInstant = true := by
    have hOther : r.position ≠ sender := by
      intro hOwn
      have hFar := (hDistance sender s.position d hSender h1 h3).2 hBefore
      rw [← hOwn, hPosition, distance, Nat.add_sub_cancel_left, Nat.mod_self] at hFar
      omega
    have hOwn : v.ownReport = s.ownReport := by
      have hAt : v.ownReport = w.ownReport := by
        unfold State.ownReport State.entry
        rw [← hUPrl, hRoll, hVPosition, ← hPosition]
        rfl
      rw [hAt, ownReport_writePeerEntry hOther]
      unfold State.ownReport
      rw [hPosition, at_entry]
    rw [← hOwn]
    exact laterThanRecord_ownMark_iff mark
  refine ⟨u, hExec, (hEntries _).trans hWritten, fun k hk => ?_, ?_, fun hNone => ?_, fun old hOld => ⟨fun hEarly => ?_,
    fun hLate => ⟨?_, fun d h1 h3 hBefore => ?_, fun hLo hHi hFar => ?_⟩⟩, fun d h1 h3 hUse => ?_, fun hNot => ?_⟩
  · rw [hEntries, show w = changeEntry _ sender r from rfl, entry_changeEntry_other hk, at_entry]
  · have hPrlFrame : u.prl = { r.prl with
        roll := u.prl.roll, tEst := u.prl.tEst, lastArrival := u.prl.lastArrival, outliers := u.prl.outliers } := by
      rw [hUPrl]
      exact (congrArg State.prl hV).trans (by rw [show v.prl.roll = w.prl.roll from hUPrl ▸ hRoll]; rfl)
    refine hU.trans ((congrArg (fun y : State => y.setFic { y.fic with
      armed := u.fic.armed, lateCount := u.fic.lateCount }) hVr).trans ?_)
    exact congrArg (fun y => { r with
      prl := y, fic := { r.fic with armed := u.fic.armed, lateCount := u.fic.lateCount } }) hPrlFrame
  · have hFirst : v = w.setPrl { w.prl with lastArrival := some { position := sender, instant := mark } } :=
      offerMark_first (hLast.trans hNone)
    rw [hUPrl, hFirst]
    exact ⟨rfl, hPeriod, hOutliers⟩
  · have hStays : v = w := offerMark_early (hLast.trans hOld) hEarly
    rw [hUPrl, hStays]
    exact ⟨hLast.trans hOld, hPeriod, hOutliers⟩
  · rw [hUPrl, offerMark_later (hLast.trans hOld) hLate]
  · intro sample
    have hFrom : distance s.group old.position sender = d :=
      (hDistance old.position sender d (hBefore ▸ placesBefore_bounds (group_cases s)) h1 h3).2 hBefore
    have hJudged := judgeSample_congr (s := s) (u := w) sample hPeriod hOutliers
    rw [hUPrl, offerMark_later (hLast.trans hOld) hLate, show w.group = s.group from hGroup, hFrom, if_pos ⟨h1, h3⟩]
    exact hJudged
  · have hNot : ¬ (1 ≤ distance s.group old.position sender ∧ distance s.group old.position sender ≤ 3) :=
      fun hNear => hFar _ hNear.1 hNear.2 ((hDistance old.position sender _ ⟨hLo, hHi⟩ hNear.1 hNear.2).1 rfl)
    rw [hUPrl, offerMark_later (hLast.trans hOld) hLate, show w.group = s.group from hGroup, if_neg hNot]
    exact ⟨hPeriod, hOutliers⟩
  · obtain ⟨hBefore, hOwn, hNow⟩ := hUse
    have hHands : u = handReference d written v := by
      refine handEntry_hands ⟨h1, h3⟩ ?_ ((hUsable d h1 h3 hBefore).trans (if_pos ⟨(hSince d h1 h3 hBefore).2 hOwn, hNow⟩))
      rw [hVGroup, hVPosition]
      exact (hDistance sender s.position d hSender h1 h3).2 hBefore
    rw [← hVr, ← hHands]
  · have hStays : u = v := by
      refine handEntry_stays fun d h1 h3 hFrom => ?_
      rw [hVGroup, hVPosition] at hFrom
      have hBefore := (hDistance sender s.position d hSender h1 h3).1 hFrom
      rw [hUsable d h1 h3 hBefore, if_neg]
      exact fun hBoth => hNot d h1 h3 ⟨hBefore, (hSince d h1 h3 hBefore).1 hBoth.1, hBoth.2⟩
    rw [hStays, hVFic]

end
end Sys2Proof.Machine
end

