-- ==== Sys2Proof/Proofs/Adoption.lean ====
section
/-! PROOFS. GROUP marks and their recomputation, where the station goes that leaves RUNNING or BYPASSING, and the
adoption of an order (R11, R100 to R104, R138, R139). -/

namespace Sys2Proof.Machine

section
variable {s : State}

/-! ### GROUP marks (R100, R101) -/

theorem rawErrorOf_eq (alphaT : Int) (alpha : Option Nat) : rawErrorOf alphaT alpha = errorAgainst alphaT alpha := by
  cases alpha <;> rfl

/-- The instant of a GROUP mark in the words of R100. -/
theorem groupInstant_eq (d : Nat) (reference : Instant) (e : Int) :
    s.groupInstant d reference e = s.latticeInstant d reference e := by
  have hDead : e.natAbs ≤ s.cfg.latticeDeadband
      ↔ -(s.cfg.latticeDeadband : Int) ≤ e ∧ e ≤ s.cfg.latticeDeadband := by omega
  unfold State.groupInstant State.latticeInstant State.correction
  simp only [hDead]
  rfl

/-- The mark of a reference in the words of R100. -/
theorem groupMark_eq (d : Nat) (reference : Instant) (alpha : Option Nat) : s.groupMark d reference alpha =
    { m := if earlier (s.latticeInstant d reference (errorAgainst s.alphaTarget alpha)) s.now then s.now
        else s.latticeInstant d reference (errorAgainst s.alphaTarget alpha)
      alphaT := s.alphaTarget
      placing := .group d reference alpha (errorAgainst s.alphaTarget alpha) } := by
  simp only [State.groupMark, State.notBeforeNow, groupInstant_eq, rawErrorOf_eq]

theorem groupLate_eq (d : Nat) (reference : Instant) (alpha : Option Nat) : s.groupLate d reference alpha =
    earlier (s.latticeInstant d reference (errorAgainst s.alphaTarget alpha)) s.now := by
  unfold State.groupLate
  rw [groupInstant_eq, rawErrorOf_eq]

/-- Settles O47: the candidate in the words of R100, and what it replaces. -/
theorem groupCandidate : Obligations.GroupCandidate := by
  intro d ref s alphaT e e' limit half c step m mark replaces late
  have hError : e = errorAgainst s.alphaTarget ref.report.alpha := rfl
  have hInstant : s.latticeInstant d ref.markInstant e = m := rfl
  have hReplaces : replacesArmed d s.fic.deferral s.fic.armed = true ↔ replaces := by
    cases hArmed : s.fic.armed with
    | none => simp only [replaces, hArmed, replacesArmed, Option.isNone_iff_eq_none]
    | some a =>
      cases hPlacing : a.placing with
      | group d' reference alpha e => simp only [replaces, hArmed, replacesArmed, hPlacing, decide_eq_true_eq]
      | flywheel => simp only [replaces, hArmed, replacesArmed, hPlacing]
      | localVoltage => simp only [replaces, hArmed, replacesArmed, hPlacing]
  have hMark : s.groupMark d ref.markInstant ref.report.alpha = mark := by
    rw [groupMark_eq, ← hError, hInstant]
  have hLate : (if s.groupLate d ref.markInstant ref.report.alpha then count16 s.fic.lateCount else s.fic.lateCount)
      = late := by
    rw [groupLate_eq, ← hError, hInstant]
    rfl
  refine ⟨fun h => ?_, fun h => ?_⟩
  · rw [handReference_eq, hMark, hLate, if_pos (hReplaces.2 h)]
    rfl
  · rw [handReference_eq, hLate, if_neg (mt hReplaces.1 h)]
    rfl

/-! ### Leaving RUNNING and BYPASSING (R11 to R13) -/

theorem enterListening_stc (s : State) : (enterListening s).stc = s.stc.listening s.overConsumed := by
  by_cases h : s.stc.state = .synced
  · rw [enterListening_synced h, aborted_stc]
    rfl
  · rw [enterListening_of_enterState (enterState_moved h .listening) rfl rfl]
    rfl

/-- The station in SYNCED just entered, before R13, R15 and R10 are judged. -/
def State.syncedFrom (s : State) : State := (s.moved .synced).setStc s.stc.synced

theorem enterSynced_moved (h : s.stc.state ≠ .synced) : enterSynced s =
    if s.stc.syncLost then enterListening s.syncedFrom
    else if s.overConsumed then enterTripped s.syncedFrom
    else evaluateDeblock (startDarkTimer s.syncedFrom) := by
  unfold enterSynced
  simp only [enterState_moved h]
  rfl

/-- Where the station goes on from SYNCED just entered. -/
theorem deblocked_syncedFrom (s : State) :
    (startDarkTimer s.syncedFrom).deblocked = s.fromSynced s.orh.current := by
  rw [startDarkTimer_deblocked]
  rfl

/-- The state of a station that leaves RUNNING or BYPASSING for SYNCED or TRIPPED. -/
theorem leaveFiring_state (h : s.stc.state ≠ .synced) : (leaveFiring s).stc.state =
    if s.cfg.redundancy < s.lvt.consumed then .tripped
    else if s.stc.syncLost then .listening else s.fromSynced s.orh.current := by
  unfold leaveFiring
  by_cases hOver : s.overConsumed = true
  · rw [if_pos hOver, enterTripped_stc, if_pos (overConsumed_iff.1 hOver)]
  · rw [if_neg hOver, if_neg (mt overConsumed_iff.2 hOver), enterSynced_moved h]
    by_cases hLost : s.stc.syncLost = true
    · rw [if_pos hLost, if_pos hLost, enterListening_stc, show s.syncedFrom.overConsumed = false from
        Bool.eq_false_iff.2 hOver]
      rfl
    · rw [if_neg hLost, if_neg hLost, if_neg hOver, evaluateDeblock_wentTo, wentTo_stc, deblocked_syncedFrom]
      rfl

/-- With an order that does not call for RUNNING or BYPASSING, or the block line asserted, SYNCED is kept. -/
theorem fromSynced_kept {o : Order} (h : s.blockAsserted = true ∨ (o.blockState ≠ .deblock
    ∧ (o.blockState = .bypass → s.inPairOf o = false))) : s.fromSynced o = .synced := by
  unfold State.fromSynced
  obtain h | ⟨hDeblock, hBypass⟩ := h
  · exact if_pos (.inl h)
  · split
    · rfl
    · split
      · exact absurd ‹_› hDeblock
      · rw [hBypass ‹_›]
        rfl
      · rfl

/-- With such an order the station goes where R11 to R13 send it. -/
theorem leaveFiring_fromFiring (h : s.stc.state ≠ .synced) (hKept : s.fromSynced s.orh.current = .synced) :
    (leaveFiring s).stc.state = s.fromFiring := by
  rw [leaveFiring_state h, hKept]
  rfl

/-! ### STC at an adoption (R10 to R12, R139) -/

/-- Where the current order takes the station (R10 to R13). -/
def State.followed (s : State) : StationState :=
  match s.stc.state with
  | .synced => s.fromSynced s.orh.current
  | .running =>
    match s.orh.current.blockState with
    | .deblock => .running
    | .bypass => if s.inPair then .bypassing else s.fromFiring
    | .block => s.fromFiring
  | .bypassing =>
    match s.orh.current.blockState with
    | .deblock => if s.cfg.redundancy < s.lvt.consumed then .tripped else .running
    | .bypass => if s.inPair then .bypassing else s.fromFiring
    | .block => s.fromFiring
  | other => other

theorem fromSynced_block (h : s.orh.current.blockState = .block) : s.fromSynced s.orh.current = .synced :=
  fromSynced_kept (.inr ⟨h ▸ nofun, h ▸ nofun⟩)

theorem fromSynced_unpaired (h : s.orh.current.blockState = .bypass) (hPair : ¬ s.inPair = true) :
    s.fromSynced s.orh.current = .synced :=
  fromSynced_kept (.inr ⟨h ▸ nofun, fun _ => Bool.eq_false_iff.2 hPair⟩)

/-- STC follows the order, or stays with its records as they are. -/
theorem stcAdopt_follows (s : State) :
    (stcAdopt s).stc.state = s.followed ∧ (s.followed = s.stc.state → (stcAdopt s).stc = s.stc) := by
  have hLeaves (hNot : s.stc.state ≠ .synced) (hKept : s.fromSynced s.orh.current = .synced)
      (hFollowed : s.followed = s.fromFiring) (hAdopt : stcAdopt s = leaveFiring s)
      (hFiring : s.stc.state = .running ∨ s.stc.state = .bypassing) :
      (stcAdopt s).stc.state = s.followed ∧ (s.followed = s.stc.state → (stcAdopt s).stc = s.stc) := by
    rw [hAdopt, hFollowed, leaveFiring_fromFiring hNot hKept]
    refine ⟨rfl, fun hSame => ?_⟩
    unfold State.fromFiring at hSame
    split at hSame
    · obtain h | h := hFiring <;> rw [h] at hSame <;> cases hSame
    · split at hSame <;> obtain h | h := hFiring <;> rw [h] at hSame <;> cases hSame
  have hEnters (new : StationState) (hNew : new ≠ s.stc.state) (hFollowed : s.followed = new)
      (hAdopt : (stcAdopt s).stc.state = new) :
      (stcAdopt s).stc.state = s.followed ∧ (s.followed = s.stc.state → (stcAdopt s).stc = s.stc) :=
    ⟨hAdopt.trans hFollowed.symm, fun hSame => absurd (hFollowed.symm.trans hSame) hNew⟩
  have hStays (hFollowed : s.followed = s.stc.state) (hAdopt : stcAdopt s = s) :
      (stcAdopt s).stc.state = s.followed ∧ (s.followed = s.stc.state → (stcAdopt s).stc = s.stc) := by
    rw [hAdopt, hFollowed]
    exact ⟨rfl, fun _ => rfl⟩
  have hBlock := fromSynced_block (s := s)
  have hUnpaired := fromSynced_unpaired (s := s)
  have hFollowed : s.followed = s.followed := rfl
  have hAdopt : stcAdopt s = stcAdopt s := rfl
  conv at hFollowed => rhs; unfold State.followed
  conv at hAdopt => rhs; unfold stcAdopt
  cases hState : s.stc.state with
  | unset | listening | tripped =>
    rw [hState] at hFollowed hAdopt
    rw [← hState]
    exact hStays (hFollowed.trans hState.symm) hAdopt
  | synced =>
    rw [hState] at hFollowed hAdopt
    rw [← hState]
    have hDeblock : (stcAdopt s).stc = s.stc.went (s.fromSynced s.orh.current) := by
      rw [hAdopt]
      refine (congrArg State.stc (evaluateDeblock_wentTo s)).trans ?_
      rw [wentTo_stc, State.deblocked, if_pos hState]
    rw [hDeblock, hFollowed]
    refine ⟨rfl, fun hSame => ?_⟩
    have hSame : s.fromSynced s.orh.current = s.stc.state := hSame
    rw [hSame, Stc.went_self]
  | running =>
    have hNot : s.stc.state ≠ .synced := hState ▸ nofun
    cases hOrder : s.orh.current.blockState with
    | deblock =>
      rw [hState, hOrder] at hFollowed hAdopt
      rw [← hState]
      exact hStays (hFollowed.trans hState.symm) hAdopt
    | block =>
      rw [hState, hOrder] at hFollowed hAdopt
      rw [← hState]
      exact hLeaves hNot (hBlock hOrder) hFollowed hAdopt (.inl hState)
    | bypass =>
      rw [hState, hOrder] at hFollowed hAdopt
      rw [← hState]
      by_cases hPair : s.inPair = true
      · refine hEnters .bypassing (hState ▸ nofun) (hFollowed.trans (if_pos hPair)) ?_
        rw [hAdopt.trans (if_pos hPair), enterState_stc]
      · exact hLeaves hNot (hUnpaired hOrder hPair) (hFollowed.trans (if_neg hPair)) (hAdopt.trans (if_neg hPair))
          (.inl hState)
  | bypassing =>
    have hNot : s.stc.state ≠ .synced := hState ▸ nofun
    cases hOrder : s.orh.current.blockState with
    | deblock =>
      rw [hState, hOrder] at hFollowed hAdopt
      rw [← hState]
      by_cases hOver : s.cfg.redundancy < s.lvt.consumed
      · refine hEnters .tripped (hState ▸ nofun) (hFollowed.trans (if_pos hOver)) ?_
        rw [hAdopt.trans (if_pos (overConsumed_iff.2 hOver)), enterTripped_stc]
      · refine hEnters .running (hState ▸ nofun) (hFollowed.trans (if_neg hOver)) ?_
        rw [hAdopt.trans (if_neg (mt overConsumed_iff.1 hOver)), enterState_stc]
    | block =>
      rw [hState, hOrder] at hFollowed hAdopt
      rw [← hState]
      exact hLeaves hNot (hBlock hOrder) hFollowed hAdopt (.inr hState)
    | bypass =>
      rw [hState, hOrder] at hFollowed hAdopt
      rw [← hState]
      by_cases hPair : s.inPair = true
      · exact hStays ((hFollowed.trans (if_pos hPair)).trans hState.symm) (hAdopt.trans (if_pos hPair))
      · exact hLeaves hNot (hUnpaired hOrder hPair) (hFollowed.trans (if_neg hPair)) (hAdopt.trans (if_neg hPair))
          (.inr hState)

/-! ### The armed mark recomputed (R104) -/

theorem recomputeArmed_none (h : s.fic.armed = none) : recomputeArmed s = s := by
  unfold recomputeArmed
  rw [h]

theorem recomputeArmed_group {a : ArmedMark} {d : Nat} {reference : Instant} {alpha : Option Nat} {e : Int}
    (h : s.fic.armed = some a) (hPlacing : a.placing = .group d reference alpha e) :
    recomputeArmed s = s.setFic { s.fic with
      armed := some (s.groupMark d reference alpha)
      lateCount := if s.groupLate d reference alpha then count16 s.fic.lateCount else s.fic.lateCount } := by
  unfold recomputeArmed countLate
  simp only [h, hPlacing]
  split <;> rfl

theorem recomputeArmed_flywheel {a : ArmedMark} {own : Instant} (h : s.fic.armed = some a) (hPlacing : a.placing = .flywheel)
    (hOwn : s.ownMark = some own) : recomputeArmed s = s.setFic { s.fic with
      armed := some
        { m := s.notBeforeNow (s.flywheelInstant own s.alphaTarget (s.fic.alphaLast.getD s.alphaTarget))
          alphaT := s.alphaTarget, placing := .flywheel } } := by
  unfold recomputeArmed
  simp only [h, hPlacing, hOwn]

theorem recomputeArmed_local {a : ArmedMark} {vf : Instant} (h : s.fic.armed = some a) (hPlacing : a.placing = .localVoltage)
    (hVf : s.vcm.vf = some vf) : recomputeArmed s = s.setFic { s.fic with
      armed := some
        { m := s.notBeforeNow (s.localInstant vf s.alphaTarget)
          alphaT := s.alphaTarget, placing := .localVoltage } } := by
  unfold recomputeArmed
  simp only [h, hPlacing, hVf]

theorem recomputeArmed_frame (s : State) : recomputeArmed s = s.setFic { s.fic with
    armed := (recomputeArmed s).fic.armed, lateCount := (recomputeArmed s).fic.lateCount } := by
  cases hArmed : s.fic.armed with
  | none =>
    rw [recomputeArmed_none hArmed]
    rfl
  | some a =>
    cases hPlacing : a.placing with
    | group d reference alpha e =>
      rw [recomputeArmed_group hArmed hPlacing]
      rfl
    | flywheel =>
      cases hOwn : s.ownMark with
      | none =>
        have hStays : recomputeArmed s = s := by
          unfold recomputeArmed
          simp only [hArmed, hPlacing, hOwn]
        rw [hStays]
        rfl
      | some own =>
        rw [recomputeArmed_flywheel hArmed hPlacing hOwn]
        rfl
    | localVoltage =>
      cases hVf : s.vcm.vf with
      | none =>
        have hStays : recomputeArmed s = s := by
          unfold recomputeArmed
          simp only [hArmed, hPlacing, hVf]
        rw [hStays]
        rfl
      | some vf =>
        rw [recomputeArmed_local hArmed hPlacing hVf]
        rfl

/-! ### The adoption (R138) -/

theorem forceBlock_frame (s : State) : forceBlock s = s.setOrh (forceBlock s).orh := by
  rw [forceBlock_eq]
  split <;> rfl

theorem forceBlock_orh (s : State) : (forceBlock s).orh =
    if 200000 < s.orh.age ∧ s.orh.current.blockState = .deblock ∧ s.orh.pendingForced = false then
      { s.orh with
        pending := some { s.orh.current with blockState := .block }, pendingForced := true
        losses := count16 s.orh.losses }
    else s.orh := by
  rw [forceBlock_eq]
  split <;> rfl

theorem forceBlock_current (s : State) : (forceBlock s).orh.current = s.orh.current := by
  rw [forceBlock_eq]
  split <;> rfl

/-- The target angle reads the current order and no more of the ORH. -/
theorem alphaTarget_setOrh {x : Orh} (h : x.current = s.orh.current) : (s.setOrh x).alphaTarget = s.alphaTarget := by
  unfold State.alphaTarget State.marginAngle State.alphaOrder State.gammaOrder
  rw [State.setOrh_orh, h]
  rfl

theorem forceBlock_alphaTarget (s : State) : (forceBlock s).alphaTarget = s.alphaTarget := by
  rw [forceBlock_frame, alphaTarget_setOrh (forceBlock_current s)]

theorem recomputeArmed_alphaTarget (s : State) : (recomputeArmed s).alphaTarget = s.alphaTarget := by
  rw [recomputeArmed_frame]
  rfl

/-- What STC's part of an adoption leaves alone. -/
theorem stcAdopt_keeps (s : State) : (stcAdopt s).clock = s.clock ∧ (stcAdopt s).firing = s.firing
    ∧ (stcAdopt s).prl = s.prl ∧ (stcAdopt s).vcm = s.vcm ∧ (stcAdopt s).lvt = s.lvt
    ∧ (stcAdopt s).fic.armed = s.fic.armed ∧ (stcAdopt s).fic.alphaLast = s.fic.alphaLast
    ∧ (stcAdopt s).fic.lateCount = s.fic.lateCount ∧ (stcAdopt s).fic.advanceCount = s.fic.advanceCount := by
  have h := stcAdopt_offStation s
  simp only [State.offStation, Prod.mk.injEq, Fic.mk.injEq] at h
  obtain ⟨hClock, -, -, hFiring, -, -, hPrl, hVcm, hLvt, ⟨hArmed, hLast, -, -, hAdvance, -, hLate, -⟩, -⟩ := h
  exact ⟨hClock, hFiring, hPrl, hVcm, hLvt, hArmed, hLast, hLate, hAdvance⟩

/-- What is not recomputed or forced at an adoption. -/
theorem forceBlock_recomputeArmed_keeps (s : State) : (forceBlock (recomputeArmed s)).stc = s.stc
    ∧ (forceBlock (recomputeArmed s)).firing = s.firing ∧ (forceBlock (recomputeArmed s)).prl = s.prl
    ∧ (forceBlock (recomputeArmed s)).vcm = s.vcm ∧ (forceBlock (recomputeArmed s)).lvt = s.lvt
    ∧ (forceBlock (recomputeArmed s)).fic = (recomputeArmed s).fic
    ∧ (recomputeArmed s).orh = s.orh ∧ (recomputeArmed s).fic.advanceCount = s.fic.advanceCount := by
  rw [forceBlock_frame, recomputeArmed_frame]
  exact ⟨rfl, rfl, rfl, rfl, rfl, rfl, rfl, rfl⟩

theorem inPairOf_iff (o : Order) : s.inPairOf o = true ↔ ∃ p, o.bypass = some p
    ∧ (s.position = p.toNat ∨ s.position = (p.toNat + s.group / 2 - 1) % s.group + 1) := by
  unfold State.inPairOf
  cases o.bypass with
  | none => simp
  | some p =>
    rw [Bool.or_eq_true, decide_eq_true_iff, decide_eq_true_iff]
    simp only [Option.some.injEq, exists_eq_left']
    exact Iff.rfl

/-- Settles O50: the order becomes current, STC follows it, the mark is recomputed, and the order loss judged. -/
theorem orderAdopted : Obligations.OrderAdopted := by
  intro s
  refine ⟨fun hNone => ?_, fun o => inPairOf_iff o, rfl, fun o hPending => ?_⟩
  · unfold adopt
    rw [hNone]
  · let v := stcAdopt (s.ordered o)
    obtain ⟨hClock, hFiring, hPrl, hVcm, hLvt, hArmed, hLast, hLate, hAdvance⟩ :
        v.clock = s.clock ∧ v.firing = s.firing ∧ v.prl = s.prl ∧ v.vcm = s.vcm ∧ v.lvt = s.lvt
          ∧ v.fic.armed = s.fic.armed ∧ v.fic.alphaLast = s.fic.alphaLast ∧ v.fic.lateCount = s.fic.lateCount
          ∧ v.fic.advanceCount = advanceUnder o.mode s.fic.advanceCount := stcAdopt_keeps (s.ordered o)
    have hRun : Run (.leave :: Tag.station) (s.ordered o) v := stcAdopt_run (by simp) (by simp)
    have hCfg : v.cfg = s.cfg := hRun.cfg
    have hGroup : v.group = s.group := hRun.group
    have hPosition : v.position = s.position := hRun.position
    have hNow : v.now = s.now := congrArg (BitVec.ofNat 32) hClock
    have hOrh : v.orh = (s.ordered o).orh := stcAdopt_orh _
    have hAdopt : adopt s = forceBlock (recomputeArmed v) := adopt_eq hPending
    obtain ⟨hStc, hFiring', hPrl', hVcm', hLvt', hFic, hOrh', hAdvance'⟩ := forceBlock_recomputeArmed_keeps v
    rw [← hAdopt] at hStc hFiring' hPrl' hVcm' hLvt' hFic
    have hTarget : (adopt s).alphaTarget = v.alphaTarget := by
      rw [hAdopt, forceBlock_alphaTarget, recomputeArmed_alphaTarget]
    have hLattice (d : Nat) (reference : Instant) (e : Int) :
        v.latticeInstant d reference e = s.latticeInstant d reference e := by
      unfold State.latticeInstant
      rw [hCfg, hPrl, hGroup]
    obtain ⟨hState, hSame⟩ := stcAdopt_follows (s.ordered o)
    refine ⟨?_, ?_, ⟨fun hNone => ?_, fun a ha => ⟨fun d reference alpha e' hPlacing => ?_,
      fun own last hPlacing hOwn hAlpha => ?_, fun vf hPlacing hVf => ?_⟩⟩, hVcm'.trans hVcm, hLvt'.trans hLvt,
      hPrl'.trans hPrl, hFiring'.trans hFiring, ?_, fun hStays => ?_⟩
    · rw [hAdopt, forceBlock_orh, hOrh', hOrh]
      exact ite_of_iff (by simp [State.ordered]) rfl rfl
    · rw [hFic, hAdvance', hAdvance]
      cases o.mode <;> rfl
    · rw [hFic, recomputeArmed_none (hArmed.trans hNone)]
      exact ⟨hArmed.trans hNone, hLate⟩
    · intro e m
      rw [hFic, recomputeArmed_group (hArmed.trans ha) hPlacing, groupMark_eq, groupLate_eq, hNow, hLate, hLattice,
        ← hTarget]
      exact ⟨rfl, rfl⟩
    · intro slew
      have hOwn : v.ownMark = some own.markInstant := by
        rw [ownMark_eq, show v.ownReport = s.ownReport from ?_, hOwn]
        · rfl
        · unfold State.ownReport State.entry
          rw [hPrl, hPosition]
      rw [hFic, recomputeArmed_flywheel (hArmed.trans ha) hPlacing hOwn, hLast, hAlpha, ← hTarget]
      unfold State.notBeforeNow State.flywheelInstant State.slew State.ticks
      rw [hNow, hPrl]
      exact ⟨rfl, hLate⟩
    · rw [hFic, recomputeArmed_local (hArmed.trans ha) hPlacing (hVcm ▸ hVf), ← hTarget]
      unfold State.notBeforeNow State.localInstant State.ticks
      rw [hNow, hPrl]
      exact ⟨rfl, hLate⟩
    · rw [hStc]
      exact hState
    · rw [hStc] at hStays ⊢
      exact hSame (hState.symm.trans hStays)

end
end Sys2Proof.Machine
end

