-- ==== Sys2Proof/Proofs/Handouts.lean ====
section
/-! PROOFS. What the hand-outs of a mark do, whatever their order: each effect is taken once, at most one RESULT is
produced, and STC judges the mark with the values that stand. -/

namespace Sys2Proof.Machine

section
variable {s u v : State}

/-! ### An effect taken once -/

/-- What one effect brings about in any order, when the effects before it keep its premise and those after it its
conclusion. -/
theorem inOrder_once {P Q : State → Prop} {f : State → State} {others o : List (State → State)}
    (ho : o.Perm (f :: others)) (hP : ∀ g ∈ others, ∀ x, P x → P (g x)) (hf : ∀ x, P x → Q (f x))
    (hQ : ∀ g ∈ others, ∀ x, Q x → Q (g x)) (s : State) (h : P s) : Q (inOrder o s) := by
  obtain ⟨before, after, rfl⟩ := List.append_of_mem (ho.mem_iff.2 List.mem_cons_self)
  have hOthers : (before ++ after).Perm others := (List.perm_middle.symm.trans ho).cons_inv
  have hSplit : inOrder (before ++ f :: after) s = inOrder after (f (inOrder before s)) := by
    unfold inOrder
    rw [List.foldl_append, List.foldl_cons]
  rw [hSplit]
  refine inOrder_keeps after (fun g hg => hQ g (hOthers.mem_iff.1 (List.mem_append_right _ hg))) _ (hf _ ?_)
  exact inOrder_keeps before (fun g hg => hP g (hOthers.mem_iff.1 (List.mem_append_left _ hg))) s h

/-- The hand-outs of a mark at a valve and a CMU in these states. -/
def markEffects (placing : Placing) (refHeard : Bool) (s : State) : List (State → State) :=
  [judgeMark placing refHeard] ++ (if s.vcm.valve = .dark then [adopt] else [])
    ++ (if s.cmu.executing.isSome then [countSurveyMark] else []) ++ [offerOwnMark placing]

/-- The hand-outs are taken one after the other in some order, with the count of a free choice at most once. -/
theorem markHandouts_cases (placing : Placing) (refHeard : Bool) (s : State) :
    ∃ (o choice : List (State → State)), (choice = [] ∨ choice = [State.countChoice])
      ∧ o.Perm (markEffects placing refHeard s ++ choice) ∧ markHandouts placing refHeard s = inOrder o s := by
  simp only [markHandouts]
  split
  · obtain ⟨o, ho, h | h⟩ := inAnyOrder_cases (markEffects placing refHeard s) s
    · exact ⟨o, [], .inl rfl, by rwa [List.append_nil], h⟩
    · refine ⟨o ++ [State.countChoice], [State.countChoice], .inr rfl, ho.append_right _, h.trans ?_⟩
      unfold inOrder
      rw [List.foldl_append]
      rfl
  · obtain ⟨o, ho, h | h⟩ := inAnyOrder_cases ([judgeMark placing refHeard]
      ++ (if s.vcm.valve = .dark then [adopt] else [])
      ++ (if s.cmu.executing.isSome then [countSurveyMark] else [])) s
    · refine ⟨o ++ [offerOwnMark placing], [], .inl rfl, ?_, ?_⟩
      · rw [List.append_nil]
        exact ho.append_right _
      · rw [h]
        unfold inOrder
        rw [List.foldl_append]
        rfl
    · refine ⟨o ++ [State.countChoice, offerOwnMark placing], [State.countChoice], .inr rfl, ?_, ?_⟩
      · refine (ho.append (List.Perm.swap ..)).trans ?_
        simp only [markEffects, List.append_assoc, List.cons_append, List.nil_append]
        exact .refl _
      · rw [h]
        unfold inOrder
        rw [List.foldl_append]
        rfl

/-- What one of the hand-outs brings about, as `inOrder_once`. -/
theorem markHandouts_once {P Q : State → Prop} {placing : Placing} {refHeard : Bool} {f : State → State}
    {others : List (State → State)} (hMember : (markEffects placing refHeard s).Perm (f :: others))
    (hP : ∀ g ∈ State.countChoice :: others, ∀ x, P x → P (g x)) (hf : ∀ x, P x → Q (f x))
    (hQ : ∀ g ∈ State.countChoice :: others, ∀ x, Q x → Q (g x)) (h : P s) : Q (markHandouts placing refHeard s) := by
  obtain ⟨o, choice, hChoice, ho, hEq⟩ := markHandouts_cases placing refHeard s
  have hSub (g : State → State) (hg : g ∈ others ++ choice) : g ∈ State.countChoice :: others := by
    obtain hg | hg := List.mem_append.1 hg
    · exact List.mem_cons_of_mem _ hg
    · obtain rfl | rfl := hChoice
      · cases hg
      · rw [List.mem_singleton.1 hg]
        exact List.mem_cons_self
  rw [hEq]
  exact inOrder_once (ho.trans (hMember.append_right choice)) (fun g hg => hP g (hSub g hg)) hf
    (fun g hg => hQ g (hSub g hg)) s h

/-- What one of the hand-outs makes of a reading that no other touches. -/
theorem markHandouts_reading {α : Type} (reading : State → α) {after : α} {placing : Placing} {refHeard : Bool}
    {f : State → State} {others : List (State → State)}
    (hMember : (markEffects placing refHeard s).Perm (f :: others))
    (hKeep : ∀ g ∈ State.countChoice :: others, ∀ x, reading (g x) = reading x)
    (hf : ∀ x, reading x = reading s → reading (f x) = after) :
    reading (markHandouts placing refHeard s) = after :=
  markHandouts_once (P := fun x => reading x = reading s) (Q := fun x => reading x = after) hMember
    (fun g hg x hx => (hKeep g hg x).trans hx) hf (fun g hg x hx => (hKeep g hg x).trans hx) rfl

/-! ### The RESULT of a survey that ends -/

/-- A RESULT frame's copy. -/
def TxCopy.isResultOf (c : TxCopy) : Prop := ∃ body, c.body = .result body

/-- The RESULTs placed on both lines between two states: one at most, none with the CMU IDLE before, and the CMU IDLE
after one. -/
structure Placed (s u : State) (results : List TxCopy) : Prop where
  one : results.length ≤ 1
  isResult : ∀ c ∈ results, c.isResultOf
  none : s.cmu.executing = none → results = []
  ends : results ≠ [] → u.cmu.executing = .none
  lineA : u.lineA = results.foldl (fun l c => l.place s.clock c) s.lineA
  lineB : u.lineB = results.foldl (fun l c => l.place s.clock c) s.lineB
  seqCounter : u.fic.seqCounter = s.fic.seqCounter + BitVec.ofNat 8 results.length

/-- From `s` to `u` at most one RESULT is produced, that of a survey that ends; beyond it the queues, the sequence
counter, the CMU and the ACK window stand. -/
structure Reports (s u : State) : Prop where
  clock : u.clock = s.clock
  idle : s.cmu.executing = none → u.cmu.executing = none
  window : u.pst.window = s.pst.window
    ∨ (s.cmu.executing ≠ none ∧ u.pst.window = withoutSurveyWindow s.pst.window)
  results : ∃ results : List TxCopy, Placed s u results

/-- No RESULT takes no sequence number. -/
theorem seq_none (n : Byte) : n + BitVec.ofNat 8 ([] : List TxCopy).length = n := by
  rw [List.length_nil]
  exact BitVec.add_zero n

theorem Placed.nothing (hLineA : u.lineA = s.lineA) (hLineB : u.lineB = s.lineB)
    (hSeq : u.fic.seqCounter = s.fic.seqCounter) : Placed s u [] where
  one := Nat.zero_le 1
  isResult _ hc := absurd hc List.not_mem_nil
  none _ := rfl
  ends h := absurd rfl h
  lineA := hLineA
  lineB := hLineB
  seqCounter := hSeq.trans (seq_none _).symm

/-- Nothing of it happens. -/
theorem Reports.quiet (hClock : u.clock = s.clock) (hCmu : u.cmu = s.cmu) (hWindow : u.pst.window = s.pst.window)
    (hLineA : u.lineA = s.lineA) (hLineB : u.lineB = s.lineB) (hSeq : u.fic.seqCounter = s.fic.seqCounter) :
    Reports s u where
  clock := hClock
  idle h := hCmu ▸ h
  window := .inl hWindow
  results := ⟨[], .nothing hLineA hLineB hSeq⟩

theorem Reports.refl (s : State) : Reports s s := .quiet rfl rfl rfl rfl rfl rfl

theorem withoutSurveyWindow_twice (w : Option AckWindow) :
    withoutSurveyWindow (withoutSurveyWindow w) = withoutSurveyWindow w := by
  unfold withoutSurveyWindow
  cases w with
  | none => rfl
  | some w => cases hKind : w.kind <;> simp [hKind]

theorem Reports.trans (h : Reports s u) (h' : Reports u v) : Reports s v where
  clock := h'.clock.trans h.clock
  idle hIdle := h'.idle (h.idle hIdle)
  window := by
    obtain hWindow | ⟨hBusy, hWindow⟩ := h.window <;> obtain hWindow' | ⟨hBusy', hWindow'⟩ := h'.window
    · exact .inl (hWindow'.trans hWindow)
    · exact .inr ⟨fun hIdle => hBusy' (h.idle hIdle), hWindow ▸ hWindow'⟩
    · exact .inr ⟨hBusy, hWindow'.trans hWindow⟩
    · exact .inr ⟨hBusy, by rw [hWindow', hWindow, withoutSurveyWindow_twice]⟩
  results := by
    obtain ⟨first, hFirst⟩ := h.results
    obtain ⟨second, hSecond⟩ := h'.results
    have hLineA := h.clock ▸ hSecond.lineA
    have hLineB := h.clock ▸ hSecond.lineB
    by_cases hEmpty : first = []
    · subst hEmpty
      refine ⟨second, hSecond.one, hSecond.isResult, fun h0 => hSecond.none (h.idle h0), hSecond.ends, ?_, ?_, ?_⟩
      · rw [hLineA, hFirst.lineA, List.foldl_nil]
      · rw [hLineB, hFirst.lineB, List.foldl_nil]
      · rw [hSecond.seqCounter, hFirst.seqCounter]
        exact congrArg (· + BitVec.ofNat 8 second.length) (seq_none s.fic.seqCounter)
    · obtain rfl := hSecond.none (hFirst.ends hEmpty)
      exact ⟨first, hFirst.one, hFirst.isResult, hFirst.none, fun _ => h'.idle (hFirst.ends hEmpty),
        hLineA.trans hFirst.lineA, hLineB.trans hFirst.lineB,
        hSecond.seqCounter.trans ((seq_none _).trans hFirst.seqCounter)⟩

/-- A survey that ends has its RESULT produced. -/
theorem reports_endSurvey (h : s.cmu.executing ≠ none) (tag code : Byte) (completion : Completion) (detail : Detail)
    (data : List Byte) : Reports s (produceResult tag code completion detail data (endSurvey s)) where
  clock := rfl
  idle _ := rfl
  window := .inr ⟨h, rfl⟩
  results := ⟨[producedCopy (.result { tag, code, completion, detail, data }) (endSurvey s)], Nat.le_refl 1,
    fun _ hc => List.mem_singleton.1 hc ▸ ⟨_, rfl⟩, fun hIdle => absurd hIdle h, fun _ => rfl, rfl, rfl, rfl⟩

theorem reports_abortSurvey (s : State) : Reports s (abortSurvey s) := by
  cases h : s.cmu.executing with
  | none =>
    rw [abortSurvey_idle h]
    exact .refl s
  | some record =>
    have hAbort : abortSurvey s = produceResult record.tag record.code .aborted .state record.partialData (endSurvey s) := by
      unfold abortSurvey
      rw [h]
    rw [hAbort]
    exact reports_endSurvey (h ▸ nofun) ..

theorem reports_setStc (x : Stc) : Reports s (s.setStc x) := .quiet rfl rfl rfl rfl rfl rfl

theorem reports_enterState (new : StationState) (s : State) : Reports s (enterState new s) := by
  have hMoved (x : State) : Reports x (x.moved new) := .quiet rfl rfl rfl rfl rfl rfl
  rw [enterState_eq]
  split
  · exact (reports_abortSurvey s).trans (hMoved _)
  · exact hMoved s

theorem reports_enterTripped (s : State) : Reports s (enterTripped s) :=
  (reports_enterState .tripped s).trans (reports_setStc _)

theorem reports_enterListening (s : State) : Reports s (enterListening s) := by
  have hEnter := (reports_enterState .listening s).trans (reports_setStc
    { (enterState .listening s).stc with syncCount := 0, badRun := 0, goodRun := 0, syncLost := false })
  simp only [enterListening]
  split
  · exact hEnter.trans (reports_enterTripped _)
  · exact hEnter

theorem reports_evaluateDeblock (s : State) : Reports s (evaluateDeblock s) := by
  unfold evaluateDeblock
  split
  · split
    · exact reports_enterState _ s
    · split
      · exact reports_enterState _ s
      · exact .refl s
    · exact .refl s
  · exact .refl s

theorem reports_startDarkTimer (s : State) : Reports s (startDarkTimer s) := by
  unfold startDarkTimer
  split
  · exact reports_setStc _
  · exact .refl s

theorem reports_enterSynced (s : State) : Reports s (enterSynced s) := by
  have hEnter := (reports_enterState .synced s).trans (reports_setStc
    { (enterState .synced s).stc with syncCount := 0, badRun := 0, goodRun := 0 })
  simp only [enterSynced]
  split
  · exact hEnter.trans (reports_enterListening _)
  · split
    · exact hEnter.trans (reports_enterTripped _)
    · exact (hEnter.trans (reports_startDarkTimer _)).trans (reports_evaluateDeblock _)

theorem reports_leaveFiring (s : State) : Reports s (leaveFiring s) := by
  unfold leaveFiring
  split
  · exact reports_enterTripped s
  · exact reports_enterSynced s

theorem reports_stcAdopt (s : State) : Reports s (stcAdopt s) := by
  unfold stcAdopt
  split
  · exact reports_evaluateDeblock s
  · split
    · exact .refl s
    · split
      · exact reports_enterState _ s
      · exact reports_leaveFiring s
    · exact reports_leaveFiring s
  · split
    · split
      · exact reports_enterTripped s
      · exact reports_enterState _ s
    · split
      · exact .refl s
      · exact reports_leaveFiring s
    · exact reports_leaveFiring s
  · exact .refl s

theorem reports_adopt (s : State) : Reports s (adopt s) := by
  cases h : s.orh.pending with
  | none =>
    unfold adopt
    rw [h]
    exact .refl s
  | some o =>
    have hOrdered : Reports s (s.ordered o) := .quiet rfl rfl rfl rfl rfl rfl
    have hRest (x : State) : Reports x (forceBlock (recomputeArmed x)) := by
      rw [forceBlock_frame, recomputeArmed_frame]
      exact .quiet rfl rfl rfl rfl rfl rfl
    rw [adopt_eq h]
    exact (hOrdered.trans (reports_stcAdopt _)).trans (hRest _)

theorem reports_countSurveyMark (s : State) : Reports s (countSurveyMark s) := by
  unfold countSurveyMark
  split
  · exact .refl s
  · rename_i record h
    simp only []
    split
    · exact reports_endSurvey (h ▸ nofun) ..
    · refine { clock := rfl, idle := fun hIdle => ?_, window := .inl rfl, results := ⟨[], .nothing rfl rfl rfl⟩ }
      rw [h] at hIdle
      cases hIdle

theorem reports_judgeMark (placing : Placing) (refHeard : Bool) (s : State) :
    Reports s (judgeMark placing refHeard s) := by
  have hRuns (x : State) : Reports x (judgeRuns placing x) := by
    have hLose (y : State) : Reports y (loseLattice y) := by
      unfold loseLattice
      split
      · exact (reports_setStc _).trans (reports_enterListening _)
      · split
        · exact .refl y
        · exact reports_setStc _
    rw [judgeRuns_eq]
    split
    · exact (reports_setStc _).trans (hLose _)
    · split <;> exact reports_setStc _
  unfold judgeMark
  split
  · by_cases hCounts : s.markCounts placing refHeard
    · rw [judgeListening_counts hCounts]
      split
      · exact (reports_setStc _).trans (reports_enterSynced _)
      · exact reports_setStc _
    · rw [judgeListening_not hCounts]
      exact reports_setStc _
  · exact hRuns s
  · exact hRuns s
  · exact hRuns s
  · exact .refl s

theorem reports_offerOwnMark (placing : Placing) (s : State) : Reports s (offerOwnMark placing s) := by
  have hOffer : Reports s (offerMark s.position s.now s) := by
    rw [offerMark_frame]
    exact .quiet rfl rfl rfl rfl rfl rfl
  exact hOffer.trans (.quiet rfl rfl rfl rfl rfl rfl)

/-- The hand-outs of a mark produce at most one RESULT. -/
theorem reports_markHandouts (placing : Placing) (refHeard : Bool) (s : State) :
    Reports s (markHandouts placing refHeard s) :=
  markHandouts_keeps (P := Reports s) placing refHeard (fun _ h => h.trans (.quiet rfl rfl rfl rfl rfl rfl))
    (fun _ h => h.trans (reports_judgeMark ..)) (fun _ h => h.trans (reports_adopt _))
    (fun _ h => h.trans (reports_countSurveyMark _)) (fun _ h => h.trans (reports_offerOwnMark ..)) s (.refl s)

end
end Sys2Proof.Machine
end

