-- ==== Sys2Proof/Proofs/Judgement.lean ====
section
/-! PROOFS. What STC's judgement of a mark reads, and so what it gives in any order of the hand-outs; and the period
estimate, to which the mark is offered in the same order. -/

namespace Sys2Proof.Machine

section
variable {s m x : State} {c : Bool} {placing : Placing} {refHeard : Bool}

/-! ### STC's records at an entry into SYNCED from LISTENING -/

/-- STC's records once an entry into SYNCED has gone on (R7, R9, R10, R15). -/
def State.stcSynced (s : State) : Stc :=
  if s.stc.syncLost then s.stc.synced.listening s.overConsumed
  else if s.overConsumed then s.stc.synced.went .tripped
  else
    { s.stc.synced with
      darkTimer := if s.vcm.valve = ValveState.dark then some s.clock else none }.went (s.fromSynced s.orh.current)

theorem enterSynced_stc (h : s.stc.state = .listening) : (enterSynced s).stc = s.stcSynced := by
  rw [enterSynced_quiet h]
  unfold State.stcSynced
  by_cases hLost : s.stc.syncLost = true
  · rw [if_pos hLost, if_pos hLost, enterListening_stc]
    rfl
  · rw [if_neg hLost, if_neg hLost]
    by_cases hOver : s.overConsumed = true
    · rw [if_pos hOver, if_pos hOver, enterTripped_wentTo (.inr rfl), wentTo_stc]
      rfl
    · rw [if_neg hOver, if_neg hOver, evaluateDeblock_wentTo, wentTo_stc, startDarkTimer_deblocked]
      unfold startDarkTimer
      by_cases hDark : s.vcm.valve = .dark
      · rw [if_pos (show (s.setStc s.stc.synced).vcm.valve = .dark from hDark), if_pos hDark]
        rfl
      · rw [if_neg (show (s.setStc s.stc.synced).vcm.valve ≠ .dark from hDark), if_neg hDark]
        rfl

/-! ### What the judgement reads -/

/-- `x` is like `m` in what STC reads at a mark, with `c` for the flag that the mark clears. -/
structure Alike (c : Bool) (m x : State) : Prop where
  stc : x.stc = { m.stc with clashSeen := c }
  block : x.blockAsserted = m.blockAsserted
  clock : x.clock = m.clock
  valve : x.vcm.valve = m.vcm.valve
  lvt : x.lvt = m.lvt
  current : x.orh.current = m.orh.current

theorem Alike.state (h : Alike c m x) : x.stc.state = m.stc.state := by rw [h.stc]

theorem Alike.overConsumed (h : Alike c m x) : x.overConsumed = m.overConsumed := by
  unfold State.overConsumed State.cfg
  rw [h.stc, h.lvt]

theorem Alike.fromSynced (h : Alike c m x) : x.fromSynced x.orh.current = m.fromSynced m.orh.current := by
  unfold State.fromSynced State.inPairOf State.position State.group State.cfg
  rw [h.stc, h.lvt, h.current, h.block]

/-- Both with STC's records changed alike. -/
theorem Alike.setStc (h : Alike c m x) {y y' : Stc} (hStc : y' = { y with clashSeen := c }) :
    Alike c (m.setStc y) (x.setStc y') :=
  ⟨hStc, h.block, h.clock, h.valve, h.lvt, h.current⟩

theorem Alike.stcSynced (h : Alike c m x) : x.stcSynced = { m.stcSynced with clashSeen := c } := by
  unfold State.stcSynced
  rw [h.fromSynced, h.overConsumed, h.valve, h.clock, h.stc]
  let seen (y : Stc) : Stc := { y with clashSeen := c }
  refine Eq.trans ?_ (apply_ite seen _ _ _).symm
  refine ite_of_iff Iff.rfl rfl (Eq.trans ?_ (apply_ite seen _ _ _).symm)
  exact ite_of_iff Iff.rfl rfl rfl

theorem Alike.loseLattice_stc (h : Alike c m x) : (loseLattice x).stc = { (loseLattice m).stc with clashSeen := c } := by
  unfold loseLattice
  rw [h.state]
  by_cases hSynced : m.stc.state = .synced
  · rw [if_pos hSynced, if_pos hSynced, enterListening_stc, enterListening_stc]
    rw [show (x.setStc { x.stc with syncLossCount := count16 x.stc.syncLossCount }).overConsumed = m.overConsumed from
      h.overConsumed, State.setStc_stc, h.stc]
    rfl
  · rw [if_neg hSynced, if_neg hSynced]
    by_cases hLost : m.stc.syncLost = true
    · rw [if_pos (show x.stc.syncLost = true by rw [h.stc]; exact hLost), if_pos hLost]
      exact h.stc
    · rw [if_neg (show ¬ x.stc.syncLost = true by rw [h.stc]; exact hLost), if_neg hLost, State.setStc_stc, h.stc]
      rfl

theorem Alike.judgeRuns_stc (h : Alike c m x) (placing : Placing) :
    (judgeRuns placing x).stc = { (judgeRuns placing m).stc with clashSeen := c } := by
  have hRuns : x.stc.withRuns placing = { m.stc.withRuns placing with clashSeen := c } := by
    rw [h.stc]
    rfl
  rw [judgeRuns_eq, judgeRuns_eq, hRuns]
  by_cases hLose : placing.large = true ∧ (m.stc.withRuns placing).badRun = 3
  · rw [if_pos hLose, if_pos hLose]
    exact (h.setStc rfl).loseLattice_stc
  · rw [if_neg hLose, if_neg hLose]
    by_cases hEight : (m.stc.withRuns placing).goodRun = 8
    · rw [if_pos hEight, if_pos hEight]
      rfl
    · rw [if_neg hEight, if_neg hEight]
      rfl

/-- The judgement reads the forward interval and T_est only for a LOCAL mark. -/
theorem Alike.judgeListening_stc (h : Alike c m x) (hInterval : x.vcm.fwdInterval = m.vcm.fwdInterval)
    (hListening : m.stc.state = .listening) (hPeriod : placing = .localVoltage → x.prl.tEst = m.prl.tEst) :
    (judgeListening placing refHeard x).stc = { (judgeListening placing refHeard m).stc with clashSeen := c } := by
  have hQualifies : x.qualifies placing refHeard = m.qualifies placing refHeard := by
    cases placing with
    | group d reference alpha e => rfl
    | flywheel => rfl
    | localVoltage =>
      show (!refHeard && x.intervalAgrees) = (!refHeard && m.intervalAgrees)
      unfold State.intervalAgrees
      rw [hInterval, hPeriod rfl]
  have hCounts : x.markCounts placing refHeard ↔ m.markCounts placing refHeard := by
    unfold State.markCounts
    rw [h.stc, h.valve, hQualifies]
  have hCount : x.stc.syncCount = m.stc.syncCount := by rw [h.stc]
  by_cases hYes : m.markCounts placing refHeard
  · rw [judgeListening_counts hYes, judgeListening_counts (hCounts.2 hYes), hCount]
    split
    · let y (z : Stc) : Stc := { z with syncCount := m.stc.syncCount + 1 }
      have hAlike : Alike c (m.setStc (y m.stc)) (x.setStc (y x.stc)) := h.setStc (by rw [h.stc])
      have hm : (enterSynced (m.setStc (y m.stc))).stc = _ := enterSynced_stc hListening
      have hx : (enterSynced (x.setStc (y x.stc))).stc = _ := enterSynced_stc (h.state.trans hListening)
      exact hx.trans (hAlike.stcSynced.trans (congrArg (fun z : Stc => { z with clashSeen := c }) hm.symm))
    · rw [State.setStc_stc, State.setStc_stc, h.stc]
  · rw [judgeListening_not hYes, judgeListening_not (mt hCounts.1 hYes), State.setStc_stc, State.setStc_stc, h.stc]

theorem Alike.judgeMark_stc (h : Alike c m x) (hInterval : x.vcm.fwdInterval = m.vcm.fwdInterval)
    (hPeriod : m.stc.state = .listening → placing = .localVoltage → x.prl.tEst = m.prl.tEst) :
    (judgeMark placing refHeard x).stc = { (judgeMark placing refHeard m).stc with clashSeen := c } := by
  have hRuns (hState : m.stc.state = .synced ∨ m.stc.state = .running ∨ m.stc.state = .bypassing) :
      (judgeMark placing refHeard x).stc = { (judgeMark placing refHeard m).stc with clashSeen := c } := by
    rw [judgeMark_runs hState, judgeMark_runs (s := x) (h.state ▸ hState)]
    exact h.judgeRuns_stc placing
  cases hState : m.stc.state with
  | unset =>
    rw [judgeMark_still (.inl hState), judgeMark_still (s := x) (.inl (h.state.trans hState))]
    exact h.stc
  | tripped =>
    rw [judgeMark_still (.inr hState), judgeMark_still (s := x) (.inr (h.state.trans hState))]
    exact h.stc
  | listening =>
    rw [judgeMark_listening hState, judgeMark_listening (s := x) (h.state.trans hState)]
    exact h.judgeListening_stc hInterval hState (hPeriod hState)
  | synced => exact hRuns (.inl hState)
  | running => exact hRuns (.inr (.inl hState))
  | bypassing => exact hRuns (.inr (.inr hState))

/-! ### The period estimate -/

/-- What an offered mark changes, but for the LOCAL run. -/
def State.period (s : State) : Nat × Option LastArrival × Nat := (s.prl.tEst, s.prl.lastArrival, s.prl.outliers)

theorem offerMark_period_congr {p : Nat} {t : Instant} (h : x.period = m.period) (hGroup : x.group = m.group) :
    (offerMark p t x).period = (offerMark p t m).period := by
  simp only [State.period, Prod.mk.injEq] at h ⊢
  obtain ⟨hPeriod, hLast, hOutliers⟩ := h
  cases hOld : m.prl.lastArrival with
  | none =>
    rw [offerMark_first hOld, offerMark_first (hLast.trans hOld)]
    exact ⟨hPeriod, rfl, hOutliers⟩
  | some old =>
    cases hLater : later t old.instant with
    | false =>
      rw [offerMark_early hOld hLater, offerMark_early (hLast.trans hOld) hLater]
      exact ⟨hPeriod, hLast, hOutliers⟩
    | true =>
      rw [offerMark_later hOld hLater, offerMark_later (hLast.trans hOld) hLater, hGroup]
      split
      · obtain ⟨hTest, hOut⟩ := judgeSample_congr (s := m) (u := x)
          (m.group * (instantDiff t old.instant).toNat / distance m.group old.position p) hPeriod hOutliers
        exact ⟨hTest, rfl, hOut⟩
      · exact ⟨hPeriod, rfl, hOutliers⟩

theorem later_self (t : Instant) : later t t = false := by
  unfold later
  simp [instantDiff]

/-- A mark offered twice changes nothing the second time. -/
theorem offerMark_period_twice {p : Nat} {t : Instant} (h : x.period = (offerMark p t m).period) :
    (offerMark p t x).period = x.period := by
  have hLast : x.prl.lastArrival = (offerMark p t m).prl.lastArrival := congrArg (fun y => y.2.1) h
  cases hOld : m.prl.lastArrival with
  | none =>
    rw [offerMark_first hOld] at hLast
    rw [offerMark_early hLast (later_self t)]
  | some old =>
    cases hLater : later t old.instant with
    | false =>
      rw [offerMark_early hOld hLater, hOld] at hLast
      rw [offerMark_early hLast hLater]
    | true =>
      rw [offerMark_later hOld hLater] at hLast
      rw [offerMark_early hLast (later_self t)]

end
end Sys2Proof.Machine
end

