-- ==== Sys2Proof/Proofs/TakenMarks.lean ====
section
/-! PROOFS. What taking a mark leaves: the records before its hand-outs, each record after them, and the whole
mark (R45, R46, R111, R112). -/

namespace Sys2Proof.Machine

section
variable {s m x y : State} {c : Bool} {placing : Placing} {refHeard : Bool}

/-! ### Hand-outs without an adoption -/

theorem adopt_none (h : s.orh.pending = none) : adopt s = s := by
  unfold adopt
  rw [h]

/-- A mark at which the valve adopts a pending order (R138). -/
def State.markAdopts (m : State) : Prop := m.vcm.valve = .dark ∧ m.orh.pending.isSome = true

/-- The hand-outs beside the judgement. -/
theorem besides_cases {g : State → State}
    (hg : g ∈ State.countChoice :: ((if m.vcm.valve = .dark then [adopt] else [])
      ++ (if m.cmu.executing.isSome then [countSurveyMark] else []) ++ [offerOwnMark placing])) :
    g = State.countChoice ∨ (g = adopt ∧ m.vcm.valve = .dark) ∨ g = countSurveyMark ∨ g = offerOwnMark placing := by
  rw [List.mem_cons, List.mem_append, List.mem_append, List.mem_singleton] at hg
  obtain hg | (hg | hg) | hg := hg
  · exact .inl hg
  · split at hg
    · exact .inr (.inl ⟨List.mem_singleton.1 hg, ‹_›⟩)
    · cases hg
  · split at hg
    · exact .inr (.inr (.inl (List.mem_singleton.1 hg)))
    · cases hg
  · exact .inr (.inr (.inr hg))

/-- Where no order is adopted, a property that tells the ORH and that the other hand-outs keep is kept. -/
theorem markHandouts_without {P : State → Prop} (hNot : ¬ m.markAdopts) (hOrh : ∀ x, P x → x.orh = m.orh)
    (hCount : ∀ x, P x → P x.countChoice) (hJudge : ∀ x, P x → P (judgeMark placing refHeard x))
    (hSurvey : ∀ x, P x → P (countSurveyMark x)) (hOffer : ∀ x, P x → P (offerOwnMark placing x)) (h : P m) :
    P (markHandouts placing refHeard m) := by
  have hOthers (g : State → State) (hg : g ∈ State.countChoice :: ((if m.vcm.valve = .dark then [adopt] else [])
      ++ (if m.cmu.executing.isSome then [countSurveyMark] else []) ++ [offerOwnMark placing])) (x : State) (hx : P x) :
      P (g x) := by
    obtain rfl | ⟨rfl, hDark⟩ | rfl | rfl := besides_cases hg
    · exact hCount x hx
    · have hNone : x.orh.pending = none := by
        rw [hOrh x hx]
        exact Option.not_isSome_iff_eq_none.1 fun hSome => hNot ⟨hDark, hSome⟩
      rw [adopt_none hNone]
      exact hx
    · exact hSurvey x hx
    · exact hOffer x hx
  exact markHandouts_once (f := judgeMark placing refHeard) (.refl _) hOthers hJudge hOthers h

/-- From `s` to `u` nothing but STC's records changes. -/
def OnlyStc (s u : State) : Prop := s.setStc u.stc = u

theorem OnlyStc.trans {u : State} (h : OnlyStc s u) (h' : OnlyStc u y) : OnlyStc s y :=
  (congrArg (fun z : State => z.setStc y.stc) h).trans h'

theorem OnlyStc.cmu (h : OnlyStc s y) : y.cmu = s.cmu := by
  rw [← h]
  rfl

theorem onlyStc_setStc (x : Stc) : OnlyStc s (s.setStc x) := rfl

/-- With the CMU IDLE a transition from outside RUNNING and BYPASSING changes STC's records alone. -/
theorem onlyStc_wentTo (h : s.cmu.executing = none) (new : StationState) : OnlyStc s (s.wentTo new) := by
  rw [wentTo_idle h]
  rfl

theorem onlyStc_enterListening (h : s.cmu.executing = none) (hState : s.stc.state = .synced) :
    OnlyStc s (enterListening s) := by
  rw [enterListening_synced hState, aborted_idle (s := s.setStc (s.stc.listening s.overConsumed)) h]
  rfl

theorem onlyStc_enterSynced (h : s.cmu.executing = none) (hState : s.stc.state = .listening) :
    OnlyStc s (enterSynced s) := by
  have hEntered := onlyStc_setStc (s := s) s.stc.synced
  rw [enterSynced_quiet hState]
  split
  · exact hEntered.trans (onlyStc_enterListening (s := s.setStc s.stc.synced) h rfl)
  · split
    · rw [enterTripped_wentTo (.inr rfl)]
      exact hEntered.trans (onlyStc_wentTo (s := s.setStc s.stc.synced) h _)
    · have hTimer (z : State) : OnlyStc z (startDarkTimer z) := by
        unfold startDarkTimer
        split <;> rfl
      have hDark := hEntered.trans (hTimer _)
      rw [evaluateDeblock_wentTo]
      exact hDark.trans (onlyStc_wentTo (hDark.cmu.symm ▸ h) _)

theorem onlyStc_loseLattice (h : s.cmu.executing = none) : OnlyStc s (loseLattice s) := by
  unfold loseLattice
  split
  · exact (onlyStc_setStc _).trans (onlyStc_enterListening h ‹_›)
  · split <;> rfl

/-- With the CMU IDLE the judgement of a mark changes STC's records alone. -/
theorem judgeMark_idle (h : s.cmu.executing = none) : OnlyStc s (judgeMark placing refHeard s) := by
  have hRuns : OnlyStc s (judgeRuns placing s) := by
    rw [judgeRuns_eq]
    split
    · exact (onlyStc_setStc _).trans (onlyStc_loseLattice h)
    · split <;> rfl
  unfold judgeMark
  split
  · by_cases hCounts : s.markCounts placing refHeard
    · rw [judgeListening_counts hCounts]
      split
      · exact (onlyStc_setStc _).trans (onlyStc_enterSynced h ‹_›)
      · rfl
    · rw [judgeListening_not hCounts]
      rfl
  · exact hRuns
  · exact hRuns
  · exact hRuns
  · rfl

theorem countSurveyMark_idle (h : s.cmu.executing = none) : countSurveyMark s = s := by
  unfold countSurveyMark
  rw [h]

theorem countSurveyMark_stc (s : State) : (countSurveyMark s).stc = s.stc := by
  unfold countSurveyMark
  split
  · rfl
  · simp only []
    split
    · rw [produceResult, produce_eq]
      rfl
    · rfl

theorem offerOwnMark_frame (placing : Placing) (s : State) :
    offerOwnMark placing s = s.setPrl (offerOwnMark placing s).prl := by
  unfold offerOwnMark
  rw [offerMark_frame]
  rfl

/-- The ORH and the CMU with the PST, at a mark that adopts nothing and counts for no survey. -/
theorem markHandouts_quiet (hNot : ¬ m.markAdopts) (hIdle : m.cmu.executing = none) :
    (markHandouts placing refHeard m).cmu = m.cmu ∧ (markHandouts placing refHeard m).pst = m.pst := by
  have h := markHandouts_without (P := fun x => x.orh = m.orh ∧ x.cmu = m.cmu ∧ x.pst = m.pst) (placing := placing)
    (refHeard := refHeard) hNot (fun x hx => hx.1) (fun x hx => hx)
    (fun x ⟨hOrh, hCmu, hPst⟩ => by
      rw [← judgeMark_idle (s := x) (hCmu ▸ hIdle)]
      exact ⟨hOrh, hCmu, hPst⟩)
    (fun x ⟨hOrh, hCmu, hPst⟩ => by
      rw [countSurveyMark_idle (hCmu ▸ hIdle)]
      exact ⟨hOrh, hCmu, hPst⟩)
    (fun x ⟨hOrh, hCmu, hPst⟩ => by
      rw [offerOwnMark_frame]
      exact ⟨hOrh, hCmu, hPst⟩) ⟨rfl, rfl, rfl⟩
  exact h.2

/-- The FIC but for the sequence counter, which a RESULT takes. -/
def Fic.besideSeq (x : Fic) : Fic := { x with seqCounter := 0 }

theorem offStation_orh_fic (h : y.offStation = x.offStation) :
    y.orh = x.orh ∧ y.fic.besideSeq = x.fic.besideSeq := by
  simp only [State.offStation, Prod.mk.injEq] at h
  exact ⟨h.2.2.2.2.2.2.2.2.2.2.1, h.2.2.2.2.2.2.2.2.2.1⟩

/-- The ORH, and the FIC but for its sequence counter, at a mark that adopts nothing. -/
theorem markHandouts_orh_fic (hNot : ¬ m.markAdopts) : (markHandouts placing refHeard m).orh = m.orh
    ∧ (markHandouts placing refHeard m).fic.besideSeq = m.fic.besideSeq := by
  have hOff (x y : State) (hOff : y.offStation = x.offStation)
      (hx : x.orh = m.orh ∧ x.fic.besideSeq = m.fic.besideSeq) :
      y.orh = m.orh ∧ y.fic.besideSeq = m.fic.besideSeq := by
    obtain ⟨hOrh, hFic⟩ := offStation_orh_fic hOff
    exact ⟨hOrh.trans hx.1, hFic.trans hx.2⟩
  exact markHandouts_without (P := fun x => x.orh = m.orh
      ∧ x.fic.besideSeq = m.fic.besideSeq) hNot (fun x hx => hx.1) (fun x hx => hx)
    (fun x => hOff x _ (judgeMark_offStation placing refHeard x)) (fun x => hOff x _ (countSurveyMark_offStation x))
    (fun x hx => by
      rw [offerOwnMark_frame]
      exact hx) ⟨rfl, rfl⟩

/-! ### STC after the hand-outs -/

/-- `x` stands between `m` and its hand-outs: STC's records not yet judged, and the mark offered or not. -/
structure Between (c : Bool) (placing : Placing) (s m x : State) : Prop where
  alike : Alike c s x
  interval : x.vcm.fwdInterval = s.vcm.fwdInterval
  orh : x.orh = m.orh
  period : x.period = m.period ∨ x.period = (offerOwnMark placing m).period

theorem Between.of_offStation (h : Between c placing s m x) (hOff : y.offStation = x.offStation) (hStc : y.stc = x.stc) :
    Between c placing s m y := by
  simp only [State.offStation, Prod.mk.injEq] at hOff
  obtain ⟨hClock, -, hBlock, -, -, -, hPrl, hVcm, hLvt, -, hOrh, -⟩ := hOff
  obtain ⟨⟨hs, hb, hc, hv, hl, ho⟩, hInterval, hm, hPeriod⟩ := h
  refine ⟨⟨hStc.trans hs, hBlock.trans hb, hClock.trans hc, hVcm ▸ hv, hLvt.trans hl, hOrh ▸ ho⟩, hVcm ▸ hInterval,
    hOrh.trans hm, ?_⟩
  unfold State.period
  rw [hPrl]
  exact hPeriod

theorem Between.offered (h : Between c placing s m x) (hm : Alike c s m) :
    Between c placing s m (offerOwnMark placing x) := by
  have hStc : x.stc = m.stc := h.alike.stc.trans hm.stc.symm
  have hGroup : x.group = m.group := by
    unfold State.group
    rw [hStc]
  have hArgs : x.position = m.position ∧ x.now = m.now := by
    unfold State.position State.now
    rw [hStc, h.alike.clock, hm.clock]
    exact ⟨rfl, rfl⟩
  have hPeriod : (offerOwnMark placing x).period = (offerOwnMark placing m).period := by
    show (offerMark x.position x.now x).period = (offerMark m.position m.now m).period
    rw [hArgs.1, hArgs.2]
    obtain hx | hx := h.period
    · exact offerMark_period_congr hx hGroup
    · exact (offerMark_period_twice (m := m) hx).trans hx
  obtain ⟨⟨hs, hb, hc, hv, hl, ho⟩, hInterval, hOrh, -⟩ := h
  refine ⟨?_, ?_, ?_, .inr hPeriod⟩
  all_goals rw [offerOwnMark_frame]
  · exact ⟨hs, hb, hc, hv, hl, ho⟩
  · exact hInterval
  · exact hOrh

/-- STC judges the mark, in any order, as it does a LOCAL one in LISTENING with T_est from before or after the offer,
and any other as it stands. -/
theorem markHandouts_stc (hAlike : Alike c s m) (hInterval : m.vcm.fwdInterval = s.vcm.fwdInterval)
    (hPeriod : m.prl.tEst = s.prl.tEst) (hNot : ¬ m.markAdopts) :
    ∃ tEst, (tEst = s.prl.tEst ∨ (tEst = (offerOwnMark placing m).prl.tEst ∧ s.stc.state = .listening
        ∧ placing = .localVoltage))
      ∧ (markHandouts placing refHeard m).stc
        = { (judgeMark placing refHeard { s with prl := { s.prl with tEst := tEst } }).stc with clashSeen := c } := by
  let Q (u : State) : Prop := u.orh = m.orh ∧ ∃ tEst, (tEst = s.prl.tEst
      ∨ (tEst = (offerOwnMark placing m).prl.tEst ∧ s.stc.state = .listening ∧ placing = .localVoltage))
    ∧ u.stc = { (judgeMark placing refHeard { s with prl := { s.prl with tEst := tEst } }).stc with clashSeen := c }
  have hJudged (x : State) (h : Between c placing s m x) : Q (judgeMark placing refHeard x) := by
    refine ⟨(offStation_orh_fic (judgeMark_offStation placing refHeard x)).1.trans h.orh, ?_⟩
    have hStc (tEst : Nat) (hTest : s.stc.state = .listening → placing = .localVoltage → x.prl.tEst = tEst) :
        (judgeMark placing refHeard x).stc
          = { (judgeMark placing refHeard { s with prl := { s.prl with tEst := tEst } }).stc with clashSeen := c } :=
      Alike.judgeMark_stc (m := { s with prl := { s.prl with tEst := tEst } })
        ⟨h.alike.stc, h.alike.block, h.alike.clock, h.alike.valve, h.alike.lvt, h.alike.current⟩ h.interval hTest
    obtain hOffered | hOffered := h.period
    · have hTest : x.prl.tEst = s.prl.tEst := (congrArg (fun p => p.1) hOffered).trans hPeriod
      exact ⟨s.prl.tEst, .inl rfl, hStc _ fun _ _ => hTest⟩
    · have hTest : x.prl.tEst = (offerOwnMark placing m).prl.tEst := congrArg (fun p => p.1) hOffered
      by_cases hLocal : s.stc.state = .listening ∧ placing = .localVoltage
      · exact ⟨_, .inr ⟨rfl, hLocal⟩, hStc _ fun _ _ => hTest⟩
      · exact ⟨s.prl.tEst, .inl rfl, hStc _ fun hState hPlacing => absurd ⟨hState, hPlacing⟩ hLocal⟩
  have hNone (hDark : m.vcm.valve = .dark) : m.orh.pending = none :=
    Option.not_isSome_iff_eq_none.1 fun hSome => hNot ⟨hDark, hSome⟩
  refine (markHandouts_once (P := Between c placing s m) (Q := Q) (f := judgeMark placing refHeard) (.refl _)
    (fun g hg x hx => ?_) hJudged (fun g hg x hx => ?_) ⟨hAlike, hInterval, rfl, .inl rfl⟩).2
  · obtain rfl | ⟨rfl, hDark⟩ | rfl | rfl := besides_cases hg
    · exact ⟨⟨hx.alike.stc, hx.alike.block, hx.alike.clock, hx.alike.valve, hx.alike.lvt, hx.alike.current⟩, hx.interval,
        hx.orh, hx.period⟩
    · rw [adopt_none (hx.orh ▸ hNone hDark)]
      exact hx
    · exact hx.of_offStation (countSurveyMark_offStation x) (countSurveyMark_stc x)
    · exact hx.offered hAlike
  · obtain ⟨hOrh, hStc⟩ := hx
    obtain rfl | ⟨rfl, hDark⟩ | rfl | rfl := besides_cases hg
    · exact ⟨hOrh, hStc⟩
    · rw [adopt_none (hOrh ▸ hNone hDark)]
      exact ⟨hOrh, hStc⟩
    · exact ⟨(offStation_orh_fic (countSurveyMark_offStation x)).1.trans hOrh, (countSurveyMark_stc x).symm ▸ hStc⟩
    · rw [offerOwnMark_frame]
      exact ⟨hOrh, hStc⟩

end
end Sys2Proof.Machine
end

