-- ==== Sys2Proof/Proofs/MarkEffects.lean ====
section
/-! PROOFS. What a mark leaves in each record (R6, R45, R46, R50, R102, R111, R112, R138). -/

namespace Sys2Proof.Machine

section
variable {s m x y : State} {fired : Fired} {placing : Placing} {wasForward refHeard : Bool}

/-! ### The records at the hand-outs -/

/-- The state at the hand-outs of a mark. -/
def State.reported (fired : Fired) (placing : Placing) (wasForward : Bool) (s : State) : State :=
  reportCycle (closePrfCycle (reportMark fired placing wasForward s))

/-- The report of a mark, with ORDER STALE as the ORH judges it at a mark. -/
def State.formed (fired : Fired) (placing : Placing) (wasForward : Bool) (s : State) : MarkReport :=
  (staleMark s).markReport fired placing wasForward

/-- The copy of a mark's frame. -/
def State.markCopy (report : MarkReport) (s : State) : TxCopy := producedCopy (.mark report) s

theorem takeMark_reported (a : ArmedMark) : takeMark fired a wasForward s = armFlywheel a.alphaT
    (decrementAdvance (markHandouts a.placing s.referenceHeard (s.reported fired a.placing wasForward))) := rfl

/-- Forming the report touches STC's flag, the roll, the lines, the sequence counter, the PST's flag and ORDER STALE. -/
theorem reportMark_frame : reportMark fired placing wasForward s = { s with
    stc := { s.stc with clashSeen := false }
    prl := { s.prl with
      roll := (writeOwnEntry (s.formed fired placing wasForward) s.fic.seqCounter (countMissed (staleMark s))).prl.roll }
    lineA := s.lineA.place s.clock (s.markCopy (s.formed fired placing wasForward))
    lineB := s.lineB.place s.clock (s.markCopy (s.formed fired placing wasForward))
    fic := { s.fic with seqCounter := s.fic.seqCounter + 1 }
    pst := { s.pst with pvfSeen := false }
    orh := { s.orh with stale := s.orh.staleAtMark } } := by
  let w := writeOwnEntry (s.formed fired placing wasForward) s.fic.seqCounter (countMissed (staleMark s))
  have hWritten : w = { s with prl := { s.prl with roll := w.prl.roll }, orh := { s.orh with stale := s.orh.staleAtMark } } :=
    rfl
  have hCopy : producedCopy (.mark (s.formed fired placing wasForward)) w = s.markCopy (s.formed fired placing wasForward) := by
    rw [hWritten]
    rfl
  have hReport : reportMark fired placing wasForward s = clearSeenFlags (produce (.mark (s.formed fired placing wasForward)) w) :=
    rfl
  rw [hReport, produce_eq, hCopy]
  rfl

/-- With the cycle reported, the PMN and the flag of the cycle have changed too. -/
theorem reported_frame : s.reported fired placing wasForward = { reportMark fired placing wasForward s with
    vcm := { s.vcm with failureInCycle := false }
    pmn := (s.reported fired placing wasForward).pmn } := by
  have hClosed (x : State) : closePrfCycle x = x.setPmn (closePrfCycle x).pmn := rfl
  have hCycle (x : State) : reportCycle x = (x.setPmn (reportCycle x).pmn).setVcm { x.vcm with failureInCycle := false } :=
    rfl
  unfold State.reported
  rw [hCycle, hClosed, reportMark_frame]
  rfl

theorem reported_eq : s.reported fired placing wasForward = { s with
    stc := { s.stc with clashSeen := false }
    prl := { s.prl with
      roll := (writeOwnEntry (s.formed fired placing wasForward) s.fic.seqCounter (countMissed (staleMark s))).prl.roll }
    lineA := s.lineA.place s.clock (s.markCopy (s.formed fired placing wasForward))
    lineB := s.lineB.place s.clock (s.markCopy (s.formed fired placing wasForward))
    fic := { s.fic with seqCounter := s.fic.seqCounter + 1 }
    vcm := { s.vcm with failureInCycle := false }
    pst := { s.pst with pvfSeen := false }
    orh := { s.orh with stale := s.orh.staleAtMark }
    pmn := (s.reported fired placing wasForward).pmn } :=
  reported_frame.trans (congrArg (fun x : State => { x with
    vcm := { s.vcm with failureInCycle := false }, pmn := (s.reported fired placing wasForward).pmn }) reportMark_frame)

/-- What the report of a mark changes STC does not read at the judgement. -/
theorem reported_alike : Alike false s (s.reported fired placing wasForward) := by
  rw [reported_eq]
  exact ⟨rfl, rfl, rfl, rfl, rfl, rfl⟩

/-! ### The roll -/

theorem entry_staleMark (k : Nat) : (staleMark s).entry k = s.entry k := rfl

theorem entry_countMissed (k : Nat) : (countMissed s).entry k =
    (s.entry k).map fun y => if k = s.position then y else y.missMark s.ownMark := by
  unfold countMissed State.entry
  rw [State.setPrl_prl]
  exact itemAt_mapFrom ..

/-- The roll at the hand-outs is the one with the own entry written. -/
theorem reported_entry (k : Nat) : (s.reported fired placing wasForward).entry k =
    (writeOwnEntry (s.formed fired placing wasForward) s.fic.seqCounter (countMissed (staleMark s))).entry k := by
  rw [reported_eq]
  rfl

theorem reported_entry_own {x : RollEntry} (h : s.entry s.position = some x) :
    (s.reported fired placing wasForward).entry s.position = some
      { x with
        held := some
          { markInstant := s.now, acceptInstant := s.now, seq := s.fic.seqCounter
            report := s.formed fired placing wasForward }
        missed := 0 } := by
  have hCounted : (countMissed (staleMark s)).entry s.position = some x := by
    rw [entry_countMissed, entry_staleMark, h]
    exact congrArg some (if_pos rfl)
  rw [reported_entry]
  exact entry_changeEntry_same hCounted

theorem reported_entry_other {k : Nat} (h : k ≠ s.position) : (s.reported fired placing wasForward).entry k =
    (s.entry k).map fun y => y.missMark s.ownMark := by
  have hStale : (staleMark s).ownMark = s.ownMark := rfl
  have hOther : k ≠ (staleMark s).position := h
  rw [reported_entry]
  refine (entry_changeEntry_other (s := countMissed (staleMark s)) h).trans ?_
  rw [entry_countMissed, entry_staleMark, hStale]
  simp only [if_neg hOther]

/-! ### The period estimate after the hand-outs -/

theorem offerOwnMark_congr (hPrl : x.prl = m.prl) (hStc : x.stc.straps = m.stc.straps) (hClock : x.clock = m.clock) :
    (offerOwnMark placing x).prl = (offerOwnMark placing m).prl := by
  have hArgs : x.position = m.position ∧ x.now = m.now ∧ x.group = m.group := by
    unfold State.position State.now State.group
    rw [hStc, hClock]
    exact ⟨rfl, rfl, rfl⟩
  obtain ⟨hPosition, hNow, hGroup⟩ := hArgs
  have hPeriod : (offerMark x.position x.now x).period = (offerMark m.position m.now m).period := by
    rw [hPosition, hNow]
    exact offerMark_period_congr (by unfold State.period; rw [hPrl]) hGroup
  have hOffered : (offerMark x.position x.now x).prl = (offerMark m.position m.now m).prl := by
    simp only [State.period, Prod.mk.injEq] at hPeriod
    obtain ⟨hTest, hLast, hOutliers⟩ := hPeriod
    rw [offerMark_frame, offerMark_frame m.position, State.setPrl_prl, State.setPrl_prl, hTest, hLast, hOutliers, hPrl]
  have hRun (z : State) : (offerOwnMark placing z).prl = { (offerMark z.position z.now z).prl with
      localRun := runAfter placing (offerMark z.position z.now z).prl.localRun } := rfl
  rw [hRun, hRun, hOffered]

/-- The mark is offered once, in any order. -/
theorem markHandouts_prl : (markHandouts placing refHeard m).prl = (offerOwnMark placing m).prl := by
  let others := [judgeMark placing refHeard] ++ (if m.vcm.valve = .dark then [adopt] else [])
    ++ (if m.cmu.executing.isSome then [countSurveyMark] else [])
  have hOthers (g : State → State) (hg : g ∈ State.countChoice :: others) :
      (∀ x, (g x).prl = x.prl) ∧ ∀ x, Run Tag.marking x (g x) := by
    rw [List.mem_cons, List.mem_append, List.mem_append, List.mem_singleton] at hg
    obtain rfl | (rfl | hg) | hg := hg
    · exact ⟨fun _ => rfl, fun _ => Move.choice.run (by decide)⟩
    · exact ⟨judgeMark_prl placing refHeard, fun _ => judgeMark_run (by decide) ..⟩
    · split at hg
      · rw [List.mem_singleton.1 hg]
        exact ⟨adopt_prl, fun _ => adopt_run (by decide)⟩
      · cases hg
    · split at hg
      · rw [List.mem_singleton.1 hg]
        exact ⟨countSurveyMark_prl, fun _ => countSurveyMark_run (by decide) (by decide)⟩
      · cases hg
  refine (markHandouts_once (P := fun x => x.prl = m.prl ∧ x.stc.straps = m.stc.straps ∧ x.clock = m.clock)
    (Q := fun x => x.prl = (offerOwnMark placing m).prl) (f := offerOwnMark placing) (others := others)
    List.perm_append_comm (fun g hg x hx => ?_) (fun x hx => ?_) (fun g hg x hx => ?_) ⟨rfl, rfl, rfl⟩)
  · obtain ⟨hPrl, hRun⟩ := hOthers g hg
    exact ⟨(hPrl x).trans hx.1, (hRun x).straps.trans hx.2.1, (hRun x).clock.trans hx.2.2⟩
  · exact offerOwnMark_congr hx.1 hx.2.1 hx.2.2
  · exact ((hOthers g hg).1 x).trans hx

/-! ### The adoption among the hand-outs -/

/-- A DARK valve's order is adopted once, in any order. -/
theorem markHandouts_adopted {o : Order} (hDark : m.vcm.valve = .dark) (hPending : m.orh.pending = some o) :
    (markHandouts placing refHeard m).orh.current = o
      ∧ (markHandouts placing refHeard m).orh.pending = (if 200000 < m.orh.age ∧ o.blockState = .deblock then
          some { o with blockState := .block } else none)
      ∧ (markHandouts placing refHeard m).fic.advanceCount = advanceUnder o.mode m.fic.advanceCount := by
  let others := judgeMark placing refHeard :: ((if m.cmu.executing.isSome then [countSurveyMark] else [])
    ++ [offerOwnMark placing])
  have hMember : (markEffects placing refHeard m).Perm (adopt :: others) := by
    unfold markEffects
    rw [if_pos hDark, List.append_assoc]
    exact List.Perm.swap ..
  have hOthers (g : State → State) (hg : g ∈ State.countChoice :: others) (x : State) :
      (g x).orh = x.orh ∧ (g x).fic.advanceCount = x.fic.advanceCount := by
    have hOff (y : State) (h : y.offStation = x.offStation) : y.orh = x.orh ∧ y.fic.advanceCount = x.fic.advanceCount := by
      obtain ⟨hOrh, hFic⟩ := offStation_orh_fic h
      exact ⟨hOrh, show y.fic.besideSeq.advanceCount = x.fic.besideSeq.advanceCount from congrArg Fic.advanceCount hFic⟩
    rw [List.mem_cons, List.mem_cons, List.mem_append, List.mem_singleton] at hg
    obtain rfl | rfl | hg | rfl := hg
    · exact ⟨rfl, rfl⟩
    · exact hOff _ (judgeMark_offStation ..)
    · split at hg
      · rw [List.mem_singleton.1 hg]
        exact hOff _ (countSurveyMark_offStation x)
      · cases hg
    · rw [offerOwnMark_frame]
      exact ⟨rfl, rfl⟩
  have hAdopt (x : State) (hx : (x.orh, x.fic.advanceCount) = (m.orh, m.fic.advanceCount)) :
      (adopt x).orh.current = o ∧ (adopt x).orh.pending = (if 200000 < m.orh.age ∧ o.blockState = .deblock then
          some { o with blockState := .block } else none)
        ∧ (adopt x).fic.advanceCount = advanceUnder o.mode m.fic.advanceCount := by
    obtain ⟨hOrh, hAdvance⟩ := Prod.mk.inj hx
    obtain ⟨-, -, -, hAdopted⟩ := orderAdopted x
    obtain ⟨hAfter, hCount, -⟩ := hAdopted o (hOrh ▸ hPending)
    rw [hAfter, hCount, hOrh, hAdvance]
    refine ⟨?_, ?_, ?_⟩
    · split <;> rfl
    · split <;> rfl
    · cases o.mode <;> rfl
  exact markHandouts_once (P := fun x => (x.orh, x.fic.advanceCount) = (m.orh, m.fic.advanceCount))
    (Q := fun x => x.orh.current = o ∧ x.orh.pending = (if 200000 < m.orh.age ∧ o.blockState = .deblock then
        some { o with blockState := .block } else none)
      ∧ x.fic.advanceCount = advanceUnder o.mode m.fic.advanceCount) hMember
    (fun g hg x hx => (Prod.ext (hOthers g hg x).1 (hOthers g hg x).2).trans hx) hAdopt
    (fun g hg x hx => by rw [(hOthers g hg x).1, (hOthers g hg x).2]; exact hx) rfl

/-! ### The flags that a mark clears -/

/-- The two flags that a mark carries and clears. -/
def State.seenFlags (s : State) : Bool × Bool := (s.stc.clashSeen, s.pst.pvfSeen)

theorem seenFlags_abortSurvey (s : State) : (abortSurvey s).seenFlags = s.seenFlags := by
  unfold abortSurvey
  split
  · rfl
  · rw [produceResult, produce_eq]
    rfl

theorem seenFlags_enterState (new : StationState) (s : State) : (enterState new s).seenFlags = s.seenFlags := by
  rw [enterState_eq]
  split
  · exact seenFlags_abortSurvey s
  · rfl

theorem seenFlags_enterTripped (s : State) : (enterTripped s).seenFlags = s.seenFlags := seenFlags_enterState .tripped s

theorem seenFlags_enterListening (s : State) : (enterListening s).seenFlags = s.seenFlags := by
  simp only [enterListening]
  split
  · exact (seenFlags_enterTripped _).trans (seenFlags_enterState .listening s)
  · exact seenFlags_enterState .listening s

theorem seenFlags_evaluateDeblock (s : State) : (evaluateDeblock s).seenFlags = s.seenFlags := by
  unfold evaluateDeblock
  split
  · split
    · exact seenFlags_enterState _ s
    · split
      · exact seenFlags_enterState _ s
      · rfl
    · rfl
  · rfl

theorem seenFlags_enterSynced (s : State) : (enterSynced s).seenFlags = s.seenFlags := by
  have hTimer (x : State) : (startDarkTimer x).seenFlags = x.seenFlags := by
    unfold startDarkTimer
    split <;> rfl
  simp only [enterSynced]
  split
  · exact (seenFlags_enterListening _).trans (seenFlags_enterState .synced s)
  · split
    · exact (seenFlags_enterTripped _).trans (seenFlags_enterState .synced s)
    · exact (seenFlags_evaluateDeblock _).trans ((hTimer _).trans (seenFlags_enterState .synced s))

theorem seenFlags_leaveFiring (s : State) : (leaveFiring s).seenFlags = s.seenFlags := by
  unfold leaveFiring
  split
  · exact seenFlags_enterTripped s
  · exact seenFlags_enterSynced s

theorem seenFlags_stcAdopt (s : State) : (stcAdopt s).seenFlags = s.seenFlags := by
  unfold stcAdopt
  split
  · exact seenFlags_evaluateDeblock s
  · split
    · rfl
    · split
      · exact seenFlags_enterState _ s
      · exact seenFlags_leaveFiring s
    · exact seenFlags_leaveFiring s
  · split
    · split
      · exact seenFlags_enterTripped s
      · exact seenFlags_enterState _ s
    · split
      · rfl
      · exact seenFlags_leaveFiring s
    · exact seenFlags_leaveFiring s
  · rfl

theorem seenFlags_adopt (s : State) : (adopt s).seenFlags = s.seenFlags := by
  cases h : s.orh.pending with
  | none => rw [adopt_none h]
  | some o =>
    rw [adopt_eq h, forceBlock_frame, recomputeArmed_frame]
    exact seenFlags_stcAdopt (s.ordered o)

theorem seenFlags_judgeMark (s : State) : (judgeMark placing refHeard s).seenFlags = s.seenFlags := by
  have hLose (x : State) : (loseLattice x).seenFlags = x.seenFlags := by
    unfold loseLattice
    split
    · exact seenFlags_enterListening _
    · split <;> rfl
  have hRuns : (judgeRuns placing s).seenFlags = s.seenFlags := by
    rw [judgeRuns_eq]
    split
    · exact hLose _
    · split <;> rfl
  unfold judgeMark
  split
  · by_cases hCounts : s.markCounts placing refHeard
    · rw [judgeListening_counts hCounts]
      split
      · exact seenFlags_enterSynced _
      · rfl
    · rw [judgeListening_not hCounts]
      rfl
  · exact hRuns
  · exact hRuns
  · exact hRuns
  · rfl

theorem seenFlags_countSurveyMark (s : State) : (countSurveyMark s).seenFlags = s.seenFlags := by
  unfold countSurveyMark
  split
  · rfl
  · simp only []
    split
    · rw [produceResult, produce_eq]
      rfl
    · rfl

theorem seenFlags_markHandouts (s : State) : (markHandouts placing refHeard s).seenFlags = s.seenFlags :=
  markHandouts_keeps (P := fun x => x.seenFlags = s.seenFlags) placing refHeard (fun _ h => h)
    (fun x h => (seenFlags_judgeMark x).trans h) (fun x h => (seenFlags_adopt x).trans h)
    (fun x h => (seenFlags_countSurveyMark x).trans h)
    (fun x h => by rw [offerOwnMark_frame]; exact h) s rfl

/-! ### The report -/

theorem sinceOwnMark_eq {x : RollEntry} (h : s.entry s.position = some x) (t : Instant) :
    s.sinceOwnMark t = (x.held.map RollReport.markInstant).all fun o => later t o := by
  unfold State.sinceOwnMark State.ownMark
  simp only [h]
  cases x.held <;> rfl

theorem usableAt_isSome_iff (d : Nat) : (s.usableAt d).isSome = true ↔
    ∃ y h, s.entry (placesBefore s.group s.position d) = some y ∧ y.missed ≠ 255 ∧ y.held = some h
      ∧ s.sinceOwnMark h.markInstant = true ∧ later h.markInstant s.now = false := by
  cases hEntry : s.entry (placesBefore s.group s.position d) with
  | none =>
    unfold State.usableAt
    simp [hEntry]
  | some y =>
    cases hCurrent : y.current with
    | none =>
      have hNot : y.missed ≠ 255 → y.held = none := fun hFresh => by
        unfold RollEntry.current at hCurrent
        rwa [if_neg hFresh] at hCurrent
      unfold State.usableAt
      simp only [hEntry, hCurrent, Option.some.injEq]
      refine ⟨nofun, ?_⟩
      rintro ⟨_, h, rfl, hFresh, hHeld, -⟩
      rw [hNot hFresh] at hHeld
      cases hHeld
    | some h =>
      have hHeld : y.missed ≠ 255 ∧ y.held = some h := by
        unfold RollEntry.current at hCurrent
        by_cases hAged : y.missed = 255
        · rw [if_pos hAged] at hCurrent
          cases hCurrent
        · exact ⟨hAged, (if_neg hAged).symm.trans hCurrent⟩
      rw [usableAt_eq hEntry hCurrent]
      constructor
      · intro hSome
        split at hSome
        · obtain ⟨hSince, hNow⟩ := ‹_ ∧ _›
          exact ⟨y, h, rfl, hHeld.1, hHeld.2, hSince, hNow⟩
        · cases hSome
      · rintro ⟨y', h', hy, -, hHeld', hUse⟩
        cases hy
        obtain rfl : h' = h := Option.some.inj (hHeld'.symm.trans hHeld.2)
        rw [if_pos hUse]
        rfl

theorem referenceHeard_iff : s.referenceHeard = true ↔ ∃ d, 1 ≤ d ∧ d ≤ 3 ∧ (s.usableAt d).isSome = true := by
  unfold State.referenceHeard
  rw [Bool.or_eq_true, Bool.or_eq_true]
  constructor
  · rintro ((h | h) | h)
    · exact ⟨1, by omega, by omega, h⟩
    · exact ⟨2, by omega, by omega, h⟩
    · exact ⟨3, by omega, by omega, h⟩
  · rintro ⟨d, h1, h3, h⟩
    obtain rfl | rfl | rfl : d = 1 ∨ d = 2 ∨ d = 3 := by omega
    · exact .inl (.inl h)
    · exact .inl (.inr h)
    · exact .inr h

theorem freshGamma_bind : s.freshGamma
    = s.vcm.gamma.bind fun g => if s.sinceOwnMark g.instant then some g.angle else none := by
  unfold State.freshGamma
  cases s.vcm.gamma <;> rfl

theorem freshMu_bind : s.freshMu
    = s.vcm.mu.bind fun g => if s.sinceOwnMark g.instant then some g.angle else none := by
  unfold State.freshMu
  cases s.vcm.mu <;> rfl

theorem staleAtMark_eq {o : Orh} (h : o.age ≠ 40001) : o.staleAtMark = decide (40000 < o.age) := if_neg h

theorem markAlpha_absent : s.markAlpha false = none := by
  unfold State.markAlpha
  cases s.vcm.vf <;> rfl

theorem markAlpha_present {vf : Instant} (h : s.vcm.vf = some vf) :
    s.markAlpha true = some (min 36000 (cdegAt s.prl.tEst (instantDiff s.now vf).toNat)) := by
  unfold State.markAlpha
  simp only [h]
  rfl

/-- A peer entry whose mark is not later than the own previous one counts a missed mark (R46). -/
theorem missMark_eq (own : Option Instant) (y : RollEntry) : y.missMark own = { y with
    missed := if (match y.held with
      | none => false
      | some h => decide (y.missed ≠ 255) && own.all (fun o => later h.markInstant o)) then y.missed
      else min 255 (y.missed + 1) } := by
  have hSince (t : Instant) : laterThanRecord t own = own.all fun o => later t o := by cases own <;> rfl
  unfold RollEntry.missMark RollEntry.markAt RollEntry.current
  by_cases hAged : y.missed = 255
  · cases hHeld : y.held <;> simp [hAged, count8]
  · cases hHeld : y.held with
    | none => simp [hAged, count8]
    | some h =>
      simp only [if_neg hAged, Option.map_some, hSince]
      by_cases hLater : (own.all fun o => later h.markInstant o) = true
      · simp [hLater, hAged, ← hHeld]
      · simp [hLater, count8]

end
end Sys2Proof.Machine
end

