-- ==== Sys2Proof/Proofs/MarkTaken.lean ====
section
/-! PROOFS. The whole mark, record by record. -/

namespace Sys2Proof.Machine

section
variable {s : State} {fired : Fired} {a : ArmedMark} {wasForward : Bool}

/-! ### Each record after a mark -/

/-- After the hand-outs the FIC alone changes: the advance count falls by one and a FLYWHEEL mark is armed. -/
theorem armed_frame (alphaT : Int) (x : State) : armFlywheel alphaT (decrementAdvance x) = x.setFic { x.fic with
    armed := (armFlywheel alphaT (decrementAdvance x)).fic.armed, alphaLast := some alphaT
    advanceCount := x.fic.advanceCount - 1 } := rfl

theorem armed_offHandouts (alphaT : Int) (x : State) :
    (armFlywheel alphaT (decrementAdvance x)).offHandouts = x.offHandouts := rfl

theorem armed_armed (alphaT : Int) (x : State) {u : State} (h : u = armFlywheel alphaT (decrementAdvance x)) :
    u.fic.armed = some
      { m := instantPlus (instantPlus u.now u.prl.tEst)
          (clampAbs (ticksAt u.prl.tEst 200) (ticksAt u.prl.tEst (u.alphaTarget - alphaT)))
        alphaT := u.alphaTarget, placing := .flywheel } := by
  rw [h]
  rfl

/-- What the hand-outs and the flywheel mark leave alone stands as it was reported. -/
theorem takeMark_offHandouts : (takeMark fired a wasForward s).offHandouts
    = (s.reported fired a.placing wasForward).offHandouts := by
  rw [takeMark_reported, armed_offHandouts]
  exact markHandouts_offHandouts ..

theorem reported_offHandouts : (s.reported fired a.placing wasForward).offHandouts =
    (s.clock, s.feeds, s.blockAsserted, s.firing, s.filter, (s.reported fired a.placing wasForward).prl.roll,
      { s.vcm with failureInCycle := false }, s.lvt, (s.reported fired a.placing wasForward).pmn, s.pending) := by
  have hFrame := reported_eq (s := s) (fired := fired) (placing := a.placing) (wasForward := wasForward)
  generalize s.reported fired a.placing wasForward = m at hFrame ⊢
  rw [hFrame]
  rfl

theorem takeMark_keeps {u : State} (hu : u = takeMark fired a wasForward s) : u.clock = s.clock
    ∧ u.firing = s.firing ∧ u.lvt = s.lvt ∧ u.filter = s.filter ∧ u.blockAsserted = s.blockAsserted
    ∧ u.vcm = { s.vcm with failureInCycle := false } ∧ u.pmn = (s.reported fired a.placing wasForward).pmn
    ∧ u.prl.roll = (s.reported fired a.placing wasForward).prl.roll := by
  have h : u.offHandouts = _ := hu ▸ takeMark_offHandouts.trans reported_offHandouts
  simp only [State.offHandouts, Prod.mk.injEq] at h
  obtain ⟨hClock, -, hBlock, hFiring, hFilter, hRoll, hVcm, hLvt, hPmn, -⟩ := h
  exact ⟨hClock, hFiring, hLvt, hFilter, hBlock, hVcm, hPmn, hRoll⟩

theorem takeMark_entry (k : Nat) : (takeMark fired a wasForward s).entry k
    = (s.reported fired a.placing wasForward).entry k := by
  obtain ⟨-, -, -, -, -, -, -, hRoll⟩ := takeMark_keeps (s := s) (fired := fired) (a := a) (wasForward := wasForward) rfl
  unfold State.entry
  rw [hRoll]

/-- The PRL after a mark: the mark is offered to T_est, and the LOCAL run follows its placing. -/
theorem takeMark_prl : (takeMark fired a wasForward s).prl =
    { (offerMark s.position s.now (s.reported fired a.placing wasForward)).prl with
      localRun := runAfter a.placing s.prl.localRun } := by
  have hFrame := reported_eq (s := s) (fired := fired) (placing := a.placing) (wasForward := wasForward)
  have hOffer (m : State) : (offerOwnMark a.placing m).prl = { (offerMark m.position m.now m).prl with
      localRun := runAfter a.placing (offerMark m.position m.now m).prl.localRun } := rfl
  have hLocal (m : State) : (offerMark m.position m.now m).prl.localRun = m.prl.localRun := by
    rw [offerMark_frame, State.setPrl_prl]
  have hTaken : (takeMark fired a wasForward s).prl
      = (markHandouts a.placing s.referenceHeard (s.reported fired a.placing wasForward)).prl := by
    rw [takeMark_reported, armed_frame, State.setFic_prl]
  have hPosition : (s.reported fired a.placing wasForward).position = s.position := by rw [hFrame]; rfl
  have hNow : (s.reported fired a.placing wasForward).now = s.now := by rw [hFrame]; rfl
  have hRun : (s.reported fired a.placing wasForward).prl.localRun = s.prl.localRun := by rw [hFrame]
  rw [hTaken, markHandouts_prl, hOffer, hLocal, hRun, hPosition, hNow]

theorem reported_markAdopts : (s.reported fired a.placing wasForward).markAdopts ↔ s.markAdopts := by
  rw [reported_eq]
  exact Iff.rfl

/-- The FIC after a mark: the advance count falls by one, and a FLYWHEEL mark is armed. -/
theorem takeMark_fic : (takeMark fired a wasForward s).fic =
    { (markHandouts a.placing s.referenceHeard (s.reported fired a.placing wasForward)).fic with
      armed := (takeMark fired a wasForward s).fic.armed, alphaLast := some a.alphaT
      advanceCount :=
        (markHandouts a.placing s.referenceHeard (s.reported fired a.placing wasForward)).fic.advanceCount - 1 } := by
  rw [takeMark_reported]
  exact congrArg State.fic (armed_frame ..)

/-- The armed record after a mark (R102). -/
theorem takeMark_armed : (takeMark fired a wasForward s).fic.armed = some
    { m := instantPlus (instantPlus s.now (takeMark fired a wasForward s).prl.tEst)
        (clampAbs (ticksAt (takeMark fired a wasForward s).prl.tEst 200)
          (ticksAt (takeMark fired a wasForward s).prl.tEst ((takeMark fired a wasForward s).alphaTarget - a.alphaT)))
      alphaT := (takeMark fired a wasForward s).alphaTarget, placing := .flywheel } := by
  have hClock := (takeMark_keeps (s := s) (fired := fired) (a := a) (wasForward := wasForward) rfl).1
  have hNow : (takeMark fired a wasForward s).now = s.now := congrArg (BitVec.ofNat 32) hClock
  rw [← hNow]
  exact armed_armed _ _ (takeMark_reported a)

theorem takeMark_seenFlags : (takeMark fired a wasForward s).seenFlags = (false, false) := by
  have hArmed (x : State) : (armFlywheel a.alphaT (decrementAdvance x)).seenFlags = x.seenFlags := rfl
  have hFrame := reported_eq (s := s) (fired := fired) (placing := a.placing) (wasForward := wasForward)
  rw [takeMark_reported, hArmed, seenFlags_markHandouts, hFrame]
  rfl

/-- The frame of a mark and then at most the RESULT of a survey that it ends. -/
theorem takeMark_frames : ∃ results : List TxCopy, results.length ≤ 1 ∧ (∀ c ∈ results, c.isResultOf)
    ∧ (s.cmu.executing = none → results = [])
    ∧ (takeMark fired a wasForward s).lineA = results.foldl (fun l y => l.place s.clock y)
        (s.lineA.place s.clock (s.markCopy (s.formed fired a.placing wasForward)))
    ∧ (takeMark fired a wasForward s).lineB = results.foldl (fun l y => l.place s.clock y)
        (s.lineB.place s.clock (s.markCopy (s.formed fired a.placing wasForward)))
    ∧ (takeMark fired a wasForward s).fic.seqCounter
        = s.fic.seqCounter + 1 + BitVec.ofNat 8 results.length := by
  obtain ⟨results, hPlaced⟩ := (reports_markHandouts a.placing s.referenceHeard
    (s.reported fired a.placing wasForward)).results
  obtain ⟨hOne, hResult, hNone, -, hLineA, hLineB, hSeq⟩ := hPlaced
  have hFrame := reported_eq (s := s) (fired := fired) (placing := a.placing) (wasForward := wasForward)
  rw [takeMark_reported, armed_frame]
  generalize s.reported fired a.placing wasForward = m at hFrame hLineA hLineB hSeq hNone
  have hClock : m.clock = s.clock := by rw [hFrame]
  have hCmu : m.cmu = s.cmu := by rw [hFrame]
  have hMLineA : m.lineA = s.lineA.place s.clock (s.markCopy (s.formed fired a.placing wasForward)) := by rw [hFrame]
  have hMLineB : m.lineB = s.lineB.place s.clock (s.markCopy (s.formed fired a.placing wasForward)) := by rw [hFrame]
  have hMSeq : m.fic.seqCounter = s.fic.seqCounter + 1 := by rw [hFrame]
  rw [hClock] at hLineA hLineB
  exact ⟨results, hOne, hResult, hCmu ▸ hNone, hLineA.trans (by rw [hMLineA]), hLineB.trans (by rw [hMLineB]),
    hSeq.trans (by rw [hMSeq])⟩

/-- STC after a mark at which nothing is adopted. -/
theorem takeMark_stc (hNot : ¬ s.markAdopts) : ∃ tEst, (tEst = s.prl.tEst
      ∨ (tEst = (takeMark fired a wasForward s).prl.tEst ∧ s.stc.state = .listening ∧ a.placing = .localVoltage))
    ∧ (takeMark fired a wasForward s).stc
      = { (judgeMark a.placing s.referenceHeard { s with prl := { s.prl with tEst := tEst } }).stc with
          clashSeen := false } := by
  have hPrl : (takeMark fired a wasForward s).prl
      = (offerOwnMark a.placing (s.reported fired a.placing wasForward)).prl := by
    rw [takeMark_reported, armed_frame, State.setFic_prl, markHandouts_prl]
  have hStc : (takeMark fired a wasForward s).stc
      = (markHandouts a.placing s.referenceHeard (s.reported fired a.placing wasForward)).stc := by
    rw [takeMark_reported, armed_frame, State.setFic_stc]
  rw [hPrl, hStc]
  exact markHandouts_stc reported_alike (by rw [reported_eq]) (by rw [reported_eq]) (mt reported_markAdopts.1 hNot)

/-- The ORH, the FIC, the CMU and the PST after a mark at which nothing is adopted. -/
theorem takeMark_quiet (hNot : ¬ s.markAdopts) {u : State} (hu : u = takeMark fired a wasForward s) :
    u.orh = { s.orh with stale := u.orh.stale }
      ∧ u.fic = { s.fic with
          armed := u.fic.armed, alphaLast := some a.alphaT, seqCounter := u.fic.seqCounter
          advanceCount := s.fic.advanceCount - 1 }
      ∧ (s.cmu.executing = none → u.cmu = s.cmu ∧ u.pst = { s.pst with pvfSeen := false }) := by
  have hFrame := reported_eq (s := s) (fired := fired) (placing := a.placing) (wasForward := wasForward)
  have hNot' := mt (reported_markAdopts (fired := fired) (a := a) (wasForward := wasForward)).1 hNot
  obtain ⟨hOrh, hFic⟩ := markHandouts_orh_fic (placing := a.placing) (refHeard := s.referenceHeard) hNot'
  have hQuiet := markHandouts_quiet (placing := a.placing) (refHeard := s.referenceHeard) hNot'
  rw [takeMark_reported, armed_frame] at hu
  generalize s.reported fired a.placing wasForward = m at hFrame hOrh hFic hQuiet hu
  generalize markHandouts a.placing s.referenceHeard m = h at hOrh hFic hQuiet hu
  have hMOrh : m.orh = { s.orh with stale := s.orh.staleAtMark } := by rw [hFrame]
  have hMFic : m.fic.besideSeq = s.fic.besideSeq := by rw [hFrame]; rfl
  have hMCmu : m.cmu = s.cmu := by rw [hFrame]
  have hMPst : m.pst = { s.pst with pvfSeen := false } := by rw [hFrame]
  have hUOrh : u.orh = h.orh := by rw [hu, State.setFic_orh]
  have hUFic : u.fic = { h.fic.besideSeq with
      armed := u.fic.armed, alphaLast := some a.alphaT, seqCounter := u.fic.seqCounter
      advanceCount := h.fic.besideSeq.advanceCount - 1 } := by
    rw [hu]
    rfl
  refine ⟨?_, ?_, fun hIdle => ?_⟩
  · rw [hUOrh, hOrh, hMOrh]
  · rw [hFic, hMFic] at hUFic
    exact hUFic
  · obtain ⟨hCmu, hPst⟩ := hQuiet (hMCmu ▸ hIdle)
    rw [hu]
    exact ⟨hCmu.trans hMCmu, hPst.trans hMPst⟩

/-- The order that a DARK valve adopts at a mark. -/
theorem takeMark_adopted {o : Order} (hDark : s.vcm.valve = .dark) (hPending : s.orh.pending = some o) {u : State}
    (hu : u = takeMark fired a wasForward s) : u.orh.current = o
      ∧ u.orh.pending = (if 200000 < s.orh.age ∧ o.blockState = .deblock then
          some { o with blockState := .block } else none)
      ∧ u.fic.advanceCount = advanceUnder o.mode s.fic.advanceCount - 1 := by
  have hFrame := reported_eq (s := s) (fired := fired) (placing := a.placing) (wasForward := wasForward)
  rw [takeMark_reported, armed_frame] at hu
  generalize s.reported fired a.placing wasForward = m at hFrame hu
  have hAge : m.orh.age = s.orh.age := by rw [hFrame]
  have hCount : m.fic.advanceCount = s.fic.advanceCount := by rw [hFrame]
  have hAdopted := markHandouts_adopted (m := m) (placing := a.placing) (refHeard := s.referenceHeard) (o := o)
    (by rw [hFrame]; exact hDark) (by rw [hFrame]; exact hPending)
  rw [hAge, hCount] at hAdopted
  obtain ⟨hCurrent, hNext, hAdvance⟩ := hAdopted
  rw [hu]
  exact ⟨hCurrent, hNext, congrArg (· - 1) hAdvance⟩

/-! ### T_est and the record of arrivals -/

/-- An own mark offered to T_est, in the words of R50 to R53. -/
theorem offerOwn_records {m : State} (hPeriod : m.period = s.period) (hGroup : m.group = s.group) {x : Prl}
    (hx : x = { (offerMark s.position s.now m).prl with localRun := x.localRun }) :
    (s.prl.lastArrival = none → x.lastArrival = some { position := s.position, instant := s.now }
        ∧ x.tEst = s.prl.tEst ∧ x.outliers = s.prl.outliers)
      ∧ ∀ old, s.prl.lastArrival = some old → 1 ≤ s.position → s.position ≤ s.group →
        (later s.now old.instant = false → x.lastArrival = some old ∧ x.tEst = s.prl.tEst ∧ x.outliers = s.prl.outliers)
        ∧ (later s.now old.instant = true →
            x.lastArrival = some { position := s.position, instant := s.now }
            ∧ (∀ d, 1 ≤ d → d ≤ 3 → old.position = placesBefore s.group s.position d →
                x.tEst = (judgeSample (s.group * (instantDiff s.now old.instant).toNat / d) s).prl.tEst
                  ∧ x.outliers = (judgeSample (s.group * (instantDiff s.now old.instant).toNat / d) s).prl.outliers)
            ∧ (1 ≤ old.position → old.position ≤ s.group →
                (∀ d, 1 ≤ d → d ≤ 3 → old.position ≠ placesBefore s.group s.position d) →
                x.tEst = s.prl.tEst ∧ x.outliers = s.prl.outliers)) := by
  simp only [State.period, Prod.mk.injEq] at hPeriod
  obtain ⟨hTest, hLast, hOutliers⟩ := hPeriod
  rw [hx]
  refine ⟨fun hNone => ?_, fun old hOld hLo hHi => ⟨fun hEarly => ?_, fun hLate => ⟨?_, fun d h1 h3 hBefore => ?_,
    fun hFrom hTo hFar => ?_⟩⟩⟩
  · rw [offerMark_first (hLast.trans hNone)]
    exact ⟨rfl, hTest, hOutliers⟩
  · rw [offerMark_early (hLast.trans hOld) hEarly]
    exact ⟨hLast.trans hOld, hTest, hOutliers⟩
  · rw [offerMark_later (hLast.trans hOld) hLate]
  · have hDistance : distance s.group old.position s.position = d :=
      (distance_eq_iff (group_cases s) (hBefore ▸ placesBefore_bounds (group_cases s)) ⟨h1, h3⟩).2 hBefore
    rw [offerMark_later (hLast.trans hOld) hLate, hGroup, hDistance, if_pos ⟨h1, h3⟩]
    exact judgeSample_congr (s := s) (u := m) _ hTest hOutliers
  · have hNot : ¬ (1 ≤ distance s.group old.position s.position ∧ distance s.group old.position s.position ≤ 3) :=
      fun hNear => hFar _ hNear.1 hNear.2 ((distance_eq_iff (group_cases s) ⟨hFrom, hTo⟩ hNear).1 rfl)
    rw [offerMark_later (hLast.trans hOld) hLate, hGroup, if_neg hNot]
    exact ⟨hTest, hOutliers⟩

/-- The PMN after a mark. -/
theorem reported_pmn {m : State} (hm : m = s.reported fired a.placing wasForward) :
    m.pmn.ring = s.pmn.ring.drop 1 ++ [s.pmn.cyclePrf.length] ∧ m.pmn.cyclePrf = []
      ∧ m.pmn.peakHold = max s.pmn.peakHold m.pmn.ring.sum ∧ m.pmn.cfHold = (s.pmn.cfHold && s.vcm.failureInCycle) := by
  have hReport := reportMark_frame (s := s) (fired := fired) (placing := a.placing) (wasForward := wasForward)
  have hPmn (x : State) : (reportCycle (closePrfCycle x)).pmn.ring = x.pmn.ring.drop 1 ++ [x.pmn.cyclePrf.length]
      ∧ (reportCycle (closePrfCycle x)).pmn.cyclePrf = []
      ∧ (reportCycle (closePrfCycle x)).pmn.peakHold
        = max x.pmn.peakHold (x.pmn.ring.drop 1 ++ [x.pmn.cyclePrf.length]).sum
      ∧ (reportCycle (closePrfCycle x)).pmn.cfHold = (x.pmn.cfHold && x.vcm.failureInCycle) := ⟨rfl, rfl, rfl, rfl⟩
  obtain ⟨hRing, hCycle, hPeak, hHold⟩ := hPmn (reportMark fired a.placing wasForward s)
  rw [hm]
  unfold State.reported
  rw [hCycle, hPeak, hHold, hRing, hReport]
  exact ⟨rfl, rfl, rfl, rfl⟩

/-! ### The mark -/

/-- The report in the words of R45 and R6. -/
theorem formed_report {x : RollEntry} (hEntry : s.entry s.position = some x) {r : MarkReport}
    (hr : r = s.formed fired a.placing wasForward) :
    r.fired = fired ∧ r.source = a.placing.source ∧ r.station = s.stc.state
      ∧ r.healthA = s.lineA.health ∧ r.healthB = s.lineB.health ∧ r.consumed = s.lvt.consumed
      ∧ r.orderSeq = s.orh.current.seq
      ∧ r.gamma = s.vcm.gamma.bind (fun g => if (x.held.map RollReport.markInstant).all
          (fun o => later g.instant o) then some g.angle else none)
      ∧ r.mu = s.vcm.mu.bind (fun g => if (x.held.map RollReport.markInstant).all
          (fun o => later g.instant o) then some g.angle else none)
      ∧ r.alpha = s.markAlpha wasForward
      ∧ r.flags = { (s.markFlags) with orderStale := s.orh.staleAtMark } := by
  have hGamma : r.gamma = s.freshGamma := by rw [hr]; rfl
  have hMu : r.mu = s.freshMu := by rw [hr]; rfl
  rw [hGamma, hMu, freshGamma_bind, freshMu_bind]
  simp only [sinceOwnMark_eq hEntry]
  rw [hr]
  exact ⟨rfl, rfl, rfl, rfl, rfl, rfl, rfl, trivial, trivial, rfl, rfl⟩

/-- Settles O43: record by record. -/
theorem markTaken : Obligations.MarkTaken := by
  intro fired a wasForward s x hEntry u own since health before heard adopts
  have hu : u = takeMark fired a wasForward s := rfl
  obtain ⟨hClock, hFiring, hLvt, hFilter, hBlock, hVcm, hPmn, hRoll⟩ := takeMark_keeps hu
  obtain ⟨results, hOne, hResult, hNone, hLineA, hLineB, hSeq⟩ := takeMark_frames (s := s) (fired := fired) (a := a)
    (wasForward := wasForward)
  obtain ⟨hRing, hCycle, hPeak, hHold⟩ := reported_pmn (s := s) (fired := fired) (a := a) (wasForward := wasForward) rfl
  rw [← hPmn] at hRing hCycle hPeak hHold
  obtain ⟨hFired, hSource, hStation, hHealthA, hHealthB, hConsumed, hOrder, hGamma, hMu, hAlpha, hFlags⟩ :=
    formed_report (fired := fired) (a := a) (wasForward := wasForward) hEntry rfl
  have hFrame := reported_eq (s := s) (fired := fired) (placing := a.placing) (wasForward := wasForward)
  have hFlagsClear := Prod.mk.inj (takeMark_seenFlags (s := s) (fired := fired) (a := a) (wasForward := wasForward))
  have hRecords := offerOwn_records (s := s) (m := s.reported fired a.placing wasForward) (x := u.prl)
    (by rw [hFrame]; rfl) (by rw [hFrame]; rfl) (by rw [hu, takeMark_prl])
  have hSince (t : Instant) : s.sinceOwnMark t = since t := sinceOwnMark_eq hEntry t
  have hOwnMark : s.ownMark = own := by
    unfold State.ownMark
    simp only [hEntry]
    rfl
  have hHeard : s.referenceHeard = true ↔ heard := by
    rw [referenceHeard_iff]
    refine exists_congr fun d => and_congr_right fun _ => and_congr_right fun _ => ?_
    rw [usableAt_isSome_iff]
    simp only [hSince]
    rfl
  refine ⟨⟨{ markInstant := s.now, acceptInstant := s.now, seq := s.fic.seqCounter
             report := s.formed fired a.placing wasForward }, ?_, rfl, rfl, rfl, hFired, hSource, hStation, hHealthA,
      hHealthB, hConsumed, hOrder, hGamma, hMu, fun hNot => ?_, fun vf hForward hVf => ?_, ?_, ?_, ?_, ?_, ?_, ?_,
      fun hAge => ?_, _, results, rfl, hOne, hResult, hNone, hLineA, hLineB, hSeq⟩,
    fun k hk => ?_, fun refHeard hRef hNot => ?_, fun o hDark hPending => ?_, fun hNot => takeMark_quiet hNot hu,
    hRecords.1, hRecords.2, ?_, ?_, hRing, hCycle, hPeak, hHold, hVcm, hFlagsClear.2, hFlagsClear.1, ?_,
    takeMark_armed, hFiring, hLvt, hFilter, hBlock⟩
  · rw [hu, takeMark_entry, reported_entry_own hEntry]
  · show (s.formed fired a.placing wasForward).alpha = none
    rw [hAlpha, hNot, markAlpha_absent]
  · show (s.formed fired a.placing wasForward).alpha = _
    rw [hAlpha, hForward, markAlpha_present hVf]
  · exact congrArg MarkFlags.commutationFail hFlags
  · exact congrArg MarkFlags.protectiveFire hFlags
  · exact congrArg MarkFlags.syncLost hFlags
  · exact congrArg MarkFlags.clash hFlags
  · refine (congrArg MarkFlags.groupLost hFlags).trans ?_
    show ((s.lineA.lit || s.lineA.dead) && (s.lineB.lit || s.lineB.dead)) = _
    rw [Bool.or_comm s.lineA.lit, Bool.or_comm s.lineB.lit]
  · exact congrArg MarkFlags.tripCondition hFlags
  · exact (congrArg MarkFlags.orderStale hFlags).trans (staleAtMark_eq hAge)
  · rw [hu, takeMark_entry, reported_entry_other hk, hOwnMark]
    simp only [missMark_eq]
    rfl
  · obtain rfl : refHeard = s.referenceHeard := Bool.eq_iff_iff.2 (hRef.trans hHeard.symm)
    obtain ⟨tEst, hTest, hStc⟩ := takeMark_stc (fired := fired) (a := a) (wasForward := wasForward) hNot
    exact ⟨tEst, hTest, hStc⟩
  · obtain ⟨hCurrent, hNext, hAdvance⟩ := takeMark_adopted hDark hPending hu
    refine ⟨hCurrent, hNext, hAdvance.trans ?_⟩
    cases o.mode <;> rfl
  · rw [hu, takeMark_prl]
    cases a.placing <;> rfl
  · rw [hu, takeMark_prl, offerMark_frame, State.setPrl_prl, hFrame]
  · rw [hu, takeMark_fic]

end
end Sys2Proof.Machine
end

