-- ==== Sys2Proof/Proofs/Indications.lean ====
section
/-! PROOFS. Indications that join a set and complete no quorum, signs of life, and discarded indications (R59 to
R63, R85). -/

namespace Sys2Proof.Machine

section
variable {s : State} {t : Instant} {n : Nat}

/-- Two changes of one item are the same where they agree on it. -/
theorem changeAt_congr {α : Type} {f g : α → α} {items : List α}
    (h : ∀ x, itemAt items n = some x → f x = g x) : changeAt f items n = changeAt g items n := by
  refine List.ext_getElem? fun i => ?_
  unfold changeAt
  rw [mapFrom_getElem?, mapFrom_getElem?]
  refine Option.map_congr fun x hx => ?_
  by_cases hi : 1 + i = n
  · rw [if_pos hi, if_pos hi]
    refine h x ?_
    unfold itemAt
    rw [if_neg (by omega), show n - 1 = i by omega]
    exact hx
  · rw [if_neg hi, if_neg hi]

theorem indication_discarded (hSupplied : s.supplied = true)
    (h : s.stc.state = .unset ∨ n = 0 ∨ s.cfg.levels < n) (effect : State → State) :
    indication t n s effect = .next (s.advance t) := by
  unfold indication
  rw [act_supplied hSupplied]
  by_cases hState : s.stc.state = .unset
  · rw [unlessHeld_of_unset (s := s.advance t) hState]
  · have hOutside : ¬ within 1 (s.advance t).cfg.levels n = true := by
      rw [within_iff]
      show ¬ (1 ≤ n ∧ n ≤ s.cfg.levels)
      obtain hUnset | hZero | hHigh := h
      · exact absurd hUnset hState
      · omega
      · omega
    rw [unlessHeld_of_ne (s := s.advance t) hState, if_neg hOutside]

/-- A sign of life of a SILENT level sets its flag (R85). -/
theorem touchLevel_silent (h : s.levelState n = some .silent) : touchLevel LevelRecord.signOfLife n s = { s with
    lvt := { s.lvt with levels := changeAt (fun x => { x with seen := true }) s.lvt.levels n } } := by
  rw [touchLevel, changeAt_congr (g := fun x => { x with seen := true })]
  · rfl
  · intro x hx
    unfold State.levelState at h
    rw [hx] at h
    exact if_pos (Option.some.inj h)

theorem testForward_still (h : s.vcm.valve = .forward ∨ s.vcm.valve = .conducting
    ∨ s.vcm.fwdSet.length < s.lvt.qfEff) : testForward s = s := by
  unfold testForward
  split
  · rfl
  · obtain h | h | h := h
    · rw [h]
    · rw [h]
    · exact absurd h ‹_›

theorem testReverse_still (h : s.vcm.valve = .reverse ∨ s.vcm.valve = .recovering
    ∨ s.vcm.revSet.length < s.lvt.qrEff) : testReverse s = s := by
  unfold testReverse
  split
  · rfl
  · obtain h | h | h := h
    · rw [h]
    · rw [h]
    · exact absurd h ‹_›

/-- The VCM with a REV joined (R60, R61, R63). -/
def Vcm.withReverse (n clock : Nat) (v : Vcm) : Vcm :=
  { v with revSet := insertLevel n v.revSet, inactivity := some clock }

/-- A FWD from a level that is not SILENT joins, and the forward quorum is tested. -/
theorem fwd_joins (hSupplied : s.supplied = true) (hSet : s.stc.state ≠ .unset) (hn : 1 ≤ n ∧ n ≤ s.cfg.levels)
    (hHeard : s.levelState n ≠ some .silent) : exec (.fwdIndication t n) s
      = .next (testForward ((s.advance t).setVcm (s.vcm.withForward n (s.advance t).clock))) :=
  (indication_taken hSupplied hSet hn t _).trans (congrArg Host.Outcome.next (if_neg (mt of_decide_eq_true hHeard)))

/-- A REV from a level that is not SILENT joins, and the reverse quorum is tested. -/
theorem rev_joins (hSupplied : s.supplied = true) (hSet : s.stc.state ≠ .unset) (hn : 1 ≤ n ∧ n ≤ s.cfg.levels)
    (hHeard : s.levelState n ≠ some .silent) : exec (.revIndication t n) s
      = .next (testReverse ((s.advance t).setVcm (s.vcm.withReverse n (s.advance t).clock))) :=
  (indication_taken hSupplied hSet hn t _).trans (congrArg Host.Outcome.next (if_neg (mt of_decide_eq_true hHeard)))

/-- Settles O34: an indication is discarded, a sign of life, or joins its set. -/
theorem indicationsJoin : Obligations.IndicationsJoin := by
  intro t n s hSupplied r
  refine ⟨fun hOut => ?_, fun hSet hLow hHigh hSilent => ?_, fun hSet hLow hHigh hHeard => ⟨fun hStill => ?_,
    fun hStill => ?_⟩, fun set m => mem_insertLevel n m set⟩
  · exact ⟨indication_discarded hSupplied hOut _, indication_discarded hSupplied hOut _,
      indication_discarded hSupplied hOut _, indication_discarded hSupplied hOut _⟩
  · intro v
    have hTouched : touchLevel LevelRecord.signOfLife n r = v := touchLevel_silent (s := r) hSilent
    have hTaken := indication_taken hSupplied hSet ⟨hLow, hHigh⟩ t
    have hSign (u : State) : (if r.silent n then touchLevel LevelRecord.signOfLife n r else u) = v :=
      (if_pos (decide_eq_true hSilent)).trans hTouched
    exact ⟨(hTaken _).trans (congrArg Host.Outcome.next (hSign _)),
      (hTaken _).trans (congrArg Host.Outcome.next (hSign _))⟩
  · rw [fwd_joins hSupplied hSet ⟨hLow, hHigh⟩ hHeard, testForward_still]
    · rfl
    · exact hStill
  · rw [rev_joins hSupplied hSet ⟨hLow, hHigh⟩ hHeard, testReverse_still]
    · rfl
    · exact hStill

end
end Sys2Proof.Machine
end

