-- ==== Sys2Proof/Proofs/Windows.lean ====
section
/-! PROOFS. The close of an ACK window, by its kind, and the test pulse of a survey (R83, R92, R125, R131). -/

namespace Sys2Proof.Machine

section
variable {s u : State} {levels : List LevelRecord}

/-! ### A transition of the station, in the CMU and the PST -/

theorem wentTo_cmu (new : StationState) (s : State) : (s.wentTo new).cmu
    = if s.stc.state = .synced ∧ new ≠ .synced then { executing := none } else s.cmu := by
  unfold State.wentTo
  split
  · exact congrArg Cmu.mk (aborted_executing _)
  · rfl

theorem aborted_pst (s : State) : s.aborted.pst = s.pst
    ∨ s.aborted.pst = { s.pst with surveyTest := none, window := withoutSurveyWindow s.pst.window } := by
  rw [← abortSurvey_eq]
  unfold abortSurvey
  split
  · exact .inl rfl
  · rw [produceResult, produce_eq]
    exact .inr rfl

theorem wentTo_pst (new : StationState) (s : State) : (s.wentTo new).pst = s.pst
    ∨ (s.wentTo new).pst = { s.pst with surveyTest := none, window := withoutSurveyWindow s.pst.window } := by
  unfold State.wentTo
  split
  · exact aborted_pst _
  · exact .inl rfl

theorem setLevels_cmu (levels : List LevelRecord) (s : State) : (setLevels levels s).cmu
    = if s.stc.state = .synced ∧ s.afterCountChange (consumedIn levels) ≠ .synced then { executing := none }
      else s.cmu := by
  rw [setLevels_wentTo, wentTo_cmu]
  rfl

theorem setLevels_pst (levels : List LevelRecord) (s : State) : (setLevels levels s).pst = s.pst
    ∨ (setLevels levels s).pst
      = { s.pst with surveyTest := none, window := withoutSurveyWindow s.pst.window } := by
  rw [setLevels_wentTo]
  exact wentTo_pst _ (levelsSet levels s)

theorem afterCountChange_congr (hStc : u.stc = s.stc) (hLvt : u.lvt = s.lvt) (hBlock : u.blockAsserted = s.blockAsserted)
    (hOrh : u.orh.current = s.orh.current) (n : Nat) : u.afterCountChange n = s.afterCountChange n := by
  unfold State.afterCountChange State.fromSynced State.inPairOf State.position State.group State.cfg
  simp only [hStc, hLvt, hBlock, hOrh]

/-! ### A survey result taken by the CMU -/

theorem cmuSurveyResult_none (result : SurveyResult) (h : s.cmu.executing = none) : cmuSurveyResult result s = s := by
  unfold cmuSurveyResult
  rw [h]

theorem cmuSurveyResult_some {v : SurveyRecord} (result : SurveyResult) (h : s.cmu.executing = some v) :
    cmuSurveyResult result s = if (v.take result).last < (v.take result).next then
        produceResult (v.take result).tag (v.take result).code .done .none (v.take result).doneData (endSurvey s)
      else s.setCmu { executing := some (v.take result) } := by
  unfold cmuSurveyResult
  simp only [h]

theorem cmuSurveyResult_stc (result : SurveyResult) (s : State) : (cmuSurveyResult result s).stc = s.stc := by
  cases h : s.cmu.executing with
  | none => rw [cmuSurveyResult_none result h]
  | some v =>
    rw [cmuSurveyResult_some result h]
    split
    · rw [produceResult, produce_eq]
      rfl
    · rfl

theorem cmuSurveyResult_offStation (result : SurveyResult) (s : State) :
    (cmuSurveyResult result s).offStation = s.offStation := by
  cases h : s.cmu.executing with
  | none => rw [cmuSurveyResult_none result h]
  | some v =>
    rw [cmuSurveyResult_some result h]
    split
    · rw [produceResult, produce_offStation, endSurvey_offStation]
    · rfl

theorem cmuSurveyResult_pst (result : SurveyResult) (s : State) : (cmuSurveyResult result s).pst = s.pst
    ∨ (cmuSurveyResult result s).pst
      = { s.pst with surveyTest := none, window := withoutSurveyWindow s.pst.window } := by
  cases h : s.cmu.executing with
  | none =>
    rw [cmuSurveyResult_none result h]
    exact .inl rfl
  | some v =>
    rw [cmuSurveyResult_some result h]
    split
    · rw [produceResult, produce_eq]
      exact .inr rfl
    · exact .inl rfl

/-! ### The close of a window -/

/-- The records once the open window has closed. -/
def State.closedLevels (s : State) : List LevelRecord := mapFrom (closedRecord s.pst.window) 1 s.lvt.levels

/-- The state with no window open, its outcomes not yet taken. -/
def State.unwindowed (s : State) : State := s.setPst { s.pst with window := none }

theorem closeWindow_none (h : s.pst.window = none) : closeWindow s = s := by
  unfold closeWindow
  rw [h]

/-- A MAIN or PVF window closes with its targets' ACK outcomes. -/
theorem closeWindow_acks {w : AckWindow} (h : s.pst.window = some w) (hKind : w.kind = .main ∨ w.kind = .pvf) :
    closeWindow s = setLevels s.closedLevels s.unwindowed := by
  have hRecord (k : Nat) (x : LevelRecord) : closedRecord (some w) k x
      = if w.targets.contains k then x.takeAck (w.acked.contains k) else x := by
    have hMem : (w.targets.contains k = true) = (k ∈ w.targets) := propext List.contains_iff_mem
    unfold closedRecord
    simp only [hMem]
    obtain hKind | hKind := hKind <;> rw [hKind]
  unfold closeWindow State.closedLevels
  rw [h]
  simp only [funext fun k => funext (hRecord k)]
  obtain hKind | hKind := hKind <;> rw [hKind] <;> rfl

/-- A SURVEY window closes with its level's result, which the LVT and the CMU take in either order. -/
theorem closeWindow_survey {w : AckWindow} {n : Nat} (h : s.pst.window = some w) (hKind : w.kind = .survey n) :
    ∃ u, (closeWindow s = u ∨ closeWindow s = u.countChoice)
      ∧ (u = cmuSurveyResult (surveyResultOf n w.acked) (setLevels s.closedLevels s.unwindowed)
        ∨ u = setLevels s.closedLevels (cmuSurveyResult (surveyResultOf n w.acked) s.unwindowed)) := by
  have hTake (y : State) (hy : y.lvt = s.lvt) :
      takeSurveyResult n (surveyResultOf n w.acked) y = setLevels s.closedLevels y := by
    have hRecord : closedRecord (some w)
        = fun k x => if k = n then x.takeSurvey (surveyResultOf n w.acked) else x := by
      funext k x
      unfold closedRecord
      simp only [hKind]
      rfl
    unfold takeSurveyResult State.closedLevels
    rw [hy, h, hRecord]
    rfl
  have hClose : closeWindow s = deliverSurveyResult n (surveyResultOf n w.acked) s.unwindowed := by
    unfold closeWindow
    simp only [h, hKind]
    rfl
  have hLvt : (cmuSurveyResult (surveyResultOf n w.acked) s.unwindowed).lvt = s.lvt := by
    have hOff := cmuSurveyResult_offStation (surveyResultOf n w.acked) s.unwindowed
    simp only [State.offStation, Prod.mk.injEq] at hOff
    exact hOff.2.2.2.2.2.2.2.2.1
  rw [hClose]
  obtain hOrder | hOrder := inAnyOrder_pair (takeSurveyResult n (surveyResultOf n w.acked))
    (cmuSurveyResult (surveyResultOf n w.acked)) s.unwindowed
  · rw [hTake s.unwindowed rfl] at hOrder
    exact ⟨_, hOrder, .inl rfl⟩
  · rw [hTake _ hLvt] at hOrder
    exact ⟨_, hOrder, .inr rfl⟩

/-- What a window that closes leaves: the records with its outcomes, the station where the count takes it, and no
window. -/
structure Closed (s u : State) : Prop where
  lvt : u.lvt = lvtOf s.cfg s.closedLevels
  stc : u.stc = s.stc.went (s.afterCountChange (consumedIn s.closedLevels))
  window : u.pst.window = none
  train : u.pst.train = s.pst.train

theorem Closed.setLevels : Closed s (setLevels s.closedLevels s.unwindowed) where
  lvt := setLevels_lvt _ s.unwindowed
  stc := setLevels_stc _ s.unwindowed
  window := by obtain h | h := setLevels_pst s.closedLevels s.unwindowed <;> rw [h] <;> rfl
  train := by obtain h | h := setLevels_pst s.closedLevels s.unwindowed <;> rw [h] <;> rfl

theorem Closed.cmuSurveyResult (h : Closed s u) (result : SurveyResult) : Closed s (cmuSurveyResult result u) := by
  have hOff := cmuSurveyResult_offStation result u
  simp only [State.offStation, Prod.mk.injEq] at hOff
  refine ⟨hOff.2.2.2.2.2.2.2.2.1.trans h.lvt, (cmuSurveyResult_stc result u).trans h.stc, ?_, ?_⟩
  · obtain hPst | hPst := cmuSurveyResult_pst result u
    · rw [hPst, h.window]
    · rw [hPst, h.window]
      rfl
  · obtain hPst | hPst := cmuSurveyResult_pst result u <;> rw [hPst] <;> exact h.train

theorem Closed.setLevels_cmuSurveyResult (result : SurveyResult) :
    Closed s (Machine.setLevels s.closedLevels (Machine.cmuSurveyResult result s.unwindowed)) := by
  have hOff := cmuSurveyResult_offStation result s.unwindowed
  simp only [State.offStation, Prod.mk.injEq] at hOff
  obtain ⟨-, -, hBlock, -, -, -, -, -, hLvt, -, hOrh, -⟩ := hOff
  have hStc : (Machine.cmuSurveyResult result s.unwindowed).stc = s.stc := cmuSurveyResult_stc result s.unwindowed
  have hPst : (Machine.cmuSurveyResult result s.unwindowed).pst.window = none
      ∧ (Machine.cmuSurveyResult result s.unwindowed).pst.train = s.pst.train := by
    obtain h | h := cmuSurveyResult_pst result s.unwindowed <;> rw [h] <;> exact ⟨rfl, rfl⟩
  generalize Machine.cmuSurveyResult result s.unwindowed = y at *
  refine ⟨?_, ?_, ?_, ?_⟩
  · rw [setLevels_lvt]
    unfold State.cfg
    rw [hStc]
  · rw [setLevels_stc, hStc, afterCountChange_congr (s := s) hStc hLvt hBlock (congrArg Orh.current hOrh)]
  · obtain h | h := setLevels_pst s.closedLevels y
    · rw [h, hPst.1]
    · rw [h, hPst.1]
      rfl
  · obtain h | h := setLevels_pst s.closedLevels y <;> rw [h] <;> exact hPst.2

theorem closeWindow_closed {w : AckWindow} (h : s.pst.window = some w) : Closed s (closeWindow s) := by
  have hChoice (u : State) (hu : Closed s u) : Closed s u.countChoice := ⟨hu.lvt, hu.stc, hu.window, hu.train⟩
  cases hKind : w.kind with
  | main =>
    rw [closeWindow_acks h (.inl hKind)]
    exact .setLevels
  | pvf =>
    rw [closeWindow_acks h (.inr hKind)]
    exact .setLevels
  | survey n =>
    obtain ⟨u, hClose, hOrder⟩ := closeWindow_survey h hKind
    have hu : Closed s u := by
      obtain rfl | rfl := hOrder
      · exact Closed.setLevels.cmuSurveyResult _
      · exact .setLevels_cmuSurveyResult _
    obtain hClose | hClose := hClose <;> rw [hClose]
    · exact hu
    · exact hChoice u hu

/-- An exit from SYNCED at the close of a window leaves the CMU IDLE. -/
theorem closeWindow_left {w : AckWindow} (h : s.pst.window = some w) (hState : s.stc.state = .synced)
    (hLeft : s.afterCountChange (consumedIn s.closedLevels) ≠ .synced) : (closeWindow s).cmu.executing = none := by
  have hTaken : (setLevels s.closedLevels s.unwindowed).cmu.executing = none := by
    rw [setLevels_cmu, if_pos ⟨hState, hLeft⟩]
  cases hKind : w.kind with
  | main =>
    rw [closeWindow_acks h (.inl hKind)]
    exact hTaken
  | pvf =>
    rw [closeWindow_acks h (.inr hKind)]
    exact hTaken
  | survey n =>
    obtain ⟨u, hClose, hOrder⟩ := closeWindow_survey h hKind
    have hu : u.cmu.executing = none := by
      obtain rfl | rfl := hOrder
      · rw [cmuSurveyResult_none _ hTaken]
        exact hTaken
      · have hOff := cmuSurveyResult_offStation (surveyResultOf n w.acked) s.unwindowed
        simp only [State.offStation, Prod.mk.injEq] at hOff
        obtain ⟨-, -, hBlock, -, -, -, -, -, hLvt, -, hOrh, -⟩ := hOff
        have hStc : _ = s.stc := cmuSurveyResult_stc (surveyResultOf n w.acked) s.unwindowed
        rw [setLevels_cmu, hStc, if_pos]
        refine ⟨hState, ?_⟩
        rw [afterCountChange_congr (s := s) hStc hLvt hBlock (congrArg Orh.current hOrh)]
        exact hLeft
    obtain hClose | hClose := hClose <;> rw [hClose] <;> exact hu

/-- While the station stays in SYNCED the CMU takes the result. -/
theorem closeWindow_stays {w : AckWindow} {n : Nat} (h : s.pst.window = some w) (hKind : w.kind = .survey n)
    (hStays : s.afterCountChange (consumedIn s.closedLevels) = .synced) :
    (closeWindow s).cmu = (cmuSurveyResult (surveyResultOf n w.acked) s).cmu := by
  have hCmu (y z : State) (hy : y.cmu = z.cmu) :
      (cmuSurveyResult (surveyResultOf n w.acked) y).cmu = (cmuSurveyResult (surveyResultOf n w.acked) z).cmu := by
    cases hv : z.cmu.executing with
    | none => rw [cmuSurveyResult_none _ hv, cmuSurveyResult_none _ (hy ▸ hv), hy]
    | some v =>
      rw [cmuSurveyResult_some _ hv, cmuSurveyResult_some _ (hy ▸ hv)]
      split <;> rfl
  obtain ⟨u, hClose, hOrder⟩ := closeWindow_survey h hKind
  have hu : u.cmu = (cmuSurveyResult (surveyResultOf n w.acked) s).cmu := by
    obtain rfl | rfl := hOrder
    · refine hCmu _ _ ?_
      rw [setLevels_cmu, if_neg fun hLeft => hLeft.2 hStays]
      rfl
    · have hOff := cmuSurveyResult_offStation (surveyResultOf n w.acked) s.unwindowed
      simp only [State.offStation, Prod.mk.injEq] at hOff
      obtain ⟨-, -, hBlock, -, -, -, -, -, hLvt, -, hOrh, -⟩ := hOff
      have hStc : _ = s.stc := cmuSurveyResult_stc (surveyResultOf n w.acked) s.unwindowed
      rw [setLevels_cmu, if_neg]
      · exact hCmu s.unwindowed s rfl
      · rw [afterCountChange_congr (s := s) hStc hLvt hBlock (congrArg Orh.current hOrh)]
        exact fun hLeft => hLeft.2 hStays
  obtain hClose | hClose := hClose <;> rw [hClose] <;> exact hu

/-- Every record once the window, if there is one, has closed. -/
theorem closeWindow_itemAt (s : State) (k : Nat) :
    itemAt (closeWindow s).lvt.levels k = (itemAt s.lvt.levels k).map (closedRecord s.pst.window k) := by
  cases h : s.pst.window with
  | none =>
    rw [closeWindow_none h]
    exact Option.map_id'.symm
  | some w =>
    rw [(closeWindow_closed h).lvt, show (lvtOf s.cfg s.closedLevels).levels = s.closedLevels from rfl]
    unfold State.closedLevels
    rw [itemAt_mapFrom, h]

/-! ### The test pulse (R131) -/

/-- A level without a window open: the window of its test is opened. -/
theorem testPulse_opens {x : SurveyTest} (hTest : s.pst.surveyTest = some x) (hWindow : s.pst.window = none) :
    testPulse s = { s with
      firing := s.firing ++ [{ kind := .survey, instant := s.now, fibres := [x.level] }]
      pst := { s.pst with
        surveyTest := none
        window := some
          { kind := .survey x.level, targets := [x.level], acked := []
            expiry := timerExpiry (s.cfg.ackWindow.atLeast 1) s.clock } } } := by
  unfold testPulse openWindow
  rw [hTest]
  simp only []
  rw [closeWindow_none]
  · rfl
  · exact hWindow

theorem surveyTestDue_iff {x : SurveyTest} (hTest : s.pst.surveyTest = some x) : surveyTestDue s = true ↔
    later (instantPlus x.vf (ticksAt s.prl.tEst 1000)) s.now = false ∧ s.vcm.valve = .forward
      ∧ s.vcm.vf = some x.vf ∧ s.stc.state = .synced ∧ s.cmu.executing ≠ none := by
  unfold surveyTestDue
  simp only [hTest, Bool.and_eq_true, decide_eq_true_eq, State.reached, State.isForward, State.ticks, Bool.not_eq_true',
    and_assoc, Option.isSome_iff_ne_none]

/-- Settles O41: the close of the window by its kind, and the test by its conditions. -/
theorem ackWindowsCloseAndTest : Obligations.AckWindowsCloseAndTest := by
  intro t s hSupplied hSet r
  refine ⟨fun w hWindow hExpiry => ⟨closeWindow r, ?_, ?_, ?_, ?_, ?_, fun k => ?_, ?_, ?_, fun hIn hRise hAbove => ?_,
      fun hFiring => ?_, fun n v hKind hExec hState hStays => ?_⟩, fun hOpen => ?_,
    fun x v hTest hExec hState hValve hVf hWindow hReached => ?_, fun x hTest hNot => ?_, fun hTest => ?_⟩
  · refine dueEvent_due hSupplied hSet ?_
    unfold ackWindowDue
    rw [show (s.advance t).pst.window = some w from hWindow]
    exact decide_eq_true hExpiry
  · exact (closeWindow_closed (s := r) hWindow).window
  · exact (closeWindow_run (s := r) (List.Subset.refl _)).firing
  · exact closeWindow_prl r
  · exact (closeWindow_run (s := r) (List.Subset.refl _)).orh
  · rw [closeWindow_itemAt r, show r.pst.window = some w from hWindow]
    rfl
  · rw [(closeWindow_closed (s := r) hWindow).lvt]
    rfl
  · rw [(closeWindow_closed (s := r) hWindow).stc, (closeWindow_closed (s := r) hWindow).lvt]
    rfl
  · have hLvt := (closeWindow_closed (s := r) hWindow).lvt
    rw [hLvt] at hRise hAbove
    have hTripped : r.afterCountChange (consumedIn r.closedLevels) = .tripped :=
      (if_neg (Nat.ne_of_gt hRise)).trans ((if_pos hIn).trans (if_pos ⟨hRise, hAbove⟩))
    refine ⟨?_, fun hState => closeWindow_left (s := r) hWindow hState (hTripped ▸ nofun)⟩
    rw [(closeWindow_closed (s := r) hWindow).stc]
    exact hTripped
  · have hStays : r.afterCountChange (consumedIn r.closedLevels) = r.stc.state := by
      unfold State.afterCountChange
      split
      · rfl
      · refine if_neg ?_
        show ¬ (s.stc.state = .listening ∨ s.stc.state = .synced)
        obtain h | h := hFiring <;> rw [h] <;> exact not_or.2 ⟨nofun, nofun⟩
    rw [(closeWindow_closed (s := r) hWindow).stc, hStays, Stc.went_self]
    rfl
  · intro result
    have hStaysAt : r.afterCountChange (consumedIn r.closedLevels) = .synced := by
      rw [(closeWindow_closed (s := r) hWindow).stc] at hStays
      exact hStays
    have hResult : surveyResultOf n w.acked = result := by
      unfold surveyResultOf
      by_cases hNone : w.acked = []
      · have hOther : w.acked ≠ [n] := by
          rw [hNone]
          exact (List.cons_ne_nil n []).symm
        rw [if_pos hNone]
        exact ((if_neg hOther).trans (if_pos hNone)).symm
      · rw [if_neg hNone]
        exact ite_of_iff Iff.rfl rfl (if_neg hNone).symm
    rw [closeWindow_stays (s := r) hWindow hKind hStaysAt, hResult, cmuSurveyResult_some (s := r) result hExec]
    have hNext : (v.take result).last = v.last ∧ (v.take result).next = v.next + 1 := by
      cases hr : result <;> exact ⟨rfl, rfl⟩
    rw [hNext.1, hNext.2]
    split
    · rw [produceResult, produce_eq]
      rfl
    · rfl
  · refine dueEvent_not hSupplied hSet ?_
    unfold ackWindowDue
    cases hWindow : s.pst.window with
    | none => rw [show (s.advance t).pst.window = none from hWindow]
    | some w =>
      rw [show (s.advance t).pst.window = some w from hWindow]
      exact decide_eq_false (Nat.not_le.2 (hOpen w hWindow))
  · refine (dueEvent_due hSupplied hSet ((surveyTestDue_iff (s := s.advance t) hTest).2
      ⟨(State.advance_now s t).symm ▸ hReached, hValve, hVf, hState, ?_⟩)).trans ?_
    · show s.cmu.executing ≠ none
      rw [hExec]
      nofun
    · rw [testPulse_opens (s := s.advance t) hTest hWindow, State.advance_now]
      rfl
  · refine dueEvent_not hSupplied hSet (Bool.eq_false_iff.2 fun hDue => ?_)
    obtain ⟨hReached, hValve, hVf, hState, hExec⟩ := (surveyTestDue_iff (s := s.advance t) hTest).1 hDue
    obtain h | h | h | h | h := hNot
    · rw [State.advance_now] at hReached
      exact Bool.false_ne_true (hReached.symm.trans h)
    · exact h hValve
    · exact h hVf
    · exact h hState
    · exact hExec h
  · refine dueEvent_not hSupplied hSet ?_
    unfold surveyTestDue
    rw [show (s.advance t).pst.surveyTest = none from hTest]

end
end Sys2Proof.Machine
end

