-- ==== Sys2Proof/Proofs/SurveyEnd.lean ====
section
/-! PROOFS. How a survey ends (R131, R169 to R171). -/

namespace Sys2Proof.Machine

section
variable {s m x : State} {v : SurveyRecord} {placing : Placing} {refHeard : Bool}

/-! ### The last result -/

/-- A result OK leaves a level lost or not as it was. -/
theorem takeSurvey_ok_lost (x : LevelRecord) : (x.takeSurvey .ok).lost = x.lost := by
  obtain ⟨state, fwdMiss, ackMiss, prfCount, seen, lastSurvey⟩ := x
  have hRestated (y : LevelRecord) (hy : ¬ (y.state = .silent ∨ y.state = .nofire)) : y.restate.lost = false := by
    rw [restate_free hy]
    refine Bool.eq_false_iff.2 fun h => ?_
    obtain h | h := lost_iff.1 h
    all_goals
      simp only [] at h
      split at h <;> cases h
  cases state with
  | silent => rfl
  | nofire => rfl
  | normal => exact hRestated ⟨.normal, fwdMiss, 0, prfCount, seen, some .ok⟩ (not_or.2 ⟨nofun, nofun⟩)
  | suspect => exact hRestated ⟨.suspect, fwdMiss, 0, prfCount, seen, some .ok⟩ (not_or.2 ⟨nofun, nofun⟩)

/-- A SURVEY window that closes with its own ACK leaves the consumed count as it was. -/
theorem closedLevels_consumed {w : AckWindow} {n : Nat} (hLevels : LevelsOk s) (hWindow : s.pst.window = some w)
    (hKind : w.kind = .survey n) (hAcked : w.acked = [n]) : consumedIn s.closedLevels = s.lvt.consumed := by
  have hRecord (k : Nat) (y : LevelRecord) : (closedRecord (some w) k y).lost = y.lost := by
    unfold closedRecord
    simp only [hKind, hAcked]
    by_cases hk : k = n
    · rw [if_pos hk]
      exact takeSurvey_ok_lost y
    · rw [if_neg hk]
  rw [← hLevels.consumedIn]
  unfold State.closedLevels consumedIn
  rw [hWindow]
  exact countP_mapFrom hRecord _ _

/-- Records of the same consumed count change the table and what follows from it alone. -/
theorem setLevels_same {levels : List LevelRecord} (h : consumedIn levels = s.lvt.consumed) :
    setLevels levels s = levelsSet levels s := by
  have hStays : s.afterCountChange (consumedIn levels) = (levelsSet levels s).stc.state := by
    rw [h]
    exact if_pos rfl
  rw [setLevels_wentTo, hStays, wentTo_self]

/-- The result of the last level ends the survey with its counts. -/
theorem cmuSurveyResult_last {result : SurveyResult} (h : s.cmu.executing = some v) (hLast : v.next = v.last) :
    cmuSurveyResult result s
      = produceResult v.tag v.code .done .none (surveyCounts (v.take result)) s.withoutSurvey := by
  have hNext : (v.take result).last < (v.take result).next := by
    cases result <;> exact Nat.lt_succ_of_le (Nat.le_of_eq hLast.symm)
  rw [cmuSurveyResult_some result h, if_pos hNext, endSurvey_eq]
  cases result <;> rfl

/-- A survey that ends done, seen from the state before. -/
structure EndedWith (body : ResultBody) (s u : State) : Prop where
  stc : u.stc = s.stc
  idle : u.cmu.executing = none
  pst : u.pst = { s.pst with window := none, surveyTest := none }
  lineA : u.lineA = s.lineA.place s.clock (producedCopy (.result body) s)
  lineB : u.lineB = s.lineB.place s.clock (producedCopy (.result body) s)

theorem EndedWith.produceResult (tag code : Byte) (completion : Completion) (detail : Detail) (data : List Byte) {y : State}
    (hWindow : y.pst.window = none) :
    EndedWith { tag, code, completion, detail, data } y (produceResult tag code completion detail data y.withoutSurvey) where
  stc := rfl
  idle := rfl
  pst := by
    have hPst : (Machine.produceResult tag code completion detail data y.withoutSurvey).pst
        = { y.pst with surveyTest := none, window := y.withoutSurvey.pst.window } := rfl
    have hNone : y.withoutSurvey.pst.window = none := by
      unfold State.withoutSurvey
      rw [hWindow]
      rfl
    rw [hPst, hNone]
  lineA := rfl
  lineB := rfl

/-- The records of the levels do not matter to it. -/
theorem EndedWith.levelsSet_before {body : ResultBody} {u : State} {levels : List LevelRecord}
    (h : EndedWith body (levelsSet levels s) u) : EndedWith body s u := by
  have hFrame := levelsSet_eq levels s
  generalize levelsSet levels s = y at h hFrame
  have hCopy : producedCopy (.result body) y = producedCopy (.result body) s := by rw [hFrame]; rfl
  have hLines : y.lineA = s.lineA ∧ y.lineB = s.lineB ∧ y.clock = s.clock := by rw [hFrame]; exact ⟨rfl, rfl, rfl⟩
  obtain ⟨hLineA, hLineB, hClock⟩ := hLines
  refine ⟨h.stc.trans (by rw [hFrame]), h.idle, h.pst.trans (by rw [hFrame]), h.lineA.trans ?_, h.lineB.trans ?_⟩
  · rw [hCopy, hLineA, hClock]
  · rw [hCopy, hLineB, hClock]

theorem EndedWith.levelsSet_after {body : ResultBody} {u : State} {levels : List LevelRecord} (h : EndedWith body s u) :
    EndedWith body s (levelsSet levels u) := by
  rw [levelsSet_eq]
  exact ⟨h.stc, h.idle, h.pst, h.lineA, h.lineB⟩

/-- The close of the last level's window with its own ACK, in SYNCED. -/
theorem closeWindow_last {w : AckWindow} {n : Nat} (hLevels : LevelsOk s) (hWindow : s.pst.window = some w)
    (hKind : w.kind = .survey n) (hAcked : w.acked = [n]) (hExec : s.cmu.executing = some v) (hLast : v.next = v.last) :
    EndedWith { tag := v.tag, code := v.code, completion := .done, detail := .none, data := surveyCounts (v.take .ok) }
      s.unwindowed (closeWindow s) := by
  have hResult : surveyResultOf n w.acked = .ok := by
    unfold surveyResultOf
    rw [hAcked, if_neg (List.cons_ne_nil n []), if_pos rfl]
  have hSame := closedLevels_consumed hLevels hWindow hKind hAcked
  have hTaken : (cmuSurveyResult .ok s.unwindowed).lvt = s.lvt := by
    have hOff := cmuSurveyResult_offStation .ok s.unwindowed
    simp only [State.offStation, Prod.mk.injEq] at hOff
    exact hOff.2.2.2.2.2.2.2.2.1
  obtain ⟨u, hClose, hOrder⟩ := closeWindow_survey hWindow hKind
  rw [hResult] at hOrder
  have hu : EndedWith
      { tag := v.tag, code := v.code, completion := .done, detail := .none, data := surveyCounts (v.take .ok) }
      s.unwindowed u := by
    obtain rfl | rfl := hOrder
    · have hSet : levelsSet s.closedLevels s.unwindowed = { s.unwindowed with
          lvt := (levelsSet s.closedLevels s.unwindowed).lvt, vcm := (levelsSet s.closedLevels s.unwindowed).vcm
          pmn := (levelsSet s.closedLevels s.unwindowed).pmn } := by rw [levelsSet_eq]
      rw [setLevels_same (s := s.unwindowed) hSame, cmuSurveyResult_last (by rw [hSet]; exact hExec) hLast]
      exact (EndedWith.produceResult _ _ _ _ _ (by rw [hSet]; rfl)).levelsSet_before
    · rw [setLevels_same (hSame.trans (congrArg Lvt.consumed hTaken).symm),
        cmuSurveyResult_last (s := s.unwindowed) hExec hLast]
      exact (EndedWith.produceResult _ _ _ _ _ rfl).levelsSet_after
  obtain hClose | hClose := hClose <;> rw [hClose]
  · exact hu
  · exact ⟨hu.stc, hu.idle, hu.pst, hu.lineA, hu.lineB⟩

/-! ### A mark in SYNCED -/

theorem countSurveyMark_some (h : s.cmu.executing = some v) : countSurveyMark s =
    if v.last - v.first + 1 + 8 < min 255 (v.marks + 1) then
      produceResult v.tag v.code .failed .noVoltage (surveyCounts v ++ [BitVec.ofNat 8 v.next]) s.withoutSurvey
    else s.setCmu { executing := some { v with marks := min 255 (v.marks + 1) } } := by
  unfold countSurveyMark
  simp only [h, endSurvey_eq]
  rfl

/-- What the statements on a survey read of a state. -/
def State.surveyView (s : State) : Cmu × LineState × Nat × Byte × Straps × Option SurveyTest :=
  (s.cmu, s.lineA, s.clock, s.fic.seqCounter, s.stc.straps, s.pst.surveyTest)

/-- The station is in SYNCED with `L` of what a survey shows, or has gone to one of the states `K`. -/
def State.SyncedOr (K : List StationState)
    (L : Cmu × LineState × Nat × Byte × Straps × Option SurveyTest → Prop) (s : State) : Prop :=
  (s.stc.state = .synced ∧ L s.surveyView) ∨ s.stc.state ∈ K

/-- The judgement leaves SYNCED for LISTENING or TRIPPED, or changes STC's records alone. -/
theorem judgeMark_synced (h : s.stc.state = .synced) :
    ((judgeMark placing refHeard s).stc.state = .synced
        ∧ (judgeMark placing refHeard s).surveyView = s.surveyView)
      ∨ (judgeMark placing refHeard s).stc.state ∈ [StationState.listening, .tripped] := by
  rw [judgeMark_runs (.inl h), judgeRuns_eq]
  split
  · refine .inr ?_
    unfold loseLattice
    rw [if_pos (show (s.setStc (s.stc.withRuns placing)).stc.state = .synced from h), enterListening_stc]
    unfold Stc.listening
    simp only []
    split <;> decide
  · split
    · exact .inl ⟨h, rfl⟩
    · exact .inl ⟨h, rfl⟩

theorem judgeMark_firing (h : s.stc.state = .running ∨ s.stc.state = .bypassing) :
    (judgeMark placing refHeard s).stc.state = s.stc.state := by
  have hNot : s.stc.state ≠ .synced := by obtain h | h := h <;> rw [h] <;> decide
  rw [judgeMark_runs (.inr h), judgeRuns_eq]
  split
  · unfold loseLattice
    rw [if_neg (show (s.setStc (s.stc.withRuns placing)).stc.state ≠ .synced from hNot)]
    split <;> rfl
  · split <;> rfl

/-- An adoption leaves SYNCED for RUNNING or BYPASSING, or touches no survey. -/
theorem adopt_synced (h : s.stc.state = .synced) :
    ((adopt s).stc.state = .synced ∧ (adopt s).surveyView = s.surveyView)
      ∨ (adopt s).stc.state ∈ [StationState.running, .bypassing] := by
  cases hPending : s.orh.pending with
  | none =>
    rw [adopt_none hPending]
    exact .inl ⟨h, rfl⟩
  | some o =>
    have hAdopt : stcAdopt (s.ordered o) = (s.ordered o).wentTo ((s.ordered o).fromSynced o) := by
      have hOrdered : (s.ordered o).stc.state = .synced := h
      unfold stcAdopt
      rw [hOrdered]
      refine (evaluateDeblock_wentTo _).trans ?_
      unfold State.deblocked
      rw [if_pos hOrdered]
      rfl
    have hRest (y : State) : (forceBlock (recomputeArmed y)).stc = y.stc
        ∧ (forceBlock (recomputeArmed y)).surveyView = y.surveyView := by
      rw [forceBlock_frame, recomputeArmed_frame]
      exact ⟨rfl, rfl⟩
    obtain ⟨hStc, hView⟩ := hRest (stcAdopt (s.ordered o))
    rw [adopt_eq hPending, hStc, hView, hAdopt, wentTo_stc]
    by_cases hStays : (s.ordered o).fromSynced o = .synced
    · refine .inl ⟨hStays, ?_⟩
      rw [hStays, show State.wentTo .synced (s.ordered o) = s.ordered o from
        (show (s.ordered o).stc.state = .synced from h) ▸ wentTo_self (s.ordered o)]
      rfl
    · refine .inr ?_
      show (s.ordered o).fromSynced o ∈ _
      unfold State.fromSynced at hStays ⊢
      split
      · exact absurd (if_pos ‹_›) hStays
      · rw [if_neg ‹_›] at hStays
        cases hBlock : o.blockState with
        | block =>
          rw [hBlock] at hStays
          exact absurd rfl hStays
        | deblock => exact List.mem_cons_self
        | bypass =>
          rw [hBlock] at hStays
          simp only [] at hStays ⊢
          split
          · decide
          · exact absurd (if_neg ‹_›) hStays

theorem adopt_still (h : s.stc.state = .listening ∨ s.stc.state = .tripped) : (adopt s).stc.state = s.stc.state := by
  cases hPending : s.orh.pending with
  | none => rw [adopt_none hPending]
  | some o =>
    have hAdopt : stcAdopt (s.ordered o) = s.ordered o := by
      have hOrdered : (s.ordered o).stc.state = s.stc.state := rfl
      unfold stcAdopt
      rw [hOrdered]
      obtain h | h := h <;> rw [h]
    rw [adopt_eq hPending, hAdopt, forceBlock_frame, recomputeArmed_frame]
    rfl

section
variable {L L' : Cmu × LineState × Nat × Byte × Straps × Option SurveyTest → Prop}

theorem SyncedOr.judge (h : s.SyncedOr [] L) : (judgeMark placing refHeard s).SyncedOr [.listening, .tripped] L := by
  obtain ⟨hState, hL⟩ | h := h
  · exact (judgeMark_synced hState).imp (fun ⟨hStays, hView⟩ => ⟨hStays, hView ▸ hL⟩) id
  · cases h

theorem SyncedOr.adopt (h : s.SyncedOr [] L) : (adopt s).SyncedOr [.running, .bypassing] L := by
  obtain ⟨hState, hL⟩ | h := h
  · exact (adopt_synced hState).imp (fun ⟨hStays, hView⟩ => ⟨hStays, hView ▸ hL⟩) id
  · cases h

/-- Each state but UNSET and SYNCED. -/
def leftSynced : List StationState := [.running, .bypassing, .listening, .tripped]

theorem SyncedOr.judge_adopted (h : s.SyncedOr [.running, .bypassing] L) :
    (judgeMark placing refHeard s).SyncedOr leftSynced L := by
  obtain ⟨hState, hL⟩ | h := h
  · obtain ⟨hStays, hView⟩ | hLeft := judgeMark_synced (placing := placing) (refHeard := refHeard) hState
    · exact .inl ⟨hStays, hView ▸ hL⟩
    · exact .inr (List.mem_cons_of_mem _ (List.mem_cons_of_mem _ hLeft))
  · refine .inr ?_
    have hIn : s.stc.state = .running ∨ s.stc.state = .bypassing := by simpa using h
    rw [judgeMark_firing hIn]
    exact List.mem_append_left [StationState.listening, .tripped] h

theorem SyncedOr.adopt_judged (h : s.SyncedOr [.listening, .tripped] L) : (Machine.adopt s).SyncedOr leftSynced L := by
  obtain ⟨hState, hL⟩ | h := h
  · obtain ⟨hStays, hView⟩ | hLeft := adopt_synced hState
    · exact .inl ⟨hStays, hView ▸ hL⟩
    · exact .inr (List.mem_append_left [StationState.listening, .tripped] hLeft)
  · refine .inr ?_
    have hIn : s.stc.state = .listening ∨ s.stc.state = .tripped := by simpa using h
    rw [adopt_still hIn]
    exact List.mem_cons_of_mem _ (List.mem_cons_of_mem _ h)

theorem SyncedOr.count {K : List StationState} (hCount : ∀ y : State, L y.surveyView → L' (countSurveyMark y).surveyView)
    (h : s.SyncedOr K L) : (countSurveyMark s).SyncedOr K L' := by
  unfold State.SyncedOr
  rw [countSurveyMark_stc]
  exact h.imp (fun ⟨hState, hL⟩ => ⟨hState, hCount s hL⟩) id

/-- A mark in SYNCED counts for a survey in any order, unless the station has left SYNCED. -/
theorem inAnyOrder_counts (hCount : ∀ y : State, L y.surveyView → L' (countSurveyMark y).surveyView) (dark : Prop)
    [Decidable dark] (h : m.SyncedOr [] L) : (inAnyOrder ([judgeMark placing refHeard]
      ++ (if dark then [adopt] else []) ++ [countSurveyMark]) m).SyncedOr leftSynced L' := by
  have hWeaken (y : State) (hy : y.SyncedOr [.listening, .tripped] L') : y.SyncedOr leftSynced L' :=
    hy.imp id fun hIn => List.mem_cons_of_mem _ (List.mem_cons_of_mem _ hIn)
  obtain ⟨o, ho, hOrder⟩ := inAnyOrder_cases ([judgeMark placing refHeard]
    ++ (if dark then [adopt] else []) ++ [countSurveyMark]) m
  have hDone : (inOrder o m).SyncedOr leftSynced L' := by
    by_cases hDark : dark
    · rw [if_pos hDark] at ho
      obtain rfl | rfl | rfl | rfl | rfl | rfl := perm_three ho
      · exact SyncedOr.count hCount (SyncedOr.adopt_judged (SyncedOr.judge h))
      · exact SyncedOr.count hCount (SyncedOr.judge_adopted (SyncedOr.adopt h))
      · exact SyncedOr.judge_adopted (SyncedOr.count hCount (SyncedOr.adopt h))
      · exact SyncedOr.adopt_judged (SyncedOr.count hCount (SyncedOr.judge h))
      · exact SyncedOr.adopt_judged (SyncedOr.judge (SyncedOr.count hCount h))
      · exact SyncedOr.judge_adopted (SyncedOr.adopt (SyncedOr.count hCount h))
    · rw [if_neg hDark] at ho
      obtain rfl | rfl := perm_two ho
      · exact hWeaken _ (SyncedOr.count hCount (SyncedOr.judge h))
      · exact hWeaken _ (SyncedOr.judge (SyncedOr.count hCount h))
  obtain hOrder | hOrder := hOrder <;> rw [hOrder] <;> exact hDone

end

/-- What a mark counted for a survey leaves of it, seen from the state before. -/
def CountedFrom (v : SurveyRecord) (m : State)
    (z : Cmu × LineState × Nat × Byte × Straps × Option SurveyTest) : Prop :=
  (min 255 (v.marks + 1) ≤ v.last - v.first + 1 + 8 →
      z.1.executing = some { v with marks := min 255 (v.marks + 1) })
    ∧ (v.last - v.first + 1 + 8 < min 255 (v.marks + 1) → z.1.executing = none ∧ z.2.2.2.2.2 = none
      ∧ z.2.1 = m.lineA.place m.clock (producedCopy (.result
        { tag := v.tag, code := v.code, completion := .failed, detail := .noVoltage
          data := surveyCounts v ++ [BitVec.ofNat 8 v.next] }) m))

theorem countSurveyMark_counted (hExec : m.cmu.executing = some v) (hView : x.surveyView = m.surveyView) :
    CountedFrom v m (countSurveyMark x).surveyView := by
  simp only [State.surveyView, Prod.mk.injEq] at hView
  obtain ⟨hCmu, hLineA, hClock, hSeq, hStraps, hTest⟩ := hView
  have hCopy (body : TxBody) : producedCopy body x = producedCopy body m := by
    unfold producedCopy State.position
    rw [hSeq, hStraps, hClock]
  rw [countSurveyMark_some (by rw [hCmu, hExec])]
  refine ⟨fun hLow => ?_, fun hHigh => ?_⟩
  · rw [if_neg (Nat.not_lt.2 hLow)]
    rfl
  · rw [if_pos hHigh, produceResult, produce_eq]
    refine ⟨rfl, rfl, ?_⟩
    rw [← hCopy, ← hLineA, ← hClock]
    rfl

/-- A mark that leaves the station in SYNCED counts for the survey. -/
theorem takeMark_counts {fired : Fired} {a : ArmedMark} {wasForward : Bool} (hState : s.stc.state = .synced)
    (hExec : s.cmu.executing = some v) (hStays : (takeMark fired a wasForward s).stc.state = .synced) :
    CountedFrom v (s.reported fired a.placing wasForward) (takeMark fired a wasForward s).surveyView := by
  have hFrame := reported_eq (s := s) (fired := fired) (placing := a.placing) (wasForward := wasForward)
  have hArmed (y : State) : (armFlywheel a.alphaT (decrementAdvance y)).stc = y.stc
      ∧ (armFlywheel a.alphaT (decrementAdvance y)).surveyView = y.surveyView := ⟨rfl, rfl⟩
  rw [takeMark_reported, (hArmed _).1] at hStays
  rw [takeMark_reported, (hArmed _).2]
  generalize s.reported fired a.placing wasForward = m at hFrame hStays ⊢
  have hMState : m.stc.state = .synced := by rw [hFrame]; exact hState
  have hMExec : m.cmu.executing = some v := by rw [hFrame]; exact hExec
  have hHandouts : markHandouts a.placing s.referenceHeard m = offerOwnMark a.placing
      (inAnyOrder ([judgeMark a.placing s.referenceHeard] ++ (if m.vcm.valve = .dark then [adopt] else [])
        ++ [countSurveyMark]) m) := by
    have hBusy : m.cmu.executing.isSome = true := by rw [hMExec]; rfl
    have hNot : ¬ (m.stc.state = .listening ∧ a.placing = .localVoltage) := by
      rw [hMState]
      exact fun h => nomatch h.1
    unfold markHandouts
    simp only [if_neg hNot, if_pos hBusy]
  have hDone := inAnyOrder_counts (m := m) (placing := a.placing) (refHeard := s.referenceHeard)
    (L := fun z => z = m.surveyView) (L' := CountedFrom v m)
    (fun y hy => countSurveyMark_counted hMExec hy) (m.vcm.valve = .dark) (.inl ⟨hMState, rfl⟩)
  rw [hHandouts, offerOwnMark_frame] at hStays ⊢
  obtain ⟨-, hCounted⟩ | hLeft := hDone
  · exact hCounted
  · have hSynced : StationState.synced ∈ leftSynced := (show _ = StationState.synced from hStays) ▸ hLeft
    simp [leftSynced] at hSynced

/-- Settles O60: the result, the mark, the exit, the last window and the mark that is taken. -/
theorem surveyEnds : Obligations.SurveyEnds := by
  refine ⟨fun s result hIdle => ⟨cmuSurveyResult_none result hIdle, countSurveyMark_idle hIdle⟩,
    fun s v hExec => ?_⟩
  intro taken marks limit progress answer
  have hTaken (result : SurveyResult) : v.take result = taken result := by cases result <;> rfl
  refine ⟨fun result => ?_, countSurveyMark_some hExec, fun new hState hNew => ?_,
    fun t w n hSupplied hState hLevels hWindow hKind hAcked hExpiry hLast => ?_, fun fired a wasForward hState => ?_⟩
  · have hNext : (v.take result).last = v.last ∧ (v.take result).next = v.next + 1 ∧ (v.take result).tag = v.tag
        ∧ (v.take result).code = v.code := by cases result <;> exact ⟨rfl, rfl, rfl, rfl⟩
    obtain ⟨hLast, hNextLevel, hTag, hCode⟩ := hNext
    rw [cmuSurveyResult_some result hExec, hLast, hNextLevel, hTag, hCode, endSurvey_eq, hTaken]
    rfl
  · intro left
    have hLeft : left = produceResult v.tag v.code .aborted .state progress
        (s.setStc (s.stc.entered new)).withoutSurvey := by
      show enterState new s = _
      rw [enterState_synced hState, State.aborted, show (s.setStc (s.stc.entered new)).cmu.executing = some v from hExec]
    rw [hLeft, produceResult, produce_eq]
    exact ⟨rfl, rfl, rfl, rfl, rfl⟩
  · intro clock done
    have hDue : ackWindowDue (s.advance t) = true := by
      unfold ackWindowDue
      rw [show (s.advance t).pst.window = some w from hWindow]
      exact decide_eq_true hExpiry
    obtain ⟨hStc, hIdle, hPst, hLineA, hLineB⟩ := closeWindow_last (s := s.advance t) hLevels hWindow hKind hAcked hExec
      hLast
    exact ⟨_, dueEvent_due hSupplied (hState ▸ nofun) hDue, hStc, hIdle, hPst, hLineA, hLineB⟩
  · intro u hStays
    obtain ⟨hLow, hHigh⟩ := takeMark_counts hState hExec hStays
    refine ⟨hLow, fun hOver => ?_⟩
    obtain ⟨hIdle, hTest, hLineA⟩ := hHigh hOver
    have hFrame := reported_eq (s := s) (fired := fired) (placing := a.placing) (wasForward := wasForward)
    refine ⟨hIdle, hTest, s.markCopy (s.formed fired a.placing wasForward), s.formed fired a.placing wasForward, rfl, rfl,
      hLineA.trans ?_⟩
    generalize s.reported fired a.placing wasForward = m at hFrame
    rw [hFrame]
    rfl

end
end Sys2Proof.Machine
end

