-- ==== Sys2Proof/Proofs/FiredMarks.lean ====
section
/-! PROOFS. A pulse to all levels with the valve it finds, a main pulse with its window and train, and the mark that
is taken with it, in RUNNING and BYPASSING (R67, R74, R118, R119, R123). -/

namespace Sys2Proof.Machine

section
variable {s u x : State} {fired : Fired} {a : ArmedMark} {wasForward : Bool}

/-! ### The station stays where it fires -/

/-- The states in which the valve is fired. -/
def State.Fires (s : State) : Prop := s.stc.state = .running ∨ s.stc.state = .bypassing

theorem afterCountChange_fires (h : s.Fires) (n : Nat) : s.afterCountChange n = s.stc.state := by
  unfold State.afterCountChange
  split
  · rfl
  · refine if_neg ?_
    obtain h | h := h <;> rw [h] <;> exact not_or.2 ⟨nofun, nofun⟩

theorem setLevels_fires (h : s.Fires) (levels : List LevelRecord) : setLevels levels s = levelsSet levels s := by
  have hStays : s.afterCountChange (consumedIn levels) = (levelsSet levels s).stc.state := afterCountChange_fires h _
  rw [setLevels_wentTo, hStays, wentTo_self]

/-! ### A pulse to all levels and the valve (R64, R67, R74) -/

theorem leftForward_frame (v : Vcm) (s : State) : leftForward v s = { s with
    vcm := v, pst := { s.pst with surveyTest := none }
    stc := { s.stc with darkTimer := if s.vcm.valve = .dark then none else s.stc.darkTimer } } := by
  unfold leftForward leaveDark
  by_cases h : s.vcm.valve = .dark
  · rw [if_pos h, if_pos h]
    rfl
  · rw [if_neg h, if_neg h]
    rfl

/-- The records after a firing, from the forward interval that it ends. -/
def State.firedLevels (s : State) : List LevelRecord :=
  if s.vcm.valve = .forward ∧ s.intervalLong then mapFrom (fun k x => x.takeFwd (s.vcm.roster.contains k)) 1 s.lvt.levels
  else s.lvt.levels

theorem firedLevels_itemAt (s : State) (k : Nat) :
    itemAt s.firedLevels k = (itemAt s.lvt.levels k).map (s.firedRecord s.now k) := by
  unfold State.firedLevels State.firedRecord State.intervalLong State.ticks
  cases s.vcm.vf with
  | none =>
    rw [if_neg fun h => Bool.false_ne_true h.2]
    exact Option.map_id'.symm
  | some vf =>
    simp only [decide_eq_true_eq]
    split
    · rw [itemAt_mapFrom]
    · exact Option.map_id'.symm

/-- The valve enters CONDUCTING from DARK, REVERSE or a short forward interval. -/
theorem enterConducting_short (cause : Cause) (h : ¬ (s.vcm.valve = .forward ∧ s.intervalLong = true)) :
    enterConducting cause s = { s with
      vcm := s.vcm.conducting s.now s.clock
      pst := { s.pst with surveyTest := none, gather := none }
      fic := { s.fic with cause := some cause }
      stc := { s.stc with darkTimer := if s.vcm.valve = .dark then none else s.stc.darkTimer } } := by
  rw [enterConducting_eq]
  simp only [if_neg h]
  rw [leftForward_frame]
  rfl

/-- The state once the valve has left FORWARD for CONDUCTING, before the outcomes of the interval. -/
def State.conducted (s : State) : State :=
  { s with vcm := s.vcm.conducting s.now s.clock, pst := { s.pst with surveyTest := none } }

/-- The cause of the conduction noted, and the gather ended. -/
def State.caused (cause : Cause) (s : State) : State :=
  { s with fic := { s.fic with cause := some cause }, pst := { s.pst with gather := none } }

/-- The valve enters CONDUCTING from a forward interval that is long enough: its outcomes are taken first. -/
theorem enterConducting_long (cause : Cause) (hForward : s.vcm.valve = .forward) (hLong : s.intervalLong = true) :
    enterConducting cause s = (setLevels s.firedLevels s.conducted).caused cause := by
  have hLeft : leftForward (s.vcm.conducting s.now s.clock) s = s.conducted := by
    rw [leftForward_frame, if_neg (hForward ▸ nofun)]
    rfl
  have hTaken (y : State) (hy : y.lvt = s.lvt) : takeFwdOutcomes s.vcm.roster y = setLevels s.firedLevels y := by
    unfold takeFwdOutcomes State.firedLevels
    rw [if_pos ⟨hForward, hLong⟩, hy]
  rw [enterConducting_eq]
  simp only [if_pos (And.intro hForward hLong)]
  rw [hLeft, hTaken s.conducted rfl]
  rfl

/-- In RUNNING and BYPASSING the entry into CONDUCTING from FORWARD touches the VCM, the LVT with the PMN, the PST and the
cause alone. -/
theorem enterConducting_fires (hFires : s.Fires) (cause : Cause) (hForward : s.vcm.valve = .forward)
    (hu : u = enterConducting cause s) : u = { s with
      vcm := s.vcm.conducting s.now s.clock, lvt := u.lvt, pmn := u.pmn
      pst := { s.pst with surveyTest := none, gather := none }
      fic := { s.fic with cause := some cause } } ∧ u.lvt.levels = s.firedLevels := by
  by_cases hLong : s.intervalLong = true
  · have hFrame : enterConducting cause s = { s with
        vcm := s.vcm.conducting s.now s.clock
        lvt := lvtOf s.cfg s.firedLevels
        pmn := (levelsSet s.firedLevels s.conducted).pmn
        pst := { s.pst with surveyTest := none, gather := none }
        fic := { s.fic with cause := some cause } } := by
      rw [enterConducting_long cause hForward hLong, setLevels_fires (s := s.conducted) hFires, levelsSet_eq]
      rfl
    rw [hu, hFrame]
    exact ⟨rfl, rfl⟩
  · have hNot : ¬ (s.vcm.valve = .forward ∧ s.intervalLong = true) := fun h => hLong h.2
    have hFrame := enterConducting_short cause hNot
    rw [if_neg (hForward ▸ nofun)] at hFrame
    rw [hu, hFrame]
    exact ⟨rfl, (if_neg hNot).symm⟩

/-- The state with a pulse to all levels on the fibres. -/
def State.pulsed (kind : PulseKind) (s : State) : State :=
  { s with firing := s.firing ++ [pulseToAll kind s.now s.cfg.levels] }

theorem emitToAll_pulsed (kind : PulseKind) (s : State) : emitToAll kind s = s.pulsed kind := rfl

theorem valvePulse_dark (h : s.vcm.valve = .dark) :
    valvePulse s = { s with vcm := { s.vcm with pulseInDark := true } } := by
  unfold valvePulse
  rw [h]
  rfl

theorem valvePulse_forward (h : s.vcm.valve = .forward) : valvePulse s = enterConducting .pulse s := by
  unfold valvePulse
  rw [h]

theorem valvePulse_else (hForward : s.vcm.valve ≠ .forward) (hDark : s.vcm.valve ≠ .dark) : valvePulse s = s := by
  unfold valvePulse
  cases h : s.vcm.valve with
  | dark => exact absurd h hDark
  | forward => exact absurd h hForward
  | reverse => rfl
  | conducting => rfl
  | recovering => rfl

/-- The VCM after a pulse, by the valve that the pulse finds. -/
def State.pulsedVcm (s : State) : Vcm :=
  match s.vcm.valve with
  | .dark => { s.vcm with pulseInDark := true }
  | .forward => s.vcm.conducting s.now s.clock
  | _ => s.vcm

theorem pulsedVcm_dark (h : s.vcm.valve = .dark) : s.pulsedVcm = { s.vcm with pulseInDark := true } := by
  unfold State.pulsedVcm
  rw [h]

theorem pulsedVcm_forward (h : s.vcm.valve = .forward) : s.pulsedVcm = s.vcm.conducting s.now s.clock := by
  unfold State.pulsedVcm
  rw [h]

theorem pulsedVcm_else (hForward : s.vcm.valve ≠ .forward) (hDark : s.vcm.valve ≠ .dark) : s.pulsedVcm = s.vcm := by
  unfold State.pulsedVcm
  cases h : s.vcm.valve with
  | dark => exact absurd h hDark
  | forward => exact absurd h hForward
  | reverse => rfl
  | conducting => rfl
  | recovering => rfl

/-- A pulse to all levels, in RUNNING and BYPASSING. -/
structure Pulsed (kind : PulseKind) (s u : State) : Prop where
  frame : u = { s with
    firing := s.firing ++ [pulseToAll kind s.now s.cfg.levels], vcm := s.pulsedVcm, lvt := u.lvt, pmn := u.pmn
    pst := { s.pst with surveyTest := u.pst.surveyTest, gather := u.pst.gather }
    fic := { s.fic with cause := if s.vcm.valve = .forward then some .pulse else s.fic.cause } }
  levels : u.lvt.levels = s.firedLevels

theorem valvePulse_pulsed (hFires : s.Fires) (kind : PulseKind) : Pulsed kind s (valvePulse (emitToAll kind s)) := by
  have hNot (h : s.vcm.valve ≠ .forward) : s.firedLevels = s.lvt.levels := if_neg fun hBoth => h hBoth.1
  rw [emitToAll_pulsed]
  by_cases hForward : s.vcm.valve = .forward
  · obtain ⟨hFrame, hLevels⟩ := enterConducting_fires (s := s.pulsed kind) hFires .pulse hForward rfl
    rw [valvePulse_forward (s := s.pulsed kind) hForward]
    refine ⟨?_, hLevels⟩
    generalize enterConducting .pulse (s.pulsed kind) = y at hFrame
    rw [pulsedVcm_forward hForward, if_pos hForward, hFrame]
    rfl
  · refine ⟨?_, ?_⟩
    all_goals
      by_cases hDark : s.vcm.valve = .dark
    · rw [valvePulse_dark (s := s.pulsed kind) hDark, pulsedVcm_dark hDark, if_neg hForward]
      rfl
    · rw [valvePulse_else (s := s.pulsed kind) hForward hDark, pulsedVcm_else hForward hDark, if_neg hForward]
      rfl
    · rw [valvePulse_dark (s := s.pulsed kind) hDark]
      exact (hNot hForward).symm
    · rw [valvePulse_else (s := s.pulsed kind) hForward hDark]
      exact (hNot hForward).symm

/-! ### The close of a window beside the levels -/

theorem heardOnly_nil (levels : List LevelRecord) : heardOnly levels [] = [] := rfl

/-- The VCM but for its two sets, which a level that falls SILENT leaves. -/
def Vcm.besideSets (v : Vcm) : Vcm := { v with fwdSet := [], revSet := [] }

/-- What the outcomes of levels leave of the VCM and the FIC, read without the sets and the sequence counter. -/
def State.offLevels (s : State) : Vcm × Fic := (s.vcm.besideSets, s.fic.besideSeq)

theorem setLevels_besides (levels : List LevelRecord) (s : State) : (setLevels levels s).offLevels = s.offLevels
    ∧ (s.vcm.fwdSet = [] → (setLevels levels s).vcm.fwdSet = [])
    ∧ (s.vcm.revSet = [] → (setLevels levels s).vcm.revSet = []) := by
  have hOff := wentTo_offStation (s.afterCountChange (consumedIn levels)) (levelsSet levels s)
  rw [← setLevels_wentTo] at hOff
  have hFic := (offStation_orh_fic hOff).2
  simp only [State.offStation, Prod.mk.injEq] at hOff
  obtain ⟨-, -, -, -, -, -, -, hVcm, -⟩ := hOff
  unfold State.offLevels
  rw [hFic, hVcm, levelsSet_eq]
  refine ⟨rfl, fun h => ?_, fun h => ?_⟩
  · show heardOnly levels s.vcm.fwdSet = []
    rw [h, heardOnly_nil]
  · show heardOnly levels s.vcm.revSet = []
    rw [h, heardOnly_nil]

theorem cmuSurveyResult_besides (result : SurveyResult) (s : State) :
    (cmuSurveyResult result s).offLevels = s.offLevels ∧ (cmuSurveyResult result s).vcm = s.vcm := by
  have hOff := cmuSurveyResult_offStation result s
  have hFic := (offStation_orh_fic hOff).2
  simp only [State.offStation, Prod.mk.injEq] at hOff
  obtain ⟨-, -, -, -, -, -, -, hVcm, -⟩ := hOff
  unfold State.offLevels
  rw [hFic, hVcm]
  exact ⟨rfl, rfl⟩

theorem closeWindow_besides (s : State) : (closeWindow s).offLevels = s.offLevels
    ∧ (s.vcm.fwdSet = [] → (closeWindow s).vcm.fwdSet = [])
    ∧ (s.vcm.revSet = [] → (closeWindow s).vcm.revSet = []) := by
  cases h : s.pst.window with
  | none =>
    rw [closeWindow_none h]
    exact ⟨rfl, id, id⟩
  | some w =>
    have hSet := setLevels_besides s.closedLevels s.unwindowed
    cases hKind : w.kind with
    | main =>
      rw [closeWindow_acks h (.inl hKind)]
      exact hSet
    | pvf =>
      rw [closeWindow_acks h (.inr hKind)]
      exact hSet
    | survey n =>
      obtain ⟨u, hClose, hOrder⟩ := closeWindow_survey h hKind
      have hu : u.offLevels = s.offLevels ∧ (s.vcm.fwdSet = [] → u.vcm.fwdSet = [])
          ∧ (s.vcm.revSet = [] → u.vcm.revSet = []) := by
        obtain rfl | rfl := hOrder
        · obtain ⟨hOff, hVcm⟩ := cmuSurveyResult_besides (surveyResultOf n w.acked) (setLevels s.closedLevels s.unwindowed)
          rw [hOff, hVcm]
          exact hSet
        · obtain ⟨hOff, hVcm⟩ := cmuSurveyResult_besides (surveyResultOf n w.acked) s.unwindowed
          have hLate := setLevels_besides s.closedLevels (cmuSurveyResult (surveyResultOf n w.acked) s.unwindowed)
          rw [hOff, hVcm] at hLate
          exact hLate
      obtain hClose | hClose := hClose <;> rw [hClose] <;> exact hu

theorem closeWindow_train (s : State) : (closeWindow s).pst.train = s.pst.train := by
  cases h : s.pst.window with
  | none => rw [closeWindow_none h]
  | some w => exact (closeWindow_closed h).train

theorem closeWindow_fires (h : s.Fires) : (closeWindow s).stc = s.stc := by
  cases hWindow : s.pst.window with
  | none => rw [closeWindow_none hWindow]
  | some w => rw [(closeWindow_closed hWindow).stc, afterCountChange_fires h, Stc.went_self]

/-! ### A main pulse (R118, R119, R123) -/

/-- The cause of the conduction after a pulse. -/
def State.pulsedCause (s : State) : Option Cause := if s.vcm.valve = .forward then some .pulse else s.fic.cause

/-- A main pulse in RUNNING and BYPASSING: the pulse, the valve, the window with the outcomes of the one before, and the
train. -/
structure MainPulsed (fired : Fired) (s u : State) : Prop where
  firing : u.firing = s.firing ++ [pulseToAll .main s.now s.cfg.levels]
  levels : ∀ k, itemAt u.lvt.levels k
    = (itemAt s.lvt.levels k).map fun x => closedRecord s.pst.window k (s.firedRecord s.now k x)
  window : u.pst.window = some (s.openedWindow .main s.clock)
  train : u.pst.train = if fired = .forced then s.pst.train else s.startedRefire s.clock
  stc : u.stc = s.stc
  clock : u.clock = s.clock
  prl : u.prl = s.prl
  orh : u.orh = s.orh
  offLevels : u.offLevels = (s.pulsedVcm.besideSets, ({ s.fic with cause := s.pulsedCause } : Fic).besideSeq)
  fwdSet : s.pulsedVcm.fwdSet = [] → u.vcm.fwdSet = []
  revSet : s.pulsedVcm.revSet = [] → u.vcm.revSet = []

theorem mainPulse_pulsed (hFires : s.Fires) (fired : Fired) : MainPulsed fired s (mainPulse fired s) := by
  have hPulse := valvePulse_pulsed hFires .main
  generalize hp : valvePulse (emitToAll .main s) = p at hPulse
  obtain ⟨hFrame, hLevels⟩ := hPulse
  have hStc : p.stc = s.stc := by rw [hFrame]
  have hClock : p.clock = s.clock := by rw [hFrame]
  have hPFires : p.Fires := by
    unfold State.Fires
    rw [hStc]
    exact hFires
  have hRun := closeWindow_run (s := p) (List.Subset.refl _)
  have hClosedStc : (closeWindow p).stc = s.stc := (closeWindow_fires hPFires).trans hStc
  have hClosedClock : (closeWindow p).clock = s.clock := hRun.clock.trans hClock
  have hCfg : (closeWindow p).cfg = s.cfg := congrArg (fun x : Stc => x.setup.getD Setup.blank) hClosedStc
  obtain ⟨hOff, hFwd, hRev⟩ := closeWindow_besides p
  have hItem := closeWindow_itemAt p
  have hTrain := closeWindow_train p
  have hOpened : openWindow .main s.heardLevels p = (closeWindow p).setPst { (closeWindow p).pst with
      window := some (s.openedWindow .main s.clock) } := by
    have hWindow : ({ kind := .main, targets := s.heardLevels, acked := []
                      expiry := timerExpiry ((closeWindow p).cfg.ackWindow.atLeast 1) (closeWindow p).clock } : AckWindow)
        = s.openedWindow .main s.clock := by
      rw [hClosedClock, hCfg]
      rfl
    rw [← hWindow]
    rfl
  have hMain : mainPulse fired s = (closeWindow p).setPst { (closeWindow p).pst with
      window := some (s.openedWindow .main s.clock)
      train := if fired = .forced then (closeWindow p).pst.train else s.startedRefire s.clock } := by
    unfold mainPulse
    simp only [hp, hOpened]
    by_cases hForced : fired = .forced
    · rw [if_pos hForced, if_pos hForced]
    · rw [if_neg hForced, if_neg hForced]
      have hStarted : refireTrain (closeWindow p).cfg (closeWindow p).clock = s.startedRefire s.clock := by
        rw [hClosedClock, hCfg]
        rfl
      rw [← hStarted]
      rfl
  rw [hMain]
  refine ⟨hRun.firing.trans (by rw [hFrame]), fun k => (hItem k).trans ?_, rfl, ?_, hClosedStc, hClosedClock,
    (closeWindow_prl p).trans (by rw [hFrame]), hRun.orh.trans (by rw [hFrame]), hOff.trans ?_, fun h => hFwd ?_,
    fun h => hRev ?_⟩
  · rw [hLevels, firedLevels_itemAt, Option.map_map, show p.pst.window = s.pst.window by rw [hFrame]]
    rfl
  · show (if fired = .forced then (closeWindow p).pst.train else _) = _
    rw [hTrain, show p.pst.train = s.pst.train by rw [hFrame]]
  · unfold State.offLevels
    rw [hFrame]
    rfl
  · rw [hFrame]
    exact h
  · rw [hFrame]
    exact h

/-! ### The mark with a pulse -/

theorem takeMark_owns (h : (s.entry s.position).isSome = true) :
    (takeMark fired a wasForward s).ownMarkIs s.now fired a.placing.source := by
  obtain ⟨x, hx⟩ := Option.isSome_iff_exists.1 h
  have hPosition : (takeMark fired a wasForward s).position = s.position :=
    (takeMark_run (K := .arm :: Tag.marking) (s := s) (by decide) (.inl (by decide)) fired a wasForward).position
  refine ⟨{ markInstant := s.now, acceptInstant := s.now, seq := s.fic.seqCounter
            report := s.formed fired a.placing wasForward }, ?_, rfl, rfl, rfl⟩
  unfold State.ownReport
  rw [hPosition, takeMark_entry, reported_entry_own hx]

theorem takeMark_deferral : (takeMark fired a wasForward s).fic.deferral = s.fic.deferral :=
  (takeMark_run (K := .arm :: Tag.marking) (s := s) (by decide) (.inl (by decide)) fired a wasForward).deferral

/-- The FIC's records that a mark does not touch. -/
def Fic.besideMark (x : Fic) : Option ArmedMark × Option Cause × Nat × Nat :=
  (x.deferral, x.cause, x.endStopCount, x.forcedCount)

theorem markHandouts_besideMark {placing : Placing} {refHeard : Bool} (m : State) :
    (markHandouts placing refHeard m).fic.besideMark = m.fic.besideMark := by
  have hOff (x y : State) (hOff : y.offStation = x.offStation) : y.fic.besideMark = x.fic.besideMark :=
    show y.fic.besideSeq.besideMark = x.fic.besideSeq.besideMark from congrArg Fic.besideMark (offStation_orh_fic hOff).2
  have hAdopt (x : State) : (adopt x).fic.besideMark = x.fic.besideMark := by
    cases hPending : x.orh.pending with
    | none => rw [adopt_none hPending]
    | some o =>
      rw [adopt_eq hPending, forceBlock_frame, recomputeArmed_frame]
      exact hOff (x.ordered o) (stcAdopt (x.ordered o)) (stcAdopt_offStation _)
  exact markHandouts_keeps (P := fun x => x.fic.besideMark = m.fic.besideMark) placing refHeard (fun _ h => h)
    (fun x h => (hOff x _ (judgeMark_offStation ..)).trans h) (fun x h => (hAdopt x).trans h)
    (fun x h => (hOff x _ (countSurveyMark_offStation x)).trans h)
    (fun x h => by rw [offerOwnMark_frame]; exact h) m rfl

theorem takeMark_besideMark : (takeMark fired a wasForward s).fic.besideMark = s.fic.besideMark := by
  have hFrame := reported_eq (s := s) (fired := fired) (placing := a.placing) (wasForward := wasForward)
  have hArmed (y : State) : (armFlywheel a.alphaT (decrementAdvance y)).fic.besideMark = y.fic.besideMark := rfl
  rw [takeMark_reported, hArmed, markHandouts_besideMark, hFrame]
  rfl

theorem takeMark_alphaLast : (takeMark fired a wasForward s).fic.alphaLast = some a.alphaT := by rw [takeMark_fic]

/-- A MAIN or PVF window stands over a mark. -/
theorem takeMark_window {w : AckWindow} (h : s.pst.window = some w) (hKind : w.kind = .main ∨ w.kind = .pvf) :
    (takeMark fired a wasForward s).pst.window = some w := by
  have hFrame := reported_eq (s := s) (fired := fired) (placing := a.placing) (wasForward := wasForward)
  have hReports := reports_markHandouts a.placing s.referenceHeard (s.reported fired a.placing wasForward)
  have hArmed (y : State) : (armFlywheel a.alphaT (decrementAdvance y)).pst = y.pst := rfl
  have hKept : withoutSurveyWindow (some w) = some w := by
    unfold withoutSurveyWindow
    obtain hKind | hKind := hKind <;> simp only [hKind]
  have hm : (s.reported fired a.placing wasForward).pst.window = some w := by rw [hFrame]; exact h
  rw [takeMark_reported, hArmed]
  obtain hWindow | ⟨-, hWindow⟩ := hReports.window
  · rw [hWindow, hm]
  · rw [hWindow, hm, hKept]

/-- With the CMU IDLE any window stands over a mark. -/
theorem takeMark_window_idle (h : s.cmu.executing = none) :
    (takeMark fired a wasForward s).pst.window = s.pst.window := by
  have hFrame := reported_eq (s := s) (fired := fired) (placing := a.placing) (wasForward := wasForward)
  have hReports := reports_markHandouts a.placing s.referenceHeard (s.reported fired a.placing wasForward)
  have hArmed (y : State) : (armFlywheel a.alphaT (decrementAdvance y)).pst = y.pst := rfl
  have hm : (s.reported fired a.placing wasForward).pst.window = s.pst.window
      ∧ (s.reported fired a.placing wasForward).cmu = s.cmu := by rw [hFrame]; exact ⟨rfl, rfl⟩
  obtain ⟨hWindowM, hCmu⟩ := hm
  rw [takeMark_reported, hArmed]
  obtain hWindow | ⟨hBusy, -⟩ := hReports.window
  · rw [hWindow, hWindowM]
  · rw [hCmu] at hBusy
    exact absurd h hBusy

theorem wentTo_train (new : StationState) (s : State) : (s.wentTo new).pst.train = s.pst.train := by
  obtain h | h := wentTo_pst new s <;> rw [h]

theorem enterListening_train (h : s.stc.state = .synced) : (enterListening s).pst.train = s.pst.train := by
  rw [enterListening_synced h]
  obtain h | h := aborted_pst (s.setStc (s.stc.listening s.overConsumed)) <;> rw [h] <;> rfl

theorem judgeMark_train {placing : Placing} {refHeard : Bool} (s : State) :
    (judgeMark placing refHeard s).pst.train = s.pst.train := by
  have hRuns : (judgeRuns placing s).pst.train = s.pst.train := by
    have hLose (y : State) : (loseLattice y).pst.train = y.pst.train := by
      unfold loseLattice
      split
      · exact enterListening_train (s := y.setStc _) ‹_›
      · split <;> rfl
    rw [judgeRuns_eq]
    split
    · exact hLose _
    · split <;> rfl
  have hSynced (y : State) (hy : y.stc.state = .listening) : (enterSynced y).pst.train = y.pst.train := by
    rw [enterSynced_quiet hy]
    split
    · exact enterListening_train (s := y.setStc y.stc.synced) rfl
    · split
      · rw [enterTripped_wentTo (.inr rfl), wentTo_train]
        rfl
      · rw [evaluateDeblock_wentTo, wentTo_train]
        unfold startDarkTimer
        split <;> rfl
  unfold judgeMark
  split
  · by_cases hCounts : s.markCounts placing refHeard
    · rw [judgeListening_counts hCounts]
      split
      · exact hSynced (s.setStc _) ‹_›
      · rfl
    · rw [judgeListening_not hCounts]
      rfl
  · exact hRuns
  · exact hRuns
  · exact hRuns
  · rfl

theorem countSurveyMark_train (s : State) : (countSurveyMark s).pst.train = s.pst.train := by
  cases h : s.cmu.executing with
  | none => rw [countSurveyMark_idle h]
  | some v =>
    rw [countSurveyMark_some h]
    split
    · rw [produceResult, produce_eq]
      rfl
    · rfl

/-- A train runs on over a mark at which nothing is adopted. -/
theorem takeMark_train (hNot : ¬ s.markAdopts) : (takeMark fired a wasForward s).pst.train = s.pst.train := by
  have hFrame := reported_eq (s := s) (fired := fired) (placing := a.placing) (wasForward := wasForward)
  have hArmed (y : State) : (armFlywheel a.alphaT (decrementAdvance y)).pst = y.pst := rfl
  have hNot' := mt (reported_markAdopts (fired := fired) (a := a) (wasForward := wasForward)).1 hNot
  have hm : (s.reported fired a.placing wasForward).pst.train = s.pst.train := by rw [hFrame]
  rw [takeMark_reported, hArmed]
  generalize s.reported fired a.placing wasForward = m at hNot' hm ⊢
  refine (markHandouts_without (P := fun x => x.orh = m.orh ∧ x.pst.train = s.pst.train) hNot' (fun x hx => hx.1)
    (fun x hx => hx) (fun x hx => ?_) (fun x hx => ?_) (fun x hx => ?_) ⟨rfl, hm⟩).2
  · exact ⟨(offStation_orh_fic (judgeMark_offStation ..)).1.trans hx.1, (judgeMark_train x).trans hx.2⟩
  · exact ⟨(offStation_orh_fic (countSurveyMark_offStation x)).1.trans hx.1, (countSurveyMark_train x).trans hx.2⟩
  · rw [offerOwnMark_frame]
    exact hx

end
end Sys2Proof.Machine
end

