-- ==== Sys2Proof/Proofs/Trains.lean ====
section
/-! PROOFS. The pulses of the REFIRE and BYPASS trains and the end of a gather (R119 to R121, R127). -/

namespace Sys2Proof.Machine

section
variable {s : State} {t : Instant}

/-- A pulse to all levels and then a train that starts anew. -/
def State.trainPulsed (kind : PulseKind) (train : Train) (s : State) : State :=
  (valvePulse (emitToAll kind s)).setPst { (valvePulse (emitToAll kind s)).pst with train := train }

/-- In RUNNING and BYPASSING the configuration and the clock stand over a pulse. -/
theorem pulsed_cfg_clock (hFires : s.Fires) (kind : PulseKind) :
    (valvePulse (emitToAll kind s)).cfg = s.cfg ∧ (valvePulse (emitToAll kind s)).clock = s.clock := by
  have hFrame := (valvePulse_pulsed hFires kind).frame
  generalize valvePulse (emitToAll kind s) = p at hFrame ⊢
  rw [hFrame]
  exact ⟨rfl, rfl⟩

theorem refirePulse_eq (hFires : s.Fires) :
    refirePulse s = s.trainPulsed .refire (.refire (timerExpiry (s.cfg.refire.atLeast 2) s.clock)) := by
  obtain ⟨hCfg, hClock⟩ := pulsed_cfg_clock hFires .refire
  unfold State.trainPulsed
  rw [← hCfg, ← hClock]
  rfl

theorem bypassFiring_eq (hFires : s.Fires) :
    bypassFiring s = s.trainPulsed .bypass (.bypass (timerExpiry (s.cfg.refire.atLeast 2) s.clock)) := by
  obtain ⟨hCfg, hClock⟩ := pulsed_cfg_clock hFires .bypass
  unfold State.trainPulsed
  rw [← hCfg, ← hClock]
  rfl

theorem trainPulsed_forward (hFires : s.Fires) (hForward : s.vcm.valve = .forward) (kind : PulseKind) (train : Train) :
    (s.trainPulsed kind train).vcm.valve = .conducting ∧ (s.trainPulsed kind train).vcm.f = some s.now
      ∧ (s.trainPulsed kind train).fic = { s.fic with cause := some .pulse } := by
  have hFrame := (valvePulse_pulsed hFires kind).frame
  unfold State.trainPulsed
  generalize valvePulse (emitToAll kind s) = p at hFrame ⊢
  rw [pulsedVcm_forward hForward, if_pos hForward] at hFrame
  rw [hFrame]
  exact ⟨rfl, rfl, rfl⟩

theorem trainPulsed_dark (hDark : s.vcm.valve = .dark) (kind : PulseKind) (train : Train) : s.trainPulsed kind train
    = { s with
      firing := s.firing ++ [pulseToAll kind s.now s.cfg.levels], vcm := { s.vcm with pulseInDark := true }
      pst := { s.pst with train := train } } := by
  unfold State.trainPulsed
  rw [emitToAll_pulsed, valvePulse_dark (s := s.pulsed kind) hDark]
  rfl

theorem trainPulsed_else (hForward : s.vcm.valve ≠ .forward) (hDark : s.vcm.valve ≠ .dark) (kind : PulseKind)
    (train : Train) : s.trainPulsed kind train = { s with
      firing := s.firing ++ [pulseToAll kind s.now s.cfg.levels], pst := { s.pst with train := train } } := by
  unfold State.trainPulsed
  rw [emitToAll_pulsed, valvePulse_else (s := s.pulsed kind) hForward hDark]
  rfl

theorem trainPulsed_firing (hFires : s.Fires) (kind : PulseKind) (train : Train) :
    (s.trainPulsed kind train).firing = s.firing ++ [pulseToAll kind s.now s.cfg.levels] := by
  have hFrame := (valvePulse_pulsed hFires kind).frame
  unfold State.trainPulsed
  generalize valvePulse (emitToAll kind s) = p at hFrame ⊢
  rw [hFrame]
  rfl

/-- Settles O40: an expired train sends its pulse, an expired gather ends, and nothing else does. -/
theorem pulseTimersExpire : Obligations.PulseTimersExpire := by
  intro t expiry s hSupplied hSet r next fired
  have hNow : r.now = t := State.advance_now s t
  have hFired (hFires : r.Fires) (kind : PulseKind) (train : Train) : fired kind train (r.trainPulsed kind train) := by
    refine ⟨?_, rfl, fun hForward => ?_, fun hDark => ?_, fun hForward hDark => ?_⟩
    · rw [trainPulsed_firing hFires, hNow]
      rfl
    · have h := trainPulsed_forward hFires hForward kind train
      rw [hNow] at h
      exact h
    · rw [trainPulsed_firing hFires]
      exact trainPulsed_dark (s := r) hDark kind train
    · rw [trainPulsed_firing hFires]
      exact trainPulsed_else (s := r) hForward hDark kind train
  refine ⟨fun hTrain hExpiry hState hBlock => ?_, fun hTrain hExpiry hState hPair hBlock => ?_, fun hNot => ?_,
    fun g hGather hExpiry => ?_, fun hOpen => ?_⟩
  · have hFires : r.Fires := .inl hState
    have hDue : refireDue r = true := by
      unfold refireDue
      rw [show r.pst.train = .refire expiry from hTrain]
      simp only [Bool.and_eq_true, decide_eq_true_eq, Bool.not_eq_true']
      exact ⟨⟨hExpiry, hState⟩, hBlock⟩
    refine ⟨_, (dueEvent_due hSupplied hSet hDue).trans (congrArg Host.Outcome.next (refirePulse_eq hFires)), ?_⟩
    exact hFired hFires .refire (.refire next)
  · have hFires : r.Fires := .inr hState
    have hDue : bypassTrainDue r = true := by
      unfold bypassTrainDue
      rw [show r.pst.train = .bypass expiry from hTrain]
      simp only [Bool.and_eq_true, decide_eq_true_eq]
      exact ⟨hExpiry, bypassFires_iff.2 ⟨hState, hPair, hBlock⟩⟩
    refine ⟨_, (dueEvent_due hSupplied hSet hDue).trans (congrArg Host.Outcome.next (bypassFiring_eq hFires)), ?_⟩
    exact hFired hFires .bypass (.bypass next)
  · have hRefire : refireDue r = false := by
      unfold refireDue
      obtain hTrain | ⟨hTrain | hTrain, hEarly⟩ := hNot
      · rw [show r.pst.train = .stopped from hTrain]
      · rw [show r.pst.train = .refire expiry from hTrain]
        simp only [decide_eq_false (Nat.not_le.2 hEarly), Bool.false_and]
      · rw [show r.pst.train = .bypass expiry from hTrain]
    have hBypass : bypassTrainDue r = false := by
      unfold bypassTrainDue
      obtain hTrain | ⟨hTrain | hTrain, hEarly⟩ := hNot
      · rw [show r.pst.train = .stopped from hTrain]
      · rw [show r.pst.train = .refire expiry from hTrain]
      · rw [show r.pst.train = .bypass expiry from hTrain]
        simp only [decide_eq_false (Nat.not_le.2 hEarly), Bool.false_and]
    exact ⟨dueEvent_not hSupplied hSet hRefire, dueEvent_not hSupplied hSet hBypass⟩
  · refine dueEvent_due hSupplied hSet ?_
    unfold prfGatherDue
    rw [show (s.advance t).pst.gather = some g from hGather]
    exact decide_eq_true hExpiry
  · refine dueEvent_not hSupplied hSet ?_
    unfold prfGatherDue
    cases hGather : s.pst.gather with
    | none => rw [show (s.advance t).pst.gather = none from hGather]
    | some g =>
      rw [show (s.advance t).pst.gather = some g from hGather]
      exact decide_eq_false (Nat.not_le.2 (hOpen g hGather))

end
end Sys2Proof.Machine
end

