-- ==== Sys2Proof/Proofs/DecidedMarks.lean ====
section
/-! PROOFS. The decision of a mark, and the firings that are not made at M (R105 to R109). -/

namespace Sys2Proof.Machine

section
variable {s y : State} {fired : Fired} {a : ArmedMark} {wasForward : Bool} {t : Instant}

/-! ### The decision, branch by branch -/

theorem decideMark_bypass (h : s.bypassFires = true) :
    decideMark a s = takeMark .bypass a s.isForward (bypassFiring s) := by
  unfold decideMark
  rw [if_pos h]

theorem decideMark_protective (hBypass : s.bypassFires = false)
    (h : s.vcm.valve = .conducting ∧ s.fic.cause = some .protective) : decideMark a s = takeMark .protective a false s := by
  unfold decideMark
  rw [if_neg (Bool.eq_false_iff.1 hBypass), if_pos h]

theorem decideMark_forbidden (hBypass : s.bypassFires = false)
    (h : ¬ (s.vcm.valve = .conducting ∧ s.fic.cause = some .protective)) (hForbidden : s.firingPermitted = false) :
    decideMark a s = takeMark .no a s.isForward s := by
  unfold decideMark
  rw [if_neg (Bool.eq_false_iff.1 hBypass), if_neg h, hForbidden]
  rfl

/-- Where firing is permitted, the valve decides. -/
theorem decideMark_permitted (hBypass : s.bypassFires = false)
    (h : ¬ (s.vcm.valve = .conducting ∧ s.fic.cause = some .protective)) (hPermitted : s.firingPermitted = true) :
    decideMark a s = match s.vcm.valve with
      | .forward => markForward a s
      | .dark => takeMark .main a false (mainPulse .main s)
      | _ => s.setFic { s.fic with deferral := some a } := by
  unfold decideMark
  rw [if_neg (Bool.eq_false_iff.1 hBypass), if_neg h, hPermitted]
  rfl

theorem permitted_of_running (hState : s.stc.state = .running) (hBlock : s.blockAsserted = false) :
    s.firingPermitted = true := by
  unfold State.firingPermitted
  rw [hState, hBlock]
  rfl

/-- With a V_f, M decides the FORWARD valve. -/
theorem markForward_eq {vf : Instant} (h : s.vcm.vf = some vf) : markForward a s =
    if earlier a.m (s.lo vf) then s.setFic { s.fic with deferral := some a }
    else if later a.m (s.hi vf) ∨ later s.now (s.hi vf) then takeMark .no a true s
    else takeMark .main a true (mainPulse .main s) := by
  unfold markForward
  simp only [h, Bool.or_eq_true]

/-! ### The mark that follows -/

/-- What every mark shows of itself. -/
theorem takeMark_shows (hPrl : y.prl = s.prl) (hStraps : y.stc.straps = s.stc.straps) (hNow : y.now = t)
    (hEntry : (s.entry s.position).isSome = true) :
    (takeMark fired a wasForward y).ownMarkIs t fired a.placing.source
      ∧ (takeMark fired a wasForward y).fic.alphaLast = some a.alphaT
      ∧ (takeMark fired a wasForward y).fic.deferral = y.fic.deferral
      ∧ (takeMark fired a wasForward y).firing = y.firing := by
  have hOwn : (y.entry y.position).isSome = true := by
    unfold State.entry State.position
    rw [hPrl, hStraps]
    exact hEntry
  refine ⟨hNow ▸ takeMark_owns hOwn, takeMark_alphaLast, takeMark_deferral, ?_⟩
  exact (takeMark_keeps rfl).2.1

/-- What a main pulse and its mark show. -/
structure MainMade (fired : Fired) (a : ArmedMark) (s u : State) : Prop where
  own : u.ownMarkIs s.now fired a.placing.source
  alphaLast : u.fic.alphaLast = some a.alphaT
  beside : u.fic.besideMark = (s.fic.deferral, s.pulsedCause, s.fic.endStopCount, s.fic.forcedCount)
  firing : u.firing = s.firing ++ [pulseToAll .main s.now s.cfg.levels]
  window : u.pst.window = some (s.openedWindow .main s.clock)
  levels : ∀ k, itemAt u.lvt.levels k
    = (itemAt s.lvt.levels k).map fun x => closedRecord s.pst.window k (s.firedRecord s.now k x)
  vcm : u.vcm.besideSets = { s.pulsedVcm.besideSets with failureInCycle := false }
  fwdSet : s.pulsedVcm.fwdSet = [] → u.vcm.fwdSet = []
  revSet : s.pulsedVcm.revSet = [] → u.vcm.revSet = []
  train : s.vcm.valve ≠ .dark ∨ s.orh.pending = none →
    u.pst.train = if fired = .forced then s.pst.train else s.startedRefire s.clock
  stays : s.vcm.valve ≠ .dark ∨ s.orh.pending = none → u.stc.state = s.stc.state

/-- A pulse leaves a DARK valve DARK and makes no other DARK. -/
theorem pulsedVcm_valve (s : State) : s.pulsedVcm.valve = .dark ↔ s.vcm.valve = .dark := by
  by_cases hDark : s.vcm.valve = .dark
  · rw [pulsedVcm_dark hDark]
  · by_cases hForward : s.vcm.valve = .forward
    · rw [pulsedVcm_forward hForward]
      exact ⟨nofun, fun h => absurd h hDark⟩
    · rw [pulsedVcm_else hForward hDark]

theorem mainMade (hFires : s.Fires) (hEntry : (s.entry s.position).isSome = true) (fired : Fired) (a : ArmedMark)
    (wasForward : Bool) : MainMade fired a s (takeMark fired a wasForward (mainPulse fired s)) := by
  have hPulse := mainPulse_pulsed hFires fired
  generalize mainPulse fired s = y at hPulse
  obtain ⟨hFiring, hLevels, hWindow, hTrain, hStc, hClock, hPrl, hOrh, hOff, hFwd, hRev⟩ := hPulse
  have hNow : y.now = s.now := congrArg (BitVec.ofNat 32) hClock
  obtain ⟨hOwn, hAlpha, hDeferral, hFired⟩ := takeMark_shows (fired := fired) (a := a) (wasForward := wasForward) hPrl
    (congrArg Stc.straps hStc) hNow hEntry
  obtain ⟨-, -, hLvt, -, -, hVcm, -⟩ := takeMark_keeps (s := y) (fired := fired) (a := a) (wasForward := wasForward) rfl
  obtain ⟨hOffVcm, hOffFic⟩ := Prod.mk.inj hOff
  have hValve : y.vcm.valve = s.pulsedVcm.valve :=
    show y.vcm.besideSets.valve = s.pulsedVcm.besideSets.valve from congrArg Vcm.valve hOffVcm
  have hAdopts (hNot : s.vcm.valve ≠ .dark ∨ s.orh.pending = none) : ¬ y.markAdopts := by
    rintro ⟨hDark, hPending⟩
    rw [hValve, pulsedVcm_valve] at hDark
    rw [hOrh] at hPending
    obtain h | h := hNot
    · exact h hDark
    · rw [h] at hPending
      cases hPending
  refine ⟨hOwn, hAlpha, ?_, hFired.trans hFiring, ?_, fun k => ?_, ?_, fun h => ?_, fun h => ?_, fun hNot => ?_,
    fun hNot => ?_⟩
  · rw [takeMark_besideMark]
    exact congrArg Fic.besideMark hOffFic
  · exact takeMark_window hWindow (.inl rfl)
  · rw [hLvt]
    exact hLevels k
  · rw [hVcm]
    exact congrArg (fun v : Vcm => { v with failureInCycle := false }) hOffVcm
  · rw [hVcm]
    exact hFwd h
  · rw [hVcm]
    exact hRev h
  · rw [takeMark_train (hAdopts hNot), hTrain]
  · obtain ⟨tEst, -, hTaken⟩ := takeMark_stc (fired := fired) (a := a) (wasForward := wasForward) (hAdopts hNot)
    have hState : y.stc.state = s.stc.state := congrArg Stc.state hStc
    rw [hTaken]
    exact (judgeMark_firing (s := { y with prl := { y.prl with tEst := tEst } })
      (hFires.imp hState.trans hState.trans)).trans hState

/-- A FORWARD valve that is fired conducts from now on. -/
theorem MainMade.conducts {u : State} (h : MainMade fired a s u) (hForward : s.vcm.valve = .forward) :
    u.vcm.valve = .conducting ∧ u.vcm.f = some s.now ∧ u.fic.cause = some .pulse := by
  have hVcm := h.vcm
  rw [pulsedVcm_forward hForward] at hVcm
  refine ⟨show u.vcm.besideSets.valve = _ by rw [hVcm]; rfl, show u.vcm.besideSets.f = _ by rw [hVcm]; rfl, ?_⟩
  have hCause : u.fic.cause = s.pulsedCause := congrArg (fun p => p.2.1) h.beside
  rw [hCause]
  exact if_pos hForward

/-- What a bypass firing and its mark show. -/
structure BypassMade (a : ArmedMark) (s u : State) : Prop where
  own : u.ownMarkIs s.now .bypass a.placing.source
  alphaLast : u.fic.alphaLast = some a.alphaT
  beside : u.fic.besideMark = (s.fic.deferral, s.pulsedCause, s.fic.endStopCount, s.fic.forcedCount)
  firing : u.firing = s.firing ++ [pulseToAll .bypass s.now s.cfg.levels]
  window : s.cmu.executing = none → u.pst.window = s.pst.window
  levels : ∀ k, itemAt u.lvt.levels k = (itemAt s.lvt.levels k).map (s.firedRecord s.now k)
  vcm : u.vcm = { s.pulsedVcm with failureInCycle := false }
  train : s.vcm.valve ≠ .dark ∨ s.orh.pending = none → u.pst.train = .bypass (s.trainExpiry s.clock)
  stays : s.vcm.valve ≠ .dark ∨ s.orh.pending = none → u.stc.state = s.stc.state

theorem bypassMade (hFires : s.Fires) (hEntry : (s.entry s.position).isSome = true) (a : ArmedMark) (wasForward : Bool) :
    BypassMade a s (takeMark .bypass a wasForward (bypassFiring s)) := by
  have hPulse := valvePulse_pulsed hFires .bypass
  rw [bypassFiring_eq hFires]
  unfold State.trainPulsed
  generalize valvePulse (emitToAll .bypass s) = p at hPulse
  obtain ⟨hFrame, hLevels⟩ := hPulse
  have hTrain : (p.setPst { p.pst with train := .bypass (timerExpiry (s.cfg.refire.atLeast 2) s.clock) })
      = { s with
        firing := s.firing ++ [pulseToAll .bypass s.now s.cfg.levels], vcm := s.pulsedVcm, lvt := p.lvt, pmn := p.pmn
        pst := { s.pst with
          surveyTest := p.pst.surveyTest, gather := p.pst.gather
          train := .bypass (timerExpiry (s.cfg.refire.atLeast 2) s.clock) }
        fic := { s.fic with cause := s.pulsedCause } } := by
    rw [hFrame]
    rfl
  rw [hTrain]
  generalize hy : ({ s with
        firing := s.firing ++ [pulseToAll .bypass s.now s.cfg.levels], vcm := s.pulsedVcm, lvt := p.lvt, pmn := p.pmn
        pst := { s.pst with
          surveyTest := p.pst.surveyTest, gather := p.pst.gather
          train := .bypass (timerExpiry (s.cfg.refire.atLeast 2) s.clock) }
        fic := { s.fic with cause := s.pulsedCause } } : State) = y
  obtain ⟨hOwn, hAlpha, -, hFired⟩ := takeMark_shows (s := s) (y := y) (t := s.now) (fired := .bypass) (a := a)
    (wasForward := wasForward) (by rw [← hy]) (by rw [← hy]) (by rw [← hy]; rfl) hEntry
  obtain ⟨-, -, hLvt, -, -, hVcm, -⟩ := takeMark_keeps (s := y) (fired := .bypass) (a := a) (wasForward := wasForward) rfl
  have hAdopts (hNot : s.vcm.valve ≠ .dark ∨ s.orh.pending = none) : ¬ y.markAdopts := by
    rw [← hy]
    rintro ⟨hDark, hPending⟩
    have hDark : s.vcm.valve = .dark := (pulsedVcm_valve s).1 hDark
    have hPending : s.orh.pending.isSome = true := hPending
    obtain h | h := hNot
    · exact h hDark
    · rw [h] at hPending
      cases hPending
  refine ⟨hOwn, hAlpha, ?_, hFired.trans (by rw [← hy]), fun hIdle => ?_, fun k => ?_, hVcm.trans (by rw [← hy]),
    fun hNot => ?_, fun hNot => ?_⟩
  · rw [takeMark_besideMark, ← hy]
    rfl
  · rw [takeMark_window_idle (by rw [← hy]; exact hIdle), ← hy]
  · rw [hLvt, ← hy]
    show itemAt p.lvt.levels k = _
    rw [hLevels, firedLevels_itemAt]
  · rw [takeMark_train (hAdopts hNot), ← hy]
    rfl
  · obtain ⟨tEst, -, hTaken⟩ := takeMark_stc (fired := .bypass) (a := a) (wasForward := wasForward) (hAdopts hNot)
    have hState : y.stc.state = s.stc.state := by rw [← hy]
    rw [hTaken]
    exact (judgeMark_firing (s := { y with prl := { y.prl with tEst := tEst } })
      (hFires.imp hState.trans hState.trans)).trans hState

theorem BypassMade.conducts {u : State} (h : BypassMade a s u) (hForward : s.vcm.valve = .forward) :
    u.vcm.valve = .conducting ∧ u.vcm.f = some s.now ∧ u.fic.cause = some .pulse := by
  have hVcm := h.vcm
  rw [pulsedVcm_forward hForward] at hVcm
  have hCause : u.fic.cause = s.pulsedCause := congrArg (fun p => p.2.1) h.beside
  rw [hVcm, hCause]
  exact ⟨rfl, rfl, if_pos hForward⟩

/-! ### MARK_EVENT (O42) -/

/-- The state in which the armed mark of `s` is decided at `t`. -/
def State.atMark (s : State) (t : Instant) : State := disarm (s.advance t)

theorem atMark_now (s : State) (t : Instant) : (s.atMark t).now = t := State.advance_now s t

theorem markEvent_due (hSupplied : s.supplied = true) (hSet : s.stc.state ≠ .unset) (hArmed : s.fic.armed = some a)
    (hReached : later a.m t = false) : exec (.markEvent t) s = .next (decideMark a (s.atMark t)) := by
  have hArmedAt : (s.advance t).fic.armed = some a := hArmed
  refine (dueEvent_due hSupplied hSet ?_).trans (congrArg Host.Outcome.next ?_)
  · unfold markDue State.reached
    rw [hArmedAt, State.advance_now]
    exact (congrArg not hReached).trans rfl
  · unfold markNow
    rw [hArmedAt]
    rfl

theorem markEvent_not (hSupplied : s.supplied = true) (hSet : s.stc.state ≠ .unset)
    (h : ∀ a ∈ s.fic.armed, later a.m t = true) : exec (.markEvent t) s = .next (s.advance t) := by
  refine dueEvent_not hSupplied hSet ?_
  unfold markDue State.reached
  rw [State.advance_now, show (s.advance t).fic.armed = s.fic.armed from rfl]
  cases hArmed : s.fic.armed with
  | none => rfl
  | some a =>
    show (!later a.m t) = false
    rw [h a hArmed]
    rfl

/-- What the decision of a mark is to show, for the value it has. -/
def Decided (decided : Option Fired) (a : ArmedMark) (t : Instant) (s u : State) : Prop :=
  u.firing = (match decided with
      | some .main => [pulseToAll .main t s.cfg.levels]
      | some .bypass => [pulseToAll .bypass t s.cfg.levels]
      | _ => [])
    ∧ (decided = none → u = { s.advance t with fic := { s.fic with armed := none, deferral := some a } })
    ∧ (∀ fired, decided = some fired → u.ownMarkIs t fired a.placing.source
        ∧ u.fic.alphaLast = some a.alphaT ∧ u.fic.deferral = s.fic.deferral)
    ∧ (decided = some .main ∨ decided = some .bypass → s.vcm.valve = .forward →
        u.vcm.valve = .conducting ∧ u.vcm.f = some t ∧ u.fic.cause = some .pulse)
    ∧ (decided = some .main →
        u.pst.window = some (s.openedWindow .main (s.advance t).clock)
        ∧ (∀ k, itemAt u.lvt.levels k = (itemAt s.lvt.levels k).map (fun x =>
            closedRecord s.pst.window k (s.firedRecord t k x)))
        ∧ (s.vcm.valve = .forward ∨ s.orh.pending = none → u.pst.train = s.startedRefire (s.advance t).clock))
    ∧ (decided = some .bypass →
        (s.cmu.executing = none → u.pst.window = s.pst.window)
        ∧ (∀ k, itemAt u.lvt.levels k = (itemAt s.lvt.levels k).map (s.firedRecord t k))
        ∧ (s.vcm.valve ≠ .dark ∨ s.orh.pending = none → u.pst.train = .bypass (s.trainExpiry (s.advance t).clock)))

theorem decided_deferred : Decided none a t s ((s.atMark t).setFic { (s.atMark t).fic with deferral := some a }) :=
  ⟨rfl, fun _ => rfl, nofun, fun h => (h.elim nofun nofun), nofun, nofun⟩

/-- A mark with PROTECTIVE or NO sends no pulse. -/
theorem decided_unfired (hEntry : (s.entry s.position).isSome = true) (hMain : fired ≠ .main) (hBypass : fired ≠ .bypass) :
    Decided (some fired) a t s (takeMark fired a wasForward (s.atMark t)) := by
  obtain ⟨hOwn, hAlpha, hDeferral, hFiring⟩ := takeMark_shows (s := s) (y := s.atMark t) (fired := fired) (a := a)
    (wasForward := wasForward) rfl rfl (atMark_now s t) hEntry
  refine ⟨hFiring.trans ?_, nofun, fun f hf => ?_, ?_, fun h => absurd (Option.some.inj h) hMain,
    fun h => absurd (Option.some.inj h) hBypass⟩
  · cases fired with
    | main => exact absurd rfl hMain
    | bypass => exact absurd rfl hBypass
    | no | deferred | endStop | protective | forced => rfl
  · obtain rfl := Option.some.inj hf
    exact ⟨hOwn, hAlpha, hDeferral⟩
  · rintro (h | h)
    · exact absurd (Option.some.inj h) hMain
    · exact absurd (Option.some.inj h) hBypass

theorem decided_main (hFires : s.Fires) (hEntry : (s.entry s.position).isSome = true) :
    Decided (some .main) a t s (takeMark .main a wasForward (mainPulse .main (s.atMark t))) := by
  have hMade := mainMade (s := s.atMark t) hFires hEntry .main a wasForward
  have hNow := atMark_now s t
  refine ⟨hMade.firing.trans (by rw [hNow]; rfl), nofun, fun f hf => ?_, fun _ hForward => ?_, fun _ => ⟨hMade.window,
    fun k => (hMade.levels k).trans (by rw [hNow]; rfl), fun hNot => ?_⟩, nofun⟩
  · obtain rfl := Option.some.inj hf
    exact ⟨by have hOwn := hMade.own; rwa [hNow] at hOwn, hMade.alphaLast, congrArg (fun p => p.1) hMade.beside⟩
  · have h := hMade.conducts hForward
    rw [hNow] at h
    exact h
  · exact hMade.train (hNot.imp (fun (hForward : s.vcm.valve = .forward) hDark => nomatch hForward.symm.trans hDark) id)

theorem decided_bypass (hFires : s.Fires) (hEntry : (s.entry s.position).isSome = true) :
    Decided (some .bypass) a t s (takeMark .bypass a wasForward (bypassFiring (s.atMark t))) := by
  have hMade := bypassMade (s := s.atMark t) hFires hEntry a wasForward
  have hNow := atMark_now s t
  refine ⟨hMade.firing.trans (by rw [hNow]; rfl), nofun, fun f hf => ?_, fun _ hForward => ?_, nofun, fun _ =>
    ⟨hMade.window, fun k => (hMade.levels k).trans (by rw [hNow]; rfl), hMade.train⟩⟩
  · obtain rfl := Option.some.inj hf
    exact ⟨by have hOwn := hMade.own; rwa [hNow] at hOwn, hMade.alphaLast, congrArg (fun p => p.1) hMade.beside⟩
  · have h := hMade.conducts hForward
    rw [hNow] at h
    exact h

/-- Settles O42: the branches of the decision. -/
theorem markDecided : Obligations.MarkDecided := by
  intro t s hSupplied hSet r
  refine ⟨fun a hArmed hReached hEntry hVf => ?_, markEvent_not hSupplied hSet⟩
  intro lo hi bypass decided
  refine ⟨decideMark a (s.atMark t), markEvent_due hSupplied hSet hArmed hReached, ?_⟩
  show Decided decided a t s (decideMark a (s.atMark t))
  by_cases hBypass : bypass
  · have hDecided : decided = some .bypass := if_pos hBypass
    rw [hDecided, decideMark_bypass (s := s.atMark t) (bypassFires_iff.2 hBypass)]
    exact decided_bypass (.inr hBypass.1) hEntry
  · have hNoBypass : (s.atMark t).bypassFires = false := Bool.eq_false_iff.2 fun h => hBypass (bypassFires_iff.1 h)
    by_cases hProtective : s.vcm.valve = .conducting ∧ s.fic.cause = some .protective
    · have hDecided : decided = some .protective := (if_neg hBypass).trans (if_pos hProtective)
      rw [hDecided, decideMark_protective (s := s.atMark t) hNoBypass hProtective]
      exact decided_unfired hEntry nofun nofun
    · by_cases hPermitted : s.stc.state = .running ∧ s.blockAsserted = false
      · have hFires : s.Fires := .inl hPermitted.1
        have hDecided : decided = (match s.vcm.valve with
            | .dark => some .main
            | .forward =>
              if earlier a.m lo then none
              else if later a.m hi ∨ later t hi then some .no else some .main
            | _ => none) :=
          (if_neg hBypass).trans ((if_neg hProtective).trans (if_neg (Classical.not_not.2 hPermitted)))
        rw [hDecided, decideMark_permitted (s := s.atMark t) hNoBypass hProtective
          (permitted_of_running (s := s.atMark t) hPermitted.1 hPermitted.2),
          show (s.atMark t).vcm.valve = s.vcm.valve from rfl]
        cases hValve : s.vcm.valve with
        | dark => exact decided_main hFires hEntry
        | reverse | conducting | recovering => exact decided_deferred
        | forward =>
          obtain ⟨vf, hVfAt⟩ := Option.isSome_iff_exists.1 (hVf hValve)
          have hLo : lo = (s.atMark t).lo vf := by
            show instantPlus (s.vcm.vf.getD 0) _ = _
            rw [hVfAt]
            rfl
          have hHi : hi = (s.atMark t).hi vf := by
            show instantPlus (s.vcm.vf.getD 0) _ = _
            rw [hVfAt]
            rfl
          simp only []
          rw [markForward_eq (s := s.atMark t) hVfAt, hLo, hHi, atMark_now]
          split
          · exact decided_deferred
          · split
            · exact decided_unfired hEntry nofun nofun
            · exact decided_main hFires hEntry
      · have hForbidden : (s.atMark t).firingPermitted = false := Bool.eq_false_iff.2 fun h =>
          hPermitted (running_of_permitted (s := s.atMark t) hNoBypass h)
        have hDecided : decided = some .no := (if_neg hBypass).trans ((if_neg hProtective).trans (if_pos hPermitted))
        rw [hDecided, decideMark_forbidden (s := s.atMark t) hNoBypass hProtective hForbidden]
        exact decided_unfired hEntry nofun nofun

end
end Sys2Proof.Machine
end

