-- ==== Sys2Proof/Proofs/LateFirings.lean ====
section
/-! PROOFS. The three firings that are not made at M: the end-stop, the deferral from lo, and the forced firing at
the limit (R107, R108). -/

namespace Sys2Proof.Machine

section
variable {s : State} {fired : Fired} {a : ArmedMark} {wasForward : Bool} {t vf : Instant}

/-- The state at `t` with other records of the FIC, from which a late firing is made. -/
def State.lateAt (s : State) (t : Instant) (fic : Fic) : State := (s.advance t).setFic fic

/-- What every late firing shows. -/
structure LateMade (fired : Fired) (a : ArmedMark) (t : Instant) (s : State) (fic : Fic) (u : State) : Prop where
  own : u.ownMarkIs t fired a.placing.source
  firing : u.firing = [pulseToAll .main t s.cfg.levels]
  alphaLast : u.fic.alphaLast = some a.alphaT
  deferral : u.fic.deferral = fic.deferral
  window : u.pst.window = some (s.openedWindow .main (s.advance t).clock)
  levels : ∀ k, itemAt u.lvt.levels k
    = (itemAt s.lvt.levels k).map fun x => closedRecord s.pst.window k (s.firedRecord t k x)
  endStopCount : u.fic.endStopCount = fic.endStopCount
  forcedCount : u.fic.forcedCount = fic.forcedCount
  conducts : s.vcm.valve = .forward → u.vcm.valve = .conducting ∧ u.vcm.f = some t
  valve : s.vcm.valve ≠ .forward → s.vcm.valve ≠ .dark → u.vcm.valve = s.vcm.valve
  train : s.vcm.valve ≠ .dark →
    u.pst.train = if fired = .forced then s.pst.train else s.startedRefire (s.advance t).clock

theorem lateMade (hState : s.stc.state = .running) (hEntry : (s.entry s.position).isSome = true) (fired : Fired)
    (a : ArmedMark) (wasForward : Bool) (t : Instant) (fic : Fic) :
    LateMade fired a t s fic (takeMark fired a wasForward (mainPulse fired (s.lateAt t fic))) := by
  have hMade := mainMade (s := s.lateAt t fic) (.inl hState) hEntry fired a wasForward
  have hNow : (s.lateAt t fic).now = t := State.advance_now s t
  generalize takeMark fired a wasForward (mainPulse fired (s.lateAt t fic)) = u at hMade
  refine ⟨?_, hMade.firing.trans (by rw [hNow]; rfl), hMade.alphaLast, congrArg (fun p => p.1) hMade.beside, hMade.window,
    fun k => (hMade.levels k).trans (by rw [hNow]; rfl), congrArg (fun p => p.2.2.1) hMade.beside,
    congrArg (fun p => p.2.2.2) hMade.beside, fun hForward => ?_, fun hForward hDark => ?_,
    fun hDark => hMade.train (.inl hDark)⟩
  · have hOwn := hMade.own
    rwa [hNow] at hOwn
  · obtain ⟨hValve, hF, -⟩ := hMade.conducts hForward
    exact ⟨hValve, hF.trans (congrArg some hNow)⟩
  · have hVcm := hMade.vcm
    rw [pulsedVcm_else (s := s.lateAt t fic) hForward hDark] at hVcm
    show u.vcm.besideSets.valve = _
    rw [hVcm]
    rfl

/-! ### When each is due -/

theorem hi_advance (s : State) (t vf : Instant) : (s.advance t).hi vf = instantPlus vf (ticksAt s.prl.tEst 16500) := rfl

theorem lo_advance (s : State) (t vf : Instant) :
    (s.advance t).lo vf = instantPlus vf (ticksAt s.prl.tEst s.cfg.alphaMin) := rfl

theorem permitted_advance (hState : s.stc.state = .running) (hBlock : s.blockAsserted = false) (t : Instant) :
    (s.advance t).firingPermitted = true := permitted_of_running (s := s.advance t) hState hBlock

theorem isForward_advance (hForward : s.vcm.valve = .forward) (t : Instant) : (s.advance t).isForward = true :=
  decide_eq_true (p := (s.advance t).vcm.valve = .forward) hForward

theorem notForward_advance (hForward : s.vcm.valve ≠ .forward) (t : Instant) : (s.advance t).isForward = false :=
  decide_eq_false (p := (s.advance t).vcm.valve = .forward) hForward

theorem endStopDue_iff (hState : s.stc.state = .running) (hBlock : s.blockAsserted = false) (hArmed : s.fic.armed = some a)
    (hVf : s.vcm.vf = some vf) (hForward : s.vcm.valve = .forward) : endStopDue (s.advance t) = true
      ↔ later a.m (instantPlus vf (ticksAt s.prl.tEst 16500)) = true ∧ t = instantPlus vf (ticksAt s.prl.tEst 16500) := by
  unfold endStopDue
  rw [show (s.advance t).fic.armed = some a from hArmed, show (s.advance t).vcm.vf = some vf from hVf,
    show (s.advance t).stc.state = .running from hState]
  simp only [permitted_advance hState hBlock, isForward_advance hForward, State.advance_now, hi_advance, decide_true,
    Bool.true_and, Bool.and_eq_true, decide_eq_true_eq]

theorem endStopDue_elsewhere (hForward : s.vcm.valve ≠ .forward) : endStopDue (s.advance t) = false := by
  unfold endStopDue
  split
  · rw [notForward_advance hForward, Bool.and_false, Bool.false_and, Bool.false_and]
  · rfl

theorem deferralLoDue_iff (hState : s.stc.state = .running) (hBlock : s.blockAsserted = false)
    (hDeferral : s.fic.deferral = some a) (hVf : s.vcm.vf = some vf) (hForward : s.vcm.valve = .forward) :
    deferralLoDue (s.advance t) = true ↔ later (instantPlus vf (ticksAt s.prl.tEst s.cfg.alphaMin)) t = false
      ∧ later t (instantPlus vf (ticksAt s.prl.tEst 16500)) = false := by
  unfold deferralLoDue State.reached
  rw [show (s.advance t).fic.deferral = some a from hDeferral, show (s.advance t).vcm.vf = some vf from hVf]
  simp only [permitted_advance hState hBlock, isForward_advance hForward, State.advance_now, hi_advance, lo_advance,
    Bool.true_and, Bool.and_eq_true, Bool.not_eq_true']

theorem deferralLoDue_elsewhere (hForward : s.vcm.valve ≠ .forward) : deferralLoDue (s.advance t) = false := by
  unfold deferralLoDue
  split
  · rw [notForward_advance hForward, Bool.and_false, Bool.false_and, Bool.false_and]
  · rfl

/-- The limit of a deferral forces the firing of a valve that is not FORWARD. -/
theorem judgeLimit_forced (hDeferral : s.fic.deferral = some a) (hPermitted : s.firingPermitted = true)
    (hForward : s.isForward = false) (hReached : s.reached (s.deferralEnd a) = true) : judgeLimit s = forcedFiring a s := by
  unfold judgeLimit
  simp only [hDeferral, hPermitted, hForward, hReached]
  rfl

theorem judgeLimit_waits (hDeferral : s.fic.deferral = some a)
    (h : s.isForward = true ∨ s.reached (s.deferralEnd a) = false) : judgeLimit s = s := by
  unfold judgeLimit
  simp only [hDeferral]
  refine if_neg fun hBoth => ?_
  simp only [Bool.and_eq_true, Bool.not_eq_true'] at hBoth
  obtain ⟨⟨-, hNot⟩, hReached⟩ := hBoth
  obtain h | h := h
  · rw [h] at hNot
    cases hNot
  · rw [h] at hReached
    cases hReached

theorem deferralEnd_reached (s : State) (t : Instant) (a : ArmedMark) : (s.advance t).reached ((s.advance t).deferralEnd a)
    = !later (instantPlus a.m (ticksAt s.prl.tEst 3000)) t := by
  unfold State.reached
  rw [State.advance_now]
  rfl

/-! ### The three events -/

theorem endStop_made (hSupplied : s.supplied = true) (hSet : s.stc.state ≠ .unset) (hArmed : s.fic.armed = some a)
    (hDue : endStopDue (s.advance t) = true) : exec (.endStop t) s = .next (takeMark .endStop a true (mainPulse .endStop
      (s.lateAt t { s.fic with armed := none, endStopCount := count16 s.fic.endStopCount }))) := by
  refine (dueEvent_due hSupplied hSet hDue).trans (congrArg Host.Outcome.next ?_)
  unfold endStopNow
  rw [show (s.advance t).fic.armed = some a from hArmed]
  rfl

theorem deferralLo_made (hSupplied : s.supplied = true) (hSet : s.stc.state ≠ .unset) (hDeferral : s.fic.deferral = some a)
    (hDue : deferralLoDue (s.advance t) = true) : exec (.deferralLoReached t) s = .next (takeMark .deferred a true
      (mainPulse .deferred (s.lateAt t { s.fic with deferral := none }))) := by
  refine (dueEvent_due hSupplied hSet hDue).trans (congrArg Host.Outcome.next ?_)
  unfold deferralLoNow
  rw [show (s.advance t).fic.deferral = some a from hDeferral]
  rfl

theorem deferralLimit_judges (hSupplied : s.supplied = true) (hSet : s.stc.state ≠ .unset) :
    exec (.deferralLimit t) s = .next (judgeLimit (s.advance t)) := act_set hSupplied hSet fun _ => judgeLimit

theorem forcedFiring_late (s : State) (t : Instant) (a : ArmedMark) : forcedFiring a (s.advance t) = takeMark .forced a false
    (mainPulse .forced (s.lateAt t { s.fic with deferral := none, forcedCount := count16 s.fic.forcedCount })) := rfl

/-- Settles O45: each late firing is a main pulse and its mark from a state that differs in the FIC's records alone. -/
theorem lateFiringsMade : Obligations.LateFiringsMade := by
  intro t s a hSupplied hState hBlock hEntry r made
  have hSet : s.stc.state ≠ .unset := fun h => nomatch hState.symm.trans h
  have hMade {fired : Fired} {fic : Fic} {u : State} (h : LateMade fired a t s fic u) (hNone : fic.deferral = none) :
      made fired u := ⟨h.own, h.firing, h.alphaLast, h.deferral.trans hNone, h.window, h.levels⟩
  refine ⟨fun vf hVf hForward hArmed hNone => ?_, fun vf hVf hForward hDeferral => ?_, fun hForward hDeferral => ?_⟩
  · intro hi
    have hNotDark : s.vcm.valve ≠ .dark := fun h => nomatch hForward.symm.trans h
    have hDue := endStopDue_iff (t := t) hState hBlock hArmed hVf hForward
    refine ⟨fun hLater hAt => ?_, fun hNot => dueEvent_not hSupplied hSet (Bool.eq_false_iff.2 fun h => ?_)⟩
    · have hLate := lateMade hState hEntry .endStop a true t
        { s.fic with armed := none, endStopCount := count16 s.fic.endStopCount }
      obtain ⟨hValve, hF⟩ := hLate.conducts hForward
      exact ⟨_, endStop_made hSupplied hSet hArmed (hDue.2 ⟨hLater, hAt⟩), hMade hLate hNone, hValve, hF,
        hLate.train hNotDark, hLate.endStopCount⟩
    · obtain ⟨hLater, hAt⟩ := hDue.1 h
      obtain hNot | hNot := hNot
      · exact Bool.false_ne_true (hNot.symm.trans hLater)
      · exact hNot hAt
  · intro lo hi
    have hNotDark : s.vcm.valve ≠ .dark := fun h => nomatch hForward.symm.trans h
    have hDue := deferralLoDue_iff (t := t) hState hBlock hDeferral hVf hForward
    refine ⟨fun hLo hHi => ?_, fun hNot => dueEvent_not hSupplied hSet (Bool.eq_false_iff.2 fun h => ?_), ?_⟩
    · have hLate := lateMade hState hEntry .deferred a true t { s.fic with deferral := none }
      obtain ⟨hValve, hF⟩ := hLate.conducts hForward
      exact ⟨_, deferralLo_made hSupplied hSet hDeferral (hDue.2 ⟨hLo, hHi⟩), hMade hLate rfl, hValve, hF,
        hLate.train hNotDark⟩
    · obtain ⟨hLo, hHi⟩ := hDue.1 h
      obtain hNot | hNot := hNot
      · exact Bool.false_ne_true (hLo.symm.trans hNot)
      · exact Bool.false_ne_true (hHi.symm.trans hNot)
    · rw [deferralLimit_judges hSupplied hSet, judgeLimit_waits (s := s.advance t) hDeferral (.inl (isForward_advance hForward t))]
  · intro limit
    refine ⟨fun hReached => ?_, fun hEarly => ?_, dueEvent_not hSupplied hSet (deferralLoDue_elsewhere hForward),
      dueEvent_not hSupplied hSet (endStopDue_elsewhere hForward)⟩
    · have hLate := lateMade hState hEntry .forced a false t
        { s.fic with deferral := none, forcedCount := count16 s.fic.forcedCount }
      have hAt : (s.advance t).reached ((s.advance t).deferralEnd a) = true :=
        (deferralEnd_reached s t a).trans (congrArg not hReached)
      refine ⟨_, ?_, hMade hLate rfl, hLate.forcedCount, fun hDark => ⟨hLate.train hDark, hLate.valve hForward hDark⟩⟩
      rw [deferralLimit_judges hSupplied hSet, judgeLimit_forced (s := s.advance t) hDeferral
        (permitted_advance hState hBlock t) (notForward_advance hForward t) hAt, forcedFiring_late]
    · have hAt : (s.advance t).reached ((s.advance t).deferralEnd a) = false :=
        (deferralEnd_reached s t a).trans (congrArg not hEarly)
      rw [deferralLimit_judges hSupplied hSet, judgeLimit_waits (s := s.advance t) hDeferral (.inr hAt)]

end
end Sys2Proof.Machine
end

