-- ==== Sys2Proof/Proofs/ValveTimers.lean ====
section
/-! PROOFS. The entry of the valve into DARK with the limit of a deferral, and a commutation failure that is declared
(R63, R70 to R72, R108). -/

namespace Sys2Proof.Machine

section
variable {s u x : State} {K : List Tag} {fired : Fired} {a : ArmedMark} {wasForward : Bool} {t : Instant}

/-! ### No survey test is scheduled where none was -/

/-- A run that schedules no survey test finds none at its end where there was none. -/
theorem Run.untested (h : Run K s u) (hNone : s.pst.surveyTest = none)
    (hK : ∀ k ∈ K, k ∉ [Tag.pst, Tag.setup, Tag.restart] := by decide) : u.pst.surveyTest = none := by
  refine h.keeps (P := fun x => x.pst.surveyTest = none) (fun k hk x y m hx => ?_) hNone
  have hOut := hK k hk
  cases m with
  | line => exact (congrArg Pst.surveyTest (State.setLine_pst ..)).trans hx
  | pst => exact absurd List.mem_cons_self hOut
  | setup => exact absurd (List.mem_cons_of_mem _ List.mem_cons_self) hOut
  | restart => exact absurd (List.mem_cons_of_mem _ (List.mem_cons_of_mem _ List.mem_cons_self)) hOut
  | survey => rfl
  | _ => exact hx

theorem takeMark_untested (h : s.pst.surveyTest = none) : (takeMark fired a wasForward s).pst.surveyTest = none := by
  have hArmed (y : State) : (armFlywheel a.alphaT (decrementAdvance y)).pst = y.pst := rfl
  have hReported : (s.reported fired a.placing wasForward).pst.surveyTest = none := by rw [reported_eq]; exact h
  rw [takeMark_reported, hArmed]
  exact markHandouts_keeps (P := fun x => x.pst.surveyTest = none) _ _ (fun _ h => h)
    (fun x h => (judgeMark_run (List.Subset.refl _) _ _).untested h)
    (fun x h => (adopt_run (List.Subset.refl _)).untested h)
    (fun x h => (countSurveyMark_run (K := .progress :: Tag.station) (by decide) List.mem_cons_self).untested h)
    (fun x h => (offerOwnMark_run (K := [.prl]) List.mem_cons_self _).untested h) _ hReported

/-- A main pulse into a DARK valve schedules no survey test. -/
theorem mainPulse_untested (hDark : s.vcm.valve = .dark) (h : s.pst.surveyTest = none) :
    (mainPulse fired s).pst.surveyTest = none := by
  have hPulse : (valvePulse (emitToAll .main s)).pst.surveyTest = none := by
    rw [emitToAll_pulsed, valvePulse_dark (s := s.pulsed .main) hDark]
    exact h
  have hClosed := (closeWindow_run (s := valvePulse (emitToAll .main s)) (List.Subset.refl _)).untested hPulse
  unfold mainPulse
  simp only []
  split
  · exact hClosed
  · exact hClosed

/-! ### A commutation failure (R72) -/

theorem declareFailure_eq (kind : EventKind) (s : State) : declareFailure kind s = { s with
    vcm := countFailure kind s.vcm
    fic := { s.fic with
      seqCounter := s.fic.seqCounter + 1
      advanceCount := if s.orh.current.mode = .inverter then s.cfg.ncf else s.fic.advanceCount }
    lineA := s.lineA.place s.clock (producedCopy (.event kind) s)
    lineB := s.lineB.place s.clock (producedCopy (.event kind) s)
    pmn := { s.pmn with
      cfHold := true
      commutationFailure := s.pmn.commutationFailure.hand s.clock s.cfg.cfAssert s.cfg.cfRelease true } } := by
  unfold declareFailure
  simp only [produce_eq, ficFailure_eq]
  rfl

/-! ### The entry into DARK (R63, R66) -/

/-- The VCM of a valve that has gone DARK. -/
def Vcm.darkened (v : Vcm) : Vcm :=
  { v with
    valve := .dark, fwdSet := [], revSet := [], roster := [], pulseInDark := false, vf := none
    fwdInterval := none, inactivity := none, noExtinction := none }

theorem stcValveDark_synced (h : s.stc.state = .synced) (hDark : s.vcm.valve = .dark) :
    stcValveDark s = s.setStc { s.stc with syncCount := 0, darkTimer := some s.clock } :=
  (if_pos (c := (s.setStc { s.stc with syncCount := 0 }).stc.state = .synced) h).trans
    (if_pos (c := (s.setStc { s.stc with syncCount := 0 }).vcm.valve = .dark) hDark)

theorem stcValveDark_else (h : s.stc.state ≠ .synced) : stcValveDark s = s.setStc { s.stc with syncCount := 0 } :=
  if_neg (c := (s.setStc { s.stc with syncCount := 0 }).stc.state = .synced) h

theorem darkStarted_frame (s : State) : darkStarted s = { s with
    vcm := s.vcm.darkened
    stc := { s.stc with
      syncCount := 0, darkTimer := if s.stc.state = .synced then some s.clock else s.stc.darkTimer }
    pst := { s.pst with surveyTest := none } } := by
  let y := dropSurveyTest (s.setVcm s.vcm.darkened)
  have hStarted : darkStarted s = stcValveDark y := rfl
  by_cases h : s.stc.state = .synced
  · rw [hStarted, if_pos h, stcValveDark_synced (s := y) h rfl]
    rfl
  · rw [hStarted, if_neg h, stcValveDark_else (s := y) h]
    rfl

theorem judgeLimit_none (h : s.fic.deferral = none) : judgeLimit s = s := by
  unfold judgeLimit
  rw [h]

/-- What is shown of a forced firing that is made as the valve goes DARK. -/
structure ForcedDark (a : ArmedMark) (t : Instant) (s u : State) : Prop where
  own : u.ownMarkIs t .forced a.placing.source
  deferral : u.fic.deferral = none
  firing : u.firing = [pulseToAll .main t s.cfg.levels]
  forcedCount : u.fic.forcedCount = count16 s.fic.forcedCount
  vcm : u.vcm = { s.vcm.darkened with pulseInDark := true, failureInCycle := false }
  window : u.pst.window = some (s.openedWindow .main (s.advance t).clock)
  surveyTest : u.pst.surveyTest = none
  stays : s.orh.pending = none → u.pst.train = s.pst.train ∧ u.stc.state = .running

theorem vcm_of_besideSets {v w : Vcm} (h : v.besideSets = w.besideSets) (hFwd : v.fwdSet = w.fwdSet)
    (hRev : v.revSet = w.revSet) : v = w := by
  have hSets (v : Vcm) : v = { v.besideSets with fwdSet := v.fwdSet, revSet := v.revSet } := rfl
  rw [hSets v, hSets w, h, hFwd, hRev]

theorem forcedDark (hState : s.stc.state = .running) (hEntry : (s.entry s.position).isSome = true) :
    ForcedDark a t s (forcedFiring a (darkStarted (s.advance t))) := by
  have hNow : (s.advance t).now = t := State.advance_now s t
  let q : State := { (s.advance t) with
    vcm := s.vcm.darkened
    stc := { s.stc with syncCount := 0 }
    pst := { s.pst with surveyTest := none }
    fic := { s.fic with deferral := none, forcedCount := count16 s.fic.forcedCount } }
  have hq : forcedFiring a (darkStarted (s.advance t)) = takeMark .forced a false (mainPulse .forced q) := by
    have hTimer : (if (s.advance t).stc.state = .synced then some (s.advance t).clock else (s.advance t).stc.darkTimer)
        = s.stc.darkTimer := if_neg fun h => nomatch (show s.stc.state = .synced from h).symm.trans hState
    rw [darkStarted_frame, hTimer]
    rfl
  have hMade := mainMade (s := q) (.inl hState) hEntry .forced a false
  have hUntested := takeMark_untested (fired := .forced) (a := a) (wasForward := false)
    (mainPulse_untested (s := q) (fired := .forced) rfl rfl)
  rw [hq]
  refine ⟨?_, congrArg (fun p => p.1) hMade.beside, hMade.firing.trans ?_, congrArg (fun p => p.2.2.2) hMade.beside, ?_,
    hMade.window, hUntested, fun hPending => ⟨hMade.train (.inr hPending), (hMade.stays (.inr hPending)).trans hState⟩⟩
  · have hOwn := hMade.own
    rwa [show q.now = t from hNow] at hOwn
  · rw [show q.now = t from hNow]
    rfl
  · have hVcm := hMade.vcm
    rw [pulsedVcm_dark (s := q) rfl] at hVcm
    refine vcm_of_besideSets (hVcm.trans rfl) (hMade.fwdSet ?_) (hMade.revSet ?_)
    · rw [pulsedVcm_dark (s := q) rfl]
      rfl
    · rw [pulsedVcm_dark (s := q) rfl]
      rfl

/-! ### The two timers -/

theorem tickLimit_inactivity (s : State) : s.tickLimit 54000 = (3 * s.prl.tEst + 1) / 2 := by
  unfold State.tickLimit State.ticks ticksAt roundAway
  rw [if_pos (by omega)]
  omega

theorem tickLimit_noExtinction (s : State) : s.tickLimit 24000 = (4 * s.prl.tEst + 3) / 6 := by
  unfold State.tickLimit State.ticks ticksAt roundAway
  rw [if_pos (by omega)]
  omega

theorem inactivityDue_iff (s : State) : inactivityDue s = true
    ↔ (∃ start, s.vcm.inactivity = some start ∧ (3 * s.prl.tEst + 1) / 2 < s.clock - start) ∧ s.vcm.valve ≠ .dark := by
  unfold inactivityDue
  rw [Bool.and_eq_true, expiredAfter_iff, decide_eq_true_eq, tickLimit_inactivity]

theorem noExtinctionDue_iff (s : State) : noExtinctionDue s = true
    ↔ ((∃ start, s.vcm.noExtinction = some start ∧ (4 * s.prl.tEst + 3) / 6 < s.clock - start)
      ∧ s.vcm.valve = .conducting) ∧ s.vcm.spent = false := by
  unfold noExtinctionDue
  rw [Bool.and_eq_true, Bool.and_eq_true, expiredAfter_iff, decide_eq_true_eq, tickLimit_noExtinction, Bool.not_eq_true']

theorem noExtinction_bypassing (h : s.stc.state = .bypassing) :
    noExtinction s = s.setVcm { s.vcm with spent := true } := if_pos h

theorem noExtinction_declared (h : s.stc.state ≠ .bypassing) :
    noExtinction s = declareFailure .noExtinction (s.setVcm { s.vcm with spent := true }) := if_neg h

/-- Settles O39: each timer that is due, and each that is not. -/
theorem valveTimersExpire : Obligations.ValveTimersExpire := by
  intro t s hSupplied hSet r event dark
  have hDarkStarted : darkStarted (s.advance t) = dark := darkStarted_frame _
  refine ⟨fun start hStart hOver hLit => ?_, fun hNot => dueEvent_not hSupplied hSet (Bool.eq_false_iff.2 fun hDue => ?_),
    fun start hStart hOver hValve hSpent => ?_, fun hNot => dueEvent_not hSupplied hSet (Bool.eq_false_iff.2 fun hDue => ?_)⟩
  · have hEnter : exec (.inactivityExpiry t) s = .next (judgeLimit (darkStarted (s.advance t))) :=
      dueEvent_due hSupplied hSet ((inactivityDue_iff (s.advance t)).2 ⟨⟨start, hStart, hOver⟩, hLit⟩)
    have hNotForward : (darkStarted (s.advance t)).isForward = false := by
      rw [darkStarted_frame]
      rfl
    refine ⟨fun hNone => ?_, fun a hDeferral hOk hEntry => ?_⟩
    · rw [hEnter, judgeLimit_none (by rw [hDarkStarted]; exact hNone), hDarkStarted]
    · intro limit
      obtain ⟨-, hState, hBlock⟩ := hOk (by rw [hDeferral]; rfl)
      have hDeferralDark : (darkStarted (s.advance t)).fic.deferral = some a := by
        rw [darkStarted_frame]
        exact hDeferral
      have hReach : (darkStarted (s.advance t)).reached ((darkStarted (s.advance t)).deferralEnd a) = !later limit t := by
        rw [darkStarted_frame]
        exact deferralEnd_reached s t a
      have hPermitted : (darkStarted (s.advance t)).firingPermitted = true := by
        rw [darkStarted_frame]
        exact permitted_of_running (s := { (s.advance t) with stc := { s.stc with
          syncCount := 0, darkTimer := if s.stc.state = .synced then some (s.advance t).clock else s.stc.darkTimer } })
          hState hBlock
      refine ⟨fun hEarly => ?_, fun hReached => ?_⟩
      · rw [hEnter, judgeLimit_waits hDeferralDark (.inr (hReach.trans (congrArg not hEarly))), hDarkStarted]
      · have hMade := forcedDark (s := s) (a := a) (t := t) hState hEntry
        refine ⟨_, ?_, hMade.own, hMade.deferral, hMade.firing, hMade.forcedCount, hMade.vcm, hMade.window,
          hMade.surveyTest, hMade.stays⟩
        rw [hEnter, judgeLimit_forced hDeferralDark hPermitted hNotForward (hReach.trans (congrArg not hReached))]
  · obtain ⟨⟨start, hStart, hOver⟩, hLit⟩ := (inactivityDue_iff (s.advance t)).1 hDue
    obtain hNot | hNot := hNot
    · exact absurd hOver (Nat.not_lt.2 (hNot start hStart))
    · exact hLit hNot
  · have hEffect : exec (.noExtinctionExpiry t) s = .next (noExtinction (s.advance t)) :=
      dueEvent_due hSupplied hSet ((noExtinctionDue_iff (s.advance t)).2 ⟨⟨⟨start, hStart, hOver⟩, hValve⟩, hSpent⟩)
    refine ⟨fun hState => ?_, fun hState => ⟨_, hEffect, ?_⟩⟩
    · rw [hEffect, noExtinction_bypassing (s := s.advance t) hState]
      rfl
    · rw [noExtinction_declared (s := s.advance t) hState, declareFailure_eq]
      exact ⟨rfl, AlarmLine.hand_condition ..⟩
  · obtain ⟨⟨⟨start, hStart, hOver⟩, hValve⟩, hSpent⟩ := (noExtinctionDue_iff (s.advance t)).1 hDue
    obtain hNot | hNot | hNot := hNot
    · exact absurd hOver (Nat.not_lt.2 (hNot start hStart))
    · exact Bool.false_ne_true (hSpent.symm.trans hNot)
    · exact hNot hValve

end
end Sys2Proof.Machine
end

