-- ==== Sys2Proof/Proofs/Reversals.lean ====
section
/-! PROOFS. The reverse quorum: the entries into RECOVERING and REVERSE (R66, R69, R70, R74, R108). -/

namespace Sys2Proof.Machine

section
variable {s u x : State} {n : Nat} {a : ArmedMark} {t : Instant}

/-- The state at `t` with a REV joined. -/
def State.withReverse (s : State) (t : Instant) (n : Nat) : State :=
  (s.advance t).setVcm (s.vcm.withReverse n (s.advance t).clock)

theorem withReverse_now (s : State) (t : Instant) (n : Nat) : (s.withReverse t n).now = t := State.advance_now s t

/-! ### The take-over instant and mu (R55, R70) -/

theorem takesOver_iff (x : Fired) : x.takesOver = true ↔ x ∈ [Fired.main, .deferred, .endStop, .bypass] := by
  cases x <;> decide

theorem laterThanRecord_iff (f : Instant) (r : Option Instant) :
    laterThanRecord f r = true ↔ ∀ own, r = some own → later f own = true := by
  cases r with
  | none => exact ⟨fun _ _ h => (nomatch h), fun _ => rfl⟩
  | some own => exact ⟨fun h _ hOwn => Option.some.inj hOwn ▸ h, fun h => h own rfl⟩

theorem takeOver_iff (s : State) (f : Instant) : s.takeOver = some f ↔ ∃ x h,
    s.entry ((s.position + s.group / 3 - 1) % s.group + 1) = some x ∧ x.missed ≠ 255 ∧ x.held = some h
      ∧ h.markInstant = f ∧ h.report.fired ∈ [Fired.main, .deferred, .endStop, .bypass]
      ∧ ∀ own, s.vcm.f = some own → later f own = true := by
  unfold State.takeOver
  rw [show s.takeOverPosition = (s.position + s.group / 3 - 1) % s.group + 1 from rfl]
  cases hEntry : s.entry ((s.position + s.group / 3 - 1) % s.group + 1) with
  | none => exact ⟨nofun, fun ⟨_, _, h, _⟩ => nomatch h⟩
  | some x =>
    simp only [Option.some.injEq]
    cases hCurrent : x.current with
    | none =>
      refine ⟨nofun, fun ⟨y, h, hy, hFresh, hHeld, _⟩ => ?_⟩
      unfold RollEntry.current at hCurrent
      rw [hy, if_neg hFresh, hHeld] at hCurrent
      cases hCurrent
    | some r =>
      have hFresh : x.missed ≠ 255 := fun h => by
        unfold RollEntry.current at hCurrent
        rw [if_pos h] at hCurrent
        cases hCurrent
      have hHeld : x.held = some r := by
        unfold RollEntry.current at hCurrent
        rwa [if_neg hFresh] at hCurrent
      simp only [Option.ite_none_right_eq_some, Bool.and_eq_true, takesOver_iff, laterThanRecord_iff, Option.some.injEq]
      constructor
      · rintro ⟨⟨hFired, hLater⟩, rfl⟩
        exact ⟨x, r, rfl, hFresh, hHeld, rfl, hFired, hLater⟩
      · rintro ⟨y, h, rfl, -, hHeld', rfl, hFired, hLater⟩
        obtain rfl : r = h := Option.some.inj (hHeld.symm.trans hHeld')
        exact ⟨⟨hFired, hLater⟩, rfl⟩

/-- mu as it is measured now, when there is a take-over instant. -/
def State.muNow (s : State) : Option Nat :=
  s.takeOver.map fun f =>
    if later s.now f then min 6000 (cdegAt s.prl.tEst (instantDiff s.now f).toNat) else 0

theorem measureMu_eq (s : State) : measureMu s = s.setVcm { s.vcm with
    mu := match s.muNow with
      | none => s.vcm.mu
      | some x => some { angle := x, instant := s.now }
    muHold := s.muNow.getD s.vcm.muHold } := by
  unfold measureMu State.muNow
  cases s.takeOver with
  | none => rfl
  | some f =>
    have hMu : (if instantDiff s.now f ≤ 0 then 0 else min 6000 (s.cdeg (instantDiff s.now f).toNat))
        = if later s.now f then min 6000 (cdegAt s.prl.tEst (instantDiff s.now f).toNat) else 0 := by
      unfold later
      by_cases h : instantDiff s.now f ≤ 0
      · rw [if_pos h, if_neg]
        rw [decide_eq_true_eq]
        omega
      · rw [if_neg h, if_pos]
        · rfl
        · rw [decide_eq_true_eq]
          omega
    simp only [hMu]
    rfl

theorem enterRecovering_eq (s : State) : enterRecovering s = { s with
    vcm := { s.vcm.enter .recovering with
      e := some s.now, noExtinction := none
      mu := match s.muNow with
        | none => s.vcm.mu
        | some x => some { angle := x, instant := s.now }
      muHold := s.muNow.getD s.vcm.muHold }
    pst := { s.pst with train := s.pst.train.atRecovery } } := by
  unfold enterRecovering
  simp only [measureMu_eq]
  rfl

/-! ### The entry into REVERSE (R66, R74) -/

/-- The VCM of a valve that has gone REVERSE from FORWARD. -/
def Vcm.reversed (v : Vcm) : Vcm :=
  { v with valve := .reverse, fwdSet := [], revSet := [], roster := [], pulseInDark := false }

/-- The state once the valve has left FORWARD for REVERSE, before the outcomes. -/
def State.reversed (s : State) : State :=
  { s with vcm := s.vcm.reversed, pst := { s.pst with surveyTest := none } }

/-- The records with the outcomes of the forward interval that ends in REVERSE. -/
def State.rosterLevels (s : State) : List LevelRecord :=
  mapFrom (fun k x => x.takeFwd (s.vcm.roster.contains k)) 1 s.lvt.levels

theorem reverseStarted_forward (h : s.vcm.valve = .forward) :
    reverseStarted s = setLevels s.rosterLevels s.reversed := by
  have hLeft : leftForward (s.vcm.enter .reverse).withoutRoster s = s.reversed := by
    rw [leftForward_frame, if_neg (h ▸ nofun)]
    rfl
  have hTaken (y : State) (hy : y.lvt = s.lvt) : takeFwdOutcomes s.vcm.roster y = setLevels s.rosterLevels y := by
    unfold takeFwdOutcomes State.rosterLevels
    rw [hy]
  unfold reverseStarted
  rw [if_pos h, hLeft, hTaken s.reversed rfl]

theorem enterReverse_forward (h : s.vcm.valve = .forward) :
    enterReverse s = judgeLimit (setLevels s.rosterLevels s.reversed) := by
  rw [enterReverse_eq, if_pos h, reverseStarted_forward h]

theorem enterReverse_dark (h : s.vcm.valve = .dark) : enterReverse s = { s with
    vcm := s.vcm.enter .reverse, stc := { s.stc with darkTimer := none } } := by
  rw [enterReverse_eq, if_neg (h ▸ nofun)]
  unfold reverseStarted leaveDark
  rw [if_neg (h ▸ nofun), if_pos h]
  rfl

/-- What the change of the records leaves of a state. -/
theorem setLevels_kept (levels : List LevelRecord) (s : State) : (setLevels levels s).firing = s.firing
    ∧ (setLevels levels s).prl = s.prl ∧ (setLevels levels s).orh = s.orh
    ∧ (setLevels levels s).vcm = (levelsSet levels s).vcm
    ∧ (setLevels levels s).fic.besideSeq = s.fic.besideSeq := by
  have hOff := setLevels_offStation levels s
  obtain ⟨hOrh, hFic⟩ := offStation_orh_fic hOff
  simp only [State.offStation, Prod.mk.injEq] at hOff
  obtain ⟨-, -, -, hFiring, -, -, hPrl, hVcm, -⟩ := hOff
  exact ⟨hFiring, hPrl, hOrh, hVcm, hFic⟩

/-! ### The quorum completed -/

theorem testReverse_reached (h : s.lvt.qrEff ≤ s.vcm.revSet.length) : testReverse s =
    match s.vcm.valve with
    | .dark => if s.vcm.pulseInDark then s.setVcm { s.vcm with revSet := [] } else enterReverse s
    | .forward => enterReverse s
    | .conducting => enterRecovering s
    | _ => s := if_neg (Nat.not_lt.2 h)

/-- The state once a FORWARD valve has gone REVERSE with no deferral waiting. -/
def State.reverseTaken (s : State) (t : Instant) (n : Nat) : State :=
  setLevels s.rosterLevels (s.withReverse t n).reversed

/-- What a reversed valve shows once its outcomes are taken. -/
structure ReverseTaken (n : Nat) (t : Instant) (s u : State) : Prop where
  vcm : u.vcm = { s.vcm.reversed with inactivity := some (s.advance t).clock }
  lvt : u.lvt = lvtOf s.cfg s.rosterLevels
  surveyTest : u.pst.surveyTest = none
  firing : u.firing = []
  prl : u.prl = s.prl
  orh : u.orh = (s.advance t).orh
  fic : u.fic.besideSeq = s.fic.besideSeq
  state : u.stc.state = s.afterCountChange u.lvt.consumed

theorem reverseTaken_shows (s : State) (t : Instant) (n : Nat) : ReverseTaken n t s (s.reverseTaken t n) := by
  obtain ⟨hFiring, hPrl, hOrh, hVcm, hFic⟩ := setLevels_kept s.rosterLevels (s.withReverse t n).reversed
  have hLvt := setLevels_lvt s.rosterLevels (s.withReverse t n).reversed
  refine ⟨hVcm.trans ?_, hLvt, ?_, hFiring, hPrl, hOrh, hFic, ?_⟩
  · rw [levelsSet_eq]
    rfl
  · obtain h | h := setLevels_pst s.rosterLevels (s.withReverse t n).reversed
    · exact (congrArg Pst.surveyTest h).trans rfl
    · exact congrArg Pst.surveyTest h
  · unfold State.reverseTaken
    rw [setLevels_stc, hLvt]
    exact afterCountChange_congr rfl rfl rfl rfl _

/-- With the CMU IDLE the reversal touches the VCM, the LVT, two alarm lines, STC and a scheduled test alone. -/
theorem reverseTaken_idle (hIdle : s.cmu.executing = none) {u : State} (hu : u = s.reverseTaken t n) :
    u = { s.advance t with
      vcm := u.vcm, lvt := u.lvt, pst := { s.pst with surveyTest := none }
      pmn := { s.pmn with tripRequest := u.pmn.tripRequest, redundancyLow := u.pmn.redundancyLow }
      stc := s.stc.went u.stc.state } := by
  have hFrame : s.reverseTaken t n = (levelsSet s.rosterLevels (s.withReverse t n).reversed).setStc
      (s.stc.went (s.reverseTaken t n).stc.state) := by
    have hStc : (s.reverseTaken t n).stc.state
        = (s.withReverse t n).reversed.afterCountChange (consumedIn s.rosterLevels) := by
      unfold State.reverseTaken
      rw [setLevels_stc]
      rfl
    rw [hStc]
    unfold State.reverseTaken
    rw [setLevels_wentTo, wentTo_idle (by rw [levelsSet_eq]; exact hIdle)]
    rfl
  rw [← hu] at hFrame
  rw [hFrame]
  rfl

/-- In RUNNING the reversal leaves the station as it stands. -/
theorem reverseTaken_running (hState : s.stc.state = .running) :
    s.reverseTaken t n = levelsSet s.rosterLevels (s.withReverse t n).reversed :=
  setLevels_fires (s := (s.withReverse t n).reversed) (.inl hState) _

/-- A valve that is not FORWARD leaves no outcome at a pulse. -/
theorem firedRecord_else (h : s.vcm.valve ≠ .forward) (t : Instant) (k : Nat) (x : LevelRecord) :
    s.firedRecord t k x = x := by
  unfold State.firedRecord
  split
  · rfl
  · exact if_neg fun hBoth => h hBoth.1

/-- The forced firing of a valve that has gone REVERSE past the limit. -/
theorem forcedReverse (hState : s.stc.state = .running) (hEntry : (s.entry s.position).isSome = true)
    {u : State} (hu : u = forcedFiring a (levelsSet s.rosterLevels (s.withReverse t n).reversed)) :
    u.ownMarkIs t .forced a.placing.source ∧ u.fic.deferral = none
      ∧ u.firing = [pulseToAll .main t s.cfg.levels] ∧ u.fic.forcedCount = count16 s.fic.forcedCount
      ∧ u.pst.window = some ({ s with lvt := { s.lvt with levels := s.rosterLevels } }.openedWindow .main
          (s.advance t).clock)
      ∧ (∀ k, itemAt u.lvt.levels k = (itemAt s.rosterLevels k).map (closedRecord s.pst.window k))
      ∧ u.stc.state = .running ∧ u.pst.train = s.pst.train
      ∧ u.vcm = { s.vcm.reversed with inactivity := some (s.advance t).clock, failureInCycle := false } := by
  have hFrame := levelsSet_eq s.rosterLevels (s.withReverse t n).reversed
  generalize hz : levelsSet s.rosterLevels (s.withReverse t n).reversed = z at hFrame hu
  let q : State := { z with fic := { z.fic with deferral := none, forcedCount := count16 z.fic.forcedCount } }
  have hVcmQ : q.vcm = { s.vcm.reversed with inactivity := some (s.advance t).clock } := by
    show z.vcm = _
    rw [hFrame]
    rfl
  have hValve : q.vcm.valve = .reverse := congrArg Vcm.valve hVcmQ
  have hNow : q.now = t := by
    refine Eq.trans ?_ (State.advance_now s t)
    show BitVec.ofNat 32 z.clock = _
    rw [hFrame]
    rfl
  have hStc : q.stc = s.stc := by
    show z.stc = _
    rw [hFrame]
    rfl
  have hMade := mainMade (s := q) (.inl ((congrArg Stc.state hStc).trans hState)) (by
    show (z.entry z.position).isSome = true
    rw [hFrame]
    exact hEntry) .forced a false
  have hElse : q.pulsedVcm = q.vcm := pulsedVcm_else (hValve ▸ nofun) (hValve ▸ nofun)
  have hNotDark : q.vcm.valve ≠ .dark := hValve ▸ nofun
  rw [show u = takeMark .forced a false (mainPulse .forced q) from hu]
  generalize takeMark .forced a false (mainPulse .forced q) = w at hMade
  obtain ⟨hOwn, -, hBeside, hFiring, hWindow, hLevels, hVcm, hFwd, hRev, hTrain, hStays⟩ := hMade
  rw [hNow] at hOwn hFiring hLevels
  rw [hElse, hVcmQ] at hVcm hFwd hRev
  refine ⟨hOwn, congrArg (fun p => p.1) hBeside, hFiring.trans ?_, (congrArg (fun p => p.2.2.2) hBeside).trans ?_,
    hWindow.trans ?_, fun k => (hLevels k).trans ?_, (hStays (.inl hNotDark)).trans ?_, (hTrain (.inl hNotDark)).trans ?_,
    vcm_of_besideSets hVcm (hFwd rfl) (hRev rfl)⟩
  · show z.firing ++ [pulseToAll .main t z.cfg.levels] = _
    rw [hFrame]
    rfl
  · show count16 z.fic.forcedCount = _
    rw [hFrame]
    rfl
  · show some (z.openedWindow .main z.clock) = _
    rw [hFrame]
    rfl
  · have hRecords (x : LevelRecord) : q.firedRecord t k x = x := firedRecord_else (hValve ▸ nofun) t k x
    simp only [hRecords]
    show (itemAt z.lvt.levels k).map (closedRecord z.pst.window k) = _
    rw [hFrame]
    rfl
  · rw [hStc]
    exact hState
  · show z.pst.train = _
    rw [hFrame]
    rfl

/-- Settles O36, by the valve that the quorum finds. -/
theorem reverseQuorumReached : Obligations.ReverseQuorumReached := by
  intro t n s hSupplied hSet hLow hHigh hHeard hQuorum r
  have hTaken : exec (.revIndication t n) s = .next (testReverse (s.withReverse t n)) :=
    rev_joins hSupplied hSet ⟨hLow, hHigh⟩ hHeard
  have hReached := testReverse_reached (s := s.withReverse t n) hQuorum
  have hForward (h : s.vcm.valve = .forward) : testReverse (s.withReverse t n) = judgeLimit (s.reverseTaken t n) := by
    rw [hReached, show (s.withReverse t n).vcm.valve = .forward from h]
    exact enterReverse_forward (s := s.withReverse t n) h
  have hShows := reverseTaken_shows s t n
  have hItems {levels : List LevelRecord} (h : levels = s.rosterLevels) (k : Nat) :
      itemAt levels k = (itemAt s.lvt.levels k).map fun x => x.takeFwd (s.vcm.roster.contains k) := by
    rw [h]
    exact itemAt_mapFrom ..
  refine ⟨fun hConducting => ?_, fun hValve hNone => ?_, fun a hValve hDeferral hOk hEntry => ?_, takeOver_iff s,
    fun hDark => ?_⟩
  · intro mu
    have hNow : (s.withReverse t n).now = t := withReverse_now s t n
    have hMu : (s.withReverse t n).muNow = mu := by
      unfold State.muNow
      rw [hNow]
      rfl
    rw [hTaken, hReached, show (s.withReverse t n).vcm.valve = .conducting from hConducting]
    refine congrArg Host.Outcome.next ((enterRecovering_eq _).trans ?_)
    rw [hMu, hNow]
    rfl
  · refine ⟨s.reverseTaken t n, hTaken.trans (congrArg Host.Outcome.next ?_), hShows.vcm,
      hItems (congrArg Lvt.levels hShows.lvt), hShows.surveyTest, hShows.firing, hShows.prl, hShows.orh, ?_, hShows.state,
      fun hIdle => reverseTaken_idle hIdle rfl⟩
    · rw [hForward hValve, judgeLimit_none]
      exact (congrArg (fun x : Fic => x.deferral) hShows.fic).trans hNone
    · rw [hShows.lvt]
      exact consumedIn_eq ..
  · intro limit judged
    obtain ⟨-, hState, hBlock⟩ := hOk (by rw [hDeferral]; rfl)
    have hLevels := reverseTaken_running (t := t) (n := n) hState
    have hFrame := levelsSet_eq s.rosterLevels (s.withReverse t n).reversed
    have hReverse := hForward hValve
    rw [hLevels] at hReverse
    have hNotForward : (levelsSet s.rosterLevels (s.withReverse t n).reversed).isForward = false := by
      rw [hFrame]
      rfl
    have hWaits : (levelsSet s.rosterLevels (s.withReverse t n).reversed).fic.deferral = some a := by
      rw [hFrame]
      exact hDeferral
    have hPermitted : (levelsSet s.rosterLevels (s.withReverse t n).reversed).firingPermitted = true := by
      rw [hFrame]
      exact permitted_advance hState hBlock t
    have hReach : (levelsSet s.rosterLevels (s.withReverse t n).reversed).reached
        ((levelsSet s.rosterLevels (s.withReverse t n).reversed).deferralEnd a) = !later limit t := by
      rw [hFrame]
      exact deferralEnd_reached s t a
    cases hLimit : later limit t with
    | true =>
      refine ⟨_, hTaken.trans (congrArg Host.Outcome.next (hReverse.trans (judgeLimit_waits hWaits
        (.inr (hReach.trans (congrArg not hLimit)))))), ?_, fun _ => ?_, nofun⟩
      · rw [hFrame]
        rfl
      · rw [hFrame]
        exact ⟨hDeferral, rfl, rfl, rfl, rfl, rfl⟩
    | false =>
      obtain ⟨hOwn, hCleared, hFiring, hCount, hWindow, hItem, hStays, hTrain, hVcm⟩ :=
        forcedReverse (a := a) (t := t) (n := n) hState hEntry rfl
      exact ⟨_, hTaken.trans (congrArg Host.Outcome.next (hReverse.trans (judgeLimit_forced hWaits hPermitted hNotForward
        (hReach.trans (congrArg not hLimit))))), hVcm, nofun, fun _ =>
        ⟨hOwn, hCleared, hFiring, hCount, hWindow, hItem, hStays, hTrain⟩⟩
  · rw [hTaken, hReached, show (s.withReverse t n).vcm.valve = .dark from hDark]
    refine congrArg Host.Outcome.next ?_
    show (if s.vcm.pulseInDark then _ else enterReverse (s.withReverse t n)) = _
    by_cases hPulse : s.vcm.pulseInDark = true
    · rw [if_pos hPulse, if_pos hPulse]
      rfl
    · have hEnter : s.vcm.enter .reverse = { s.vcm with valve := .reverse, fwdSet := [], revSet := [] } := by
        unfold Vcm.enter
        rw [← Bool.eq_false_iff.2 hPulse]
      rw [if_neg hPulse, if_neg hPulse, enterReverse_dark (s := s.withReverse t n) hDark]
      have hVcm : (s.withReverse t n).vcm.enter .reverse
          = { s.vcm.enter .reverse with inactivity := some (s.advance t).clock } := rfl
      rw [hVcm, hEnter]
      rfl

end
end Sys2Proof.Machine
end

