-- ==== Sys2Proof/Proofs/ProtectiveFirings.lean ====
section
/-! PROOFS. A PRF that is gathered, and the protective valve firing that it completes, in every state of the station
(R68, R86, R126 to R129). -/

namespace Sys2Proof.Machine

section
variable {s u y e : State} {K : List Tag} {n : Nat} {t : Instant} {cause : Cause} {fired : Fired} {a : ArmedMark}
  {wasForward : Bool}

/-! ### Records that runs leave alone -/

/-- The gather, the PVF count and the flag of a protective firing. -/
def Pst.protective (x : Pst) : Option PrfGather × Nat × Bool := (x.gather, x.pvfCount, x.pvfSeen)

theorem Run.protective (h : Run K s u) (hK : ∀ k ∈ K, k ∉ [Tag.pst, Tag.setup, Tag.restart] := by decide) :
    u.pst.protective = s.pst.protective :=
  h.frame (fun x => x.pst.protective) fun k hk x y m => by
    have hOut := hK k hk
    cases m with
    | line => exact congrArg Pst.protective (State.setLine_pst ..)
    | pst => exact absurd List.mem_cons_self hOut
    | setup => exact absurd (List.mem_cons_of_mem _ List.mem_cons_self) hOut
    | restart => exact absurd (List.mem_cons_of_mem _ (List.mem_cons_of_mem _ List.mem_cons_self)) hOut
    | _ => rfl

theorem Run.cyclePrf (h : Run K s u) (hK : ∀ k ∈ K, k ∉ [Tag.pmn, Tag.setup, Tag.restart] := by decide) :
    u.pmn.cyclePrf = s.pmn.cyclePrf :=
  h.frame (fun x => x.pmn.cyclePrf) fun k hk x y m => by
    have hOut := hK k hk
    cases m with
    | line => exact congrArg Pmn.cyclePrf (State.setLine_pmn ..)
    | pmn => exact absurd List.mem_cons_self hOut
    | setup => exact absurd (List.mem_cons_of_mem _ List.mem_cons_self) hOut
    | restart => exact absurd (List.mem_cons_of_mem _ (List.mem_cons_of_mem _ List.mem_cons_self)) hOut
    | _ => rfl

/-- A mark leaves the gather and the PVF count. -/
theorem takeMark_gather : (takeMark fired a wasForward s).pst.gather = s.pst.gather
    ∧ (takeMark fired a wasForward s).pst.pvfCount = s.pst.pvfCount := by
  have hArmed (x : State) : (armFlywheel a.alphaT (decrementAdvance x)).pst = x.pst := rfl
  have hReported : (s.reported fired a.placing wasForward).pst.protective = (s.pst.gather, s.pst.pvfCount, false) := by
    rw [reported_eq]
    rfl
  have hKept := markHandouts_keeps (P := fun x => x.pst.protective = (s.pst.gather, s.pst.pvfCount, false)) a.placing
    s.referenceHeard (fun _ h => h) (fun x h => ((judgeMark_run (List.Subset.refl _) _ _).protective).trans h)
    (fun x h => ((adopt_run (List.Subset.refl _)).protective).trans h)
    (fun x h => ((countSurveyMark_run (K := .progress :: Tag.station) (by decide) List.mem_cons_self).protective).trans h)
    (fun x h => ((offerOwnMark_run (K := [.prl]) List.mem_cons_self _).protective).trans h) _ hReported
  rw [takeMark_reported, hArmed]
  exact ⟨congrArg (fun p => p.1) hKept, congrArg (fun p => p.2.1) hKept⟩

/-- What the close of a window can do: the records change, the CMU takes a result, and the window is gone. -/
theorem closeWindow_keeps {P : State → Prop} (hSet : ∀ levels x, P x → P (setLevels levels x))
    (hCmu : ∀ result x, P x → P (cmuSurveyResult result x)) (hChoice : ∀ x, P x → P x.countChoice) (h : P s)
    (hWindow : P s.unwindowed) : P (closeWindow s) := by
  cases hOpen : s.pst.window with
  | none =>
    rw [closeWindow_none hOpen]
    exact h
  | some w =>
    cases hKind : w.kind with
    | main =>
      rw [closeWindow_acks hOpen (.inl hKind)]
      exact hSet _ _ hWindow
    | pvf =>
      rw [closeWindow_acks hOpen (.inr hKind)]
      exact hSet _ _ hWindow
    | survey k =>
      obtain ⟨x, hClose, hOrder⟩ := closeWindow_survey hOpen hKind
      have hx : P x := by
        obtain rfl | rfl := hOrder
        · exact hCmu _ _ (hSet _ _ hWindow)
        · exact hSet _ _ (hCmu _ _ hWindow)
      obtain hClose | hClose := hClose <;> rw [hClose]
      · exact hx
      · exact hChoice x hx

/-- The CMU, the sequence counter and the lines. -/
def State.reporting (s : State) : Cmu × Byte × LineState × LineState := (s.cmu, s.fic.seqCounter, s.lineA, s.lineB)

theorem setLevels_reporting (hIdle : s.cmu.executing = none) (levels : List LevelRecord) :
    (setLevels levels s).reporting = s.reporting := by
  rw [setLevels_wentTo, wentTo_idle (by rw [levelsSet_eq]; exact hIdle), levelsSet_eq]
  rfl

/-- With the CMU IDLE no RESULT goes out at the close of a window. -/
theorem closeWindow_reporting (hIdle : s.cmu.executing = none) : (closeWindow s).reporting = s.reporting := by
  have hExec (x : State) (hx : x.reporting = s.reporting) : x.cmu.executing = none :=
    (congrArg (fun p => p.1.executing) hx).trans hIdle
  exact closeWindow_keeps (P := fun x => x.reporting = s.reporting)
    (fun levels x hx => (setLevels_reporting (hExec x hx) levels).trans hx)
    (fun result x hx => by rw [cmuSurveyResult_none result (hExec x hx)]; exact hx) (fun _ hx => hx) rfl rfl

/-! ### The entry into CONDUCTING in any state of the station (R67, R74) -/

/-- What an entry into CONDUCTING shows. -/
structure Conducts (cause : Cause) (s e : State) : Prop where
  clock : e.clock = s.clock
  straps : e.stc.straps = s.stc.straps
  setup : e.stc.setup = s.stc.setup
  prl : e.prl = s.prl
  firing : e.firing = s.firing
  vcm : e.vcm = s.vcm.conducting s.now s.clock
  fic : e.fic.besideSeq = ({ s.fic with cause := some cause } : Fic).besideSeq
  levels : e.lvt.levels = s.firedLevels
  state : e.stc.state = s.afterCountChange e.lvt.consumed
  protective : e.pst.protective = (none, s.pst.pvfCount, s.pst.pvfSeen)
  window : e.pst.window = s.pst.window ∨ e.pst.window = withoutSurveyWindow s.pst.window
  train : e.pst.train = s.pst.train
  cyclePrf : e.pmn.cyclePrf = s.pmn.cyclePrf
  reporting : s.cmu.executing = none → e.reporting = s.reporting

theorem setLevels_conducts (levels : List LevelRecord) (hm : e = setLevels levels s) :
    e.clock = s.clock ∧ e.pst.train = s.pst.train ∧ e.pst.pvfCount = s.pst.pvfCount ∧ e.pst.pvfSeen = s.pst.pvfSeen
      ∧ (e.pst.window = s.pst.window ∨ e.pst.window = withoutSurveyWindow s.pst.window) := by
  have hOff := setLevels_offStation levels s
  simp only [State.offStation, Prod.mk.injEq] at hOff
  have hPst := setLevels_pst levels s
  rw [← hm] at hOff hPst
  refine ⟨hOff.1, ?_⟩
  obtain h | h := hPst <;> rw [h]
  · exact ⟨rfl, rfl, rfl, .inl rfl⟩
  · exact ⟨rfl, rfl, rfl, .inr rfl⟩

theorem enterConducting_conducts (cause : Cause) (s : State) : Conducts cause s (enterConducting cause s) := by
  by_cases hLong : s.vcm.valve = .forward ∧ s.intervalLong = true
  · rw [enterConducting_long cause hLong.1 hLong.2]
    obtain ⟨hFiring, hPrl, -, hVcm, hFic⟩ := setLevels_kept s.firedLevels s.conducted
    have hLvt := setLevels_lvt s.firedLevels s.conducted
    have hStc := setLevels_stc s.firedLevels s.conducted
    have hPmn := setLevels_pmn s.firedLevels s.conducted
    have hReporting := setLevels_reporting (s := s.conducted) (levels := s.firedLevels)
    obtain ⟨hClock, hTrain, hCount, hSeen, hWindow⟩ := setLevels_conducts (s := s.conducted) s.firedLevels rfl
    generalize setLevels s.firedLevels s.conducted = m at *
    have hStraps : m.stc.straps = s.stc.straps := by
      rw [hStc]
      rfl
    have hSetup : m.stc.setup = s.stc.setup := by
      rw [hStc]
      rfl
    refine ⟨hClock, hStraps, hSetup, hPrl, hFiring, hVcm, ?_, congrArg Lvt.levels hLvt,
      ?_, ?_, hWindow, hTrain, (congrArg Pmn.cyclePrf hPmn).trans rfl, hReporting⟩
    · exact congrArg (fun x : Fic => { x with cause := some cause }) hFic
    · show m.stc.state = s.afterCountChange m.lvt.consumed
      rw [hStc, hLvt]
      exact afterCountChange_congr rfl rfl rfl rfl _
    · show (none, m.pst.pvfCount, m.pst.pvfSeen) = _
      rw [hCount, hSeen]
      rfl
  · rw [enterConducting_short cause hLong]
    exact ⟨rfl, rfl, rfl, rfl, rfl, rfl, rfl, (if_neg hLong).symm, (if_pos rfl).symm, rfl, .inl rfl, rfl, rfl, fun _ => rfl⟩

/-! ### The protective firing (R128, R129) -/

/-- What a protective firing shows. -/
structure Protected (s u : State) : Prop where
  vcm : u.vcm = s.vcm.conducting s.now s.clock
  fic : u.fic.besideSeq = ({ s.fic with cause := some .protective } : Fic).besideSeq
  firing : u.firing = s.firing ++ [pulseToAll .pvf s.now s.cfg.levels]
  gather : u.pst.gather = none
  pvfCount : u.pst.pvfCount = count16 s.pst.pvfCount
  pvfSeen : u.pst.pvfSeen = true
  window : u.pst.window = some (s.openedWindow .pvf s.clock)
  train : u.pst.train = s.pst.train
  cyclePrf : u.pmn.cyclePrf = s.pmn.cyclePrf
  levels : (∀ w ∈ s.pst.window, w.kind = .main ∨ w.kind = .pvf) → ∀ k, itemAt u.lvt.levels k
    = (itemAt s.lvt.levels k).map fun x => closedRecord s.pst.window k (s.firedRecord s.now k x)
  state : s.pst.window = none → u.stc.state = s.afterCountChange u.lvt.consumed
  frames : s.cmu.executing = none → u.fic.seqCounter = s.fic.seqCounter + 1
    ∧ u.lineA = s.lineA.place s.clock (producedCopy (.event .protectiveFire) s)
    ∧ u.lineB = s.lineB.place s.clock (producedCopy (.event .protectiveFire) s)

/-- The state once the EVENT of a protective firing is out, before its window. -/
def State.eventOut (e : State) : State :=
  (produce (.event .protectiveFire) e).setPst { (produce (.event .protectiveFire) e).pst with pvfSeen := true }

theorem eventOut_eq (e : State) : e.eventOut = { e with
    fic := { e.fic with seqCounter := e.fic.seqCounter + 1 }
    lineA := e.lineA.place e.clock (producedCopy (.event .protectiveFire) e)
    lineB := e.lineB.place e.clock (producedCopy (.event .protectiveFire) e)
    pst := { e.pst with pvfSeen := true } } := rfl

/-- The state with the PVF window open and the firing counted. -/
def State.pvfOpened (w : AckWindow) (c : State) : State :=
  c.setPst { c.pst with window := some w, pvfCount := count16 c.pst.pvfCount }

/-- The records at the close of an open MAIN or PVF window, which an exit from SYNCED does not withdraw. -/
theorem withoutSurveyWindow_acks {w : Option AckWindow} (h : ∀ x ∈ w, x.kind = .main ∨ x.kind = .pvf) :
    withoutSurveyWindow w = w := by
  cases w with
  | none => rfl
  | some x =>
    unfold withoutSurveyWindow
    obtain hKind | hKind := h x rfl <;> simp only [hKind]

theorem protects (h : Conducts .protective (s.pulsed .pvf) e) :
    Protected s ((closeWindow e.eventOut).pvfOpened (s.openedWindow .pvf s.clock)) := by
  obtain ⟨hClock, hStraps, -, -, hFiring, hVcm, hFic, hLevels, hState, hProtective, hWindow, hTrain, hPrf, hReporting⟩ := h
  have hFrame := eventOut_eq e
  have hPosition : e.position = s.position := congrArg (fun x : Straps => x.position.toNat) hStraps
  generalize e.eventOut = f at hFrame
  obtain ⟨hBesides, hFwd, hRev⟩ := closeWindow_besides f
  obtain ⟨hOffVcm, hOffFic⟩ := Prod.mk.inj hBesides
  have hRun := closeWindow_run (s := f) (List.Subset.refl _)
  have hClosedFiring := hRun.firing
  have hClosedProtective := hRun.protective
  have hClosedPrf := hRun.cyclePrf
  have hItem := closeWindow_itemAt f
  have hClosedTrain := closeWindow_train f
  have hNone (h : f.pst.window = none) : closeWindow f = f := closeWindow_none h
  have hIdle := closeWindow_reporting (s := f)
  generalize closeWindow f = c at *
  have hFVcm : f.vcm = s.vcm.conducting s.now s.clock := by
    rw [hFrame]
    exact hVcm
  have hSeen : c.pst.protective = (none, s.pst.pvfCount, true) := by
    rw [hClosedProtective, hFrame]
    exact congrArg (fun p : Option PrfGather × Nat × Bool => (p.1, p.2.1, true)) hProtective
  have hGather : c.pst.gather = none := congrArg (fun p => p.1) hSeen
  have hCount : c.pst.pvfCount = s.pst.pvfCount := congrArg (fun p => p.2.1) hSeen
  have hFlag : c.pst.pvfSeen = true := congrArg (fun p => p.2.2) hSeen
  have hNoWindow (hw : s.pst.window = none) : c = f := by
    refine hNone ?_
    rw [hFrame]
    obtain h | h := hWindow
    · exact h.trans hw
    · exact h.trans (congrArg withoutSurveyWindow hw)
  refine ⟨?_, ?_, ?_, hGather, congrArg count16 hCount, hFlag,
    rfl, ?_, ?_, fun hw k => ?_, fun hw => ?_, fun hCmu => ?_⟩
  · rw [hFVcm] at hOffVcm hFwd hRev
    exact vcm_of_besideSets hOffVcm (hFwd rfl) (hRev rfl)
  · refine hOffFic.trans (Eq.trans ?_ hFic)
    rw [hFrame]
    rfl
  · refine hClosedFiring.trans ?_
    rw [hFrame]
    exact hFiring
  · refine hClosedTrain.trans ?_
    rw [hFrame]
    exact hTrain
  · refine hClosedPrf.trans ?_
    rw [hFrame]
    exact hPrf
  · have hSame : f.pst.window = s.pst.window := by
      rw [hFrame]
      obtain h | h := hWindow
      · exact h
      · exact h.trans (withoutSurveyWindow_acks hw)
    have hRecords : f.lvt.levels = s.firedLevels := by
      rw [hFrame]
      exact hLevels
    refine (hItem k).trans ?_
    rw [hSame, hRecords, firedLevels_itemAt, Option.map_map]
    rfl
  · have hc := hNoWindow hw
    show c.stc.state = s.afterCountChange c.lvt.consumed
    rw [hc, hFrame]
    exact hState
  · have hE := hReporting hCmu
    have hSeq : e.fic.seqCounter = s.fic.seqCounter := congrArg (fun p => p.2.1) hE
    have hLineA : e.lineA = s.lineA := congrArg (fun p => p.2.2.1) hE
    have hLineB : e.lineB = s.lineB := congrArg (fun p => p.2.2.2) hE
    have hExec : e.cmu.executing = none := (congrArg (fun p => p.1.executing) hE).trans hCmu
    have hCopy : producedCopy (.event .protectiveFire) e = producedCopy (.event .protectiveFire) s := by
      unfold producedCopy
      rw [hPosition, hSeq, hClock]
      rfl
    have hC := hIdle (by rw [hFrame]; exact hExec)
    refine ⟨(congrArg (fun p => p.2.1) hC).trans ?_, (congrArg (fun p => p.2.2.1) hC).trans ?_,
      (congrArg (fun p => p.2.2.2) hC).trans ?_⟩
    · rw [hFrame]
      exact congrArg (· + 1) hSeq
    · rw [hFrame, ← hLineA, ← hCopy]
      exact congrArg (fun c => e.lineA.place c _) hClock
    · rw [hFrame, ← hLineB, ← hCopy]
      exact congrArg (fun c => e.lineB.place c _) hClock

theorem protectiveFiring_eq (hConducting : s.vcm.valve ≠ .conducting) (hRecovering : s.vcm.valve ≠ .recovering) :
    protectiveFiring s = (closeWindow (enterConducting .protective ((endGather s).pulsed .pvf)).eventOut).pvfOpened
      (s.openedWindow .pvf s.clock) := by
  have hValve : valveProtective (emitToAll .pvf (endGather s))
      = enterConducting .protective ((endGather s).pulsed .pvf) := by
    rw [emitToAll_pulsed]
    unfold valveProtective
    rw [show ((endGather s).pulsed .pvf).vcm.valve = s.vcm.valve from rfl]
    cases h : s.vcm.valve with
    | conducting => exact absurd h hConducting
    | recovering => exact absurd h hRecovering
    | dark => rfl
    | forward => rfl
    | reverse => rfl
  have hEntry := enterConducting_conducts .protective ((endGather s).pulsed .pvf)
  have hFiring : protectiveFiring s = (openWindow .pvf s.heardLevels (enterConducting .protective
      ((endGather s).pulsed .pvf)).eventOut).setPst { (openWindow .pvf s.heardLevels (enterConducting .protective
        ((endGather s).pulsed .pvf)).eventOut).pst with pvfCount := count16 (openWindow .pvf s.heardLevels
          (enterConducting .protective ((endGather s).pulsed .pvf)).eventOut).pst.pvfCount } := by
    unfold protectiveFiring
    simp only [hValve]
    rfl
  rw [hFiring]
  obtain ⟨hClock, -, hSetup, -⟩ := hEntry
  generalize enterConducting .protective ((endGather s).pulsed .pvf) = e at hClock hSetup
  have hRun := closeWindow_run (s := e.eventOut) (List.Subset.refl _)
  have hClosedClock : (closeWindow e.eventOut).clock = s.clock := hRun.clock.trans hClock
  have hClosedCfg : (closeWindow e.eventOut).cfg = s.cfg :=
    hRun.cfg.trans (congrArg (fun x : Option Setup => x.getD Setup.blank) hSetup)
  unfold openWindow
  generalize closeWindow e.eventOut = c at hClosedClock hClosedCfg
  simp only [hClosedClock, hClosedCfg]
  rfl

/-! ### A PRF (R86, R126, R127, R146) -/

/-- The records with a PRF of level `n` counted. -/
def countedLevels (n : Nat) (levels : List LevelRecord) : List LevelRecord := changeAt LevelRecord.takePrf levels n

theorem takePrf_eq (x : LevelRecord) : x.takePrf = { x with
    prfCount := min 255 (x.prfCount + 1), seen := if x.state = .silent then true else x.seen } := by
  unfold LevelRecord.takePrf LevelRecord.signOfLife
  by_cases h : x.state = .silent
  · rw [if_pos (show ({ x with prfCount := count8 x.prfCount } : LevelRecord).state = .silent from h), if_pos h]
    rfl
  · rw [if_neg (show ({ x with prfCount := count8 x.prfCount } : LevelRecord).state ≠ .silent from h), if_neg h]
    rfl

/-- The state at `t` with a PRF of level `n` counted by the LVT and the PMN, and with this gather. -/
def State.prfCounted (s : State) (t : Instant) (n : Nat) (gather : Option PrfGather) : State :=
  { s.advance t with
    lvt := { s.lvt with levels := countedLevels n s.lvt.levels }
    pmn := { s.pmn with cyclePrf := insertLevel n s.pmn.cyclePrf }
    pst := { s.pst with gather := gather } }

theorem prf_taken (hSupplied : s.supplied = true) (hSet : s.stc.state ≠ .unset) (hn : 1 ≤ n ∧ n ≤ s.cfg.levels) :
    exec (.prfIndication t n) s = .next (pstPrf n (s.prfCounted t n s.pst.gather)) :=
  indication_taken hSupplied hSet hn t _

/-- The levels that are not SILENT are the same with a PRF counted. -/
theorem prfCounted_heardLevels (s : State) (t : Instant) (n : Nat) (gather : Option PrfGather) :
    (s.prfCounted t n gather).heardLevels = s.heardLevels := by
  have hLength : (countedLevels n s.lvt.levels).length = s.lvt.levels.length := changeAt_length ..
  have hState (k : Nat) : (itemAt (countedLevels n s.lvt.levels) k).map LevelRecord.state
      = (itemAt s.lvt.levels k).map LevelRecord.state := by
    unfold countedLevels
    rw [itemAt_changeAt, Option.map_map]
    refine Option.map_congr fun x _ => ?_
    show (if k = n then x.takePrf else x).state = x.state
    split
    · rw [takePrf_eq]
    · rfl
  have hSilent (k : Nat) : (s.prfCounted t n gather).silent k = s.silent k := by
    unfold State.silent State.levelState
    rw [← hState k]
    rfl
  unfold State.heardLevels
  rw [show (s.prfCounted t n gather).lvt.levels.length = s.lvt.levels.length from hLength]
  simp only [hSilent]

/-- A deferral that waits takes its mark with PROTECTIVE. -/
theorem settleProtective_some (h : s.fic.deferral = some a) :
    settleProtective s = takeMark .protective a false (clearDeferral s) := by
  unfold settleProtective
  rw [h]

theorem settleProtective_none (h : s.fic.deferral = none) : settleProtective s = s := by
  unfold settleProtective
  rw [h]

/-- What stands after a protective firing, whether or not a deferral ends with it. -/
structure Settled (x u : State) : Prop where
  valve : u.vcm.valve = .conducting
  f : u.vcm.f = some x.now
  roster : u.vcm.roster = []
  cause : u.fic.cause = some .protective
  deferral : u.fic.deferral = none
  firing : u.firing = x.firing ++ [pulseToAll .pvf x.now x.cfg.levels]
  gather : u.pst.gather = none
  pvfCount : u.pst.pvfCount = count16 x.pst.pvfCount
  window : u.pst.window = some (x.openedWindow .pvf x.clock)
  train : u.pst.train = x.pst.train
  levels : (∀ w ∈ x.pst.window, w.kind = .main ∨ w.kind = .pvf) → ∀ k, itemAt u.lvt.levels k
    = (itemAt x.lvt.levels k).map fun y => closedRecord x.pst.window k (x.firedRecord x.now k y)

theorem Protected.settled (h : Protected s u) : Settled s (settleProtective u) := by
  obtain ⟨hVcm, hFic, hFiring, hGather, hCount, -, hWindow, hTrain, -, hLevels, -, -⟩ := h
  have hCause : u.fic.cause = some .protective := show u.fic.besideSeq.cause = _ by rw [hFic]; rfl
  cases hDeferral : u.fic.deferral with
  | none =>
    rw [settleProtective_none hDeferral]
    refine ⟨?_, ?_, ?_, hCause, hDeferral, hFiring, hGather, hCount, hWindow, hTrain, hLevels⟩
    all_goals
      rw [hVcm]
      rfl
  | some a =>
    rw [settleProtective_some hDeferral]
    have hValve : (clearDeferral u).vcm.valve = .conducting := congrArg Vcm.valve hVcm
    have hNot : ¬ (clearDeferral u).markAdopts := fun hBoth => nomatch hValve.symm.trans hBoth.1
    obtain ⟨-, hMarkFiring, hLvt, -, -, hMarkVcm, -⟩ := takeMark_keeps (s := clearDeferral u) (fired := .protective) (a := a)
      (wasForward := false) rfl
    have hBeside := takeMark_besideMark (s := clearDeferral u) (fired := .protective) (a := a) (wasForward := false)
    obtain ⟨hMarkGather, hMarkCount⟩ := takeMark_gather (s := clearDeferral u) (fired := .protective) (a := a)
      (wasForward := false)
    have hMarkWindow := takeMark_window (s := clearDeferral u) (fired := .protective) (a := a) (wasForward := false) hWindow
      (.inr rfl)
    have hMarkTrain := takeMark_train (fired := .protective) (a := a) (wasForward := false) hNot
    generalize takeMark .protective a false (clearDeferral u) = m at *
    have hVcmM : m.vcm = { s.vcm.conducting s.now s.clock with failureInCycle := false } :=
      hMarkVcm.trans (congrArg (fun v : Vcm => { v with failureInCycle := false }) hVcm)
    refine ⟨?_, ?_, ?_, (congrArg (fun p => p.2.1) hBeside).trans hCause, congrArg (fun p => p.1) hBeside,
      hMarkFiring.trans hFiring, hMarkGather.trans hGather, hMarkCount.trans hCount, hMarkWindow, hMarkTrain.trans hTrain,
      fun hw k => ?_⟩
    · rw [hVcmM]
      rfl
    · rw [hVcmM]
      rfl
    · rw [hVcmM]
      rfl
    · rw [hLvt]
      exact hLevels hw k

theorem gatherWith_eq (n : Nat) (s : State) : gatherWith n s = match s.pst.gather with
    | some g => { g with set := insertLevel n g.set }
    | none =>
      { set := [n], expiry := timerExpiry { s.cfg.prfGather with factor := max 1 s.cfg.prfGather.factor } s.clock } := rfl

theorem pstPrf_gathers (hConducting : s.vcm.valve ≠ .conducting) (hRecovering : s.vcm.valve ≠ .recovering) : pstPrf n s =
    if s.cfg.qpf ≤ (gatherWith n s).set.length then
      settleProtective (protectiveFiring (s.setPst { s.pst with gather := some (gatherWith n s) }))
    else s.setPst { s.pst with gather := some (gatherWith n s) } := by
  have hGathers : pstPrf n s = if (s.setPst { s.pst with gather := some (gatherWith n s) }).gatherComplete = true then
      settleProtective (protectiveFiring (s.setPst { s.pst with gather := some (gatherWith n s) }))
    else s.setPst { s.pst with gather := some (gatherWith n s) } := if_neg (not_or.2 ⟨hConducting, hRecovering⟩)
  rw [hGathers]
  exact ite_of_iff decide_eq_true_iff rfl rfl

/-- Settles O37: a PRF that completes no gather is counted, and one that does fires the valve. -/
theorem prfTaken : Obligations.PrfTaken := by
  intro t n s hSupplied hSet hLow hHigh r counted gather gathers event
  have hTaken := prf_taken (t := t) hSupplied hSet ⟨hLow, hHigh⟩
  have hCounted : counted = countedLevels n s.lvt.levels := congrArg (fun f => changeAt f s.lvt.levels n)
    (funext fun x => (takePrf_eq x).symm)
  have hGather : gatherWith n (s.prfCounted t n s.pst.gather) = gather := gatherWith_eq ..
  have hGathers : gathers ↔ s.vcm.valve ≠ .conducting ∧ s.vcm.valve ≠ .recovering := by
    show (s.vcm.valve = .dark ∨ s.vcm.valve = .forward ∨ s.vcm.valve = .reverse) ↔ _
    cases s.vcm.valve <;> decide
  rw [hCounted]
  refine ⟨fun hFew => ?_, fun hIn hEnough => ?_⟩
  · rw [hTaken]
    refine congrArg Host.Outcome.next ?_
    by_cases hIn : gathers
    · obtain ⟨hConducting, hRecovering⟩ := hGathers.1 hIn
      obtain hFew | hFew := hFew
      · exact absurd hIn hFew
      · rw [pstPrf_gathers (s := s.prfCounted t n s.pst.gather) hConducting hRecovering, hGather, if_pos hIn]
        exact if_neg (Nat.not_le.2 hFew)
    · have hStill : s.vcm.valve = .conducting ∨ s.vcm.valve = .recovering := by
        refine Classical.byContradiction fun h => ?_
        exact hIn (hGathers.2 (not_or.1 h))
      rw [if_neg hIn]
      exact if_pos hStill
  · obtain ⟨hConducting, hRecovering⟩ := hGathers.1 hIn
    have hFires : pstPrf n (s.prfCounted t n s.pst.gather)
        = settleProtective (protectiveFiring (s.prfCounted t n (some gather))) := by
      rw [pstPrf_gathers (s := s.prfCounted t n s.pst.gather) hConducting hRecovering, hGather]
      exact if_pos hEnough
    have hNow : (s.prfCounted t n none).now = t := State.advance_now s t
    have hWindow : (s.prfCounted t n none).openedWindow .pvf r.clock = s.openedWindow .pvf r.clock := by
      unfold State.openedWindow
      rw [prfCounted_heardLevels]
      rfl
    have hProtected : Protected (s.prfCounted t n none) (protectiveFiring (s.prfCounted t n (some gather))) := by
      rw [protectiveFiring_eq (s := s.prfCounted t n (some gather)) hConducting hRecovering]
      exact protects (s := s.prfCounted t n none) (enterConducting_conducts ..)
    have hRun := protectiveFiring_run (s := s.prfCounted t n (some gather)) (List.Subset.refl _)
    generalize protectiveFiring (s.prfCounted t n (some gather)) = p at hFires hProtected hRun
    have hSettled := hProtected.settled
    have hDeferral : p.fic.deferral = s.fic.deferral :=
      show p.fic.besideSeq.deferral = _ by rw [hProtected.fic]; rfl
    rw [← hFires] at hSettled
    refine ⟨_, hTaken, hSettled.valve, hSettled.f.trans (congrArg some hNow), hSettled.roster, hSettled.cause,
      hSettled.deferral, hSettled.firing.trans ?_, hSettled.gather, hSettled.pvfCount, hSettled.window.trans ?_,
      hSettled.train, fun hw k => (hSettled.levels hw k).trans ?_, fun hNone => ?_, fun a ha hEntry => ?_⟩
    · rw [hNow]
      rfl
    · exact congrArg some hWindow
    · rw [hNow]
      rfl
    · rw [hFires, settleProtective_none (hDeferral.trans hNone)]
      exact ⟨hProtected.pvfSeen, hProtected.cyclePrf, hProtected.state, hProtected.frames⟩
    · rw [hFires, settleProtective_some (hDeferral.trans ha)]
      exact (takeMark_shows (s := s) (y := clearDeferral p) hRun.prl hRun.straps (hRun.now.trans hNow) hEntry).1

end
end Sys2Proof.Machine
end

