-- ==== Sys2Proof/Proofs/Forwards.lean ====
section
/-! PROOFS. The forward quorum: V_f, gamma with a RECOVERY SHORT, the interval, the LOCAL mark, the test of a survey and
the adoption, with a deferral that waits (R64, R65, R103, R108, R131, R138). -/

namespace Sys2Proof.Machine

section
variable {s u x z : State} {n : Nat} {a : ArmedMark} {t : Instant} {o : Order}

/-! ### Gamma (R65, R72) -/

/-- A measured gamma is below gamma_crit. -/
def State.isShort (gamma : Option Nat) (s : State) : Bool := gamma.any fun g => decide (g < s.cfg.gammaCrit)

/-- The gamma minimum hold with a gamma measured. -/
def lowestGamma : Option Nat → Option Nat → Option Nat
  | none, kept => kept
  | some g, none => some g
  | some g, some kept => some (min kept g)

theorem lowestGamma_eq (gamma kept : Option Nat) : lowestGamma gamma kept = match gamma, kept with
    | none, kept => kept
    | some g, none => some g
    | some g, some kept => some (min kept g) := by
  cases gamma <;> cases kept <;> rfl

/-- The state with a gamma measured, and with the RECOVERY SHORT that it may be. -/
def State.measured (gamma : Option Nat) (s : State) : State :=
  { s with
    vcm := { s.vcm with
      gamma := match gamma with
        | none => s.vcm.gamma
        | some g => some { angle := g, instant := s.now }
      failureInCycle := s.isShort gamma || s.vcm.failureInCycle
      shortCount := if s.isShort gamma then min 65535 (s.vcm.shortCount + 1) else s.vcm.shortCount }
    pmn := { s.pmn with
      gammaMin := lowestGamma gamma s.pmn.gammaMin
      cfHold := s.isShort gamma || s.pmn.cfHold
      commutationFailure := if s.isShort gamma then
          s.pmn.commutationFailure.hand s.clock s.cfg.cfAssert s.cfg.cfRelease true
        else s.pmn.commutationFailure }
    fic := { s.fic with
      seqCounter := if s.isShort gamma then s.fic.seqCounter + 1 else s.fic.seqCounter
      advanceCount := if s.isShort gamma ∧ s.orh.current.mode = .inverter then s.cfg.ncf else s.fic.advanceCount }
    lineA := if s.isShort gamma then s.lineA.place s.clock (producedCopy (.event .recoveryShort) s) else s.lineA
    lineB := if s.isShort gamma then s.lineB.place s.clock (producedCopy (.event .recoveryShort) s) else s.lineB }

theorem measured_none (s : State) : s.measured none = s := rfl

/-- gamma as it is measured now, when there is an E. -/
def State.gammaNow (s : State) : Option Nat := s.vcm.e.map fun e => min 36000 (cdegAt s.prl.tEst (s.now - e).toNat)

theorem measureGamma_eq (s : State) : measureGamma s = s.measured s.gammaNow := by
  unfold measureGamma State.gammaNow
  cases s.vcm.e with
  | none => rfl
  | some e =>
    show (if min 36000 (s.cdeg (s.now - e).toNat) < s.cfg.gammaCrit then _ else _)
      = s.measured (some (min 36000 (s.cdeg (s.now - e).toNat)))
    generalize min 36000 (s.cdeg (s.now - e).toNat) = g
    have hGamma : pmnGamma g (s.setVcm { s.vcm with gamma := some { angle := g, instant := s.now } }) = { s with
        vcm := { s.vcm with gamma := some { angle := g, instant := s.now } }
        pmn := { s.pmn with gammaMin := lowestGamma (some g) s.pmn.gammaMin } } := by
      unfold pmnGamma
      rw [State.setVcm_pmn]
      cases s.pmn.gammaMin <;> rfl
    have hIsShort : s.isShort (some g) = decide (g < s.cfg.gammaCrit) := rfl
    rw [hGamma, declareFailure_eq]
    by_cases hShort : g < s.cfg.gammaCrit
    · rw [if_pos hShort]
      unfold State.measured
      rw [hIsShort, decide_eq_true hShort]
      have hAdvance : (if true = true ∧ s.orh.current.mode = .inverter then s.cfg.ncf else s.fic.advanceCount)
          = if s.orh.current.mode = .inverter then s.cfg.ncf else s.fic.advanceCount :=
        ite_of_iff (and_iff_right rfl) rfl rfl
      rw [hAdvance]
      rfl
    · rw [if_neg hShort]
      unfold State.measured
      rw [hIsShort, decide_eq_false hShort]
      rfl

/-! ### The entry up to its adoption point (R64, R103, R131) -/

/-- The valve FORWARD, before gamma is measured. -/
def State.forwarded (s : State) : State :=
  { s with
    vcm := s.vcm.forward s.now
    stc := { s.stc with darkTimer := if s.vcm.valve = .dark then none else s.stc.darkTimer } }

/-- The PRL with the interval that ends at the entry reported. -/
def State.intervalPrl (s : State) : Prl :=
  match s.vcm.vf with
  | none => s.prl
  | some old => if s.prl.localRun = 3 then (judgeSample (s.now - old).toNat s).prl else s.prl

/-- The PST with the survey's next test scheduled. -/
def State.scheduledPst (s : State) : Pst :=
  match s.cmu.executing with
  | none => s.pst
  | some v =>
    { s.pst with
      surveyTest := if s.pst.window ≠ withoutSurveyWindow s.pst.window then none
        else some { level := v.next, vf := s.now } }

/-- gamma as an entry from this valve measures it. -/
def State.entryGamma (s : State) : Option Nat := if s.vcm.valve = .recovering then s.gammaNow else none

theorem reportInterval_eq (hPrl : x.prl = s.prl) :
    reportInterval (forwardInterval s.now s.vcm.vf) x = x.setPrl s.intervalPrl := by
  have hSample (sample : Nat) : judgeSample sample x = x.setPrl (judgeSample sample s).prl := by
    unfold judgeSample
    rw [hPrl]
    split <;> rfl
  have hSame : x.setPrl s.prl = x := by
    rw [← hPrl]
    rfl
  unfold State.intervalPrl
  cases hVf : s.vcm.vf with
  | none => exact hSame.symm
  | some old =>
    show (if x.prl.localRun = 3 then judgeSample (s.now - old).toNat x else x) = _
    rw [hPrl]
    split
    · exact hSample _
    · exact hSame.symm

/-- The state once the interval is reported, before a LOCAL mark is armed. -/
def State.forwardReported (s : State) : State := (s.forwarded.measured s.entryGamma).setPrl s.intervalPrl

theorem forwardStarted_reported (s : State) : forwardStarted s
    = scheduleTest (ficForward (decide (s.vcm.valve = .dark)) s.now s.forwardReported) := by
  have hLeft : leaveDark s.vcm.valve (s.setVcm (s.vcm.forward s.now)) = s.forwarded := by
    unfold leaveDark State.forwarded
    by_cases h : s.vcm.valve = .dark
    · rw [if_pos h, if_pos h]
      rfl
    · rw [if_neg h, if_neg h]
      rfl
  have hGamma : (if s.vcm.valve = .recovering then measureGamma s.forwarded else s.forwarded)
      = s.forwarded.measured s.entryGamma := by
    unfold State.entryGamma
    by_cases h : s.vcm.valve = .recovering
    · rw [if_pos h, if_pos h, measureGamma_eq]
      rfl
    · rw [if_neg h, if_neg h]
      rfl
  have hInterval : reportInterval (s.forwarded.measured s.entryGamma).vcm.fwdInterval (s.forwarded.measured s.entryGamma)
      = s.forwardReported := reportInterval_eq (s := s) (x := s.forwarded.measured s.entryGamma) rfl
  unfold forwardStarted
  simp only [hLeft, hGamma, hInterval]
  rfl

theorem scheduleTest_eq (x : State) : scheduleTest x = x.setPst x.scheduledPst := by
  unfold scheduleTest State.scheduledPst
  cases x.cmu.executing with
  | none => rfl
  | some v => simp only [decide_eq_true_eq]

theorem ficForward_frame (fromDark : Bool) (vf : Instant) (x : State) :
    ficForward fromDark vf x = x.setFic { x.fic with armed := (ficForward fromDark vf x).fic.armed } := by
  unfold ficForward
  split <;> rfl

/-- The mark that stands armed at the adoption point. -/
def State.forwardArmed (s : State) : Option ArmedMark :=
  if armsLocal (decide (s.vcm.valve = .dark)) s.forwardReported then
    some
      { m := s.forwardReported.localInstant s.now s.forwardReported.alphaTarget
        alphaT := s.forwardReported.alphaTarget, placing := .localVoltage }
  else s.fic.armed

theorem ficForward_armed (s : State) :
    (ficForward (decide (s.vcm.valve = .dark)) s.now s.forwardReported).fic.armed = s.forwardArmed := by
  unfold ficForward State.forwardArmed
  split <;> rfl

theorem forwardStarted_eq (s : State) : forwardStarted s = { s.forwardReported with
    fic := { s.forwardReported.fic with armed := s.forwardArmed }, pst := s.scheduledPst } := by
  rw [forwardStarted_reported, scheduleTest_eq, ficForward_frame, ficForward_armed]
  rfl

theorem alphaTarget_congr {y : State} (hCurrent : y.orh.current = x.orh.current) (hCfg : y.cfg = x.cfg)
    (hMargin : y.marginAngle = x.marginAngle) : y.alphaTarget = x.alphaTarget := by
  unfold State.alphaTarget State.alphaOrder
  rw [hCurrent, hCfg, hMargin]

/-- Neither the armed mark nor the PST is read by the target angle. -/
theorem forwardStarted_alphaTarget (s : State) : (forwardStarted s).alphaTarget = s.forwardReported.alphaTarget := by
  rw [forwardStarted_eq]
  rfl

theorem ownMarkNotGroup_iff (s : State) :
    s.ownMarkNotGroup = true ↔ ∃ own, s.ownReport = some own ∧ own.report.source ≠ .group := by
  unfold State.ownMarkNotGroup State.ownReport
  cases s.entry s.position with
  | none => simp
  | some x => cases h : x.held <;> simp [h]

theorem judgeSample_roll (sample : Nat) (s : State) : (judgeSample sample s).prl.roll = s.prl.roll := by
  unfold judgeSample
  split <;> rfl

theorem intervalPrl_roll (s : State) : s.intervalPrl.roll = s.prl.roll := by
  unfold State.intervalPrl
  split
  · rfl
  · split
    · exact judgeSample_roll ..
    · rfl

/-- A LOCAL mark is placed where none is armed, and over a FLYWHEEL mark that the voltage or a mark of the own not placed
by the group overrides. -/
theorem armsLocal_iff (hNone : s.fic.deferral = none) : armsLocal (decide (s.vcm.valve = .dark)) s.forwardReported = true
    ↔ s.fic.armed = none ∨ ∃ a, s.fic.armed = some a ∧ a.placing = .flywheel
      ∧ (s.vcm.valve = .dark ∨ ∃ own, s.ownReport = some own ∧ own.report.source ≠ .group) := by
  have hOwn : s.forwardReported.ownMarkNotGroup = s.ownMarkNotGroup := by
    have hEntry : s.forwardReported.entry s.forwardReported.position = s.entry s.position := by
      unfold State.entry
      exact congrArg (fun roll => itemAt roll s.position) (intervalPrl_roll s)
    unfold State.ownMarkNotGroup
    rw [hEntry]
  unfold armsLocal
  rw [show s.forwardReported.fic.armed = s.fic.armed from rfl, show s.forwardReported.fic.deferral = none from hNone, hOwn]
  cases s.fic.armed with
  | none => simp
  | some a => simp [← ownMarkNotGroup_iff]

/-- A deferral that waits arms nothing. -/
theorem forwardArmed_deferred (h : s.fic.deferral.isSome = true) (hArmed : s.fic.armed = none) : s.forwardArmed = none := by
  unfold State.forwardArmed armsLocal
  rw [show s.forwardReported.fic.armed = none from hArmed, show s.forwardReported.fic.deferral = s.fic.deferral from rfl,
    hArmed]
  obtain ⟨a, ha⟩ := Option.isSome_iff_exists.1 h
  rw [ha]
  rfl

/-! ### The adoption (R138) -/

/-- What an adoption leaves of a state. -/
theorem adopt_keeps (z : State) : (adopt z).vcm = z.vcm ∧ (adopt z).prl = z.prl ∧ (adopt z).pmn = z.pmn
    ∧ (adopt z).lvt = z.lvt ∧ (adopt z).filter = z.filter ∧ (adopt z).blockAsserted = z.blockAsserted
    ∧ (adopt z).firing = z.firing ∧ (adopt z).fic.deferral = z.fic.deferral := by
  have h := adopt_run (s := z) (List.Subset.refl _)
  exact ⟨h.vcm, h.prl, h.pmn, h.lvt, h.filter, h.blockAsserted, h.firing, h.deferral⟩

theorem adopt_current (h : z.orh.pending = some o) : (adopt z).orh.current = o := by
  rw [adopt_eq h, forceBlock_current, recomputeArmed_frame, State.setFic_orh, stcAdopt_orh]
  rfl

/-- A LOCAL mark is recomputed as a LOCAL mark. -/
theorem adopt_local (hPending : z.orh.pending = some o) (hArmed : z.fic.armed = some a) (hPlacing : a.placing = .localVoltage)
    (hVf : z.vcm.vf = some t) :
    ∃ b, (adopt z).fic.armed = some b ∧ b.placing = .localVoltage ∧ b.alphaT = (adopt z).alphaTarget := by
  obtain ⟨-, -, -, hVcm, -, hStcArmed, -⟩ := stcAdopt_keeps (z.ordered o)
  have hStcArmed : (stcAdopt (z.ordered o)).fic.armed = some a := hStcArmed.trans hArmed
  have hStcVf : (stcAdopt (z.ordered o)).vcm.vf = some t := (congrArg Vcm.vf hVcm).trans hVf
  rw [adopt_eq hPending, forceBlock_alphaTarget, recomputeArmed_alphaTarget, forceBlock_frame, State.setOrh_fic,
    recomputeArmed_local hStcArmed hPlacing hStcVf]
  exact ⟨_, rfl, rfl, rfl⟩

/-! ### The quorum completed -/

/-- The state at `t` with a FWD joined. -/
def State.withForward (s : State) (t : Instant) (n : Nat) : State :=
  (s.advance t).setVcm (s.vcm.withForward n (s.advance t).clock)

theorem withForward_now (s : State) (t : Instant) (n : Nat) : (s.withForward t n).now = t := State.advance_now s t

theorem forward_entered (hSupplied : s.supplied = true) (hSet : s.stc.state ≠ .unset) (hn : 1 ≤ n ∧ n ≤ s.cfg.levels)
    (hHeard : s.levelState n ≠ some .silent)
    (hValve : s.vcm.valve = .dark ∨ s.vcm.valve = .reverse ∨ s.vcm.valve = .recovering)
    (hQuorum : s.lvt.qfEff ≤ (insertLevel n s.vcm.fwdSet).length) : exec (.fwdIndication t n) s
      = .next (settleDeferral (adopt (forwardStarted (s.withForward t n)))) := by
  have hTest : testForward (s.withForward t n) = enterForward (s.withForward t n) := by
    unfold testForward
    rw [if_neg (show ¬ (s.withForward t n).vcm.fwdSet.length < (s.withForward t n).lvt.qfEff from Nat.not_lt.2 hQuorum),
      show (s.withForward t n).vcm.valve = s.vcm.valve from rfl]
    obtain h | h | h := hValve <;> rw [h]
  exact (fwd_joins hSupplied hSet hn hHeard).trans (congrArg Host.Outcome.next hTest)

/-- The VCM of a valve that has gone FORWARD at the completed quorum. -/
def State.forwardVcm (s : State) (t : Instant) (n : Nat) (gamma : Option Nat) : Vcm :=
  { s.vcm with
    valve := .forward, fwdSet := [], revSet := [], roster := insertLevel n s.vcm.fwdSet
    vf := some t, fwdInterval := s.vcm.vf.map (fun old => (t - old).toNat)
    gamma := match gamma with
      | none => s.vcm.gamma
      | some g => some { angle := g, instant := t }
    inactivity := some (s.advance t).clock, pulseInDark := false
    failureInCycle := s.isShort gamma || s.vcm.failureInCycle
    shortCount := if s.isShort gamma then min 65535 (s.vcm.shortCount + 1) else s.vcm.shortCount }

/-- gamma at the completed quorum. -/
def State.gammaAt (s : State) (t : Instant) : Option Nat :=
  if s.vcm.valve = .recovering then s.vcm.e.map fun e => min 36000 (cdegAt s.prl.tEst (t - e).toNat) else none

theorem withForward_gamma (s : State) (t : Instant) (n : Nat) : (s.withForward t n).entryGamma = s.gammaAt t := by
  unfold State.entryGamma State.gammaNow
  rw [withForward_now]
  rfl

theorem withForward_vcm (s : State) (t : Instant) (n : Nat) :
    (forwardStarted (s.withForward t n)).vcm = s.forwardVcm t n (s.gammaAt t) := by
  have hNow : (s.withForward t n).forwarded.now = t := withForward_now s t n
  have hFrame : (forwardStarted (s.withForward t n)).vcm
      = ((s.withForward t n).forwarded.measured (s.withForward t n).entryGamma).vcm := by rw [forwardStarted_eq]; rfl
  rw [hFrame, withForward_gamma]
  unfold State.measured State.forwardVcm
  rw [hNow]
  generalize s.gammaAt t = gamma
  show ({ (s.withForward t n).vcm.forward (s.withForward t n).now with
    gamma := _, failureInCycle := _, shortCount := _ } : Vcm) = _
  rw [withForward_now]
  rfl

theorem withForward_prl (s : State) (t : Instant) (n : Nat) : (forwardStarted (s.withForward t n)).prl
    = match s.vcm.vf with
      | none => s.prl
      | some old => if s.prl.localRun = 3 then (judgeSample (t - old).toNat s).prl else s.prl := by
  have hFrame : (forwardStarted (s.withForward t n)).prl = (s.withForward t n).intervalPrl := by rw [forwardStarted_eq]; rfl
  rw [hFrame]
  unfold State.intervalPrl
  rw [withForward_now]
  have hSample (sample : Nat) : (judgeSample sample (s.withForward t n)).prl = (judgeSample sample s).prl := by
    unfold judgeSample
    rw [show (s.withForward t n).prl = s.prl from rfl]
    split <;> rfl
  simp only [hSample]
  rfl

/-- Everything but the VCM, the PRL and the PST at the adoption point. -/
theorem withForward_rest {gamma : Option Nat} (hGamma : s.gammaAt t = gamma) (hz : z = forwardStarted (s.withForward t n)) :
    z = { s.advance t with
      vcm := z.vcm, prl := z.prl, pst := (s.withForward t n).scheduledPst
      stc := { s.stc with darkTimer := if s.vcm.valve = .dark then none else s.stc.darkTimer }
      pmn := { s.pmn with
        gammaMin := lowestGamma gamma s.pmn.gammaMin
        cfHold := s.isShort gamma || s.pmn.cfHold
        commutationFailure := if s.isShort gamma then
            s.pmn.commutationFailure.hand (s.advance t).clock s.cfg.cfAssert s.cfg.cfRelease true
          else s.pmn.commutationFailure }
      fic := { s.fic with
        armed := (s.withForward t n).forwardArmed
        seqCounter := if s.isShort gamma then s.fic.seqCounter + 1 else s.fic.seqCounter
        advanceCount := if s.isShort gamma ∧ s.orh.current.mode = .inverter then s.cfg.ncf else s.fic.advanceCount }
      lineA := if s.isShort gamma then
          s.lineA.place (s.advance t).clock (producedCopy (.event .recoveryShort) (s.advance t)) else s.lineA
      lineB := if s.isShort gamma then
          s.lineB.place (s.advance t).clock (producedCopy (.event .recoveryShort) (s.advance t)) else s.lineB } := by
  have hGamma' : (s.withForward t n).entryGamma = gamma := (withForward_gamma s t n).trans hGamma
  have hFrame := hz.trans (forwardStarted_eq _)
  unfold State.forwardReported State.measured at hFrame
  rw [hGamma'] at hFrame
  rw [hFrame]
  rfl

/-! ### A deferral at the adoption point (R108) -/

theorem settleDeferral_none (h : x.fic.deferral = none) : settleDeferral x = x := by
  unfold settleDeferral
  rw [h]

/-- In RUNNING with the block line released a deferral waits on. -/
theorem settleDeferral_running (hState : x.stc.state = .running) (hBlock : x.blockAsserted = false) :
    settleDeferral x = x := by
  have hNoBypass : x.bypassFires = false := by
    unfold State.bypassFires
    rw [hState]
    rfl
  unfold settleDeferral
  rw [hNoBypass, permitted_of_running hState hBlock]
  split <;> rfl

theorem settleDeferral_bypass (h : x.fic.deferral = some a) (hBypass : x.bypassFires = true) :
    settleDeferral x = takeMark .bypass a x.isForward (bypassFiring (clearDeferral x)) := by
  unfold settleDeferral
  simp only [h]
  exact if_pos hBypass

theorem settleDeferral_no (h : x.fic.deferral = some a) (hBypass : x.bypassFires = false)
    (hForbidden : x.firingPermitted = false) : settleDeferral x = takeMark .no a x.isForward (clearDeferral x) := by
  unfold settleDeferral
  simp only [h, hBypass, hForbidden]
  rfl

theorem adopt_stc (h : z.orh.pending = some o) : (adopt z).stc = (stcAdopt (z.ordered o)).stc := by
  rw [adopt_eq h, forceBlock_frame, recomputeArmed_frame]
  rfl

theorem adopt_armed_none (hArmed : z.fic.armed = none) : (adopt z).fic.armed = none := by
  cases hPending : z.orh.pending with
  | none =>
    rw [adopt_none hPending]
    exact hArmed
  | some o =>
    obtain ⟨-, -, -, -, -, hStcArmed, -⟩ := stcAdopt_keeps (z.ordered o)
    have hNone : (stcAdopt (z.ordered o)).fic.armed = none := hStcArmed.trans hArmed
    rw [adopt_eq hPending, forceBlock_frame, recomputeArmed_none hNone]
    exact hNone

/-- Where RUNNING goes at the adoption of an order. -/
theorem adopt_running (hState : z.stc.state = .running) (hPending : z.orh.pending = some o) : (adopt z).stc.state =
    match o.blockState with
    | .deblock => .running
    | .bypass => if z.inPairOf o then .bypassing else z.fromFiring
    | .block => z.fromFiring := by
  rw [adopt_stc hPending, (stcAdopt_follows (z.ordered o)).1]
  unfold State.followed
  rw [show (z.ordered o).stc.state = .running from hState]
  rfl

theorem fromFiring_leaves (s : State) :
    s.fromFiring = .tripped ∨ s.fromFiring = .listening ∨ s.fromFiring = .synced := by
  unfold State.fromFiring
  split
  · exact .inl rfl
  · split
    · exact .inr (.inl rfl)
    · exact .inr (.inr rfl)

theorem stcSynced_outside (hKept : x.fromSynced x.orh.current = .synced) :
    x.stcSynced.state = .tripped ∨ x.stcSynced.state = .listening ∨ x.stcSynced.state = .synced := by
  unfold State.stcSynced
  by_cases hLost : x.stc.syncLost = true
  · rw [if_pos hLost]
    unfold Stc.listening
    simp only []
    split
    · exact .inl rfl
    · exact .inr (.inl rfl)
  · rw [if_neg hLost]
    by_cases hOver : x.overConsumed = true
    · rw [if_pos hOver]
      exact .inl rfl
    · rw [if_neg hOver]
      exact .inr (.inr hKept)

/-- With an order that keeps SYNCED a mark taken outside RUNNING and BYPASSING leads into neither. -/
theorem judgeMark_outside {placing : Placing} {refHeard : Bool}
    (h : x.stc.state = .tripped ∨ x.stc.state = .listening ∨ x.stc.state = .synced)
    (hKept : x.fromSynced x.orh.current = .synced) : (judgeMark placing refHeard x).stc.state = .tripped
      ∨ (judgeMark placing refHeard x).stc.state = .listening ∨ (judgeMark placing refHeard x).stc.state = .synced := by
  obtain h | h | h := h
  · rw [judgeMark_still (.inr h)]
    exact .inl h
  · rw [judgeMark_listening h]
    by_cases hCounts : x.markCounts placing refHeard
    · rw [judgeListening_counts hCounts]
      split
      · rw [enterSynced_stc (s := x.setStc { x.stc with syncCount := x.stc.syncCount + 1 }) h]
        exact stcSynced_outside hKept
      · exact .inr (.inl h)
    · rw [judgeListening_not hCounts]
      exact .inr (.inl h)
  · obtain ⟨hStays, -⟩ | hLeaves := judgeMark_synced (placing := placing) (refHeard := refHeard) h
    · exact .inr (.inr hStays)
    · rw [List.mem_cons, List.mem_singleton] at hLeaves
      exact hLeaves.symm.imp_right .inl

/-- What an entry into FORWARD with a deferral waiting leaves at its adoption point. -/
structure ForwardWaits (a : ArmedMark) (n : Nat) (t : Instant) (s z : State) : Prop where
  vcm : z.vcm = s.forwardVcm t n (s.gammaAt t)
  deferral : z.fic.deferral = some a
  armed : z.fic.armed = none
  firing : z.firing = []
  state : z.stc.state = .running
  block : z.blockAsserted = false
  now : z.now = t
  entry : (z.entry z.position).isSome = true
  cfg : z.cfg = s.cfg
  pending : z.orh.pending = s.orh.pending
  pair : ∀ o, z.inPairOf o = s.inPairOf o

theorem forward_waits (hDeferral : s.fic.deferral = some a) (hOk : DeferralOk s)
    (hEntry : (s.entry s.position).isSome = true) : ForwardWaits a n t s (forwardStarted (s.withForward t n)) := by
  obtain ⟨hArmed, hState, hBlock⟩ := hOk (by rw [hDeferral]; rfl)
  have hVcm := withForward_vcm s t n
  have hRoll : (forwardStarted (s.withForward t n)).prl.roll = s.prl.roll := by
    rw [forwardStarted_eq]
    exact intervalPrl_roll (s.withForward t n)
  have hUnarmed : (s.withForward t n).forwardArmed = none :=
    forwardArmed_deferred (s := s.withForward t n) (by rw [show (s.withForward t n).fic = s.fic from rfl, hDeferral]; rfl)
      hArmed
  have hRest := withForward_rest (s := s) (t := t) (n := n) rfl rfl
  rw [hUnarmed] at hRest
  generalize forwardStarted (s.withForward t n) = z at *
  have hEntryZ : z.entry z.position = s.entry s.position := by
    have hPosition : z.position = s.position := by
      rw [hRest]
      rfl
    unfold State.entry
    rw [hPosition, hRoll]
  refine ⟨hVcm, ?_, ?_, ?_, ?_, ?_, ?_, hEntryZ ▸ hEntry, ?_, ?_, fun o => ?_⟩
  · rw [hRest]
    exact hDeferral
  · rw [hRest]
  · rw [hRest]
    rfl
  · rw [hRest]
    exact hState
  · rw [hRest]
    exact hBlock
  · refine Eq.trans ?_ (State.advance_now s t)
    rw [hRest]
    rfl
  · rw [hRest]
    rfl
  · rw [hRest]
    rfl
  · rw [hRest]
    rfl

/-- The deferral waits on while the order keeps RUNNING. -/
theorem ForwardWaits.waits (h : ForwardWaits a n t s z)
    (hOrder : s.orh.pending = none ∨ ∃ o, s.orh.pending = some o ∧ o.blockState = .deblock)
    (hu : u = settleDeferral (adopt z)) : u.fic.deferral = some a ∧ u.fic.armed = none ∧ u.firing = []
      ∧ u.vcm = z.vcm ∧ u.stc.state = .running := by
  obtain ⟨hVcm, -, -, -, -, hBlock, hFiring, hDeferral⟩ := adopt_keeps z
  have hState : (adopt z).stc.state = .running := by
    obtain hNone | ⟨o, hPending, hDeblock⟩ := hOrder
    · rw [adopt_none (h.pending.trans hNone)]
      exact h.state
    · rw [adopt_running h.state (h.pending.trans hPending), hDeblock]
  rw [hu, settleDeferral_running hState (hBlock.trans h.block)]
  exact ⟨hDeferral.trans h.deferral, adopt_armed_none h.armed, hFiring.trans h.firing, hVcm, hState⟩

theorem adopt_entry (z : State) : (adopt z).entry (adopt z).position = z.entry z.position := by
  unfold State.entry
  rw [(adopt_keeps z).2.1, (adopt_run (List.Subset.refl _)).position]

theorem adopt_inPairOf (z : State) (o : Order) : (adopt z).inPairOf o = z.inPairOf o := by
  have hRun := adopt_run (s := z) (List.Subset.refl _)
  unfold State.inPairOf
  rw [hRun.position, hRun.group]

/-- An order that bypasses the own pair ends the deferral with a bypass firing. -/
theorem ForwardWaits.bypasses (h : ForwardWaits a n t s z) (hPending : s.orh.pending = some o)
    (hBypass : o.blockState = .bypass) (hPair : s.inPairOf o = true) (hu : u = settleDeferral (adopt z)) :
    u.ownMarkIs t .bypass a.placing.source ∧ u.stc.state = .bypassing ∧ u.fic.deferral = none
      ∧ u.firing = [pulseToAll .bypass t s.cfg.levels] ∧ u.vcm.valve = .conducting ∧ u.vcm.vf = some t := by
  obtain ⟨hVcm, -, -, -, -, hBlock, hFiring, hDeferral⟩ := adopt_keeps z
  have hPending := h.pending.trans hPending
  have hRun := adopt_run (s := z) (List.Subset.refl _)
  have hState : (adopt z).stc.state = .bypassing := by
    rw [adopt_running h.state hPending, hBypass]
    exact if_pos ((h.pair o).trans hPair)
  have hInPair : (adopt z).inPair = true := by
    unfold State.inPair
    rw [adopt_current hPending, adopt_inPairOf, h.pair]
    exact hPair
  have hFires : (adopt z).bypassFires = true := bypassFires_iff.2 ⟨hState, hInPair, hBlock.trans h.block⟩
  have hForward : (adopt z).vcm.valve = .forward := by
    rw [hVcm, h.vcm]
    rfl
  have hMade := bypassMade (s := clearDeferral (adopt z)) (.inr hState)
    ((congrArg Option.isSome (adopt_entry z)).trans h.entry) a (adopt z).isForward
  rw [← settleDeferral_bypass (hDeferral.trans h.deferral) hFires, ← hu] at hMade
  have hNow : (clearDeferral (adopt z)).now = t := hRun.now.trans h.now
  have hOwn := hMade.own
  rw [hNow] at hOwn
  refine ⟨hOwn, (hMade.stays (.inl (hForward ▸ nofun))).trans hState, congrArg (fun p => p.1) hMade.beside,
    hMade.firing.trans ?_, (hMade.conducts hForward).1, ?_⟩
  · rw [hNow]
    show (adopt z).firing ++ [pulseToAll .bypass t (adopt z).cfg.levels] = _
    rw [hFiring, h.firing, hRun.cfg, h.cfg]
    rfl
  · rw [hMade.vcm, pulsedVcm_forward (s := clearDeferral (adopt z)) hForward]
    show (adopt z).vcm.vf = some t
    rw [hVcm, h.vcm]
    rfl

/-- An order that ends RUNNING otherwise ends the deferral with NO. -/
theorem ForwardWaits.forbids (h : ForwardWaits a n t s z) (hPending : s.orh.pending = some o)
    (hOrder : o.blockState = .block ∨ (o.blockState = .bypass ∧ s.inPairOf o = false))
    (hu : u = settleDeferral (adopt z)) : u.ownMarkIs t .no a.placing.source
      ∧ (u.stc.state = .tripped ∨ u.stc.state = .listening ∨ u.stc.state = .synced) ∧ u.fic.deferral = none
      ∧ u.firing = [] ∧ u.vcm.valve = .forward ∧ u.vcm.vf = some t := by
  obtain ⟨hVcm, -, -, -, -, hBlock, hFiring, hDeferral⟩ := adopt_keeps z
  have hPending := h.pending.trans hPending
  have hRun := adopt_run (s := z) (List.Subset.refl _)
  have hState : (adopt z).stc.state = z.fromFiring := by
    rw [adopt_running h.state hPending]
    obtain hBlocked | ⟨hBypass, hPair⟩ := hOrder
    · rw [hBlocked]
    · rw [hBypass]
      exact if_neg (Bool.eq_false_iff.1 ((h.pair o).trans hPair))
  have hOutside : (adopt z).stc.state = .tripped ∨ (adopt z).stc.state = .listening ∨ (adopt z).stc.state = .synced := by
    rw [hState]
    exact fromFiring_leaves z
  have hNotBypass : (adopt z).bypassFires = false := Bool.eq_false_iff.2 fun hFires => by
    have hBypassing := (bypassFires_iff.1 hFires).1
    rw [hBypassing] at hOutside
    exact hOutside.elim nofun fun h => h.elim nofun nofun
  have hForbidden : (adopt z).firingPermitted = false := Bool.eq_false_iff.2 fun hPermitted => by
    obtain ⟨hRunning, -⟩ := running_of_permitted hNotBypass hPermitted
    rw [hRunning] at hOutside
    exact hOutside.elim nofun fun h => h.elim nofun nofun
  have hForward : (adopt z).vcm.valve = .forward := by
    rw [hVcm, h.vcm]
    rfl
  have hNow : (clearDeferral (adopt z)).now = t := hRun.now.trans h.now
  have hNot : ¬ (clearDeferral (adopt z)).markAdopts := fun hBoth => nomatch hForward.symm.trans hBoth.1
  have hKept : (adopt z).fromSynced (adopt z).orh.current = .synced := by
    rw [adopt_current hPending]
    refine fromSynced_kept (.inr ?_)
    obtain hBlocked | ⟨hBypass, hPair⟩ := hOrder
    · exact ⟨hBlocked ▸ nofun, hBlocked ▸ nofun⟩
    · exact ⟨hBypass ▸ nofun, fun _ => (adopt_inPairOf z o).trans ((h.pair o).trans hPair)⟩
  rw [settleDeferral_no (hDeferral.trans h.deferral) hNotBypass hForbidden] at hu
  obtain ⟨hOwn, -, hCleared, hMarkFiring⟩ := takeMark_shows (s := clearDeferral (adopt z)) (y := clearDeferral (adopt z))
    (fired := .no) (a := a) (wasForward := (adopt z).isForward) rfl rfl hNow
    ((congrArg Option.isSome (adopt_entry z)).trans h.entry)
  obtain ⟨-, -, -, -, -, hMarkVcm, -⟩ := takeMark_keeps hu
  obtain ⟨tEst, -, hStc⟩ := takeMark_stc (fired := .no) (a := a) (wasForward := (adopt z).isForward) hNot
  rw [← hu] at hOwn hCleared hMarkFiring hStc
  have hJudged := judgeMark_outside (placing := a.placing) (refHeard := (clearDeferral (adopt z)).referenceHeard)
    (x := { clearDeferral (adopt z) with prl := { (clearDeferral (adopt z)).prl with tEst := tEst } }) hOutside hKept
  rw [hStc, hMarkVcm]
  refine ⟨hOwn, hJudged, hCleared, hMarkFiring.trans (hFiring.trans h.firing), hForward, ?_⟩
  show (adopt z).vcm.vf = some t
  rw [hVcm, h.vcm]
  rfl

/-! ### The entry with no deferral waiting -/

/-- The PST at the entry, by the survey and its window. -/
theorem scheduledPst_idle (h : s.cmu.executing = none) : s.scheduledPst = s.pst := by
  unfold State.scheduledPst
  rw [h]

theorem scheduledPst_survey {v : SurveyRecord} {w : AckWindow} {k : Nat} (h : s.cmu.executing = some v)
    (hWindow : s.pst.window = some w) (hKind : w.kind = .survey k) :
    s.scheduledPst = { s.pst with surveyTest := none } := by
  have hWithdrawn : s.pst.window ≠ withoutSurveyWindow s.pst.window := by
    rw [hWindow]
    unfold withoutSurveyWindow
    simp only [hKind]
    nofun
  unfold State.scheduledPst
  simp only [h, if_pos hWithdrawn]

theorem scheduledPst_acks {v : SurveyRecord} (h : s.cmu.executing = some v)
    (hKind : ∀ w ∈ s.pst.window, w.kind = .main ∨ w.kind = .pvf) :
    s.scheduledPst = { s.pst with surveyTest := some { level := v.next, vf := s.now } } := by
  have hSame : ¬ s.pst.window ≠ withoutSurveyWindow s.pst.window := fun h => h (withoutSurveyWindow_acks hKind).symm
  unfold State.scheduledPst
  simp only [h, if_neg hSame]

/-- The LOCAL mark, as it stands at the adoption point. -/
theorem forwardArmed_local (h : armsLocal (decide (s.vcm.valve = .dark)) s.forwardReported = true) :
    s.forwardArmed = some
      { m := instantPlus s.now (ticksAt (forwardStarted s).prl.tEst (forwardStarted s).alphaTarget)
        alphaT := (forwardStarted s).alphaTarget, placing := .localVoltage } := by
  rw [forwardStarted_alphaTarget, show (forwardStarted s).prl = s.forwardReported.prl by rw [forwardStarted_eq]]
  exact if_pos h

/-- Settles O35: the entry into FORWARD up to its adoption point, the adoption, and the deferral. -/
theorem forwardEntered : Obligations.ForwardEntered := by
  intro t n s hSupplied hSet hLow hHigh hHeard hValve hQuorum r gamma short event placedLocal
  have hTaken := forward_entered (t := t) hSupplied hSet ⟨hLow, hHigh⟩ hHeard hValve hQuorum
  have hGamma : s.gammaAt t = gamma := rfl
  have hVcm := withForward_vcm s t n
  refine ⟨fun hNone => ?_, fun a hDeferral hOk hEntry => ?_⟩
  · have hRest := withForward_rest (n := n) hGamma rfl
    have hArms : armsLocal (decide ((s.withForward t n).vcm.valve = .dark)) (s.withForward t n).forwardReported = true
        ↔ placedLocal := armsLocal_iff (s := s.withForward t n) hNone
    have hLocal := forwardArmed_local (s := s.withForward t n)
    have hKept (h : ¬ placedLocal) : (s.withForward t n).forwardArmed = s.fic.armed := if_neg (mt hArms.1 h)
    have hPrl := withForward_prl s t n
    have hVf : (forwardStarted (s.withForward t n)).vcm.vf = some t := by
      rw [hVcm]
      rfl
    rw [withForward_now] at hLocal
    generalize forwardStarted (s.withForward t n) = z at *
    obtain ⟨hAVcm, hAPrl, hAPmn, hALvt, hAFilter, hABlock, hAFiring, hADeferral⟩ := adopt_keeps z
    have hZDeferral : z.fic.deferral = none := by
      rw [hRest]
      exact hNone
    have hZPending : z.orh.pending = s.orh.pending := by
      rw [hRest]
      rfl
    have hZArmed : z.fic.armed = (s.withForward t n).forwardArmed := by rw [hRest]
    rw [settleDeferral_none (hADeferral.trans hZDeferral)] at hTaken
    refine ⟨adopt z, hTaken, hAVcm.trans hVcm, hAPrl.trans hPrl, hAPmn.trans ?_, hALvt.trans ?_, hAFilter.trans ?_,
      hABlock.trans ?_, hAFiring.trans ?_, hADeferral.trans hZDeferral, fun hPlaced => ?_, fun hPending => ?_,
      fun o hPending => adopt_current (hZPending.trans hPending)⟩
    · rw [hRest, lowestGamma_eq]
      rfl
    · rw [hRest]
      rfl
    · rw [hRest]
      rfl
    · rw [hRest]
      rfl
    · rw [hRest]
      rfl
    · have hArmed := hZArmed.trans (hLocal (hArms.2 hPlaced))
      cases hPending : s.orh.pending with
      | none =>
        rw [adopt_none (hZPending.trans hPending)]
        exact ⟨_, hArmed, rfl, rfl, fun _ => rfl⟩
      | some o =>
        obtain ⟨b, hb, hPlacing, hAlpha⟩ := adopt_local (hZPending.trans hPending) hArmed rfl hVf
        exact ⟨b, hb, hPlacing, hAlpha, nofun⟩
    · rw [adopt_none (hZPending.trans hPending)]
      refine ⟨?_, ?_, ?_, fun hNot => hZArmed.trans (hKept hNot), ?_, ?_, ?_, fun hIdle => ?_, fun v hExec =>
        ⟨fun w k hWindow hKind => ?_, fun hKind => ?_⟩⟩
      · rw [hRest]
      · rw [hRest]
        rfl
      · rw [hRest]
      · rw [hRest]
        rfl
      · rw [hRest]
        rfl
      · rw [hRest]
        rfl
      · rw [hRest]
        exact scheduledPst_idle (s := s.withForward t n) hIdle
      · rw [hRest]
        exact scheduledPst_survey (s := s.withForward t n) hExec hWindow hKind
      · rw [hRest]
        refine (scheduledPst_acks (s := s.withForward t n) hExec hKind).trans ?_
        rw [withForward_now]
        rfl
  · have hWaits := forward_waits (t := t) (n := n) hDeferral hOk hEntry
    rw [hTaken]
    generalize forwardStarted (s.withForward t n) = z at *
    have hForward : z.vcm.valve = .forward := congrArg Vcm.valve hVcm
    have hRoster : z.vcm.roster = insertLevel n s.vcm.fwdSet := congrArg Vcm.roster hVcm
    have hZVf : z.vcm.vf = some t := congrArg Vcm.vf hVcm
    refine ⟨settleDeferral (adopt z), rfl, ?_, fun hOrder => ?_, fun o hPending hBypass hPair => ?_,
      fun o hPending hOrder => ?_⟩
    · cases hPending : s.orh.pending with
      | none =>
        obtain ⟨-, -, -, hKept, -⟩ := hWaits.waits (.inl hPending) rfl
        rw [hKept, hZVf]
      | some o =>
        cases hBlock : o.blockState with
        | deblock =>
          obtain ⟨-, -, -, hKept, -⟩ := hWaits.waits (.inr ⟨o, hPending, hBlock⟩) rfl
          rw [hKept, hZVf]
        | block => exact (hWaits.forbids hPending (.inl hBlock) rfl).2.2.2.2.2
        | bypass =>
          cases hPair : s.inPairOf o with
          | true => exact (hWaits.bypasses hPending hBlock hPair rfl).2.2.2.2.2
          | false => exact (hWaits.forbids hPending (.inr ⟨hBlock, hPair⟩) rfl).2.2.2.2.2
    · obtain ⟨hKeeps, hUnarmed, hFiring, hKept, hState⟩ := hWaits.waits hOrder rfl
      rw [hKept]
      exact ⟨hKeeps, hUnarmed, hFiring, hForward, hRoster, hState⟩
    · obtain ⟨hOwn, hState, hCleared, hFiring, hConducting, -⟩ := hWaits.bypasses hPending hBypass hPair rfl
      exact ⟨hOwn, hState, hCleared, hFiring, hConducting⟩
    · obtain ⟨hOwn, hState, hCleared, hFiring, hStays, -⟩ := hWaits.forbids hPending hOrder rfl
      have hNeither : (settleDeferral (adopt z)).stc.state ≠ .running ∧ (settleDeferral (adopt z)).stc.state ≠ .bypassing := by
        obtain h | h | h := hState <;> rw [h] <;> exact ⟨nofun, nofun⟩
      exact ⟨hOwn, hNeither.1, hNeither.2, hCleared, hFiring, hStays⟩

end
end Sys2Proof.Machine
end

