-- ==== Sys2Proof/Proofs/Assertions.lean ====
section
/-! PROOFS. The assertion of the block line: the station leaves RUNNING and BYPASSING, and a deferral that waits ends
with NO, in either order (R11 to R13, R108, R122). -/

namespace Sys2Proof.Machine

section
variable {s u x : State} {c y : Stc} {above : Bool} {placing : Placing} {refHeard : Bool} {a : ArmedMark} {t : Instant}
  {K : List Tag} {fired : Fired} {wasForward : Bool}

/-! ### Leaving RUNNING and BYPASSING with the block line asserted -/

/-- The block line is asserted, no survey executes, and no train runs. -/
structure State.Blocked (s : State) : Prop where
  block : s.blockAsserted = true
  idle : s.cmu.executing = none
  stopped : s.pst.train = .stopped

theorem moved_stopped (h : s.pst.train = .stopped) (new : StationState) : s.moved new = s.setStc (s.stc.entered new) := by
  have hTrain : trainAfter s.stc.state new s.pst.train = s.pst.train := by
    rw [h]
    rfl
  unfold State.moved
  rw [hTrain]
  rfl

theorem enterTripped_stopped (h : s.stc.state ≠ .synced) (hStopped : s.pst.train = .stopped) :
    enterTripped s = s.setStc s.stc.tripped := by
  unfold enterTripped
  simp only [enterState_moved h, moved_stopped hStopped]
  rfl

/-- STC's records once the station has left RUNNING or BYPASSING with the block line asserted (R11 to R13). -/
def State.leftStc (s : State) : Stc :=
  if s.overConsumed then s.stc.tripped
  else if s.stc.syncLost then s.stc.synced.listening false
  else { s.stc.synced with darkTimer := if s.vcm.valve = .dark then some s.clock else none }

theorem leaveFiring_blocked (h : s.Fires) (hBlocked : s.Blocked) : leaveFiring s = s.setStc s.leftStc := by
  obtain ⟨hBlock, hIdle, hStopped⟩ := hBlocked
  have hNot : s.stc.state ≠ .synced := by obtain h | h := h <;> rw [h] <;> nofun
  have hFrom : s.syncedFrom = s.setStc s.stc.synced := by
    unfold State.syncedFrom
    rw [moved_stopped hStopped]
    rfl
  unfold leaveFiring State.leftStc
  by_cases hOver : s.overConsumed = true
  · rw [if_pos hOver, if_pos hOver, enterTripped_stopped hNot hStopped]
  · rw [if_neg hOver, if_neg hOver, enterSynced_moved hNot, hFrom]
    by_cases hLost : s.stc.syncLost = true
    · rw [if_pos hLost, if_pos hLost, enterListening_synced (s := s.setStc s.stc.synced) rfl, aborted_idle]
      · rw [show (s.setStc s.stc.synced).overConsumed = false from Bool.eq_false_iff.2 hOver]
        rfl
      · exact hIdle
    · have hKept : (startDarkTimer (s.setStc s.stc.synced)).deblocked = .synced := by
        rw [startDarkTimer_deblocked]
        exact fromSynced_kept (.inl hBlock)
      have hStay (z : State) (hz : z.stc.state = .synced) : z.wentTo .synced = z := hz ▸ wentTo_self z
      rw [if_neg hLost, if_neg hLost, if_neg hOver, evaluateDeblock_wentTo, hKept]
      unfold startDarkTimer
      by_cases hDark : s.vcm.valve = .dark
      · rw [if_pos hDark, if_pos (show (s.setStc s.stc.synced).vcm.valve = .dark from hDark), hStay _ rfl]
        rfl
      · rw [if_neg hDark, if_neg (show (s.setStc s.stc.synced).vcm.valve ≠ .dark from hDark), hStay _ rfl]
        rfl

theorem stcBlockAsserted_fires (h : s.Fires) (hBlocked : s.Blocked) : stcBlockAsserted s = s.setStc s.leftStc :=
  (if_pos h).trans (leaveFiring_blocked h hBlocked)

theorem stcBlockAsserted_still (h : ¬ s.Fires) : stcBlockAsserted s = s := if_neg h

/-! ### An adoption with the block line asserted -/

/-- Where STC is after an adoption: as it was, or from RUNNING and BYPASSING into the other or out. -/
def State.AdoptedStc (s : State) (y : Stc) : Prop :=
  y = s.stc ∨ (s.Fires ∧ (y = s.leftStc ∨ ∃ new, (new = .running ∨ new = .bypassing) ∧ y = s.stc.entered new))

theorem stcAdopt_blocked (hBlocked : s.Blocked) : ∃ y, stcAdopt s = s.setStc y ∧ s.AdoptedStc y := by
  have hStays : s = s.setStc s.stc := rfl
  have hEnters (h : s.Fires) (new : StationState) : enterState new s = s.setStc (s.stc.entered new) := by
    have hNot : s.stc.state ≠ .synced := by obtain h | h := h <;> rw [h] <;> nofun
    rw [enterState_moved hNot, moved_stopped hBlocked.stopped]
  have hLeaves (h : s.Fires) : ∃ y, leaveFiring s = s.setStc y ∧ s.AdoptedStc y :=
    ⟨_, leaveFiring_blocked h hBlocked, .inr ⟨h, .inl rfl⟩⟩
  have hOther (h : s.Fires) (new : StationState) (hNew : new = .running ∨ new = .bypassing) :
      ∃ y, enterState new s = s.setStc y ∧ s.AdoptedStc y := ⟨_, hEnters h new, .inr ⟨h, .inr ⟨new, hNew, rfl⟩⟩⟩
  have hSame : ∃ y, s = s.setStc y ∧ s.AdoptedStc y := ⟨_, hStays, .inl rfl⟩
  unfold stcAdopt
  cases hState : s.stc.state with
  | unset | listening | tripped => exact hSame
  | synced =>
    have hStay : s.wentTo .synced = s := hState ▸ wentTo_self s
    have hDeblocked : s.deblocked = .synced := (if_pos hState).trans (fromSynced_kept (.inl hBlocked.block))
    simp only []
    rw [evaluateDeblock_wentTo, hDeblocked, hStay]
    exact hSame
  | running =>
    cases s.orh.current.blockState with
    | deblock => exact hSame
    | block => exact hLeaves (.inl hState)
    | bypass =>
      simp only []
      split
      · exact hOther (.inl hState) .bypassing (.inr rfl)
      · exact hLeaves (.inl hState)
  | bypassing =>
    cases s.orh.current.blockState with
    | deblock =>
      simp only []
      split
      · have hOver : s.overConsumed = true := ‹_›
        refine ⟨_, enterTripped_stopped (hState ▸ nofun) hBlocked.stopped, .inr ⟨.inr hState, .inl ?_⟩⟩
        exact (if_pos hOver).symm
      · exact hOther (.inr hState) .running (.inl rfl)
    | block => exact hLeaves (.inr hState)
    | bypass =>
      simp only []
      split
      · exact hSame
      · exact hLeaves (.inr hState)

/-! ### What a mark and the exit change -/

/-- What the exit and the hand-outs of a mark leave alone with the block line asserted. -/
def State.blockView (s : State) : Bool × Nat × Feeds × List Pulse × List FilterEntry × Vcm × Lvt × Cmu × Pst × Option Setup
    × List Instr :=
  (s.blockAsserted, s.clock, s.feeds, s.firing, s.filter, s.vcm, s.lvt, s.cmu, s.pst, s.stc.setup, s.pending)

theorem State.Blocked.of_view (h : s.Blocked) (hView : x.blockView = s.blockView) : x.Blocked where
  block := (congrArg (fun p => p.1) hView).trans h.block
  idle := (congrArg (fun p => p.2.2.2.2.2.2.2.1.executing) hView).trans h.idle
  stopped := (congrArg (fun p => p.2.2.2.2.2.2.2.2.1.train) hView).trans h.stopped

theorem overConsumed_of_view (hView : x.blockView = s.blockView) : x.overConsumed = s.overConsumed := by
  have hSetup : x.stc.setup = s.stc.setup := congrArg (fun p => p.2.2.2.2.2.2.2.2.2.1) hView
  have hLvt : x.lvt = s.lvt := congrArg (fun p => p.2.2.2.2.2.2.1) hView
  unfold State.overConsumed State.cfg
  rw [hSetup, hLvt]

theorem blockView_setStc (hSetup : y.setup = s.stc.setup) : (s.setStc y).blockView = s.blockView := by
  unfold State.blockView
  rw [State.setStc_stc, hSetup]
  rfl

theorem leftStc_setup (s : State) : s.leftStc.setup = s.stc.setup := by
  unfold State.leftStc
  split
  · rfl
  · split <;> rfl

theorem stcBlockAsserted_view (hBlocked : s.Blocked) : (stcBlockAsserted s).blockView = s.blockView := by
  by_cases h : s.Fires
  · rw [stcBlockAsserted_fires h hBlocked, blockView_setStc (leftStc_setup s)]
  · rw [stcBlockAsserted_still h]

theorem State.AdoptedStc.setup (h : s.AdoptedStc y) : y.setup = s.stc.setup := by
  obtain rfl | ⟨-, rfl | ⟨new, -, rfl⟩⟩ := h
  · rfl
  · exact leftStc_setup s
  · rfl

theorem adopt_blocked (hBlocked : s.Blocked) :
    (adopt s).blockView = s.blockView ∧ s.AdoptedStc (adopt s).stc := by
  cases hPending : s.orh.pending with
  | none =>
    rw [adopt_none hPending]
    exact ⟨rfl, .inl rfl⟩
  | some o =>
    have hOrdered : (s.ordered o).Blocked := ⟨hBlocked.block, hBlocked.idle, hBlocked.stopped⟩
    obtain ⟨y, hAdopt, hy⟩ := stcAdopt_blocked hOrdered
    have hRest (z : State) : (forceBlock (recomputeArmed z)).blockView = z.blockView := by
      rw [forceBlock_frame, recomputeArmed_frame]
      rfl
    rw [adopt_stc hPending, adopt_eq hPending, hRest, hAdopt, blockView_setStc hy.setup]
    exact ⟨rfl, hy⟩

theorem judgeMark_view (hBlocked : s.Blocked) : (judgeMark placing refHeard s).blockView = s.blockView := by
  have hOnly : s.setStc (judgeMark placing refHeard s).stc = judgeMark placing refHeard s := judgeMark_idle hBlocked.idle
  have hSetup : (judgeMark placing refHeard s).stc.setup = s.stc.setup :=
    (judgeMark_run (K := Tag.station) (List.Subset.refl _) placing refHeard).setup
  rw [← hOnly, blockView_setStc hSetup]

/-! ### STC through the mark and the exit -/

/-- STC's records have left `c`, from RUNNING or BYPASSING, by the exit alone. -/
structure Stc.LeftFrom (c : Stc) (above : Bool) (y : Stc) : Prop where
  state : y.state = if above then .tripped else if c.syncLost then .listening else .synced
  tripCount : y.tripCount = if above then count16 c.tripCount else c.tripCount
  runs : above = false → y.syncCount = 0 ∧ y.badRun = 0

/-- STC's records before the judgement of the mark: still `c` in what the exit reads, or left. -/
def Stc.Unjudged (c : Stc) (above : Bool) (y : Stc) : Prop :=
  ((y.state = .running ∨ y.state = .bypassing) ∧ y.tripCount = c.tripCount ∧ y.syncLost = c.syncLost
      ∧ y.goodRun = c.goodRun) ∨ c.LeftFrom above y

/-- STC's records once both the mark is judged and the exit made. -/
structure Stc.Gone (c : Stc) (above : Bool) (placing : Placing) (y : Stc) : Prop where
  tripped : above = true → y.state = .tripped
  below : above = false → y.state = .synced ∨ y.state = .listening
  synced : above = false → c.syncLost = false → placing.large = false → y.state = .synced
  listening : above = false → c.syncLost = true → c.goodRun < 7 → y.state = .listening
  tripCount : y.tripCount = if above then count16 c.tripCount else c.tripCount

/-- STC's records once the mark is judged: the exit is still to come, or made. -/
def Stc.Judged (c : Stc) (above : Bool) (placing : Placing) (y : Stc) : Prop :=
  ((y.state = .running ∨ y.state = .bypassing) ∧ y.tripCount = c.tripCount
      ∧ (c.syncLost = false → placing.large = false → y.syncLost = false)
      ∧ (c.syncLost = true → c.goodRun < 7 → y.syncLost = true)) ∨ c.Gone above placing y

theorem leftStc_state (s : State) : s.leftStc.state
    = if s.overConsumed then .tripped else if s.stc.syncLost then .listening else .synced := by
  unfold State.leftStc
  split
  · rfl
  · split <;> rfl

theorem leftStc_tripCount (s : State) :
    s.leftStc.tripCount = if s.overConsumed then count16 s.stc.tripCount else s.stc.tripCount := by
  unfold State.leftStc
  split
  · rfl
  · split <;> rfl

theorem leftStc_runs (h : s.overConsumed = false) : s.leftStc.syncCount = 0 ∧ s.leftStc.badRun = 0 := by
  unfold State.leftStc
  rw [h, if_neg Bool.false_ne_true]
  split <;> exact ⟨rfl, rfl⟩

theorem leftStc_leftFrom (hOver : s.overConsumed = above) (hTrip : s.stc.tripCount = c.tripCount)
    (hLost : s.stc.syncLost = c.syncLost) : c.LeftFrom above s.leftStc where
  state := by rw [leftStc_state, hOver, hLost]
  tripCount := by rw [leftStc_tripCount, hOver, hTrip]
  runs := fun h => leftStc_runs (hOver.trans h)

theorem leftStc_gone (hOver : s.overConsumed = above) (hTrip : s.stc.tripCount = c.tripCount)
    (hFalse : c.syncLost = false → placing.large = false → s.stc.syncLost = false)
    (hTrue : c.syncLost = true → c.goodRun < 7 → s.stc.syncLost = true) : c.Gone above placing s.leftStc where
  tripped := fun h => by
    rw [leftStc_state, hOver, h]
    rfl
  below := fun h => by
    rw [leftStc_state, hOver, h]
    cases s.stc.syncLost
    · exact .inl rfl
    · exact .inr rfl
  synced := fun h hLost hLarge => by
    rw [leftStc_state, hOver, h, hFalse hLost hLarge]
    rfl
  listening := fun h hLost hGood => by
    rw [leftStc_state, hOver, h, hTrue hLost hGood]
    rfl
  tripCount := by rw [leftStc_tripCount, hOver, hTrip]

/-- The exit without a mark before it. -/
theorem Stc.LeftFrom.not_fires (h : c.LeftFrom above s.stc) : ¬ s.Fires := by
  have hState := h.state
  rintro (hIn | hIn)
  all_goals
    rw [hIn] at hState
    split at hState
    · cases hState
    · split at hState <;> cases hState

theorem Stc.Gone.not_fires (h : c.Gone above placing s.stc) : ¬ s.Fires := by
  have hOut : s.stc.state = .tripped ∨ s.stc.state = .synced ∨ s.stc.state = .listening := by
    cases hAbove : above with
    | true => exact .inl (h.tripped hAbove)
    | false => exact .inr (h.below hAbove)
  rintro (hIn | hIn) <;> rw [hIn] at hOut <;> exact hOut.elim nofun fun h => h.elim nofun nofun

theorem stcBlockAsserted_judged (hBlocked : s.Blocked) (hOver : s.overConsumed = above)
    (h : c.Judged above placing s.stc) : c.Gone above placing (stcBlockAsserted s).stc := by
  obtain ⟨hFires, hTrip, hFalse, hTrue⟩ | hGone := h
  · rw [stcBlockAsserted_fires hFires hBlocked]
    exact leftStc_gone hOver hTrip hFalse hTrue
  · rw [stcBlockAsserted_still hGone.not_fires]
    exact hGone

theorem adopt_unjudged (hBlocked : s.Blocked) (hOver : s.overConsumed = above) (h : c.Unjudged above s.stc) :
    c.Unjudged above (adopt s).stc := by
  obtain hSame | ⟨hFires, hChange⟩ := (adopt_blocked hBlocked).2
  · rw [hSame]
    exact h
  · obtain ⟨-, hTrip, hLost, hGood⟩ | hLeft := h
    · obtain hLeaves | ⟨new, hNew, hEnters⟩ := hChange
      · rw [hLeaves]
        exact .inr (leftStc_leftFrom hOver hTrip hLost)
      · rw [hEnters]
        exact .inl ⟨hNew, hTrip, hLost, hGood⟩
    · exact absurd hFires hLeft.not_fires

theorem adopt_judged (hBlocked : s.Blocked) (hOver : s.overConsumed = above) (h : c.Judged above placing s.stc) :
    c.Judged above placing (adopt s).stc := by
  obtain hSame | ⟨hFires, hChange⟩ := (adopt_blocked hBlocked).2
  · rw [hSame]
    exact h
  · obtain ⟨-, hTrip, hFalse, hTrue⟩ | hGone := h
    · obtain hLeaves | ⟨new, hNew, hEnters⟩ := hChange
      · rw [hLeaves]
        exact .inr (leftStc_gone hOver hTrip hFalse hTrue)
      · rw [hEnters]
        exact .inl ⟨hNew, hTrip, hFalse, hTrue⟩
    · exact absurd hFires hGone.not_fires

theorem runsAfter_good_le (placing : Placing) (bad good : Nat) : (runsAfter placing bad good).2 ≤ good + 1 := by
  cases placing with
  | group d reference alpha e =>
    unfold runsAfter
    simp only []
    split
    · exact Nat.zero_le _
    · split
      · exact Nat.zero_le _
      · exact Nat.min_le_right ..
  | flywheel => exact Nat.zero_le _
  | localVoltage => exact Nat.zero_le _

theorem runsAfter_bad_le (placing : Placing) (bad good : Nat) : (runsAfter placing bad good).1 ≤ bad + 1 := by
  cases placing with
  | group d reference alpha e =>
    unfold runsAfter
    simp only []
    split
    · exact Nat.min_le_right ..
    · split
      · exact Nat.zero_le _
      · exact Nat.zero_le _
  | flywheel => exact Nat.le_succ bad
  | localVoltage => exact Nat.le_succ bad

/-- The judgement in RUNNING and BYPASSING leaves the station there, and SYNC LOST as R8 and R13 give. -/
theorem judgeRuns_fires (h : s.Fires) (hTrip : s.stc.tripCount = c.tripCount) (hLost : s.stc.syncLost = c.syncLost)
    (hGood : s.stc.goodRun = c.goodRun) : c.Judged above placing (judgeRuns placing s).stc := by
  have hNot : s.stc.state ≠ .synced := by obtain h | h := h <;> rw [h] <;> nofun
  rw [judgeRuns_eq]
  by_cases hLose : placing.large = true ∧ (s.stc.withRuns placing).badRun = 3
  · rw [if_pos hLose]
    unfold loseLattice
    rw [if_neg (show (s.setStc (s.stc.withRuns placing)).stc.state ≠ .synced from hNot)]
    split
    · exact .inl ⟨h, hTrip, fun _ hSmall => absurd hLose.1 (Bool.eq_false_iff.1 hSmall), fun hc _ => hLost.trans hc⟩
    · exact .inl ⟨h, hTrip, fun _ hSmall => absurd hLose.1 (Bool.eq_false_iff.1 hSmall), fun _ _ => rfl⟩
  · rw [if_neg hLose]
    by_cases hEight : (s.stc.withRuns placing).goodRun = 8
    · rw [if_pos hEight]
      refine .inl ⟨h, hTrip, fun _ _ => rfl, fun _ hSeven => ?_⟩
      have hLe := runsAfter_good_le placing s.stc.badRun s.stc.goodRun
      have hEight : (runsAfter placing s.stc.badRun s.stc.goodRun).2 = 8 := hEight
      omega
    · rw [if_neg hEight]
      exact .inl ⟨h, hTrip, fun hc _ => hLost.trans hc, fun hc _ => hLost.trans hc⟩

/-- The judgement after the exit leaves the station where it is. -/
theorem judgeMark_left (h : c.LeftFrom above s.stc) : c.Gone above placing (judgeMark placing refHeard s).stc := by
  have hGone (y : Stc) (hState : y.state = s.stc.state) (hTrip : y.tripCount = s.stc.tripCount) :
      c.Gone above placing y := by
    have hAt := hState.trans h.state
    refine ⟨fun hAbove => ?_, fun hBelow => ?_, fun hBelow hLost _ => ?_, fun hBelow hLost _ => ?_, hTrip.trans h.tripCount⟩
    · rw [hAt, hAbove]
      rfl
    · rw [hAt, hBelow]
      cases c.syncLost
      · exact .inl rfl
      · exact .inr rfl
    · rw [hAt, hBelow, hLost]
      rfl
    · rw [hAt, hBelow, hLost]
      rfl
  cases hAbove : above with
  | true =>
    have hState : s.stc.state = .tripped := by
      rw [h.state, hAbove]
      rfl
    rw [judgeMark_still (.inr hState), ← hAbove]
    exact hGone _ rfl rfl
  | false =>
    obtain ⟨hCount, hBad⟩ := h.runs hAbove
    rw [← hAbove]
    cases hLost : c.syncLost with
    | true =>
      have hState : s.stc.state = .listening := by
        rw [h.state, hAbove, hLost]
        rfl
      rw [judgeMark_listening hState]
      by_cases hCounts : s.markCounts placing refHeard
      · rw [judgeListening_counts hCounts, if_neg (by omega)]
        exact hGone _ rfl rfl
      · rw [judgeListening_not hCounts]
        exact hGone _ rfl rfl
    | false =>
      have hState : s.stc.state = .synced := by
        rw [h.state, hAbove, hLost]
        rfl
      have hFew : ¬ (placing.large = true ∧ (s.stc.withRuns placing).badRun = 3) := fun hLose => by
        have hLe := runsAfter_bad_le placing s.stc.badRun s.stc.goodRun
        have hThree : (runsAfter placing s.stc.badRun s.stc.goodRun).1 = 3 := hLose.2
        omega
      rw [judgeMark_runs (.inl hState), judgeRuns_eq, if_neg hFew]
      split
      · exact hGone _ rfl rfl
      · exact hGone _ rfl rfl

theorem judgeMark_unjudged (h : c.Unjudged above s.stc) : c.Judged above placing (judgeMark placing refHeard s).stc := by
  obtain ⟨hFires, hTrip, hLost, hGood⟩ | hLeft := h
  · rw [judgeMark_runs (.inr hFires)]
    exact judgeRuns_fires hFires hTrip hLost hGood
  · exact .inr (judgeMark_left hLeft)

theorem adopt_left (hBlocked : s.Blocked) (h : ¬ s.Fires) : (adopt s).stc = s.stc := by
  obtain hSame | ⟨hFires, -⟩ := (adopt_blocked hBlocked).2
  · exact hSame
  · exact absurd hFires h

/-- The records of a mark that is taken with the block line asserted, but for STC's. -/
def State.marked (s : State) : State :=
  { s with vcm := { s.vcm with failureInCycle := false }, pst := { s.pst with pvfSeen := false } }

/-- A mark that is taken with the block line asserted: STC has judged it once, before or after an adoption. -/
theorem takeMark_blocked {P Q : Stc → Prop} (hBlocked : s.Blocked) (hOver : s.overConsumed = above)
    (hSeen : P s.stc → P { s.stc with clashSeen := false })
    (hP : ∀ x : State, x.Blocked → x.overConsumed = above → P x.stc → P (adopt x).stc)
    (hJudge : ∀ (x : State) (refHeard : Bool), P x.stc → Q (judgeMark a.placing refHeard x).stc)
    (hQ : ∀ x : State, x.Blocked → x.overConsumed = above → Q x.stc → Q (adopt x).stc) (h : P s.stc) :
    (takeMark fired a wasForward s).blockView = s.marked.blockView ∧ Q (takeMark fired a wasForward s).stc := by
  have hReported : (s.reported fired a.placing wasForward).blockView = s.marked.blockView
      ∧ P (s.reported fired a.placing wasForward).stc := by
    rw [reported_eq]
    exact ⟨rfl, hSeen h⟩
  have hArmed (y : State) : (armFlywheel a.alphaT (decrementAdvance y)).blockView = y.blockView
      ∧ (armFlywheel a.alphaT (decrementAdvance y)).stc = y.stc := ⟨rfl, rfl⟩
  have hAt {x : State} (hView : x.blockView = s.marked.blockView) : x.Blocked ∧ x.overConsumed = above :=
    ⟨State.Blocked.of_view (s := s.marked) ⟨hBlocked.block, hBlocked.idle, hBlocked.stopped⟩ hView,
      (overConsumed_of_view hView).trans hOver⟩
  rw [takeMark_reported, (hArmed _).1, (hArmed _).2]
  generalize s.reported fired a.placing wasForward = m at hReported
  have hOthers (R : Stc → Prop) (hAdopt : ∀ x : State, x.Blocked → x.overConsumed = above → R x.stc → R (adopt x).stc)
      (g : State → State) (hg : g ∈ State.countChoice :: ((if m.vcm.valve = .dark then [adopt] else [])
        ++ (if m.cmu.executing.isSome then [countSurveyMark] else []) ++ [offerOwnMark a.placing])) (x : State)
      (hx : x.blockView = s.marked.blockView ∧ R x.stc) : (g x).blockView = s.marked.blockView ∧ R (g x).stc := by
    obtain ⟨hView, hStc⟩ := hx
    obtain ⟨hXBlocked, hXOver⟩ := hAt hView
    obtain rfl | ⟨rfl, -⟩ | rfl | rfl := besides_cases hg
    · exact ⟨hView, hStc⟩
    · exact ⟨(adopt_blocked hXBlocked).1.trans hView, hAdopt x hXBlocked hXOver hStc⟩
    · rw [countSurveyMark_idle hXBlocked.idle]
      exact ⟨hView, hStc⟩
    · rw [offerOwnMark_frame]
      exact ⟨hView, hStc⟩
  exact markHandouts_once (P := fun x => x.blockView = s.marked.blockView ∧ P x.stc)
    (Q := fun x => x.blockView = s.marked.blockView ∧ Q x.stc) (.refl _) (hOthers P hP)
    (fun x hx => ⟨(judgeMark_view (hAt hx.1).1).trans hx.1, hJudge x _ hx.2⟩) (hOthers Q hQ) hReported

/-- The mark after the exit. -/
theorem takeMark_left (hBlocked : s.Blocked) (hOver : s.overConsumed = above) (h : c.LeftFrom above s.stc) :
    (takeMark fired a wasForward s).blockView = s.marked.blockView
      ∧ c.Gone above a.placing (takeMark fired a wasForward s).stc := by
  refine takeMark_blocked (P := c.LeftFrom above) hBlocked hOver (fun h => ⟨h.state, h.tripCount, h.runs⟩)
    (fun x hx _ hLeft => ?_) (fun x refHeard hLeft => judgeMark_left hLeft) (fun x hx _ hGone => ?_) h
  · rw [adopt_left hx hLeft.not_fires]
    exact hLeft
  · rw [adopt_left hx hGone.not_fires]
    exact hGone

/-- The mark before the exit. -/
theorem takeMark_unjudged (hBlocked : s.Blocked) (hOver : s.overConsumed = above) (h : c.Unjudged above s.stc) :
    (takeMark fired a wasForward s).blockView = s.marked.blockView
      ∧ c.Judged above a.placing (takeMark fired a wasForward s).stc :=
  takeMark_blocked (P := c.Unjudged above) hBlocked hOver
    (fun h => h.imp id fun h => ⟨h.state, h.tripCount, h.runs⟩) (fun _ hx hxOver => adopt_unjudged hx hxOver)
    (fun _ _ h => judgeMark_unjudged h) (fun _ hx hxOver => adopt_judged hx hxOver) h

/-! ### The assertion -/

/-- The state at `t` with the block line asserted and the trains stopped. -/
def State.assertedAt (s : State) (t : Instant) : State := stopTrains ((s.advance t).setBlock true)

/-- The assertion of the block line: the exit, and a deferral that waits ended with NO before or after it. -/
theorem assertBlock_cases (hu : u = assertBlock (s.advance t)) :
    (s.fic.deferral = none ∧ u = stcBlockAsserted (s.assertedAt t))
      ∨ ∃ a, s.fic.deferral = some a ∧ ∃ v, (u = v ∨ u = v.countChoice)
        ∧ (v = takeMark .no a (s.assertedAt t).isForward (clearDeferral (stcBlockAsserted (s.assertedAt t)))
          ∨ v = stcBlockAsserted (takeMark .no a (s.assertedAt t).isForward (clearDeferral (s.assertedAt t)))) := by
  have hSettle {x : State} {a : ArmedMark} (hBlock : x.blockAsserted = true) (hDeferral : x.fic.deferral = some a) :
      settleDeferral x = takeMark .no a x.isForward (clearDeferral x) := by
    refine settleDeferral_no hDeferral ?_ ?_
    · unfold State.bypassFires
      rw [hBlock]
      exact Bool.and_false _
    · unfold State.firingPermitted
      rw [hBlock]
      rfl
  have hAssert : u = if (s.assertedAt t).fic.deferral.isNone then stcBlockAsserted (s.assertedAt t)
      else inAnyOrder [stcBlockAsserted, settleDeferral] (s.assertedAt t) := hu
  cases hDeferral : s.fic.deferral with
  | none =>
    refine .inl ⟨rfl, hAssert.trans (if_pos ?_)⟩
    rw [show (s.assertedAt t).fic.deferral = none from hDeferral]
    rfl
  | some a =>
    refine .inr ⟨a, rfl, ?_⟩
    have hBoth : u = inAnyOrder [stcBlockAsserted, settleDeferral] (s.assertedAt t) := by
      refine hAssert.trans (if_neg ?_)
      rw [show (s.assertedAt t).fic.deferral = some a from hDeferral]
      exact Bool.false_ne_true
    have hRun : Run (.leave :: Tag.station) (s.assertedAt t) (stcBlockAsserted (s.assertedAt t)) :=
      stcBlockAsserted_run (by decide) (by decide)
    have hForward : (stcBlockAsserted (s.assertedAt t)).isForward = (s.assertedAt t).isForward := by
      unfold State.isForward
      rw [hRun.vcm]
    have hFirst := hSettle (x := stcBlockAsserted (s.assertedAt t)) (hRun.blockAsserted.trans rfl)
      (hRun.deferral.trans hDeferral)
    have hSecond := hSettle (x := s.assertedAt t) rfl hDeferral
    rw [hForward] at hFirst
    rw [← hFirst, ← hSecond, hBoth]
    obtain h | h := inAnyOrder_pair stcBlockAsserted settleDeferral (s.assertedAt t)
    · exact ⟨_, h, .inl rfl⟩
    · exact ⟨_, h, .inr rfl⟩

/-- No train runs at the end of a run that starts none. -/
theorem Run.stopped (h : Run K s u) (hStopped : s.pst.train = .stopped)
    (hK : ∀ k ∈ K, k ∉ [Tag.train, Tag.loose, Tag.setup, Tag.restart] := by decide) : u.pst.train = .stopped := by
  refine h.keeps (P := fun x => x.pst.train = .stopped) (fun k hk x y m hx => ?_) hStopped
  have hOut := hK k hk
  have hMoved (new : StationState) : (x.moved new).pst.train = .stopped := by
    rw [moved_stopped hx]
    exact hx
  cases m with
  | line => exact (congrArg Pst.train (State.setLine_pst ..)).trans hx
  | state new => exact hMoved new
  | leave new => exact hMoved new
  | train => simp at hOut
  | loose => simp at hOut
  | setup => simp at hOut
  | restart => simp at hOut
  | block => rfl
  | _ => exact hx

/-- The own entry, where there is one, holds the mark just taken. -/
theorem takeMark_held {e : RollEntry}
    (h : (takeMark fired a wasForward s).entry (takeMark fired a wasForward s).position = some e) :
    ∃ r, e.held = some r ∧ r.report.fired = fired ∧ r.markInstant = s.now := by
  have hPosition : (takeMark fired a wasForward s).position = s.position :=
    (takeMark_run (K := .arm :: Tag.marking) (s := s) (by decide) (.inl (by decide)) fired a wasForward).position
  have hSome : (s.entry s.position).isSome = true := by
    refine Classical.byContradiction fun hNot => ?_
    have hNone : s.entry s.position = none := Option.not_isSome_iff_eq_none.1 hNot
    have hWritten : (s.reported fired a.placing wasForward).entry s.position = none := by
      rw [reported_entry]
      unfold writeOwnEntry
      rw [entry_changeEntry, entry_countMissed, entry_staleMark, hNone]
      rfl
    rw [hPosition, takeMark_entry, hWritten] at h
    cases h
  obtain ⟨r, hOwn, hAt, hFired, -⟩ := takeMark_owns (fired := fired) (a := a) (wasForward := wasForward) hSome
  unfold State.ownReport at hOwn
  rw [h] at hOwn
  exact ⟨r, hOwn, hFired, hAt⟩

theorem large_iff (placing : Placing) : placing.large = true ↔ match placing with
    | .group _ _ _ e => 1000 < e ∨ e < -1000
    | _ => False := by
  cases placing with
  | group d reference alpha e =>
    show decide (1000 < e.natAbs) = true ↔ 1000 < e ∨ e < -1000
    rw [decide_eq_true_iff]
    omega
  | flywheel => exact ⟨nofun, False.elim⟩
  | localVoltage => exact ⟨nofun, False.elim⟩

/-- The state with another state's view. -/
def State.withView (v : Bool × Nat × Feeds × List Pulse × List FilterEntry × Vcm × Lvt × Cmu × Pst × Option Setup
    × List Instr) (u : State) : State :=
  { u with
    blockAsserted := v.1, clock := v.2.1, feeds := v.2.2.1, firing := v.2.2.2.1, filter := v.2.2.2.2.1
    vcm := v.2.2.2.2.2.1, lvt := v.2.2.2.2.2.2.1, cmu := v.2.2.2.2.2.2.2.1, pst := v.2.2.2.2.2.2.2.2.1
    pending := v.2.2.2.2.2.2.2.2.2.2 }

/-- A state with the view of an assertion at `t` after a mark. -/
theorem of_blockView (h : u.blockView = (s.assertedAt t).marked.blockView) : u = { s.advance t with
    blockAsserted := true, choices := u.choices, stc := u.stc, lineA := u.lineA, lineB := u.lineB, prl := u.prl
    fic := u.fic, orh := u.orh, pmn := u.pmn, vcm := { s.vcm with failureInCycle := false }
    pst := { s.pst with train := .stopped, pvfSeen := false } } := by
  have hSelf : u = u.withView u.blockView := rfl
  rw [h] at hSelf
  exact hSelf

/-- What every assertion shows. -/
theorem assertBlock_shows (hu : u = assertBlock (s.advance t)) :
    u.blockAsserted = true ∧ u.pst.train = .stopped ∧ u.firing = [] ∧ u.fic.deferral = none := by
  have hExit (x : State) : Run (.leave :: Tag.station) x (stcBlockAsserted x) :=
    stcBlockAsserted_run (by decide) (by decide)
  have hMark (a : ArmedMark) (x : State) : Run (.arm :: Tag.marking) x (takeMark .no a (s.assertedAt t).isForward x) :=
    takeMark_run (by decide) (.inl (by decide)) ..
  obtain ⟨hNone, rfl⟩ | ⟨a, -, v, hv, hOrder⟩ := assertBlock_cases hu
  · have h := hExit (s.assertedAt t)
    exact ⟨h.blockAsserted, h.stopped rfl, h.firing, h.deferral.trans hNone⟩
  · have hShows : v.blockAsserted = true ∧ v.pst.train = .stopped ∧ v.firing = [] ∧ v.fic.deferral = none := by
      obtain rfl | rfl := hOrder
      · have h := hExit (s.assertedAt t)
        have h' := hMark a (clearDeferral (stcBlockAsserted (s.assertedAt t)))
        exact ⟨h'.blockAsserted.trans h.blockAsserted, h'.stopped (h.stopped rfl), h'.firing.trans h.firing,
          h'.deferral⟩
      · have h := hMark a (clearDeferral (s.assertedAt t))
        have h' := hExit (takeMark .no a (s.assertedAt t).isForward (clearDeferral (s.assertedAt t)))
        exact ⟨h'.blockAsserted.trans h.blockAsserted, h'.stopped (h.stopped rfl), h'.firing.trans h.firing,
          h'.deferral.trans h.deferral⟩
    obtain rfl | rfl := hv
    · exact hShows
    · exact hShows

/-- A deferral that an assertion ends, in RUNNING. -/
theorem assertBlock_deferred (hDeferral : s.fic.deferral = some a) (hState : s.stc.state = .running)
    (hIdle : s.cmu.executing = none) (hu : u = assertBlock (s.advance t)) :
    s.stc.Gone s.overConsumed a.placing u.stc ∧ u.blockView = (s.assertedAt t).marked.blockView
      ∧ (s.vcm.valve ≠ .dark → u.orh.current = s.orh.current ∧ u.orh.pending = s.orh.pending) := by
  have hBlocked : (s.assertedAt t).Blocked := ⟨rfl, hIdle, rfl⟩
  have hFires : (s.assertedAt t).Fires := .inl hState
  have hExit := stcBlockAsserted_fires hFires hBlocked
  obtain ⟨hNone, -⟩ | ⟨b, hb, v, hv, hOrder⟩ := assertBlock_cases hu
  · rw [hNone] at hDeferral
    cases hDeferral
  obtain rfl : a = b := Option.some.inj (hDeferral.symm.trans hb)
  have hShows : s.stc.Gone s.overConsumed a.placing v.stc ∧ v.blockView = (s.assertedAt t).marked.blockView
      ∧ (s.vcm.valve ≠ .dark → v.orh.current = s.orh.current ∧ v.orh.pending = s.orh.pending) := by
    have hQuiet {x y : State} (hx : x.vcm.valve = s.vcm.valve) (hOrh : x.orh.current = s.orh.current
          ∧ x.orh.pending = s.orh.pending) (hy : y = takeMark .no a (s.assertedAt t).isForward x)
        (hLit : s.vcm.valve ≠ .dark) : y.orh.current = s.orh.current ∧ y.orh.pending = s.orh.pending := by
      obtain ⟨hKept, -⟩ := takeMark_quiet (fun hBoth => hLit (hx.symm.trans hBoth.1)) hy
      rw [hKept]
      exact hOrh
    obtain rfl | rfl := hOrder
    · rw [hExit]
      have hLeft : s.stc.LeftFrom s.overConsumed (s.assertedAt t).leftStc := leftStc_leftFrom rfl rfl rfl
      have hView : (clearDeferral ((s.assertedAt t).setStc (s.assertedAt t).leftStc)).marked.blockView
          = (s.assertedAt t).marked.blockView :=
        blockView_setStc (s := (s.assertedAt t).marked) (leftStc_setup (s.assertedAt t))
      have hOver : (clearDeferral ((s.assertedAt t).setStc (s.assertedAt t).leftStc)).overConsumed = s.overConsumed :=
        overConsumed_of_view (s := s.assertedAt t) (blockView_setStc (leftStc_setup (s.assertedAt t)))
      obtain ⟨hMarkView, hGone⟩ := takeMark_left (s := clearDeferral ((s.assertedAt t).setStc (s.assertedAt t).leftStc))
        (fired := .no) (a := a) (wasForward := (s.assertedAt t).isForward)
        ⟨hBlocked.block, hBlocked.idle, hBlocked.stopped⟩ hOver hLeft
      exact ⟨hGone, hMarkView.trans hView,
        hQuiet (x := clearDeferral ((s.assertedAt t).setStc (s.assertedAt t).leftStc)) rfl ⟨rfl, rfl⟩ rfl⟩
    · have hUnjudged : s.stc.Unjudged s.overConsumed (clearDeferral (s.assertedAt t)).stc :=
        .inl ⟨.inl hState, rfl, rfl, rfl⟩
      obtain ⟨hView, hJudged⟩ := takeMark_unjudged (s := clearDeferral (s.assertedAt t)) (fired := .no) (a := a)
        (wasForward := (s.assertedAt t).isForward) ⟨hBlocked.block, hBlocked.idle, hBlocked.stopped⟩ rfl hUnjudged
      have hOrh := hQuiet (x := clearDeferral (s.assertedAt t)) rfl ⟨rfl, rfl⟩ rfl
      generalize takeMark .no a (s.assertedAt t).isForward (clearDeferral (s.assertedAt t)) = m at hView hJudged hOrh
      have hMBlocked : m.Blocked :=
        State.Blocked.of_view (s := (s.assertedAt t).marked) ⟨hBlocked.block, hBlocked.idle, hBlocked.stopped⟩ hView
      have hMOver : m.overConsumed = s.overConsumed := overConsumed_of_view (s := (s.assertedAt t).marked) hView
      have hRun : Run (.leave :: Tag.station) m (stcBlockAsserted m) := stcBlockAsserted_run (by decide) (by decide)
      refine ⟨stcBlockAsserted_judged hMBlocked hMOver hJudged, (stcBlockAsserted_view hMBlocked).trans hView, ?_⟩
      rw [hRun.orh]
      exact hOrh
  obtain rfl | rfl := hv
  · exact hShows
  · exact hShows

/-- Settles O8: the exit alone, and with a deferral the exit and the mark in either order. -/
theorem blockLineAsserted : Obligations.BlockLineAsserted := by
  intro t held s hSupplied hSurvey above
  have hAbove : s.overConsumed = true ↔ above := overConsumed_iff
  refine ⟨fun hReleased hHeld => ?_, fun hNot => ?_⟩
  · have hExec : exec (.blockLineAsserted t held) s = .next (assertBlock (s.advance t)) := by
      refine (act_supplied hSupplied t _).trans (congrArg Host.Outcome.next (if_pos ⟨hHeld, ?_⟩))
      rw [show (s.advance t).blockAsserted = false from hReleased]
      rfl
    have hIdle (hFires : s.Fires) : s.cmu.executing = none := by
      cases hExecuting : s.cmu.executing with
      | none => rfl
      | some v =>
        have hSynced := (hSurvey v hExecuting).1
        obtain h | h := hFires <;> rw [h] at hSynced <;> cases hSynced
    obtain ⟨hBlock, hTrain, hFiring, hNoDeferral⟩ := assertBlock_shows (s := s) (t := t) rfl
    refine ⟨_, hExec, hBlock, hTrain, hFiring, hNoDeferral, fun hNone => ?_, fun hWaits x hEntry => ?_,
      fun a hDeferral hOk => ?_⟩
    · obtain ⟨-, hExit⟩ | ⟨a, ha, -⟩ := assertBlock_cases (s := s) (t := t) rfl
      · rw [hExit]
        by_cases hFires : s.Fires
        · have hLeft := stcBlockAsserted_fires (s := s.assertedAt t) hFires ⟨rfl, hIdle hFires, rfl⟩
          have hState := leftStc_state (s.assertedAt t)
          have hTrip := leftStc_tripCount (s.assertedAt t)
          rw [hLeft]
          refine ⟨?_, rfl, ?_, fun hNot => absurd hFires (not_or.2 hNot)⟩
          · exact hState.trans ((ite_of_iff hAbove rfl rfl).trans (if_pos hFires).symm)
          · refine hTrip.trans (ite_of_iff (hAbove.trans ⟨fun h => ⟨?_, ?_⟩, fun h => ?_⟩) rfl rfl)
            · exact hState.trans (if_pos (hAbove.2 h))
            · obtain hIn | hIn := hFires <;> rw [hIn] <;> nofun
            · refine Classical.byContradiction fun hBelow => ?_
              have hIn : (if s.overConsumed = true then StationState.tripped
                  else if s.stc.syncLost = true then .listening else .synced) = .tripped := hState.symm.trans h.1
              rw [if_neg (mt hAbove.1 hBelow)] at hIn
              split at hIn <;> cases hIn
        · have hStill := stcBlockAsserted_still (s := s.assertedAt t) hFires
          rw [hStill]
          exact ⟨(if_neg hFires).symm, rfl, (if_neg fun h => h.2 h.1).symm, fun _ => rfl⟩
      · rw [hNone] at ha
        cases ha
    · obtain ⟨hNone, -⟩ | ⟨a, -, v, hv, hOrder⟩ := assertBlock_cases (s := s) (t := t) rfl
      · rw [hNone] at hWaits
        cases hWaits
      · have hHeldAt (v : State) (hEntry : v.entry v.position = some x)
            (hOrder : v = takeMark .no a (s.assertedAt t).isForward (clearDeferral (stcBlockAsserted (s.assertedAt t)))
              ∨ v = stcBlockAsserted (takeMark .no a (s.assertedAt t).isForward (clearDeferral (s.assertedAt t)))) :
            ∃ r, x.held = some r ∧ r.report.fired = .no ∧ r.markInstant = t := by
          have hExit (y : State) : Run (.leave :: Tag.station) y (stcBlockAsserted y) :=
            stcBlockAsserted_run (by decide) (by decide)
          have hNow : (s.assertedAt t).now = t := State.advance_now s t
          obtain rfl | rfl := hOrder
          · obtain ⟨r, hr, hFired, hAt⟩ := takeMark_held hEntry
            exact ⟨r, hr, hFired, hAt.trans ((hExit _).now.trans hNow)⟩
          · have hRun := hExit (takeMark .no a (s.assertedAt t).isForward (clearDeferral (s.assertedAt t)))
            unfold State.entry at hEntry
            rw [hRun.prl, hRun.position] at hEntry
            obtain ⟨r, hr, hFired, hAt⟩ := takeMark_held hEntry
            exact ⟨r, hr, hFired, hAt.trans hNow⟩
        obtain h | h := hv
        · rw [h] at hEntry
          exact hHeldAt v hEntry hOrder
        · rw [h] at hEntry
          exact hHeldAt v hEntry hOrder
    · obtain ⟨-, hState, -⟩ := hOk (by rw [hDeferral]; rfl)
      obtain ⟨hGone, hView, hOrh⟩ := assertBlock_deferred (t := t) hDeferral hState (hIdle (.inl hState)) rfl
      intro large
      have hLarge : a.placing.large = true ↔ large := large_iff a.placing
      refine ⟨fun h => hGone.tripped (hAbove.2 h), fun hBelow => ?_, hGone.tripCount.trans (ite_of_iff hAbove rfl rfl), hOrh,
        of_blockView hView⟩
      have hBelow : s.overConsumed = false := Bool.eq_false_iff.2 (mt hAbove.1 hBelow)
      exact ⟨hGone.below hBelow, fun hLost hSmall => hGone.synced hBelow hLost (Bool.eq_false_iff.2 (mt hLarge.1 hSmall)),
        hGone.listening hBelow⟩
  · refine (act_supplied hSupplied t _).trans (congrArg Host.Outcome.next (if_neg ?_))
    rintro ⟨hHeld, hReleased⟩
    obtain h | h := hNot
    · rw [show (s.advance t).blockAsserted = true from h] at hReleased
      cases hReleased
    · omega

end
end Sys2Proof.Machine
end

