-- ==== Sys2Proof/Proofs/ReadBackObs.lean ====
section
/-! PROOFS. The encoder and the reader of a copy (R20, R21, R172 to R174): a field read back from the bytes
that wrote it, a copy that the check passes, and O59. -/

namespace Sys2Proof.Machine

/-! ### A field and its bytes -/

/-- Two adjacent fields as one number: the upper one counts the values of the lower one. -/
theorem ofNat_append_ofNat {v : Nat} (w : Nat) {a b : Nat} (hb : b < 2 ^ v) :
    BitVec.ofNat w a ++ BitVec.ofNat v b = BitVec.ofNat (w + v) (a * 2 ^ v + b) := by
  have hLow : (a * 2 ^ v + b) % 2 ^ v = b := by rw [Nat.mul_add_mod_self_right, Nat.mod_eq_of_lt hb]
  have hHigh : (a * 2 ^ v + b) / 2 ^ v = a := by
    rw [Nat.mul_comm, Nat.mul_add_div (Nat.two_pow_pos v), Nat.div_eq_of_lt hb, Nat.add_zero]
  apply BitVec.eq_of_toNat_eq
  rw [BitVec.toNat_append, BitVec.toNat_ofNat, BitVec.toNat_ofNat, BitVec.toNat_ofNat, Nat.mod_eq_of_lt hb,
    ← Nat.shiftLeft_add_eq_or_of_lt hb, Nat.shiftLeft_eq, Nat.pow_add, Nat.mul_comm (2 ^ w), Nat.mod_mul, hLow, hHigh,
    Nat.mul_comm (2 ^ v), Nat.add_comm]

theorem upper_of_append {w v : Nat} (x : BitVec w) (y : BitVec v) : (x ++ y).extractLsb' v w = x := by
  ext i hi
  rw [BitVec.getElem_extractLsb', BitVec.getLsbD_append, if_neg (by omega), Nat.add_sub_cancel_left,
    BitVec.getLsbD_eq_getElem hi]

theorem lower_of_append {w v : Nat} (x : BitVec w) (y : BitVec v) : (x ++ y).extractLsb' 0 v = y := by
  ext i hi
  rw [BitVec.getElem_extractLsb', Nat.zero_add, BitVec.getLsbD_append, if_pos hi, BitVec.getLsbD_eq_getElem hi]

/-- The two bytes of a 16-bit field give it back (chapter 11). -/
theorem word16_halves (w : BitVec 16) : word16 (w.extractLsb' 8 8) (w.extractLsb' 0 8) = w := by
  apply BitVec.eq_of_toNat_eq
  rw [word16, BitVec.toNat_append, ← Nat.shiftLeft_add_eq_or_of_lt (BitVec.isLt _)]
  simp [BitVec.extractLsb'_toNat, Nat.shiftRight_eq_div_pow, Nat.shiftLeft_eq]
  omega

/-- A four-bit code above a field of twelve bits is the upper half of the first of the two bytes. -/
theorem code_of_word (x : BitVec 4) (y : BitVec 12) : ((x ++ y).extractLsb' 8 8).extractLsb' 4 4 = x := by
  have hNested : ((x ++ y).extractLsb' 8 8).extractLsb' 4 4 = (x ++ y).extractLsb' 12 4 := by
    ext i hi
    rw [BitVec.getElem_extractLsb', BitVec.getLsbD_extractLsb', BitVec.getElem_extractLsb', ← Nat.add_assoc]
    simp [show 4 + i < 8 by omega]
  rw [hNested, upper_of_append]

/-- Two codes of two bits in the lower half of a byte: the upper one. -/
theorem code_of_half (x y : BitVec 2) : (0#4 ++ x ++ y).extractLsb' 2 2 = x := by
  revert x y
  decide

/-- The seven flags survive their byte. -/
theorem flagsOfByte_byteOfFlags (f : MarkFlags) : flagsOfByte (byteOfFlags f) = f := by
  obtain ⟨a, b, c, d, e, g, h⟩ := f
  revert a b c d e g h
  decide

/-! ### The body of a frame -/

theorem decodeMark_encodeMark (m : MarkFields) (tail : List Byte) : decodeMark (encodeMark m ++ tail) = m := by
  have hWord : wordAt (encodeMark m ++ tail) 0 = m.fired ++ m.lag := word16_halves _
  have hFired : (byteAt (encodeMark m ++ tail) 0).extractLsb' 4 4 = m.fired := code_of_word m.fired m.lag
  have hCodes : byteAt (encodeMark m ++ tail) 2 = m.source ++ m.station := rfl
  have hFlags : byteAt (encodeMark m ++ tail) 3 = byteOfFlags m.flags := rfl
  have hHealth : byteAt (encodeMark m ++ tail) 4 = 0#4 ++ m.healthA ++ m.healthB := rfl
  have hHealthA : (0#4 ++ m.healthA ++ m.healthB).extractLsb' 2 2 = m.healthA := code_of_half _ _
  have hConsumed : byteAt (encodeMark m ++ tail) 5 = m.consumed := rfl
  have hAlpha : wordAt (encodeMark m ++ tail) 6 = m.alpha := word16_halves _
  have hGamma : wordAt (encodeMark m ++ tail) 8 = m.gamma := word16_halves _
  have hMu : wordAt (encodeMark m ++ tail) 10 = m.mu := word16_halves _
  have hOrder : (if (byteAt (encodeMark m ++ tail) 12).getLsbD 0 then some (byteAt (encodeMark m ++ tail) 13) else none)
      = m.orderSeq := by
    have hSet : byteAt (encodeMark m ++ tail) 12 = byteOf (bit m.orderSeq.isSome) := rfl
    have hSeq : byteAt (encodeMark m ++ tail) 13 = m.orderSeq.getD 0 := rfl
    rw [hSet, hSeq]
    cases m.orderSeq with
    | none => rfl
    | some n =>
      have hBit : (byteOf (bit true)).getLsbD 0 = true := by decide
      exact if_pos hBit
  simp only [decodeMark, hWord, hFired, hCodes, hFlags, hHealth, hHealthA, hConsumed, hAlpha, hGamma, hMu, hOrder,
    lower_of_append, upper_of_append, flagsOfByte_byteOfFlags]

theorem decodeEvent_encodeEvent (e : EventFields) (tail : List Byte) : decodeEvent (encodeEvent e ++ tail) = e := by
  have hLag : wordAt (encodeEvent e ++ tail) 0 = 0#4 ++ e.lag := word16_halves _
  have hKind : byteAt (encodeEvent e ++ tail) 2 = e.kind := rfl
  have hSubkind : byteAt (encodeEvent e ++ tail) 3 = e.subkind := rfl
  simp only [decodeEvent, hLag, hKind, hSubkind, lower_of_append]

theorem decodeOrder_encodeOrder (o : OrderFields) (tail : List Byte) : decodeOrder (encodeOrder o ++ tail) = o := by
  have hAlpha : wordAt (encodeOrder o ++ tail) 4 = o.alphaOrder := word16_halves _
  have hGamma : wordAt (encodeOrder o ++ tail) 6 = o.gammaOrder := word16_halves _
  rw [decodeOrder, hAlpha, hGamma]
  rfl

theorem decodeSetup_encodeSetup (f : SetupFields) (tail : List Byte) : decodeSetup (encodeSetup f ++ tail) = f := by
  have hAlphaMin : wordAt (encodeSetup f ++ tail) 5 = f.alphaMin := word16_halves _
  have hAlphaMaxR : wordAt (encodeSetup f ++ tail) 7 = f.alphaMaxR := word16_halves _
  have hAlphaMaxI : wordAt (encodeSetup f ++ tail) 9 = f.alphaMaxI := word16_halves _
  have hGammaCrit : wordAt (encodeSetup f ++ tail) 11 = f.gammaCrit := word16_halves _
  have hAcf : wordAt (encodeSetup f ++ tail) 13 = f.acf := word16_halves _
  have hDeadband : wordAt (encodeSetup f ++ tail) 16 = f.gammaDeadband := word16_halves _
  rw [decodeSetup, hAlphaMin, hAlphaMaxR, hAlphaMaxI, hGammaCrit, hAcf, hDeadband]
  rfl

/-! ### A whole copy -/

/-- The bytes of a copy carry its check and its length, so that only a length its kind may not take makes them
bad (R20, R21, R26). -/
theorem withCheck_good (kind sender seq : Byte) {body : List Byte} (hLong : body.length + 2 < 256)
    (hAllowed : lengthAllowed kind.toNat (body.length + 2) (sender :: seq :: body) = true) :
    copyIsBad (withCheck ([kind, byteOf (body.length + 2), sender, seq] ++ body)) false = false := by
  have hLength : (byteOf (body.length + 2)).toNat = body.length + 2 := by
    rw [byteOf, BitVec.toNat_ofNat, Nat.mod_eq_of_lt hLong]
  obtain ⟨frame, hFrame⟩ : ∃ frame, frame = [kind, byteOf (body.length + 2), sender, seq] ++ body := ⟨_, rfl⟩
  have hTake : (withCheck frame).take (body.length + 4) = frame := List.take_left' (by simp [hFrame])
  have hRest : (sender :: seq :: body ++ bytes16 (crc16 frame)).take (body.length + 2) = sender :: seq :: body :=
    List.take_left' rfl
  have hBytes : withCheck frame
      = kind :: byteOf (body.length + 2) :: (sender :: seq :: body ++ bytes16 (crc16 frame)) := by
    rw [hFrame]
    rfl
  rw [← hFrame, hBytes, copyIsBad, hLength, hRest, hAllowed, ← hBytes, hTake]
  simp [bytes16]

/-- A good copy of a kind reads as that kind with the bytes behind the header, its own check among them. -/
theorem decodeCopy_copyBytes {kind : Byte} {rx : RxCopy} {body : List Byte} (position : Nat) (t : Instant)
    (hLong : body.length + 2 < 256)
    (hAllowed : lengthAllowed kind.toNat (body.length + 2) (rx.sender :: rx.seq :: body) = true) :
    ∃ check, ∀ c, decodeKind position t rx kind.toNat (body ++ check) = some c →
      decodeCopy position t rx.line rx.arrival (copyBytes kind rx body) false = c := by
  have hGood : copyIsBad (copyBytes kind rx body) false = false := withCheck_good kind rx.sender rx.seq hLong hAllowed
  refine ⟨bytes16 (crc16 ([kind, byteOf (body.length + 2), rx.sender, rx.seq] ++ body)), fun c hKind => ?_⟩
  rw [decodeCopy, hGood, if_neg Bool.false_ne_true]
  exact congrArg (Option.getD · _) hKind

/-- A COMMAND copy addressed to the station reads as the command of its code. -/
theorem decodeCopy_commandBytes {rx : RxCopy} {head : CmdHead} {code : Byte} {args : List Byte} {position : Nat}
    (t : Instant) (hTarget : head.target = 15 ∨ head.target.toNat = position) (hLong : args.length + 5 < 256)
    (hAllowed : lengthAllowed 4 (args.length + 5) (rx.sender :: rx.seq :: head.target :: head.tag :: code :: args) = true) :
    ∃ check, decodeCopy position t rx.line rx.arrival (commandBytes rx head code args) false
      = decodeCode t rx (head.target :: head.tag :: code :: (args ++ check)) := by
  obtain ⟨check, hRead⟩ := decodeCopy_copyBytes (kind := 4) (rx := rx)
    (body := head.target :: head.tag :: code :: args) position t hLong hAllowed
  have hCode : decodeCommand position t rx (head.target :: head.tag :: code :: (args ++ check))
      = decodeCode t rx (head.target :: head.tag :: code :: (args ++ check)) := if_pos hTarget
  exact ⟨check, hRead _ (congrArg some hCode)⟩

/-- A code that is not one of the eleven reads as an unknown command (R159, R174). -/
theorem decodeCode_unknown {t : Instant} {rx : RxCopy} {head : CmdHead} {code : Byte} (rest : List Byte)
    (hCode : knownCode code = false) :
    decodeCode t rx (head.target :: head.tag :: code :: rest) = .unknownCommand t rx head code := by
  simp only [knownCode, Bool.and_eq_false_iff, decide_eq_false_iff_not] at hCode
  have hByte : byteAt (head.target :: head.tag :: code :: rest) 2 = code := rfl
  rw [decodeCode, hByte]
  split <;> first | omega | rfl

/-- An unknown COMMAND may have the length of one without arguments. -/
theorem lengthAllowed_unknown {sender seq target tag code : Byte} (hCode : knownCode code = false) :
    lengthAllowed 4 5 [sender, seq, target, tag, code] = true := by
  simp only [knownCode, Bool.and_eq_false_iff, decide_eq_false_iff_not] at hCode
  simp only [lengthAllowed, List.getElem?_cons_succ, List.getElem?_cons_zero]
  split <;> first | omega | rfl

/-! ### The frames of this station -/

/-- A MARK report and a lag as the fields that a frame carries. -/
def MarkReport.fields (r : MarkReport) (lag : Nat) : MarkFields where
  fired := BitVec.ofNat 4 r.fired.code
  lag := BitVec.ofNat 12 lag
  source := BitVec.ofNat 4 r.source.code
  station := BitVec.ofNat 4 r.station.code
  flags := r.flags
  healthA := BitVec.ofNat 2 r.healthA.code
  healthB := BitVec.ofNat 2 r.healthB.code
  consumed := byteOf r.consumed
  alpha := BitVec.ofNat 16 (r.alpha.getD 65535)
  gamma := BitVec.ofNat 16 (r.gamma.getD 65535)
  mu := BitVec.ofNat 16 (r.mu.getD 65535)
  orderSeq := r.orderSeq

theorem angleBytes_getD (a : Option Nat) : angleBytes a = bytes16 (BitVec.ofNat 16 (a.getD 65535)) := by
  cases a <;> rfl

/-- The station writes its MARK as the encoder writes those fields (R173). -/
theorem markBody_eq {r : MarkReport} {lag : Nat} (hLag : lag ≤ 4095) : markBody r lag = encodeMark (r.fields lag) := by
  have hFired : firedLagBytes r.fired.code lag = bytes16 (BitVec.ofNat 4 r.fired.code ++ BitVec.ofNat 12 lag) := by
    have hCode : r.fired.code < 16 := by cases r.fired <;> decide
    have hWord : firedLagBytes r.fired.code lag = bytes16 (BitVec.ofNat 16 (r.fired.code * 4096 + lag)) := by
      rw [firedLagBytes, natBytes16, Nat.mod_eq_of_lt hCode, Nat.mod_eq_of_lt (by omega : lag < 4096)]
    exact hWord.trans (congrArg bytes16 (ofNat_append_ofNat 4 (show lag < 2 ^ 12 by omega)).symm)
  have hCodes : byteOf (16 * r.source.code + r.station.code)
      = BitVec.ofNat 4 r.source.code ++ BitVec.ofNat 4 r.station.code := by
    cases r.source <;> cases r.station <;> rfl
  have hHealth : byteOf (4 * r.healthA.code + r.healthB.code)
      = 0#4 ++ BitVec.ofNat 2 r.healthA.code ++ BitVec.ofNat 2 r.healthB.code := by
    cases r.healthA <;> cases r.healthB <;> rfl
  rw [markBody, hFired, hCodes, hHealth, angleBytes_getD, angleBytes_getD, angleBytes_getD]
  rfl

/-- An angle of at most 36,000 reads back, and so does an absent one (R172). -/
theorem angleOf_getD {a : Option Nat} (hA : ∀ x ∈ a, x ≤ 36000) :
    angleOf (BitVec.ofNat 16 (a.getD 65535)) = a ∧ angleTooLarge (BitVec.ofNat 16 (a.getD 65535)) = false := by
  cases a with
  | none => exact ⟨rfl, rfl⟩
  | some x =>
    have hX := hA x rfl
    have hNat : (BitVec.ofNat 16 x).toNat = x := Nat.mod_eq_of_lt (by omega)
    simp only [Option.getD_some, angleOf, angleTooLarge, hNat]
    exact ⟨if_neg (by omega), by simp; omega⟩

/-- A peer reads a MARK as the station meant it (R40, R42, R173). -/
theorem mark_reads {r : MarkReport} {lag : Nat} (hStation : r.station ≠ .unset) (hConsumed : r.consumed ≤ 96)
    (hLag : lag ≤ 4095) (hAlpha : ∀ a ∈ r.alpha, a ≤ 36000) (hGamma : ∀ a ∈ r.gamma, a ≤ 36000)
    (hMu : ∀ a ∈ r.mu, a ≤ 36000) :
    reportOf (decodeMark (markBody r lag)) = some r ∧ (decodeMark (markBody r lag)).lag.toNat = lag
      ∧ valuesTooLarge (decodeMark (markBody r lag)) = false := by
  have hRead : decodeMark (markBody r lag) = r.fields lag := by
    rw [markBody_eq hLag, ← List.append_nil (encodeMark _), decodeMark_encodeMark]
  have hFired : firedOfCode (r.fields lag).fired = some r.fired := by
    show firedOfCode (BitVec.ofNat 4 r.fired.code) = _
    cases r.fired <;> rfl
  have hSource : sourceOfCode (r.fields lag).source = some r.source := by
    show sourceOfCode (BitVec.ofNat 4 r.source.code) = _
    cases r.source <;> rfl
  have hState : stationOfCode (r.fields lag).station = some r.station := by
    show stationOfCode (BitVec.ofNat 4 r.station.code) = _
    revert hStation
    cases r.station <;> decide
  have hHealth (x : Health) : healthOfCode (BitVec.ofNat 2 x.code) = x := by cases x <;> rfl
  have hCount : (r.fields lag).consumed.toNat = r.consumed := Nat.mod_eq_of_lt (by omega)
  rw [hRead]
  refine ⟨?_, Nat.mod_eq_of_lt (by omega), ?_⟩
  · rw [reportOf, hFired, hSource, hState, hCount]
    simp only [MarkReport.fields, hHealth, (angleOf_getD hAlpha).1, (angleOf_getD hGamma).1, (angleOf_getD hMu).1]
  · rw [valuesTooLarge, hCount]
    simp only [MarkReport.fields, (angleOf_getD hAlpha).2, (angleOf_getD hGamma).2, (angleOf_getD hMu).2, Bool.false_or,
      decide_eq_false_iff_not]
    omega

/-- A peer reads an EVENT as the station meant it (R174). -/
theorem event_reads {k : EventKind} {lag : Nat} (hLag : lag ≤ 4095) :
    eventOfCodes (decodeEvent (eventBody k lag)).kind (decodeEvent (eventBody k lag)).subkind = some k
      ∧ (decodeEvent (eventBody k lag)).lag.toNat = lag := by
  have hBody : eventBody k lag
      = encodeEvent { lag := BitVec.ofNat 12 lag, kind := byteOf k.codes.1, subkind := byteOf k.codes.2 } := by
    rw [eventBody, encodeEvent, ofNat_append_ofNat 4 (show lag < 2 ^ 12 by omega), natBytes16,
      Nat.mod_eq_of_lt (by omega : lag < 4096), Nat.zero_mul, Nat.zero_add]
  rw [hBody, ← List.append_nil (encodeEvent _), decodeEvent_encodeEvent]
  exact ⟨by cases k <;> rfl, Nat.mod_eq_of_lt (by omega)⟩

theorem markBody_length (r : MarkReport) (lag : Nat) : (markBody r lag).length = 14 := by
  simp [markBody, firedLagBytes, natBytes16, bytes16, angleBytes_getD]

/-- Every copy that the station sends is a good one (R20, R21, R172). -/
theorem frame_good {c : TxCopy} {lag : Nat} (hData : ∀ r, c.body = .result r → r.data.length ≤ 249) :
    copyIsBad (withCheck (c.frameBytes lag)) false = false := by
  obtain ⟨hLong, hAllowed⟩ : (c.body.bytes lag).length + 2 < 256
      ∧ lengthAllowed (byteOf c.body.kindCode).toNat ((c.body.bytes lag).length + 2)
        (c.sender :: c.seq :: c.body.bytes lag) = true := by
    cases hBody : c.body with
    | mark r => simp only [TxBody.bytes, markBody_length]; exact ⟨by decide, rfl⟩
    | event k => exact ⟨show 4 + 2 < 256 by decide, rfl⟩
    | result r =>
      have hLength : ((TxBody.result r).bytes lag).length = r.data.length + 4 := by simp [TxBody.bytes, resultBytes]
      have hShort := hData r hBody
      rw [hLength]
      refine ⟨by omega, ?_⟩
      show within 6 255 (r.data.length + 4 + 2) = true
      simp [within]; omega
  exact withCheck_good _ c.sender c.seq hLong hAllowed

/-- A COMMAND copy reads back when the code's own arguments do. -/
theorem command_reads {c : Instr} {rx rx' : RxCopy} {head : CmdHead} {code : Byte} {args bytes : List Byte} {position : Nat}
    (t : Instant) (hBytes : some (commandBytes rx' head code args) = some bytes) (hCopy : some rx' = some rx)
    (hTarget : head.target = 15 ∨ head.target.toNat = position) (hLong : args.length + 5 < 256)
    (hAllowed : lengthAllowed 4 (args.length + 5) (rx'.sender :: rx'.seq :: head.target :: head.tag :: code :: args) = true)
    (hCode : ∀ check, decodeCode t rx' (head.target :: head.tag :: code :: (args ++ check)) = c) :
    decodeCopy position t rx.line rx.arrival bytes false = c := by
  obtain ⟨check, hRead⟩ := decodeCopy_commandBytes t hTarget hLong hAllowed
  rw [← Option.some.inj hBytes, ← Option.some.inj hCopy, hRead, hCode]

/-- A copy of another kind reads back when its body does. -/
theorem copy_reads {c : Instr} {rx rx' : RxCopy} {kind : Byte} {body bytes : List Byte} {position : Nat} (t : Instant)
    (hBytes : some (copyBytes kind rx' body) = some bytes) (hCopy : some rx' = some rx) (hLong : body.length + 2 < 256)
    (hAllowed : lengthAllowed kind.toNat (body.length + 2) (rx'.sender :: rx'.seq :: body) = true)
    (hKind : ∀ check, decodeKind position t rx' kind.toNat (body ++ check) = some c) :
    decodeCopy position t rx.line rx.arrival bytes false = c := by
  obtain ⟨check, hRead⟩ := decodeCopy_copyBytes position t hLong hAllowed
  rw [← Option.some.inj hBytes, ← Option.some.inj hCopy, hRead c (hKind check)]

/-- Reading a copy gives back the command that wrote it (R20, R172 to R174). -/
theorem decodeCopy_encodeCopy {c : Instr} {rx : RxCopy} {bytes : List Byte} {position : Nat}
    (hBytes : encodeCopy c = some bytes) (hCopy : copyOf c = some rx)
    (hTarget : ∀ x ∈ commandOf c, x.2.1.target = 15 ∨ x.2.1.target.toNat = position) :
    decodeCopy position (instantOf c) rx.line rx.arrival bytes false = c := by
  cases c with
  | markFrame t rx' m =>
    refine copy_reads t hBytes hCopy (show 14 + 2 < 256 by decide) rfl fun check => ?_
    exact congrArg (fun x => some (Instr.markFrame t rx' x)) (decodeMark_encodeMark m check)
  | eventFrame t rx' e =>
    refine copy_reads t hBytes hCopy (show 4 + 2 < 256 by decide) rfl fun check => ?_
    exact congrArg (fun x => some (Instr.eventFrame t rx' x)) (decodeEvent_encodeEvent e check)
  | orderFrame t rx' o =>
    refine copy_reads t hBytes hCopy (show 8 + 2 < 256 by decide) rfl fun check => ?_
    exact congrArg (fun x => some (Instr.orderFrame t rx' x)) (decodeOrder_encodeOrder o check)
  | setup t rx' head f =>
    refine command_reads t hBytes hCopy (hTarget _ rfl) (show 33 + 5 < 256 by decide) rfl fun check => ?_
    exact congrArg (Instr.setup t rx' head) (decodeSetup_encodeSetup f check)
  | survey t rx' head first last => exact command_reads t hBytes hCopy (hTarget _ rfl) (by simp) rfl fun _ => rfl
  | readLevels t rx' head first count => exact command_reads t hBytes hCopy (hTarget _ rfl) (by simp) rfl fun _ => rfl
  | readRoll t rx' head => exact command_reads t hBytes hCopy (hTarget _ rfl) (by simp) rfl fun _ => rfl
  | readHolds t rx' head => exact command_reads t hBytes hCopy (hTarget _ rfl) (by simp) rfl fun _ => rfl
  | clearLevelOne t rx' head n => exact command_reads t hBytes hCopy (hTarget _ rfl) (by simp) rfl fun _ => rfl
  | clearLevelAll t rx' head => exact command_reads t hBytes hCopy (hTarget _ rfl) (by simp) rfl fun _ => rfl
  | clearHolds t rx' head => exact command_reads t hBytes hCopy (hTarget _ rfl) (by simp) rfl fun _ => rfl
  | forceOutputs t rx' head lines => exact command_reads t hBytes hCopy (hTarget _ rfl) (by simp) rfl fun _ => rfl
  | releaseOutputs t rx' head lines => exact command_reads t hBytes hCopy (hTarget _ rfl) (by simp) rfl fun _ => rfl
  | restart t rx' head => exact command_reads t hBytes hCopy (hTarget _ rfl) (by simp) rfl fun _ => rfl
  | unknownCommand t rx' head code =>
    cases hKnown : knownCode code with
    | true => rw [encodeCopy, hKnown] at hBytes; cases hBytes
    | false =>
      rw [encodeCopy, hKnown] at hBytes
      exact command_reads t hBytes hCopy (hTarget _ rfl) (by simp) (lengthAllowed_unknown hKnown) fun _ =>
        decodeCode_unknown _ hKnown
  | _ => cases hBytes

/-- Settles O59: the bytes of a copy determine the frame that they were written for. -/
theorem framesReadBack : Obligations.FramesReadBack :=
  ⟨fun _ _ _ _ hBytes hCopy hTarget => decodeCopy_encodeCopy hBytes hCopy hTarget,
    fun _ _ hStation hConsumed hLag hAlpha hGamma hMu => mark_reads hStation hConsumed hLag hAlpha hGamma hMu,
    fun _ _ hLag => event_reads hLag, fun _ _ hData => frame_good hData⟩

end Sys2Proof.Machine
end

