-- ==== Sys2Proof/Proofs/PermittedPulses.lean ====
section
/-! PROOFS. Which pulses leave with a command (R3, R107, R110, R118, R122, R128, R131): most commands send none, and
each of the others sends one kind where that kind is permitted. -/

namespace Sys2Proof.Machine

section
variable {K : List Tag} {s u x y : State} {t : Instant} {a : ArmedMark} {n : Nat} {kind : PulseKind} {fired : Fired}
  {wasForward : Bool}

/-! ### Permitted pulses -/

/-- Every pulse of `u` is one that the state `s` permits at `t`. -/
def State.Permits (s : State) (t : Instant) (u : State) : Prop :=
  ∀ p ∈ u.firing, pulsePermitted s.stc.state s.blockAsserted p.kind = true ∧ p.instant = t
    ∧ (p.kind = .survey → ∃ n, p.fibres = [n])
    ∧ (p.kind ≠ .survey → p.fibres = levelsUpTo s.cfg.levels)
    ∧ (p.kind = .bypass → s.stc.state = .bypassing ∨ u.stc.state = .bypassing)

theorem permits_dark (h : u.firing = []) : s.Permits t u := fun p hp => by
  rw [h] at hp
  cases hp

theorem permits_toAll (h : u.firing = [pulseToAll kind t s.cfg.levels])
    (hPermitted : pulsePermitted s.stc.state s.blockAsserted kind = true) (hSurvey : kind ≠ .survey)
    (hBypass : kind = .bypass → s.stc.state = .bypassing ∨ u.stc.state = .bypassing) : s.Permits t u := fun p hp => by
  rw [h] at hp
  obtain rfl := List.mem_singleton.1 hp
  exact ⟨hPermitted, rfl, fun hKind => absurd hKind hSurvey, fun _ => rfl, hBypass⟩

theorem permits_main (h : u.firing = [pulseToAll .main t s.cfg.levels]) (hState : s.stc.state = .running)
    (hBlock : s.blockAsserted = false) : s.Permits t u :=
  permits_toAll h (by rw [hState, hBlock]; rfl) nofun nofun

theorem permits_bypass (h : u.firing = [pulseToAll .bypass t s.cfg.levels])
    (hState : s.stc.state = .running ∨ s.stc.state = .bypassing) (hBlock : s.blockAsserted = false)
    (hBypass : s.stc.state = .bypassing ∨ u.stc.state = .bypassing) : s.Permits t u :=
  permits_toAll h (by obtain hState | hState := hState <;> rw [hState, hBlock] <;> rfl) nofun fun _ => hBypass

/-! ### The frame of a command -/

theorem act_permits {effect : State → State} (e : act t s effect = .next u)
    (h : s.Permits t (effect (s.advance t))) : s.Permits t u :=
  act_keeps (P := s.Permits t) (permits_dark rfl) (fun _ => h) e

theorem unlessHeld_holds {P : State → Prop} {effect : State → State} (hs : P s)
    (h : s.stc.state ≠ .unset → P (effect s)) : P (s.unlessHeld effect) := by
  by_cases hUnset : s.stc.state = .unset
  · rw [unlessHeld_of_unset hUnset]
    exact hs
  · rw [unlessHeld_of_ne hUnset]
    exact h hUnset

theorem dueEvent_holds {P : State → Prop} {due : State → Bool} {effect : State → State}
    (e : dueEvent t s due effect = .next u) (hs : P (s.advance t))
    (h : due (s.advance t) = true → P (effect (s.advance t))) : P u := by
  refine act_keeps hs (fun _ => unlessHeld_holds hs fun _ => ?_) e
  split
  · exact h ‹_›
  · exact hs

theorem dueEvent_permits {due : State → Bool} {effect : State → State} (e : dueEvent t s due effect = .next u)
    (h : due (s.advance t) = true → s.Permits t (effect (s.advance t))) : s.Permits t u :=
  dueEvent_holds e (permits_dark rfl) h

theorem indication_permits {effect : State → State} (e : indication t n s effect = .next u)
    (h : s.stc.state ≠ .unset → s.Permits t (effect (s.advance t))) : s.Permits t u := by
  refine act_permits e (unlessHeld_holds (permits_dark rfl) fun hSet => ?_)
  split
  · exact h hSet
  · exact permits_dark rfl

/-! ### Commands that send no pulse -/

/-- A command that neither takes a mark nor belongs to a train or a survey sends no pulse. -/
theorem exec_dark {c : Instr} (hPower : isPower c = false) (hUnsettles : unsettles c = false) (hPulses : pulses c = false)
    (h : exec c s = .next u) : u.firing = [] := by
  have hNever : unsettles c = true → False := fun hC => Bool.false_ne_true (hUnsettles.symm.trans hC)
  exact (exec_run (K := [.loose, .defer, .setup] ++ Tag.mute) (by decide) (fun _ => by decide) hPower
    (fun hC => absurd (hPulses.symm.trans hC) Bool.false_ne_true) (fun hC => (hNever hC).elim) (fun hC => (hNever hC).elim)
    (.inl (by decide)) (fun _ => .inl (by decide)) (fun _ => .inl (by decide)) h).firing

theorem restart_dark {rx : RxCopy} {head : CmdHead} (h : exec (.restart t rx head) s = .next u) : u.firing = [] := by
  refine (command_run (K := [.restart, .leave] ++ Tag.mute) (by decide) (fun _ => by decide) h
    fun x _ _ _ hPermitted _ => ?_).firing
  have hDone : Run [.seq, .line] x (doneWith head codeRestart [] x) := doneWith_run (by decide) (by decide) ..
  refine (hDone.mono (by decide)).trans (softReset_run (by decide) (by decide) (by decide) ?_)
  rw [hDone.stc]
  exact permitSet_iff.1 hPermitted

theorem darkTimer_dark (h : exec (.darkTimerExpiry t) s = .next u) : u.firing = [] :=
  (dueEvent_run (K := .leave :: Tag.station) h fun hSet _ =>
    enterListening_run (by decide) hSet (.inl (by decide))).firing

theorem power_dark {c : Instr} (hPower : isPower c = true) (h : exec c s = .next u) : u.firing = [] := by
  cases c with
  | powerOnReset t wires =>
    cases h
    rfl
  | supplyLoss t inputs =>
    have hLoss : execSupplyLoss t inputs s = .next u := h
    unfold execSupplyLoss at hLoss
    split at hLoss <;> cases hLoss <;> rfl
  | _ => cases hPower

theorem asserted_dark {held : Nat} (h : exec (.blockLineAsserted t held) s = .next u) : u.firing = [] := by
  refine act_keeps (P := fun x => x.firing = []) rfl (fun _ => ?_) h
  show (if _ then _ else _ : State).firing = []
  split
  · exact (assertBlock_shows rfl).2.2.1
  · rfl

/-! ### Marks and their pulses -/

theorem takeMark_firing : (takeMark fired a wasForward s).firing = s.firing := (takeMark_keeps rfl).2.1

/-- The own mark lies in its window, and the present does not lie behind it (R107). -/
def State.InWindow (s : State) (a : ArmedMark) (vf : Instant) : Prop :=
  earlier a.m (s.lo vf) = false ∧ later a.m (s.hi vf) = false ∧ later s.now (s.hi vf) = false

theorem mainMark_firing (hFires : s.Fires) (fired : Fired) : (takeMark fired a wasForward (mainPulse fired s)).firing
    = s.firing ++ [pulseToAll .main s.now s.cfg.levels] :=
  takeMark_firing.trans (mainPulse_pulsed hFires fired).firing

theorem bypassMark_firing (hFires : s.Fires) : (takeMark .bypass a wasForward (bypassFiring s)).firing
    = s.firing ++ [pulseToAll .bypass s.now s.cfg.levels] := by
  rw [takeMark_firing, bypassFiring_eq hFires, trainPulsed_firing hFires]

/-- A decided mark sends no pulse, a bypass pulse in BYPASSING, or a main pulse in RUNNING. -/
theorem decideMark_fires (a : ArmedMark) (s : State) : (decideMark a s).firing = s.firing
    ∨ (s.bypassFires = true ∧ (decideMark a s).firing = s.firing ++ [pulseToAll .bypass s.now s.cfg.levels])
    ∨ ((s.stc.state = .running ∧ s.blockAsserted = false)
      ∧ (s.vcm.valve = .forward → ∀ vf, s.vcm.vf = some vf → s.InWindow a vf)
      ∧ (decideMark a s).firing = s.firing ++ [pulseToAll .main s.now s.cfg.levels]) := by
  cases hBypass : s.bypassFires with
  | true =>
    rw [decideMark_bypass hBypass]
    exact .inr (.inl ⟨rfl, bypassMark_firing (.inr (bypassFires_iff.1 hBypass).1)⟩)
  | false =>
    by_cases hProtective : s.vcm.valve = .conducting ∧ s.fic.cause = some .protective
    · rw [decideMark_protective hBypass hProtective]
      exact .inl takeMark_firing
    · cases hPermitted : s.firingPermitted with
      | false =>
        rw [decideMark_forbidden hBypass hProtective hPermitted]
        exact .inl takeMark_firing
      | true =>
        have hRunning := running_of_permitted hBypass hPermitted
        have hFires : s.Fires := .inl hRunning.1
        rw [decideMark_permitted hBypass hProtective hPermitted]
        cases hValve : s.vcm.valve with
        | dark => exact .inr (.inr ⟨hRunning, nofun, mainMark_firing hFires .main⟩)
        | reverse | conducting | recovering => exact .inl rfl
        | forward =>
          cases hVf : s.vcm.vf with
          | none =>
            refine .inl ?_
            show (markForward a s).firing = s.firing
            unfold markForward
            simp only [hVf]
            exact takeMark_firing
          | some vf =>
            show (markForward a s).firing = s.firing ∨ _ ∨ _ ∧ _ ∧ (markForward a s).firing = _
            rw [markForward_eq hVf]
            split
            · exact .inl rfl
            · rename_i hLo
              split
              · exact .inl takeMark_firing
              · rename_i hHi
                obtain ⟨hMark, hNow⟩ := not_or.1 hHi
                refine .inr (.inr ⟨hRunning, fun _ v hv => ?_, mainMark_firing hFires .main⟩)
                obtain rfl := Option.some.inj hv
                exact ⟨Bool.eq_false_iff.2 hLo, Bool.eq_false_iff.2 hMark, Bool.eq_false_iff.2 hNow⟩

/-- The limit of a deferral that waits in RUNNING sends no pulse or a main one. -/
theorem judgeLimit_fires (hRunning : s.fic.deferral.isSome = true → s.stc.state = .running) :
    (judgeLimit s).firing = s.firing ∨ (s.fic.deferral.isSome = true
      ∧ (judgeLimit s).firing = s.firing ++ [pulseToAll .main s.now s.cfg.levels]) := by
  unfold judgeLimit
  split
  · exact .inl rfl
  · rename_i a hDeferral
    have hSome : s.fic.deferral.isSome = true := Option.isSome_of_eq_some hDeferral
    split
    · have hFires : ((clearDeferral s).setFic { (clearDeferral s).fic with
          forcedCount := count16 (clearDeferral s).fic.forcedCount }).Fires := .inl (hRunning hSome)
      exact .inr ⟨hSome, mainMark_firing hFires .forced⟩
    · exact .inl rfl

/-- Nothing but the limit of a deferral sends a pulse at a change of the valve. -/
theorem limit_permits (hOk : DeferralOk s) (h : Run ([.vcm, .pst, .levels] ++ Tag.station) (s.advance t) y) :
    s.Permits t (judgeLimit y) := by
  have hDeferral : y.fic.deferral = s.fic.deferral := h.deferral
  have hFiring : y.firing = [] := h.firing
  have hRunning (hSome : y.fic.deferral.isSome = true) : s.stc.state = .running ∧ s.blockAsserted = false := by
    rw [hDeferral] at hSome
    exact (hOk hSome).2
  obtain hNone | ⟨hSome, hMain⟩ := judgeLimit_fires (s := y) fun hSome =>
    (h.stays (.inl (hRunning hSome).1)).trans (hRunning hSome).1
  · exact permits_dark (hNone.trans hFiring)
  · obtain ⟨hState, hBlock⟩ := hRunning hSome
    refine permits_main (hMain.trans ?_) hState hBlock
    rw [hFiring, h.now, h.cfg, State.advance_now]
    rfl

/-! ### Changes of the valve -/

theorem enterDark_permits (hOk : DeferralOk s) : s.Permits t (enterDark (s.advance t)) :=
  limit_permits hOk (darkStarted_run (by decide) (by decide) (by decide))

theorem enterReverse_permits (hOk : DeferralOk s) (h : Run ([.vcm, .pst, .levels] ++ Tag.station) (s.advance t) x) :
    s.Permits t (enterReverse x) := by
  have hStarted : Run ([.vcm, .pst, .levels] ++ Tag.station) (s.advance t) (reverseStarted x) :=
    h.trans (reverseStarted_run (by decide) (by decide) (by decide) (by decide))
  rw [enterReverse_eq]
  split
  · exact limit_permits hOk hStarted
  · exact permits_dark hStarted.firing

theorem testReverse_permits (hOk : DeferralOk s) (h : Run ([.vcm, .pst, .levels] ++ Tag.station) (s.advance t) x) :
    s.Permits t (testReverse x) := by
  have hDark : x.firing = [] := h.firing
  unfold testReverse
  split
  · exact permits_dark hDark
  · split
    · split
      · exact permits_dark hDark
      · exact enterReverse_permits hOk h
    · exact enterReverse_permits hOk h
    · rename_i hValve
      have hEntered : Run [.vcm, .train] x (enterRecovering x) :=
        enterRecovering_run (by decide) (by decide) (hValve.symm ▸ nofun)
      exact permits_dark (hEntered.firing.trans hDark)
    · exact permits_dark hDark

theorem forwardStarted_valve (x : State) : (forwardStarted x).vcm.valve = .forward := by
  have hVcm : (forwardStarted x).vcm = (x.forwarded.measured x.entryGamma).vcm := by
    rw [forwardStarted_eq]
    rfl
  rw [hVcm]
  rfl

/-- A mark at which nothing is adopted leaves the station where it fires. -/
theorem takeMark_stays (hFires : s.Fires) (hNot : ¬ s.markAdopts) :
    (takeMark fired a wasForward s).stc.state = s.stc.state := by
  obtain ⟨tEst, -, hTaken⟩ := takeMark_stc (fired := fired) (a := a) (wasForward := wasForward) hNot
  rw [hTaken]
  exact judgeMark_firing (s := { s with prl := { s.prl with tEst := tEst } }) hFires

/-- A bypass firing of a FORWARD valve and its mark leave the station in BYPASSING. -/
theorem bypassMark_stays (hState : s.stc.state = .bypassing) (hForward : s.vcm.valve = .forward) :
    (takeMark .bypass a wasForward (bypassFiring s)).stc.state = .bypassing := by
  have hFires : s.Fires := .inr hState
  have hFrame := (valvePulse_pulsed hFires .bypass).frame
  have hFired : (bypassFiring s).stc = s.stc ∧ (bypassFiring s).vcm = s.pulsedVcm := by
    rw [bypassFiring_eq hFires]
    unfold State.trainPulsed
    generalize valvePulse (emitToAll .bypass s) = p at hFrame ⊢
    rw [hFrame]
    exact ⟨rfl, rfl⟩
  obtain ⟨hStc, hVcm⟩ := hFired
  have hIn : (bypassFiring s).stc.state = .bypassing := (congrArg Stc.state hStc).trans hState
  refine (takeMark_stays (.inr hIn) fun hAdopts => ?_).trans hIn
  obtain ⟨hDark, -⟩ := hAdopts
  rw [hVcm, pulsedVcm_forward hForward] at hDark
  cases hDark

/-- After an adoption a deferral that waited may end with a bypass firing. -/
theorem enterForward_permits (hOk : DeferralOk s) (h : Run [.vcm] (s.advance t) x) : s.Permits t (enterForward x) := by
  have hRun : Run (Tag.forwarding ++ Tag.adopting) (s.advance t) (adopt (forwardStarted x)) :=
    ((h.mono (by decide)).trans (forwardStarted_run (by decide))).trans (adopt_run (by decide))
  have hFiring : (adopt (forwardStarted x)).firing = [] := hRun.firing
  have hForward : (adopt (forwardStarted x)).vcm.valve = .forward := by
    rw [(adopt_keeps _).1]
    exact forwardStarted_valve x
  rw [enterForward_eq]
  generalize adopt (forwardStarted x) = y at hRun hFiring hForward
  have hDeferral : y.fic.deferral = s.fic.deferral := hRun.deferral
  cases hWaits : s.fic.deferral with
  | none =>
    rw [settleDeferral_none (hDeferral.trans hWaits)]
    exact permits_dark hFiring
  | some a =>
    obtain ⟨-, hState, hBlock⟩ := hOk (Option.isSome_of_eq_some hWaits)
    cases hBypass : y.bypassFires with
    | true =>
      have hBypassing : (clearDeferral y).stc.state = .bypassing := (bypassFires_iff.1 hBypass).1
      rw [settleDeferral_bypass (hDeferral.trans hWaits) hBypass]
      refine permits_bypass ((bypassMark_firing (.inr hBypassing)).trans ?_) (.inl hState) hBlock
        (.inr (bypassMark_stays hBypassing hForward))
      show y.firing ++ [pulseToAll .bypass y.now y.cfg.levels] = _
      rw [hFiring, hRun.now, hRun.cfg, State.advance_now]
      rfl
    | false =>
      cases hPermitted : y.firingPermitted with
      | true =>
        obtain ⟨hRunning, hReleased⟩ := running_of_permitted hBypass hPermitted
        rw [settleDeferral_running hRunning hReleased]
        exact permits_dark hFiring
      | false =>
        rw [settleDeferral_no (hDeferral.trans hWaits) hBypass hPermitted]
        exact permits_dark (takeMark_firing.trans hFiring)

theorem testForward_permits (hOk : DeferralOk s) (h : Run [.vcm] (s.advance t) x) : s.Permits t (testForward x) := by
  have hDark : x.firing = [] := h.firing
  unfold testForward
  split
  · exact permits_dark hDark
  · split
    · exact enterForward_permits hOk h
    · exact enterForward_permits hOk h
    · exact enterForward_permits hOk h
    · exact permits_dark hDark

/-! ### The commands that may send a pulse -/

theorem fwd_permits (hOk : DeferralOk s) (h : exec (.fwdIndication t n) s = .next u) : s.Permits t u := by
  refine indication_permits h fun _ => ?_
  show s.Permits t (if _ then _ else _)
  split
  · exact permits_dark rfl
  · exact testForward_permits hOk (setForward_run (by decide) n)

theorem rev_permits (hOk : DeferralOk s) (h : exec (.revIndication t n) s = .next u) : s.Permits t u := by
  refine indication_permits h fun _ => ?_
  show s.Permits t (if _ then _ else _)
  split
  · exact permits_dark rfl
  · exact testReverse_permits hOk (setVcm_run (by decide) { (s.advance t).vcm with
      revSet := insertLevel n (s.advance t).vcm.revSet, inactivity := some (s.advance t).clock } fun h => h)

/-- A PRF completes the gather with one PVF pulse, or sends none. -/
theorem pstPrf_fires (n : Nat) (x : State) : (pstPrf n x).firing = x.firing
    ∨ (pstPrf n x).firing = x.firing ++ [pulseToAll .pvf x.now x.cfg.levels] := by
  by_cases hEnded : x.vcm.valve = .conducting ∨ x.vcm.valve = .recovering
  · refine .inl (congrArg State.firing ?_)
    unfold pstPrf
    exact if_pos hEnded
  · obtain ⟨hConducting, hRecovering⟩ := not_or.1 hEnded
    rw [pstPrf_gathers hConducting hRecovering]
    split
    · generalize hz : x.setPst { x.pst with gather := some (gatherWith n x) } = z
      have hFrame : z.firing = x.firing ∧ z.now = x.now ∧ z.cfg = x.cfg ∧ z.vcm = x.vcm := by
        rw [← hz]
        exact ⟨rfl, rfl, rfl, rfl⟩
      obtain ⟨hFiring, hNow, hCfg, hVcm⟩ := hFrame
      have hProtected : Protected (endGather z) (protectiveFiring z) := by
        rw [protectiveFiring_eq (hVcm ▸ hConducting) (hVcm ▸ hRecovering)]
        exact protects (enterConducting_conducts .protective ((endGather z).pulsed .pvf))
      refine .inr (hProtected.settled.firing.trans ?_)
      show z.firing ++ [pulseToAll .pvf z.now z.cfg.levels] = _
      rw [hFiring, hNow, hCfg]
    · exact .inl rfl

theorem prf_permits (h : exec (.prfIndication t n) s = .next u) : s.Permits t u := by
  refine indication_permits h fun hSet => ?_
  have hRun : Run [.touch, .pmn] (s.advance t) (pmnPrf n (touchLevel LevelRecord.takePrf n (s.advance t))) :=
    ((Move.touch _ _ (fun _ hx => hx.takePrf) LevelRecord.takePrf_state).run).trans (pmnPrf_run (by decide) n)
  have hFiring : (pmnPrf n (touchLevel LevelRecord.takePrf n (s.advance t))).firing = [] := hRun.firing
  obtain hNone | hPvf := pstPrf_fires n (pmnPrf n (touchLevel LevelRecord.takePrf n (s.advance t)))
  · exact permits_dark (hNone.trans hFiring)
  · refine permits_toAll (kind := .pvf) (hPvf.trans ?_) (decide_eq_true hSet) nofun nofun
    rw [hFiring, hRun.now, hRun.cfg, State.advance_now]
    rfl

theorem markEvent_permits (h : exec (.markEvent t) s = .next u) : s.Permits t u := by
  refine dueEvent_permits h fun _ => ?_
  unfold markNow
  split
  · exact permits_dark rfl
  · rename_i a _
    obtain hNone | ⟨hBypass, hPulse⟩ | ⟨⟨hState, hBlock⟩, -, hPulse⟩ := decideMark_fires a (s.atMark t)
    · exact permits_dark hNone
    · obtain ⟨hState, -, hBlock⟩ := bypassFires_iff.1 hBypass
      exact permits_bypass (hPulse.trans (by rw [atMark_now]; rfl)) (.inr hState) hBlock (.inl hState)
    · exact permits_main (hPulse.trans (by rw [atMark_now]; rfl)) hState hBlock

theorem endStop_permits (h : exec (.endStop t) s = .next u) : s.Permits t u := by
  refine dueEvent_permits h fun hDue => ?_
  obtain ⟨hState, hBlock⟩ := endStopDue_running hDue
  unfold endStopNow
  split
  · exact permits_dark rfl
  · have hFires : (s.lateAt t { s.fic with armed := none, endStopCount := count16 s.fic.endStopCount }).Fires := .inl hState
    refine permits_main ((mainMark_firing hFires .endStop).trans ?_) hState hBlock
    show [pulseToAll .main (s.advance t).now s.cfg.levels] = _
    rw [State.advance_now]

theorem deferralLo_permits (hOk : DeferralOk s) (h : exec (.deferralLoReached t) s = .next u) : s.Permits t u := by
  refine dueEvent_permits h fun _ => ?_
  unfold deferralLoNow
  split
  · exact permits_dark rfl
  · rename_i a hDeferral
    obtain ⟨-, hState, hBlock⟩ := hOk (Option.isSome_of_eq_some hDeferral)
    refine permits_main ((mainMark_firing (s := clearDeferral (s.advance t)) (.inl hState) .deferred).trans ?_) hState hBlock
    show [pulseToAll .main (s.advance t).now s.cfg.levels] = _
    rw [State.advance_now]

theorem deferralLimit_permits (hOk : DeferralOk s) (h : exec (.deferralLimit t) s = .next u) : s.Permits t u :=
  act_permits (effect := fun x => x.unlessHeld judgeLimit) h (unlessHeld_holds (permits_dark rfl) fun _ => limit_permits hOk .refl)

theorem refire_permits (h : exec (.refireExpiry t) s = .next u) : s.Permits t u := by
  refine dueEvent_permits h fun hDue => ?_
  obtain ⟨hState, hBlock⟩ := refireDue_running hDue
  have hFires : (s.advance t).Fires := .inl hState
  rw [refirePulse_eq hFires]
  refine permits_toAll (kind := .refire) ((trainPulsed_firing hFires _ _).trans ?_) ?_ nofun nofun
  · rw [State.advance_now]
    rfl
  · rw [show s.stc.state = .running from hState, show s.blockAsserted = false from hBlock]
    rfl

theorem bypassTrain_permits (h : exec (.bypassTrainExpiry t) s = .next u) : s.Permits t u := by
  refine dueEvent_permits h fun hDue => ?_
  obtain ⟨hState, -, hBlock⟩ := bypassFires_iff.1 (bypassTrainDue_fires hDue)
  have hFires : (s.advance t).Fires := .inr hState
  rw [bypassFiring_eq hFires]
  refine permits_bypass ((trainPulsed_firing hFires _ _).trans ?_) (.inr hState) hBlock (.inl hState)
  rw [State.advance_now]
  rfl

/-- A test pulse goes to one fibre. -/
theorem testPulse_fires (x : State) : (testPulse x).firing = x.firing
    ∨ ∃ n, (testPulse x).firing = x.firing ++ [{ kind := .survey, instant := x.now, fibres := [n] }] := by
  unfold testPulse
  split
  · exact .inl rfl
  · rename_i test _
    exact .inr ⟨test.level, (closeWindow_run (List.Subset.refl _)).firing⟩

theorem surveyTestPulse_permits (h : exec (.surveyTestPulse t) s = .next u) : s.Permits t u := by
  refine dueEvent_permits h fun hDue => ?_
  have hSynced : s.stc.state = .synced := surveyTestDue_synced (s := s.advance t) hDue
  obtain hNone | ⟨n, hPulse⟩ := testPulse_fires (s.advance t)
  · exact permits_dark hNone
  · intro p hp
    rw [hPulse] at hp
    obtain rfl := List.mem_singleton.1 hp
    exact ⟨decide_eq_true hSynced, State.advance_now s t, fun _ => ⟨n, rfl⟩, fun hNot => absurd rfl hNot, nofun⟩

/-- The pulses of every command are permitted in the state in which it is taken. -/
theorem exec_permits {c : Instr} (hOk : DeferralOk s) (h : exec c s = .next u) : s.Permits (instantOf c) u := by
  cases c with
  | powerOnReset | supplyLoss => exact permits_dark (power_dark rfl h)
  | blockLineAsserted => exact permits_dark (asserted_dark h)
  | restart => exact permits_dark (restart_dark h)
  | darkTimerExpiry => exact permits_dark (darkTimer_dark h)
  | fwdIndication => exact fwd_permits hOk h
  | revIndication => exact rev_permits hOk h
  | prfIndication => exact prf_permits h
  | inactivityExpiry => exact dueEvent_permits h fun _ => enterDark_permits hOk
  | markEvent => exact markEvent_permits h
  | endStop => exact endStop_permits h
  | deferralLoReached => exact deferralLo_permits hOk h
  | deferralLimit => exact deferralLimit_permits hOk h
  | refireExpiry => exact refire_permits h
  | bypassTrainExpiry => exact bypassTrain_permits h
  | surveyTestPulse => exact surveyTestPulse_permits h
  | _ => exact permits_dark (exec_dark rfl rfl rfl h)

/-! ### The window of a main pulse (R107) -/

theorem later_iff_toNat (a b : Instant) : later a b = true ↔ 0 < (a - b).toNat ∧ (a - b).toNat < 2147483648 := by
  unfold later instantDiff
  rw [decide_eq_true_iff, BitVec.toInt_eq_toNat_cond]
  have := (a - b).isLt
  split <;> omega

theorem earlier_iff_toNat (a b : Instant) : earlier a b = true ↔ 2147483648 ≤ (a - b).toNat := by
  unfold earlier instantDiff
  rw [decide_eq_true_iff, BitVec.toInt_eq_toNat_cond]
  have := (a - b).isLt
  split <;> omega

section
variable {m vf : Instant} {lo hi : Nat}

theorem notLater_of_lt (hOrder : lo < hi) (hShort : hi < 2147483648) :
    later (instantPlus vf lo) (instantPlus vf hi) = false := by
  rw [Bool.eq_false_iff, ne_eq, later_iff_toNat]
  unfold instantPlus
  rw [BitVec.ofInt_natCast, BitVec.ofInt_natCast]
  bv_omega

/-- What has been reached and does not lie behind a short window lies in it. -/
theorem notEarlier_of_reached (hOrder : lo < hi) (hShort : hi < 2147483648) (hLo : later (instantPlus vf lo) t = false)
    (hHi : later t (instantPlus vf hi) = false) : earlier t (instantPlus vf lo) = false := by
  rw [Bool.eq_false_iff, ne_eq, later_iff_toNat] at hLo hHi
  rw [Bool.eq_false_iff, ne_eq, earlier_iff_toNat]
  unfold instantPlus at *
  rw [BitVec.ofInt_natCast] at *
  bv_omega

/-- An instant from a mark in a short window on that does not lie behind the window lies in it, but for half a turn of
the counter. -/
theorem notEarlier_of_mark (hOrder : lo < hi) (hShort : hi < 2147483648) (hMark : earlier m (instantPlus vf lo) = false)
    (hBefore : later m (instantPlus vf hi) = false) (hReached : later m t = false)
    (hTurn : instantDiff t m ≠ -2147483648) (hHi : later t (instantPlus vf hi) = false) : earlier t (instantPlus vf lo) = false := by
  have hHalf : (t - m).toNat ≠ 2147483648 := fun h => hTurn (by
    unfold instantDiff
    rw [BitVec.toInt_eq_toNat_cond, h]
    decide)
  rw [Bool.eq_false_iff, ne_eq, later_iff_toNat] at hBefore hReached hHi
  rw [Bool.eq_false_iff, ne_eq, earlier_iff_toNat] at hMark ⊢
  unfold instantPlus at *
  rw [BitVec.ofInt_natCast] at *
  bv_omega

end

theorem ticksAt_nat (tEst x : Nat) : ticksAt tEst x = ((2 * (x * tEst) + 36000) / 72000 : Nat) := by
  unfold ticksAt roundAway
  rw [if_pos (Int.mul_nonneg (Int.natCast_nonneg _) (Int.natCast_nonneg _)), ← Int.natCast_mul]
  omega

/-- lo lies before hi, and both lie close to V_f. -/
theorem window_order (hPeriod : PeriodOk s) (hRange : s.cfg.InRange) :
    (2 * (s.cfg.alphaMin * s.prl.tEst) + 36000) / 72000 < (2 * (16500 * s.prl.tEst) + 36000) / 72000
      ∧ (2 * (16500 * s.prl.tEst) + 36000) / 72000 < 2147483648 := by
  obtain ⟨hLong, hShort⟩ := hPeriod
  obtain ⟨-, -, -, -, -, -, -, -, -, -, -, hMin, -⟩ := hRange
  have hProduct : s.cfg.alphaMin * s.prl.tEst ≤ 3000 * s.prl.tEst := Nat.mul_le_mul_right _ hMin
  omega

/-- A main pulse of `u` leaves from `V_f + ticks(alpha_min)` to `V_f + ticks(16,500)`. -/
def State.TimesMain (s : State) (t vf : Instant) (u : State) : Prop :=
  (∃ p ∈ u.firing, p.kind = .main) →
    earlier t (instantPlus vf (ticksAt s.prl.tEst s.cfg.alphaMin)) = false
      ∧ later t (instantPlus vf (ticksAt s.prl.tEst 16500)) = false

section
variable {vf : Instant}

theorem timesMain_without (h : ∀ p ∈ u.firing, p.kind ≠ .main) : s.TimesMain t vf u :=
  fun ⟨p, hp, hMain⟩ => absurd hMain (h p hp)

theorem timesMain_dark (h : u.firing = []) : s.TimesMain t vf u := timesMain_without fun p hp => by
  rw [h] at hp
  cases hp

variable (hPeriod : PeriodOk s) (hRange : s.cfg.InRange)
include hPeriod hRange

/-- A late firing is due from lo to hi. -/
theorem late_times (hLo : later (instantPlus vf (ticksAt s.prl.tEst s.cfg.alphaMin)) t = false)
    (hHi : later t (instantPlus vf (ticksAt s.prl.tEst 16500)) = false) : s.TimesMain t vf u := by
  obtain ⟨hOrder, hShort⟩ := window_order hPeriod hRange
  intro _
  rw [ticksAt_nat] at hLo ⊢
  rw [show ticksAt s.prl.tEst 16500 = _ from ticksAt_nat s.prl.tEst 16500] at hHi ⊢
  exact ⟨notEarlier_of_reached hOrder hShort hLo hHi, hHi⟩

variable (hVf : s.vcm.vf = some vf)
include hVf

theorem markEvent_times (hForward : s.vcm.valve = .forward) (hTurn : ∀ a ∈ s.fic.armed, instantDiff t a.m ≠ -2147483648)
    (h : exec (.markEvent t) s = .next u) : s.TimesMain t vf u := by
  refine dueEvent_holds h (timesMain_dark rfl) fun hDue => ?_
  unfold markDue at hDue
  unfold markNow
  cases hArmed : s.fic.armed with
  | none =>
    rw [show (s.advance t).fic.armed = none from hArmed]
    exact timesMain_dark rfl
  | some a =>
    rw [show (s.advance t).fic.armed = some a from hArmed] at hDue ⊢
    have hReached : later a.m t = false := by
      have hNot : (!later a.m (s.advance t).now) = true := hDue
      rwa [State.advance_now, Bool.not_eq_true'] at hNot
    obtain hNone | ⟨-, hPulse⟩ | ⟨-, hWindow, -⟩ := decideMark_fires a (s.atMark t)
    · exact timesMain_dark hNone
    · refine timesMain_without fun p hp => ?_
      rw [show (decideMark a (disarm (s.advance t))).firing = _ from hPulse] at hp
      obtain rfl := List.mem_singleton.1 hp
      nofun
    · obtain ⟨hLo, hHi, hNow⟩ := hWindow hForward vf hVf
      rw [atMark_now] at hNow
      have hLo : earlier a.m (instantPlus vf (ticksAt s.prl.tEst s.cfg.alphaMin)) = false := hLo
      have hHi : later a.m (instantPlus vf (ticksAt s.prl.tEst 16500)) = false := hHi
      have hNow : later t (instantPlus vf (ticksAt s.prl.tEst 16500)) = false := hNow
      obtain ⟨hOrder, hShort⟩ := window_order hPeriod hRange
      rw [ticksAt_nat] at hLo
      rw [show ticksAt s.prl.tEst 16500 = _ from ticksAt_nat s.prl.tEst 16500] at hHi hNow
      intro _
      rw [ticksAt_nat, show ticksAt s.prl.tEst 16500 = _ from ticksAt_nat s.prl.tEst 16500]
      exact ⟨notEarlier_of_mark hOrder hShort hLo hHi hReached (hTurn a hArmed) hNow, hNow⟩

theorem endStop_times (h : exec (.endStop t) s = .next u) : s.TimesMain t vf u := by
  refine dueEvent_holds h (timesMain_dark rfl) fun hDue => ?_
  obtain ⟨hOrder, hShort⟩ := window_order hPeriod hRange
  have hAt : t = instantPlus vf (ticksAt s.prl.tEst 16500) := by
    unfold endStopDue at hDue
    rw [show (s.advance t).vcm.vf = some vf from hVf] at hDue
    split at hDue
    · rename_i hSome
      obtain rfl := Option.some.inj hSome
      simp only [Bool.and_eq_true, decide_eq_true_eq, State.advance_now] at hDue
      exact hDue.2
    · cases hDue
  refine late_times hPeriod hRange ?_ (hAt ▸ later_self t)
  rw [hAt, ticksAt_nat, show ticksAt s.prl.tEst 16500 = _ from ticksAt_nat s.prl.tEst 16500]
  exact notLater_of_lt hOrder hShort

theorem deferralLo_times (h : exec (.deferralLoReached t) s = .next u) : s.TimesMain t vf u := by
  refine dueEvent_holds h (timesMain_dark rfl) fun hDue => ?_
  unfold deferralLoDue State.reached at hDue
  rw [show (s.advance t).vcm.vf = some vf from hVf] at hDue
  split at hDue
  · rename_i hSome
    obtain rfl := Option.some.inj hSome
    simp only [Bool.and_eq_true, Bool.not_eq_true', State.advance_now] at hDue
    obtain ⟨⟨-, hLo⟩, hHi⟩ := hDue
    exact late_times hPeriod hRange hLo hHi
  · cases hDue

end

/-- Settles O58: the pulses of every command, and the window of the main pulses into a FORWARD valve. -/
theorem pulsesPermitted : Obligations.PulsesPermitted := by
  intro c s u hOk h
  refine ⟨exec_permits hOk h, fun t vf hFiring hPeriod hRange hForward hVf hTurn => ?_⟩
  obtain rfl | rfl | rfl := hFiring
  · exact markEvent_times hPeriod hRange hVf hForward hTurn h
  · exact endStop_times hPeriod hRange hVf h
  · exact deferralLo_times hPeriod hRange hVf h

end
end Sys2Proof.Machine
end
